-- ==== Sys2Proof/Word.lean ====
section
/-! DEFINITION. The word types of the KX-20 (R6, R7) and the shape of a sparse store. -/
namespace Sys2Proof

/-- One byte. -/
abbrev Byte := BitVec 8
/-- A control-space register, or a 32-bit memory word (R79). -/
abbrev Reg := BitVec 32
/-- A command or descriptor word (64 bits; word 0 is the first eight bytes). -/
abbrev Dword := BitVec 64
/-- A sparse store: pairs of a key and a value, keys strictly rising, no entry equal to the default. -/
abbrev Store (α : Type) := List (Nat × α)

end Sys2Proof
end

