-- ==== Sys2Proof/Machine/Map.lean ====
section
/-! DEFINITION. Sparse stores in one canonical form: keys strictly rising, no entry equal to what an unlisted key
reads as. Memory (byte keyed by address) is one of them. -/
namespace Sys2Proof.Machine

/-- What key `k` holds; `d` where it is not listed. -/
def mget {α : Type} (d : α) : Store α → Nat → α
  | [], _ => d
  | (a, v) :: r, k => if a = k then v else mget d r k

/-- List `v` at `k`, keys rising. -/
def mput {α : Type} : Store α → Nat → α → Store α
  | [], k, v => [(k, v)]
  | (a, w) :: r, k, v =>
    if a = k then (k, v) :: r else if k < a then (k, v) :: (a, w) :: r else (a, w) :: mput r k v

/-- Write `v` at `k`, keeping the canonical form: writing the default removes the entry. -/
def mset {α : Type} [DecidableEq α] (d : α) (m : Store α) (k : Nat) (v : α) : Store α :=
  if v = d then m.filter fun e => e.1 != k else mput m k v

/-- Write a list of values at consecutive keys. -/
def mputs {α : Type} [DecidableEq α] (d : α) : Store α → Nat → List α → Store α
  | m, _, [] => m
  | m, k, v :: r => mputs d (mset d m k v) (k + 1) r

/-- The values at `n` consecutive keys. -/
def mgets {α : Type} (d : α) (m : Store α) (k n : Nat) : List α := (List.range n).map fun i => mget d m (k + i)

/-- Drop every key for which `p` holds, so that it reads as the default again. -/
def mdrop {α : Type} (p : Nat → Bool) (m : Store α) : Store α := m.filter fun e => !p e.1

/-- Every key is at least `lo`, keys rise strictly and no entry equals the default. -/
def mwfFrom {α : Type} [DecidableEq α] (d : α) : Nat → Store α → Bool
  | _, [] => true
  | lo, (a, v) :: r => decide (lo ≤ a) && decide (v ≠ d) && mwfFrom d (a + 1) r

/-- The canonical form of a sparse store. -/
def mwf {α : Type} [DecidableEq α] (d : α) (m : Store α) : Bool := mwfFrom d 0 m

/-- The first element that meets `p`, with its place. -/
def findIdx {α : Type} (p : α → Bool) : List α → Nat → Option (Nat × α)
  | [], _ => none
  | a :: r, i => if p a then some (i, a) else findIdx p r (i + 1)

end Sys2Proof.Machine
end

