-- ==== Sys2Proof/Machine/TypesBoot.lean ====
section
/-! DEFINITION. State of bring-up, firmware and trust, and of the board contacts (R474 to R500, R507 to R521, R529). -/
namespace Sys2Proof.Machine

/-- The content of the fuses (R485). The manual gives their layout no bytes, so whether the CRC-32C of the check item
matches is an operand where they are sensed (assumption 40). -/
structure Fuses where
  /-- Bit i set: physical core i is bad. -/
  coreMap : Nat
  /-- Repaired rows of each stack, as channel, bank and row; its interface lane repairs, as channel, data lane 0 to 63
  and spare lane 0 to 3; stack 0 first. -/
  rows    : List (List (Nat × Nat × Nat))
  lanes   : List (List (Nat × Nat × Nat))
  /-- FUSE_OPTIC values, link 0 first. -/
  optics  : List Nat
  seed    : List Byte
  cert    : List Byte
  serial  : Nat
  idcode  : Nat
  /-- Calibration points `(f1, T1, f2, T2)` of each sensor, temperatures in 1/16 °C; none where absent (R509). -/
  points  : List (Option (Int × Int × Int × Int))
  locked  : Bool
deriving DecidableEq, Repr

/-- Fuses that have not been sensed (assumption 4). -/
def Fuses.init : Fuses := ⟨0, [], [], [], [], [], 0, 0, [], false⟩

/-- What the module tells the flash (R478, R495). FLASH_CS_N is low during each of these and high at any other time
(R533). -/
inductive FlashCmd where
  /-- Read of the JESD216 SFDP tables in single I/O, at a clock in MHz. -/
  | sfdp (mhz : Nat)
  /-- 4-byte addressing begins. -/
  | fourByte
  /-- 1-4-4 fast read at a clock in MHz. -/
  | fastRead (offset length mhz : Nat)
  /-- Read of the status, after an erase or program. -/
  | status
  | erase (offset length : Nat)
  | program (offset : Nat) (data : List Byte)
deriving DecidableEq, Repr

/-- Bring-up and trust. -/
structure Boot where
  /-- The fuses as last sensed; they outlast power-off (R485, R496). -/
  fuses    : Fuses
  /-- The random source has failed its health tests (R484), and how many numbers it has given. -/
  noRandom : Bool
  draws    : Nat
  /-- Valid slot records of slots 0 and 1: sequence and image length (R479). -/
  record0  : Option (Nat × Nat)
  record1  : Option (Nat × Nat)
  /-- Slots that have failed R482, the slot chosen, and the image read from it. -/
  failed   : List Nat
  slot     : Nat
  image    : List Byte
  /-- The configuration block in force (R481). -/
  config   : List Byte
  /-- Private identity key (R490). -/
  key      : Nat
  /-- Bad physical cores, those that failed loading included (R486, R487). -/
  bad      : Nat
  /-- Physical cores of logical cores 0 to 31 of each enabled cluster (R486). -/
  map      : List (List Nat)
  /-- The section has been broadcast (R487). -/
  sent     : Bool
  /-- Blocks received, as bits, unicast rounds, digest failures, and correct digests reported, by physical core (R487). -/
  blocks   : Store Nat
  rounds   : Store Nat
  fails    : Store Nat
  reported : Store Bool
  /-- The firmware that every command processor holds: the hearth-core section whose digest each core reported (R487). -/
  firmware : List Byte
  /-- Flash commands since power-on, oldest first (R478, R495). -/
  flash    : List FlashCmd
deriving DecidableEq, Repr

/-- Bring-up state at power-on. -/
def Boot.init : Boot := ⟨Fuses.init, false, 0, none, none, [], 0, [], [], 0, 0, [], false, [], [], [], [], [], []⟩

/-- Board contacts, I3C target, test access port and thermal bookkeeping. -/
structure Board where
  /-- The 48 V input has passed 40 V; the rails are on; a shutdown is latched (R507, R518). -/
  input    : Bool
  rails    : Bool
  shut     : Bool
  /-- Open-drain contacts, true while asserted (R520). -/
  alertN   : Bool
  thermTripN : Bool
  faultN   : Bool
  /-- FLASH_VCC is driven (R533). -/
  flashVcc : Bool
  /-- I3C: static and dynamic address, offset, bytes returned by the last private read, each register with its lowest
  byte first (R7), last write refused (R521). -/
  static   : Nat
  dynamic  : Option Nat
  offset   : Nat
  readOut  : List Byte
  nack     : Bool
  /-- Test access port: TRST_N is high, so the port is out of reset; the instruction in force is IDCODE; the bypass bit;
  the data last shifted out. -/
  trstN    : Bool
  idcode   : Bool
  bypass   : Bool
  tdo      : Nat
  /-- Rounds each rail has been out of range (R518), rounds with any throttling (R525), power limiting (R514). -/
  outRail  : Store Nat
  throttled : Nat
  limited  : Bool
  /-- The counter of throttle steps (R513), and the stacks that throttle for temperature, as bits (R512). -/
  steps    : Nat
  hotStacks : Nat
  /-- Units that have had no valid sensor since power-on, as bits: the hearth die, stacks 0 to 19, optical engines 0 to
  19 (R510). -/
  blind    : Nat
deriving DecidableEq, Repr

/-- The board at power-on: contacts released, TRST_N pulled down (R529), no dynamic address. -/
def Board.init : Board :=
  ⟨false, false, false, false, false, false, false, 0x2A, none, 0, [], false, false, true, false, 0, [], 0, false,
    0, 0, 0⟩

end Sys2Proof.Machine
end

