-- ==== Sys2Proof/Machine/TypesFabric.lean ====
section
/-! DEFINITION. State of the stack links, the link switch and transactions between modules (R384 to R420). -/
namespace Sys2Proof.Machine

/-- A frame's header and payload (R390, R391). -/
structure Frame where
  type     : Nat
  vc       : Nat
  part     : Nat
  granules : Nat
  seq      : Nat
  hops     : Nat
  posted   : Bool
  dst      : Nat
  addr     : Nat
  src      : Nat
  txn      : Nat
  srcStack : Nat
  status   : Nat
  aop      : Nat
  hearth   : Bool
  arg      : Nat
  payload  : List Byte
deriving DecidableEq, Repr

/-- A frame's trailer apart from its CRC (R390). -/
structure Trailer where
  ack      : Nat
  ackValid : Bool
  nak      : Bool
  creditVc : Nat
  credits  : Nat
deriving DecidableEq, Repr

/-- A frame sent and not acknowledged (R395), and how often it has been resent (R397). -/
structure Replay where
  frame  : Frame
  resent : Nat
deriving DecidableEq, Repr

/-- One stack link's controller. -/
structure Link where
  /-- Stage of training in progress, 1 to 5; 0 none. Full training, or in place (R410). -/
  stage    : Nat
  full     : Bool
  /-- Lanes agreed at the last training, lanes in service, and lanes still to re-lock after throttling. -/
  trained  : Nat
  used     : Nat
  throttle : Bool
  /-- The peer's optical engine throttles (R416). -/
  peerHot  : Bool
  relock   : Bool
  /-- The peer's FUSE_OPTIC value, from its beacon in the last full training (R540). -/
  peerOptic : Nat
  /-- In-place retrains that failed in a row (R413), and the time a down link was last tried. -/
  failures : Nat
  triedAt  : Nat
  /-- Credits held per virtual channel, and credits owed, in units of 64 bytes (R392). -/
  credits  : Store Nat
  owed     : Store Nat
  ackOwed  : Bool
  /-- Next sequence sent and next expected (R395, R396); a NAK has been sent for the expected one. -/
  txSeq    : Nat
  rxSeq    : Nat
  nakSent  : Bool
  replay   : List Replay
  /-- When the oldest unacknowledged frame was last sent or progress last seen (R396). -/
  since    : Nat
  /-- When an IDLE frame last left (R392). -/
  idleAt   : Nat
  /-- Frames put on the lanes, oldest first: the 8-byte units of each active lane (R390, assumption 9). -/
  wire     : List (List (List Dword))
  /-- Counts below the units of LNK_TX_FRAMES to LNK_RX_MIB. -/
  txFrames : Nat
  rxFrames : Nat
  txBytes  : Nat
  rxBytes  : Nat
deriving DecidableEq, Repr

/-- A link at power-on. -/
def Link.init : Link :=
  ⟨0, false, 0, 0, false, false, false, 0, 0, 0, [], [], false, 0, 0, false, [], 0, 0, [], 0, 0, 0, 0⟩

/-- A frame that waits at an input of the link switch (R387). Ports 0 to 19 are links, 20 to 39 stack ports. -/
structure Waiting where
  input : Nat
  frame : Frame
deriving DecidableEq, Repr

/-- A transaction whose response has not returned (R398 to R402). -/
structure Txn where
  num   : Nat
  /-- Originating stack. -/
  stack : Nat
  /-- The command it belongs to. -/
  uid   : Nat
  type  : Nat
  dst   : Nat
  addr  : Nat
  /-- When the request left the originating stack port. -/
  at_   : Nat
deriving DecidableEq, Repr

/-- The links, the switch and the module's transactions. -/
structure Fabric where
  links     : Store Link
  queue     : List Waiting
  /-- Inputs still to be granted in the running round of each output and class, at `2 output + class` (R388). -/
  rounds    : Store (List Nat)
  /-- Frames delivered to a stack port and not yet performed (R403). -/
  inbox     : Store (List Frame)
  txns      : List Txn
  nextTxn   : Nat
  /-- Per device: posted writes sent, confirmed by the last SYNC_ACK, performed or refused from it; refusal status
  owed to it (R401). -/
  sent      : Store Nat
  confirmed : Store Nat
  done      : Store Nat
  refused   : Store Nat
deriving DecidableEq, Repr

/-- The fabric at power-on. -/
def Fabric.init : Fabric := ⟨[], [], [], [], [], 0, [], [], [], []⟩

end Sys2Proof.Machine
end

