-- ==== Sys2Proof/Machine/Bytes.lean ====
section
/-! DEFINITION. Bit fields, byte order and the checksums of R7, R390 and R479. -/
namespace Sys2Proof.Machine

/-- Bits `[hi:lo]` of a number (R6). -/
def bits (n hi lo : Nat) : Nat := (n >>> lo) % 2 ^ (hi + 1 - lo)

/-- Bit `i` of a number. -/
def bit (n i : Nat) : Bool := (n >>> i) % 2 == 1

/-- The number with bit `i` set. -/
def setBit (n i : Nat) : Nat := n ||| (1 <<< i)

/-- The number with bit `i` clear. -/
def clearBit (n i : Nat) : Nat := if bit n i then n - (1 <<< i) else n

/-- The numbers below `n` whose bits are set in `m`, ascending. -/
def bitsSet (m n : Nat) : List Nat := (List.range n).filter fun i => bit m i

/-- How many of the low `n` bits are set. -/
def popcount (m n : Nat) : Nat := (bitsSet m n).length

/-- Bytes to number, little-endian (R7). -/
def leNat : List Byte → Nat
  | [] => 0
  | b :: r => b.toNat + 256 * leNat r

/-- The `k` low bytes of a number, little-endian (R7). -/
def natLE : Nat → Nat → List Byte
  | _, 0 => []
  | n, k + 1 => BitVec.ofNat 8 n :: natLE (n / 256) k

/-- Bytes to number, big-endian (R8, R483). -/
def beNat (l : List Byte) : Nat := leNat l.reverse

/-- The `k` low bytes of a number, big-endian. -/
def natBE (n k : Nat) : List Byte := (natLE n k).reverse

/-- A list cut into pieces of `k`, at most `fuel` of them. -/
def chunks {α : Type} (k : Nat) : Nat → List α → List (List α)
  | 0, _ => []
  | fuel + 1, l => if l.isEmpty then [] else l.take k :: chunks k fuel (l.drop k)

/-- The 64-bit words of a byte string. -/
def toWords (l : List Byte) : List Dword := (chunks 8 l.length l).map fun c => BitVec.ofNat 64 (leNat c)

/-- The bytes of 64-bit words. -/
def wordBytes (l : List Dword) : List Byte := l.flatMap fun w => natLE w.toNat 8

/-- Word `i` of a 64-byte entry as a number. -/
def wd (l : List Dword) (i : Nat) : Nat := (l.getD i 0).toNat

/-- `n` as a signed number of `w` bits. -/
def signed (w n : Nat) : Int := if 2 ^ (w - 1) ≤ n % 2 ^ w then (n % 2 ^ w : Int) - 2 ^ w else (n % 2 ^ w : Int)

/-- A signed number as `w` bits of two's complement. -/
def unsigned (w : Nat) (i : Int) : Nat := (i % (2 ^ w : Int)).toNat

/-- Rounded-up division. -/
def cdiv (a b : Nat) : Nat := (a + b - 1) / b

/-- One bit of CRC-32C, reflected form. -/
def crcBit (c : Nat) : Nat := if c % 2 = 1 then (c / 2) ^^^ 0x82F63B78 else c / 2

/-- CRC-32C over bytes, from a running value. -/
def crcRun (c : Nat) : List Byte → Nat
  | [] => c
  | b :: r => crcRun ((List.range 8).foldl (fun x _ => crcBit x) (c ^^^ b.toNat)) r

/-- CRC-32C of a byte string. -/
def crc32c (l : List Byte) : Nat := crcRun 0xFFFFFFFF l ^^^ 0xFFFFFFFF

/-- Bytes XORed place by place. -/
def xorBytes (a b : List Byte) : List Byte := List.zipWith (fun x y => x ^^^ y) a b

/-- Place bytes `new` at offset `o` of `old`. -/
def patch (old : List Byte) (o : Nat) (new : List Byte) : List Byte :=
  old.take o ++ new ++ old.drop (o + new.length)

/-- A flag bit. -/
def flagBit (b : Bool) (i : Nat) : Nat := if b then 2 ^ i else 0

end Sys2Proof.Machine
end

