-- ==== Sys2Proof/Machine/Address.lean ====
section
/-! DEFINITION. The address map (R60 to R68, R219, R220): both views of module memory and their one store. A `key` is a
direct-view module address without bit 47. -/
namespace Sys2Proof.Machine

/-- Bytes of a channel group in the interleaved view. -/
def groupSize : Nat := 0x2800000000
/-- First address beyond the interleaved view (R64). -/
def interTop : Nat := 0x14000000000

/-- The hash term of R63. -/
def hashTerm (q : Nat) : Nat := (bits q 6 0 ^^^ bits q 13 7 ^^^ bits q 18 14) % 80

/-- R63: the key of an interleaved address. -/
def interKey (a : Nat) : Nat :=
  let g := a / groupSize
  let o := a % groupSize
  let q := o / 4096 / 80
  let t := (o / 4096 % 80 + hashTerm q) % 80
  t % 20 * 2 ^ 36 + (4 * g + t / 20) * 2 ^ 31 + q * 4096 + o % 4096

/-- The interleaved address of a key: R63 read backwards. -/
def interAddr (k : Nat) : Nat :=
  let ch := bits k 35 31
  let q := bits k 30 0 / 4096
  let t := bits k 40 36 + 20 * (ch % 4)
  ch / 4 * groupSize + (q * 80 + (t + 80 - hashTerm q) % 80) * 4096 + k % 4096

/-- R62 to R65: the key of a 48-bit module address; none where no such address exists. -/
def moduleKey (a : Nat) : Option Nat :=
  if bit a 47 then
    if bits a 46 41 = 0 ∧ bits a 40 36 < 20 then some (a - 2 ^ 47) else none
  else if a < interTop then some (interKey a) else none

/-- Stack of a key. -/
def keyStack (k : Nat) : Nat := bits k 40 36
/-- Channel of a key. -/
def keyChan (k : Nat) : Nat := bits k 35 31
/-- Bank of a key. -/
def keyBank (k : Nat) : Nat := bits k 30 26
/-- Row of a key (R220). -/
def keyRow (k : Nat) : Nat := bits k 25 11
/-- Granule key of a key. -/
def keyGranule (k : Nat) : Nat := k - k % 64
/-- The key of a byte of a column of an open row (R220). -/
def columnKey (s c b row col : Nat) : Nat := s * 2 ^ 36 + c * 2 ^ 31 + b * 2 ^ 26 + row * 2048 + col * 32

/-- The direct-view data address of a key, space 0xFFFF. -/
def directAddr (k : Nat) : Nat := 0xFFFF * 2 ^ 48 + 2 ^ 47 + k

/-- A range of whole 2 MiB blocks of one view (R76, R78). -/
structure Area where
  direct : Bool
  base   : Nat
  limit  : Nat
deriving DecidableEq, Repr

/-- The 2 MiB block of a key in a view: address bits [46:21]. -/
def keyBlock (direct : Bool) (k : Nat) : Nat := (if direct then k else interAddr k) / 2 ^ 21

/-- The area covers the key. -/
def Area.covers (a : Area) (k : Nat) : Bool :=
  decide (a.base ≤ keyBlock a.direct k) && decide (keyBlock a.direct k ≤ a.limit)

/-- What lies in `a` and not in `b` (R78: the granules an entry covers after a bake and did not cover before). -/
def Area.without (a : Area) (b : Option Area) (k : Nat) : Bool := a.covers k && !(b.elim false (·.covers k))

end Sys2Proof.Machine
end

