-- ==== Sys2Proof/Machine/TypesParts.lean ====
section
/-! DEFINITION. State of partitions and bakes (R354 to R376) and of data integrity beside the stacks (R457 to R469). -/
namespace Sys2Proof.Machine

/-- A unit that a bake affects (R364, R365). -/
inductive BakeUnit where
  /-- A channel whose mode changes (R248). -/
  | mode (stack channel : Nat)
  /-- A stack whose fold budget changes (R281). -/
  | budget (stack : Nat)
  /-- A cluster whose holder changes. -/
  | cluster (k : Nat)
  /-- A channel whose holder changes. -/
  | holder (stack channel : Nat)
  /-- A region whose entry changes in a field other than scrub and zero_on_reassign. -/
  | region (n : Nat)
  /-- A region whose entry changes only in scrub or zero_on_reassign (R462). -/
  | upkeep (n : Nat)
  /-- A link whose enable, width, dimension or dateline changes. -/
  | link (l : Nat)
  /-- The link routes. -/
  | routes
  /-- The HEARTH_CORE supply or the power cap (R519). -/
  | supply
  /-- A queue pair whose partition changes (R426). -/
  | queuePair (q : Nat)
  /-- Regulator, mesh, slice, owner and port address settings: the register at this offset. -/
  | setting (off : Nat)
deriving DecidableEq, Repr

/-- A bake between its prepare and its end (R362 to R367). -/
structure Bake where
  staged  : Store Reg
  /-- The control ring whose command asked for it; none for a firmware bake. -/
  ring    : Option Nat
  /-- Times of the request and of the prepare. -/
  asked   : Nat
  sent    : Nat
  units   : List BakeUnit
  acked   : List BakeUnit
deriving DecidableEq, Repr

/-- A zero-fill after a bake (R78, R368): the region entry, what it covers, and what it covered before when only the
rest is to be filled. -/
structure Fill where
  entry  : Nat
  area   : Area
  before : Option Area
deriving DecidableEq, Repr

/-- Partitions and bakes. -/
structure Parts where
  /-- Partition keys K, 256 bits (R337), by partition. -/
  keys     : Store Nat
  /-- Flags of R493 by partition. -/
  released : Store Bool
  received : Store Bool
  bake     : Option Bake
  fills    : List Fill
  /-- Job that has the slice and the end of the slice, by partition (R373). -/
  job      : Store Nat
  sliceEnd : Store Nat
  /-- Token buckets: what they hold, in 1/256 byte, and when it was counted, by `class × 2^16 + port × 16 + partition`
  (R371); and the partition whose borrowing traffic a port served last, by `class × 64 + port`. -/
  tokens   : Store Nat
  counted  : Store Nat
  lent     : Store Nat
  /-- Route entries as the management host last baked them, by register offset (R414). -/
  routes   : Store Reg
deriving DecidableEq, Repr

/-- Partitions at power-on. -/
def Parts.init : Parts := ⟨[], [], [], none, [], [], [], [], [], [], []⟩

end Sys2Proof.Machine
end

