-- ==== Sys2Proof/Machine/Flags.lean ====
section
/-! DEFINITION. The four sticky flags of a command (R57, R58). -/
namespace Sys2Proof.Machine

/-- The sticky flags of R57, bit 0 first. -/
structure Flags where
  invalid   : Bool
  overflow  : Bool
  underflow : Bool
  inexact   : Bool
deriving DecidableEq, Repr

/-- All four clear. -/
def noFlags : Flags := ⟨false, false, false, false⟩
/-- Only invalid. -/
def invalidFlag : Flags := ⟨true, false, false, false⟩
/-- Only inexact (R38). -/
def inexactFlag : Flags := ⟨false, false, false, true⟩
/-- Overflow and inexact together (R52). -/
def overflowFlag : Flags := ⟨false, true, false, true⟩

/-- Flags accumulate (R57). -/
def orFlags (a b : Flags) : Flags :=
  ⟨a.invalid || b.invalid, a.overflow || b.overflow, a.underflow || b.underflow, a.inexact || b.inexact⟩

/-- Invalid when `b`. -/
def invalidIf (b : Bool) : Flags := ⟨b, false, false, false⟩

/-- The 4-bit field of a completion entry (R57, R112). -/
def flagBits (f : Flags) : Nat :=
  f.invalid.toNat + 2 * f.overflow.toNat + 4 * f.underflow.toNat + 8 * f.inexact.toNat

/-- What a RECIPE returns: invalid and overflow only (R58). -/
def recipeFlags (f : Flags) : Flags := ⟨f.invalid, f.overflow, false, false⟩

end Sys2Proof.Machine
end

