-- ==== Sys2Proof/Machine/TypesStack.lean ====
section
/-! DEFINITION. State of the Driken stacks: channels, bank units, reducers, recipes, the sifter and the field remap
table (R219 to R281, R286, R457 to R467, R489). -/
namespace Sys2Proof.Machine

/-- A granule request in a channel's inbound FIFO (R223, R224): the granule's `mem` key, and for a
write its 64 bytes with a mask of the bytes written. -/
structure Request where
  granule : Nat
  write   : Bool
  mask    : Nat
  data    : List Byte
deriving DecidableEq, Repr

/-- A proofed image in a recipe store (R255). -/
structure Image where
  addr   : Nat
  /-- Bits [31:0] of header word 1: loads, destinations and row bases used. -/
  used   : Nat
  instrs : List Nat
deriving DecidableEq, Repr

/-- One bank unit (R227 to R235): operand buffer of BF16 elements at `512 slot + i`, column buffer bytes at
`32 column + b`, scale latch with its kind and how many elements it has served, accumulators at `4 r + slot`, the four
values of the statistics unit per slot, and the open row of each half. -/
structure Bank where
  operand : Store (BitVec 16)
  columns : Store Byte
  latch   : List Byte
  kind    : Nat
  served  : Nat
  acc     : Store Reg
  m       : List Reg
  l       : List Reg
  f       : List Reg
  q       : List Reg
  row0    : Option Nat
  row1    : Option Nat
deriving DecidableEq, Repr

/-- A bank unit as a launch leaves it (R244). -/
def Bank.init : Bank :=
  ⟨[], [], [], 0, 0, [], List.replicate 4 0xFF800000#32, List.replicate 4 0#32, List.replicate 4 0x3F800000#32,
    List.replicate 4 0x3F800000#32, none, none⟩

/-- A channel reducer (R241): entries at `4 e + slot`, running maxima and sums. -/
structure Reducer where
  entries : Store Reg
  m       : List Reg
  l       : List Reg
deriving DecidableEq, Repr

/-- A reducer as a launch leaves it (R244). -/
def Reducer.init : Reducer := ⟨[], List.replicate 4 0xFF800000#32, List.replicate 4 0#32⟩

/-- What one bank sends in a column cycle: a column, with the latch as it stood: its bytes, its kind and how many elements
it had served; of a STORE, the key of the column it writes. -/
structure Feed where
  column : List Byte
  latch  : List Byte
  kind   : Nat
  served : Nat
  key    : Nat
deriving DecidableEq, Repr

/-- A column that is on its way (R259): when it passes, which instruction it belongs to (as its word), its number, and
what each bank sends. -/
structure Delivery where
  tick : Nat
  word : Nat
  k    : Nat
  feed : Store Feed
deriving DecidableEq, Repr

/-- Nothing sent. -/
def Feed.init : Feed := ⟨[], [], 0, 0, 0⟩

/-- Where a recipe stands on one channel. -/
inductive RunPhase where
  /-- A fold boundary precedes the next instruction, its work not yet done (R276). -/
  | boundary
  /-- Issuing the instructions of a fold. -/
  | fold
  /-- END has issued; the end-of-recipe boundary work is not yet done. -/
  | ended
  /-- Stopped (R273, R274). -/
  | stopped
deriving DecidableEq, Repr

/-- A recipe running on a channel (R258, R271). -/
structure ChanRun where
  uid    : Nat
  /-- Index of the next instruction. -/
  ip     : Nat
  phase  : RunPhase
  /-- Tick of the last issue, and the earliest tick at which a boundary lets the next one issue. -/
  tick   : Nat
  ready  : Nat
  /-- Ticks at which instructions 0, 1, … issued, latest first (R273). -/
  hist   : List Nat
  /-- Folds begun, and the tick at which the running fold began. -/
  folds  : Nat
  begun  : Nat
  /-- Granules of link transfers served at the running boundary (R245). -/
  served : Nat
  banks  : Store Bank
  red    : Reducer
  /-- Columns still on their way, in order of arrival. -/
  flow   : List Delivery
  /-- Columns that STORE has written: the tick at which the STORE issued, the key and the bytes, latest first (R176). -/
  puts   : List (Nat × Nat × List Byte)
  /-- Flags raised, each with the tick at which the instruction that raised it issued (R58, R236). -/
  marks  : List (Nat × Flags)
deriving DecidableEq, Repr

/-- One channel and its sequencer. -/
structure Channel where
  inbound  : List Request
  outbound : List (List Byte)
  run      : Option ChanRun
  /-- Recipe store, least recently launched first (R255). -/
  store    : List Image
  /-- Refreshes owed (R277), next bank a memory-mode refresh takes (R226), refresh counted up to this tick, and what was
  left over then: 1 for each cool tick and 2 for each hot one, of 3,900 that make a refresh. -/
  debt     : Nat
  bank     : Nat
  counted  : Nat
  units    : Nat
  /-- Tick at which the last refresh paid outside a recipe, or the work at the last recipe's end, is over (R276, R277). -/
  busy     : Nat
  /-- The band taken at the last boundary (R276): hot. -/
  hot      : Bool
  /-- Under retraining (R489). -/
  retrain  : Bool
  /-- Sub-unit counts of the SEQ_ and STK_ counters kept in units of 1,024. -/
  lateSum  : Nat
  /-- Number of the last fold run (R280). -/
  lastFold : Nat
deriving DecidableEq, Repr

/-- A channel at power-on. -/
def Channel.init : Channel := ⟨[], [], none, [], 0, 0, 0, 0, 0, false, false, 0, 0⟩

/-- A RECIPE that has reached its stack (R264 to R274). -/
structure Recipe where
  uid      : Nat
  part     : Nat
  mask     : Nat
  imageAt  : Nat
  /-- Data address of the parameter block, and its 320 bytes. -/
  paramsAt : Nat
  params   : List Byte
  /-- The image, once resident or fetched and proofed. -/
  image    : Option Image
  /-- Loads, destinations and row bases that the header marks as used (R254). -/
  used     : Nat
  /-- Resolved paged row bases (R288) at `8 channel + base`: row0, the half in bit 14, 1 in bit 15. -/
  bases    : Store Nat
  /-- Accepted by the stack (R267), else in the launch FIFO. -/
  accepted : Bool
  /-- Load entries that have arrived (R268). -/
  loads    : Store (List Byte)
  /-- Channels on which it has started, that have issued END, and whose reducer is final; the reducers of channels that
  have issued END. -/
  started  : Nat
  ended    : Nat
  final    : Nat
  finals   : Store Reducer
  /-- What its channels that are done with it have stored and flagged, as in `ChanRun`. -/
  puts     : List (Nat × Nat × List Byte)
  marks    : List (Nat × Flags)
  /-- Writes not yet performed (R176): by granule number of stack memory, and by scratchpad key / 64; which bytes of the
  granule, and their values. -/
  writes   : Store (Nat × List Byte)
  spadOut  : Store (Nat × List Byte)
  /-- The stack reducer has sent its results; of them, the granules outside the mask that their sequencers have served
  (R290). -/
  sent     : Bool
  taken    : List Nat
  flags    : Flags
  /-- How it was stopped or refused: status, fault address, fault count, fault word. -/
  stop     : Option (Nat × Nat × Nat × Nat)
  /-- Of a stopped one, the last tick at which a channel may still issue (R273). -/
  halt     : Nat
  /-- Proof code and index of the instruction that failed or tripped, as SEQ_LASTc holds them. -/
  note     : Nat
deriving DecidableEq, Repr

/-- A row remap in progress (R464): the stored images are still to be copied. -/
structure Remap where
  channel : Nat
  bank    : Nat
  row     : Nat
  spare   : Nat
  /-- The table entry it takes, and the control ring of a management request (R466). -/
  entry   : Nat
  ring    : Option Nat
deriving DecidableEq, Repr

/-- One stack: its recipes and its share of the page table. -/
structure Stack where
  recipes  : List Recipe
  /-- RECIPE commands whose reducers are all final, in order (R270): the tick at which they were, the lowest channel of
  the mask, the command. -/
  ready    : List (Nat × Nat × Nat)
  /-- Entries of the page-table share (R286). -/
  pages    : Store Reg
  /-- Sub-unit counts of STK_PROC_COLS and STK_CHAIN_FLITS, and the column cycles that STK_PROC_COLS has counted and in
  which another bank may still deliver: their ticks. -/
  cols     : Nat
  flits    : Nat
  cycles   : List Nat
deriving DecidableEq, Repr

/-- A stack at power-on. -/
def Stack.init : Stack := ⟨[], [], [], 0, 0, []⟩

/-- A stack's sifter, hint queue and remaps. -/
structure Upkeep where
  /-- Hint queue of granule keys (R460). -/
  hints    : List Nat
  /-- Time of the last ECC_CORRECTED event (R457). -/
  corrAt   : Option Nat
  /-- Where in its channel each engine's walk stands, and where it stood when the lap began; granules visited in this
  lap, channels done, start of the lap (R461). -/
  walk     : Store Nat
  lapFrom  : Store Nat
  visited  : Nat
  lapDone  : Nat
  lapStart : Nat
  /-- Granules corrected and written back at their last visit, and granules on whose account the firmware has a row to
  remap, by key (R466). -/
  again    : List Nat
  due      : List Nat
  remaps   : List Remap
deriving DecidableEq, Repr

/-- A stack's sifter at power-on. -/
def Upkeep.init : Upkeep := ⟨[], none, [], [], 0, 0, 0, [], [], []⟩

end Sys2Proof.Machine
end

