-- ==== Sys2Proof/Operand.lean ====
section
/-! DEFINITION. Operands of the commands: which unit a step concerns, and what arrives from outside the module with it. -/
namespace Sys2Proof
open Machine

/-- Stack S0 to S19. -/
abbrev StackId := Fin 20
/-- Channel of a stack. -/
abbrev ChanId := Fin 32
/-- Stack link. -/
abbrev LinkId := Fin 20
/-- Port of the link switch (R387). -/
abbrev SwitchPort := Fin 40
/-- Queue pair. -/
abbrev QpId := Fin 256
/-- Host port. -/
abbrev PortId := Fin 2
/-- Partition. -/
abbrev PartId := Fin 16
/-- Ring number `16 q + r`, or host ring number `16 q + h`. -/
abbrev RingId := Fin 4096
/-- Logical core, `32 × cluster + core`. -/
abbrev CoreId := Fin 2048
/-- Logical cluster. -/
abbrev ClusterId := Fin 64

/-- What the checkers of on-die storage find in what a step reads (R455). -/
inductive Upset where
  | none
  | corrected
  | uncorrectable
deriving DecidableEq, Repr

/-- A disturbance of one granule's stored image: its key, and the 72 bytes XORed into the image (R448). -/
structure Disturb where
  key     : Nat
  pattern : List Byte
deriving DecidableEq, Repr

/-- What a RoCEv2 packet asks or answers (R428 to R430). -/
inductive RoceOp where
  /-- Part of an RDMA WRITE: first and last packet, and for the first its address, key and length. -/
  | write (first last : Bool) (va rkey len : Nat) (data : List Byte)
  /-- Part of a SEND. -/
  | send (first last : Bool) (data : List Byte)
  /-- An RDMA READ request. -/
  | read (va rkey len : Nat)
  /-- Data of the response to an RDMA READ of the module's own. -/
  | response (last : Bool) (data : List Byte)
  /-- Acknowledgement up to a PSN. -/
  | ack
  /-- NAK: 0 PSN sequence error, otherwise another reason. -/
  | nak (code : Nat)
deriving DecidableEq, Repr

/-- A RoCEv2 packet as the port's checks leave it. -/
structure Packet where
  /-- Destination QPN. -/
  qpn       : Nat
  psn       : Nat
  op        : RoceOp
  /-- Priority it came on, and the KiB of that priority's receive buffer now held (R423). -/
  priority  : Nat
  held      : Nat
  /-- Congestion-experienced mark (R423). -/
  ce        : Bool
  /-- Uses only what R421 supports, with a matching ICRC. -/
  supported : Bool
  /-- Codewords that the port's FEC corrected, and that it could not, since the packet before (R444). -/
  corrected : Nat
  uncorrectable : Nat
deriving DecidableEq, Repr

/-- What one stage of a link's training meets (R410 to R413). -/
structure Training where
  /-- Power of the four laser inputs, in 0.01 dBm; an absent one has none (R386, R539). -/
  laser    : List Int
  /-- The peer's FUSE_OPTIC value, as its beacon says (R540). -/
  beacon   : Nat
  /-- Receive positions at which what the other end sends arrives well enough to lock, as bits: RX0 to RX7, RXS0, RXS1;
  of this end, and of the peer. -/
  inward   : Nat
  outward  : Nat
  /-- Codewords and lanes aligned. -/
  aligned  : Bool
  /-- The peer's max_lanes, device and link number; the peer conforms. -/
  peerMax  : Nat
  peer     : Nat
  peerLink : Nat
  conforms : Bool
  /-- Measured round trip in ns, and credits of each virtual channel the peer grants, in units of 64 bytes. -/
  rtt      : Nat
  credits  : Nat
deriving DecidableEq, Repr

/-- What a PTP event message carries (R443): domain and transport, sequence number, the master's time in ns, its
identity. -/
structure PtpMessage where
  domain    : Nat
  transport : Nat
  seq       : Nat
  /-- The sender's port identity: clock identity and port number. -/
  master    : List Byte
  /-- Time stamp it carries, in ns. -/
  stamp     : Nat
  /-- Two-step: the stamp follows in a Follow_Up. -/
  twoStep   : Bool
deriving DecidableEq, Repr

/-- Instruction scanned into the test access port: BYPASS, or another code than those of IDCODE and BYPASS (R496). -/
inductive TapCode where
  | bypass
  | other (code : Nat)
deriving DecidableEq, Repr

/-- What a housekeeping round samples (R511). -/
structure Sample where
  /-- Frequency of each sensor's oscillator, corrected for the local supply (R509). -/
  freqs    : List Int
  /-- Input voltage in mV, current in units of 10 mA, mean power in W, beat rate in M beats/s. -/
  inputV   : Nat
  inputI   : Nat
  power    : Nat
  beats    : Nat
  /-- HEARTH_CORE at the die's contacts in mV; voltage in mV and current in 0.1 A of each rail. -/
  hearthV  : Nat
  railV    : List Nat
  railI    : List Nat
  /-- Power of the four laser inputs, and of the received lanes, of each link, in 0.01 dBm. -/
  laser    : List (List Int)
  received : List (List Int)
deriving DecidableEq, Repr

end Sys2Proof
end

