-- ==== Sys2Proof/Syntax.lean ====
section
/-! DEFINITION. The commands: one constructor for each row of the manual's table of steps. `now` is the device time at
which a timed step happens (assumption 7). -/
namespace Sys2Proof
open Machine

/-- One step of the module. `uid` names a command in flight, `ring` a submission ring by its number; `upset` and
`parity` say what the checkers of storage on the dies find in that step (R455). A pair is one operand: the unit or the
command a step concerns, and what that step meets. -/
inductive Instr where
  -- commands of core queues: the work of the command in flight `uid`
  | nop (uid : Nat)
  | matmul (uid : Nat) (upset : Upset)
  | tileEntersRack (core : CoreId)
  | voidEntryEntersRack (core : CoreId)
  | vecop (uid : Nat) (upset : Upset)
  | rackEntryTaken (core : CoreId) (now : Nat) (upset : Upset)
  | reduce (uid : Nat) (upset : Upset)
  | gather (uid : Nat) (upset : Upset)
  | scatter (uid : Nat) (upset : Upset)
  | copy (uid : Nat) (upset : Upset)
  | dma (uid : Nat) (upset : Upset)
  | recipe (uid : Nat)
  | wait (uid : Nat)
  | waitConditionPoll (ring : RingId) (met : Nat × Upset)
  | signal (uid : Nat)
  | release (uid : Nat)
  | acquire (uid : Nat)
  | atomic (uid : Nat) (met : Nat × Upset)
  | countSet (uid : Nat)
  | countAdd (uid : Nat)
  | countLoad (cmd : Nat × Upset)
  | countStore (cmd : Nat × Upset)
  | countSetref (uid : Nat)
  | countSetrel (uid : Nat)
  | fence (uid : Nat)
  -- the life of a command
  | commandFetch (ring : RingId) (now : Nat)
  | commandIssue (ring : RingId) (now : Nat) (upset : Upset)
  | tagArrival (n : Nat) (now : Nat)
  | commandCompletion (uid : Nat) (now : Nat)
  | completionEntry (hostRing : RingId)
  | waitTimeout (ring : RingId) (now : Nat)
  | cmdOverrun (uid : Nat) (now : Nat)
  | flushWalk (ring : RingId) (now : Nat)
  -- memory
  | networkAtomicWriteBack (cluster : ClusterId) (granule : Nat)
  | copyEviction (cluster : ClusterId) (core : Option (Fin 32)) (granule : Nat) (parity : Bool)
  | memoryModeAccess (stack : StackId) (chan : ChanId) (request : Option Request) (disturb : Option Disturb)
  | memoryModeRefresh (stack : StackId) (chan : ChanId) (now : Nat)
  -- recipes
  | recipeAccepted (stack : StackId) (upset : Upset)
  | loadEntryArrival (stack : StackId) (uid : Nat) (entry : Fin 16 × Upset)
  | recipeImageArrival (stack : StackId) (cmd : Nat × Upset)
  | recipeStart (stack : StackId) (chan : ChanId) (now : Nat)
  | act (stack : StackId) (chan : ChanId)
  | pre (stack : StackId) (chan : ChanId)
  | dot (stack : StackId) (chan : ChanId × Bool)
  | axpy (stack : StackId) (chan : ChanId × Bool)
  | scale (stack : StackId) (chan : ChanId)
  | reread (stack : StackId) (chan : ChanId × Bool)
  | loadv (stack : StackId) (chan : ChanId × Bool)
  | copyv (stack : StackId) (chan : ChanId × Bool)
  | sync (stack : StackId) (chan : ChanId)
  | score (stack : StackId) (chan : ChanId × Bool)
  | setq (stack : StackId) (chan : ChanId)
  | chain (stack : StackId) (chan : ChanId × Bool)
  | store (stack : StackId) (chan : ChanId × Bool)
  | idle (stack : StackId) (chan : ChanId)
  | finish (stack : StackId) (chan : ChanId)
  | foldBoundary (stack : StackId) (chan : ChanId) (now : Nat)
  | refresh (stack : StackId) (chan : ChanId) (now : Nat)
  | channelReducerFinal (stack : StackId) (final : ChanId × Nat)
  | stackReducerSend (send : StackId × Bool)
  | recipeCompletion (stack : StackId) (uid : Nat) (now : Nat)
  -- control commands and bakes; `ring` is a control ring
  | regWrite (ring : RingId)
  | regRead (ring : RingId)
  | bake (ring : RingId) (now : Nat)
  | discard (ring : RingId)
  | prepareAck (unit : BakeUnit) (now : Nat)
  | bakeInstant (now : Nat)
  | bakeAbort (now : Nat)
  | zeroFillComplete (entry : Fin 512)
  | sliceEnd (part : PartId) (now : Nat)
  | jobSwitch (core : CoreId) (now : Nat)
  -- data integrity
  | sifterVisit (stack : StackId) (chan : ChanId) (now : Nat) (disturb : Option Disturb)
  | fieldRemap (key : Nat)
  | remapComplete (stack : StackId) (chan : ChanId)
  | eccRemapReq (ring : RingId)
  | flipArm (ring : RingId)
  | flipDisarm (ring : RingId)
  | channelRetrain (stack : StackId) (chan : ChanId) (resends : Nat) (now : Nat)
  | channelRetirement (stack : StackId) (chan : ChanId)
  -- links
  | linkFrameReceipt (link : LinkId) (lanes : List (List Dword)) (corrected uncorrectable : Nat)
      (decoded ended : Bool) (now : Nat)
  | switchGrant (output : SwitchPort) (now : Nat)
  | idleFrame (link : LinkId) (now : Nat)
  | replayTimeout (link : LinkId) (now : Nat)
  | resendLimit (link : LinkId)
  | writeFrame (stack : StackId) (n : Nat)
  | mergeWrite (stack : StackId) (n : Nat)
  | readFrame (stack : StackId) (n : Nat)
  | atomicRequestFrame (stack : StackId) (n : Nat)
  | check (stack : StackId) (n : Nat)
  | syncFrame (stack : StackId) (n : Nat)
  | writeAck (stack : StackId) (n : Nat)
  | readData (stack : StackId) (n : Nat)
  | atomicData (stack : StackId) (n : Nat)
  | checkAck (stack : StackId) (n : Nat)
  | syncAck (stack : StackId) (n : Nat)
  | transactionTimeout (txn : Nat) (now : Nat)
  | linkTrainingStage (link : LinkId) (outcome : Training) (now : Nat)
  | fullTrainingRetry (link : LinkId) (now : Nat)
  | lnkRetrain (ring : RingId) (now : Nat)
  | routeRemoval (link : LinkId)
  | routeRestore (link : LinkId)
  | throttleWidthChange (link : LinkId × Bool)
  | laneRelock (link : LinkId)
  -- host ports; `w0` and `w1` are the two words of a doorbell record
  | produce (qp : QpId) (w0 w1 : Dword)
  | bind (qp : QpId) (w0 w1 : Dword)
  | unbind (qp : QpId) (w0 w1 : Dword)
  | resume (qp : QpId) (w0 w1 : Dword)
  | flush (qp : QpId) (w0 w1 : Dword)
  | hostring (qp : QpId) (w0 w1 : Dword)
  | consume (qp : QpId) (w0 w1 : Dword)
  | hostRdmaWrite (qp : QpId) (rkey va : Nat) (data : List Byte)
  | hostRdmaRead (qp : QpId) (rkey va len : Nat)
  | rocePacket (port : PortId) (packet : Packet) (now : Nat)
  | ackTimeout (qp : QpId) (now : Nat)
  | pfcFrame (port : PortId) (priorities xoff : Nat)
  | cnpReceived (qp : QpId) (now : Nat)
  | rateRecovery (qp : QpId) (now : Nat)
  | lldpTransmit (port : PortId) (now : Nat)
  | lldpReceived (port : PortId)
  | arpReply (port : PortId) (target sender : Nat)
  | neighbourAdvertisement (port : PortId) (target sender : Nat)
  | ethPortUp (port : PortId)
  | authNonce (ring : RingId)
  | auth (ring : RingId) (signature : List Byte)
  | qpConnect (ring : RingId)
  | qpReset (ring : RingId)
  | attest (ring : RingId) (now : Nat)
  | update (ring : RingId)
  | controlCommandCompletion (ring : RingId) (flashOk : Bool) (now : Nat)
  | syncMessage (port : PortId) (msg : PtpMessage) (now : Nat)
  | ptpHoldover (now : Nat)
  | ptpCtrlWrite (ring : RingId)
  -- serving
  | generate (ring : RingId) (now : Nat)
  | cancel (ring : RingId)
  | streamOpen (ring : RingId) (now : Nat)
  | frame (ring : RingId) (now : Nat)
  | streamClose (ring : RingId)
  | model (ring : RingId)
  | config (ring : RingId)
  | stepBoundary (part : PartId) (now : Nat)
  | stepCommit (part : PartId) (now : Nat)
  | publish (part : PartId) (request : Nat)
  | consumerIndexRead (part : PartId) (request index : Nat)
  | prefillChunkStart (part : PartId) (now : Nat)
  | prefillChunkEnd (part : PartId) (now : Nat)
  | deadlineCheck (part : PartId) (now : Nat)
  | frameStart (part : PartId) (now : Nat)
  | frameEncoded (part : PartId) (now : Nat)
  | frameDeadline (part : PartId) (now : Nat)
  -- bring-up
  | powerOn
  | railsInRegulation
  | fuseSense (fuses : Fuses) (checkOk randomOk : Bool) (now : Nat)
  | flashDiscovery (found : Bool) (mbit mhz : Nat) (slot0 slot1 : List Byte) (now : Nat)
  | imageRead (image : List Byte) (now : Nat)
  | imageVerify (now : Nat)
  | fieldLockBlow (blown : Bool) (now : Nat)
  | serviceCoreLoad (ok : Bool) (now : Nat)
  | hearthCoreLoad (garbled : List (Nat × Nat × List Byte)) (now : Nat)
  | missingList (physical : Nat) (garbled : List (Nat × List Byte)) (now : Nat)
  | digestReport (physical : Nat) (digest : List Byte) (now : Nat)
  | stackTraining (failed : List (Option (List Nat))) (now : Nat)
  | managementBake (now : Nat)
  | randomSourceFailure
  -- thermal, I3C and test access port
  | housekeepingRound (sample : Sample) (now : Nat)
  | inputUndervoltage
  | inputOvervoltage (mv : Nat)
  | i3cPrivateWrite (bytes : List Byte)
  | i3cPrivateRead (count : Nat)
  | setdasa (static dynamic : Nat)
  | entdaa (dynamic : Nat)
  | idcode
  | bypass (scan : TapCode × Bool)
  -- later rows of the table
  | ethPortDown (port : PortId)
  | channelRetrainComplete (stack : StackId) (chan : ChanId)
  | testAccessPortReset (trst : Bool)
  | announceMessage (port : PortId) (dataset : List Nat) (domain : Nat) (transport : Nat) (now : Nat)
  | delayRequest (now : Nat)
  | delayResponse (port : PortId) (msg : PtpMessage) (now : Nat)
  | followUpMessage (port : PortId) (msg : PtpMessage) (now : Nat)
deriving DecidableEq, Repr

end Sys2Proof
end

