-- ==== Sys2Proof/Decode.lean ====
section
/-! DEFINITION. Words of the table of steps. -/
namespace Sys2Proof

/-- The command that a word spells. No row of the manual's table of steps is given bits, so no word spells one
(assumption 11). -/
def decodeTableWord (_nbits _w : Nat) : Option Instr := none

end Sys2Proof
end

