-- ==== Sys2Proof/Config.lean ====
section
/-! DEFINITION. What the manual leaves open: constants with no body, so that no proof can see their value. A field of
State numbers the draws of `freeNat`; the others are applied to what they depend on. -/
namespace Sys2Proof.Config

/-- The n-th free choice (assumption 2): which outcome occurs, or which value an open value has, wherever the
governing rule leaves it unspecified (R16). -/
opaque freeNat : Nat → Nat

/-- The fixed hash of R405 over the destination device and address bits [47:6]. -/
opaque routeHash : Nat → Nat → Nat

/-- Bits of the module's random source (R484), by draw number; below `2^256`. -/
opaque randomBits : Nat → Nat

/-- The Limoft firmware public key in the boot ROM (R482): X and Y as numbers. -/
opaque limoftKeyX : Nat
/-- See `limoftKeyX`. -/
opaque limoftKeyY : Nat

/-- Whether the plan of this digest places its data inside its partition's regions, as the second argument numbers the
question (R318, R319: the rest of a plan is Morril's own). -/
opaque planInside : Nat → Nat → Bool

/-- Output size in bytes of the frame-encoder plan of this digest (R349), and the prompt positions that one of its frames
takes (R353). -/
opaque planOutput : Nat → Nat
/-- See `planOutput`. -/
opaque planPositions : Nat → Nat

end Sys2Proof.Config
end

