-- ==== Sys2Proof/Machine/RegMap.lean ====
section
/-! DEFINITION. The control space: where every register lies (R79 and the register tables R78, R120, R252, R279, R380,
R382, R419, R444, R446, R472, R497, R499, R522, R524), its access type (R11), the bits that exist, and its reset
value. -/
namespace Sys2Proof.Machine

/-- Access types of R11 (no register of the KX-20 is RW1C). -/
inductive Access where
  /-- Read only, or read only and sticky. -/
  | ro
  /-- Read and write, in force when the management command completes. -/
  | rw
  /-- Staged on the bench. -/
  | rwb
  /-- Write only: triggers an action, reads as zero. -/
  | wo
deriving DecidableEq, Repr

/-- What the tables say of one 32-bit offset: access, the bits that exist, the reset value. A reserved offset of a
block is read only with no bits (R9). -/
structure RegInfo where
  access : Access
  mask   : Nat
  reset  : Nat
deriving DecidableEq, Repr

/-- A reserved offset: reads zero, writes ignored (R9). -/
def reservedReg : RegInfo := ⟨.ro, 0, 0⟩
/-- A read-only register with a reset value. -/
def roReg (v : Nat) : RegInfo := ⟨.ro, 0xFFFFFFFF, v⟩

/-- FEAT_ (R120). -/
def featReg (o : Nat) : RegInfo :=
  match o with
  | 0x00 => roReg 0x4B002001 | 0x04 => roReg 0x20400800 | 0x08 => roReg 0x04000180 | 0x0C => roReg 0x08040810
  | 0x10 => roReg 0x04108040 | 0x14 => roReg 0x000F07FF | 0x18 => roReg 0xFFF20004 | 0x1C => roReg 0x08002014
  | 0x20 => roReg 0x000000FF | 0x24 => roReg 0x000FFFFF | 0x28 => roReg 0x00000803 | 0x2C => roReg 0x02000010
  | _ => if 0x40 ≤ o ∧ o < 0x90 then roReg 0xFFFFFFFF else reservedReg

/-- BENCH_ (R382). -/
def benchReg (o : Nat) : RegInfo :=
  match o with
  | 0x00 => ⟨.wo, 0x3, 0⟩
  | 0x24 => ⟨.rw, 0xFFFFFFFC, 0⟩
  | _ => if o ≤ 0x30 then roReg 0 else reservedReg

/-- PART_ of one partition (R380, R381). -/
def partReg (p o : Nat) : RegInfo :=
  match o with
  | 0x00 => ⟨.rwb, 0x3, if p = 0 then 1 else 0⟩
  | 0x04 => ⟨.rwb, 0xFFFF, 0⟩
  | 0x08 => ⟨.rwb, 0xFFFFFFFF, 0⟩ | 0x0C => ⟨.rwb, 0xFFFFFFFF, 0⟩
  | 0x10 => ⟨.rwb, 0xFFFFFFFF, 0x00640014⟩
  | 0x14 => ⟨.rwb, 0x1FFF1FFF, 0x00010001⟩ | 0x18 => ⟨.rwb, 0x1FFF1FFF, 0x00010001⟩
  | 0x1C => ⟨.rwb, 0x1F1F0FFF, 0x14000000⟩
  | 0x20 => ⟨.rwb, 0x017F01FF, 0x01400000⟩ | 0x24 => ⟨.rwb, 0x017F01FF, 0x01400000⟩
  | 0x28 => ⟨.rwb, 0x017F01FF, 0x01400000⟩ | 0x2C => ⟨.rwb, 0x017F01FF, 0x01400000⟩
  | 0x30 => roReg 0 | 0x34 => roReg 0 | 0x38 => roReg 0
  | _ => if 0x40 ≤ o ∧ o < 0x90 then ⟨.rwb, 0xFFFFFFFF, 0⟩ else reservedReg

/-- The PART_ block. -/
def partBlockReg (o : Nat) : RegInfo :=
  if o = 0 then roReg 1
  else if o < 0x100 ∨ 0x1100 ≤ o then reservedReg
  else partReg ((o - 0x100) / 0x100) (o % 0x100)

/-- HK_ (R522). -/
def hkReg (o : Nat) : RegInfo :=
  if o ≤ 0x18 then roReg 0
  else if 0x20 ≤ o ∧ o < 0x50 then roReg 0
  else if 0x100 ≤ o ∧ o < 0x100 + 428 * 4 then roReg 0
  else if 0x800 ≤ o ∧ o < 0x8A0 then roReg 0
  else reservedReg

/-- THM_ (R524). -/
def thmReg (o : Nat) : RegInfo :=
  match o with
  | 0x18 => ⟨.rwb, 0x0FFF001F, 0x0A28000C⟩
  | 0x24 => roReg 0x0478695F | 0x28 => roReg 0x04695F55 | 0x2C => roReg 0x045A5046
  | _ => if o ≤ 0x2C then roReg 0 else reservedReg

/-- ECC_ counters, sifter, remap and flip mask (R472, R473). -/
def eccReg (o : Nat) : RegInfo :=
  if o ≤ 0x1C then roReg 0
  else if o = 0x100 then ⟨.rw, 0x800001FF, 0⟩
  else if o = 0x104 ∨ o = 0x108 then roReg 0
  else if 0x140 ≤ o ∧ o < 0x188 then ⟨.rw, 0xFFFFFFFF, 0⟩
  else if 0x1C0 ≤ o ∧ o < 0x200 then roReg 0
  else if 0x400 ≤ o ∧ o < 0x680 then (if o % 0x20 = 0 then ⟨.rw, 1, 1⟩ else roReg 0)
  else if o = 0x800 then ⟨.wo, 0x3FFFFFFF, 0⟩
  else if o = 0x804 then roReg 0
  else if 0x1000 ≤ o ∧ o < 0x1000 + 20 * 0x80 then roReg 0
  else if 0x4000 ≤ o ∧ o < 0x5000 then roReg 0
  else reservedReg

/-- The region table (R78). -/
def regionReg (o : Nat) : RegInfo :=
  if 0x2000 ≤ o then reservedReg
  else match o % 16 with
    | 0 => ⟨.rwb, 0x03FFFFFF, 0⟩
    | 4 => ⟨.rwb, 0x03FFFFFF, 0⟩
    | 8 => ⟨.rwb, 0x800000FF, 0⟩
    | _ => reservedReg

/-- BOOT_ (R497). -/
def bootReg (o : Nat) : RegInfo :=
  if o ≤ 0x8C then roReg 0 else if 0x100 ≤ o ∧ o < 0x140 then roReg 0 else reservedReg

/-- FUSE_ (R499). -/
def fuseReg (o : Nat) : RegInfo :=
  if o ≤ 0xC then roReg 0
  else if 0x100 ≤ o ∧ o < 0x100 + 68 * 4 then roReg 0
  else if 0x300 ≤ o ∧ o < 0x350 then roReg 0
  else if 0x400 ≤ o ∧ o < 0x450 then roReg 0
  else if 0x500 ≤ o ∧ o < 0x540 then roReg 0
  else reservedReg

/-- STK_ of stack `s` (R252, R253). -/
def stkReg (s o : Nat) : RegInfo :=
  match o with
  | 0x00 => roReg (0x20200200 + s)
  | 0x08 => ⟨.rwb, 0xFFFFFFFF, 0⟩ | 0x0C => ⟨.rwb, 0xFFFFFFFF, 0⟩
  | 0x24 => roReg 0x80000
  | 0x28 => reservedReg | 0x2C => reservedReg
  | _ => if o ≤ 0x44 then roReg 0 else reservedReg

/-- SEQ_ (R279, R280). -/
def seqReg (o : Nat) : RegInfo :=
  match o with
  | 0x00 => ⟨.rwb, 0xFFF, 0x708⟩
  | 0x04 => roReg 0
  | 0x08 => roReg 0x0C210E0E | 0x0C => roReg 0x0E231010 | 0x10 => roReg 0x040C1010 | 0x14 => roReg 0x00400802
  | 0x18 => roReg 0x00A00000
  | _ =>
    if 0x20 ≤ o ∧ o < 0x30 then roReg 0
    else if 0x100 ≤ o ∧ o < 0x500 ∧ o % 0x20 ≠ 0x1C then roReg 0
    else reservedReg

/-- LNK_ of link `l` (R419, R420): links 0 to 7 hold the route table. -/
def lnkReg (l o : Nat) : RegInfo :=
  match o with
  | 0x0C => ⟨.rwb, 0xFF, 0x18⟩
  | 0x10 => ⟨.wo, 1, 0⟩
  | _ =>
    if o ≤ 0x4C then roReg 0
    else if 0x800 ≤ o ∧ l < 8 then ⟨.rwb, 0xFFFFF, 0⟩
    else reservedReg

/-- ETH_ (R444, R445). -/
def ethReg (o : Nat) : RegInfo :=
  if o < 0x100 then
    match o % 0x80 with
    | 0x0C => ⟨.rwb, 0xFFFFFFFF, 0⟩
    | 0x10 => ⟨.rwb, 0xFFFFFFFF, 0⟩ | 0x14 => ⟨.rwb, 0xFFFFFFFF, 0⟩
    | 0x18 => ⟨.rwb, 0xFFFFFFFF, 0⟩ | 0x1C => ⟨.rwb, 0xFFFFFFFF, 0⟩
    | 0x20 => ⟨.rwb, 0x00FFFFFF, 0x0080C008⟩
    | k => if k ≤ 0x48 then roReg 0 else reservedReg
  else if o ≤ 0x108 then roReg 0
  else if 0x120 ≤ o ∧ o < 0x140 then roReg 0
  else if 0x400 ≤ o ∧ o < 0x800 then ⟨.rwb, 0x1F, if o = 0x400 then 0x10 else 0⟩
  else reservedReg

/-- PTP_ (R446, R447). -/
def ptpReg (o : Nat) : RegInfo :=
  if o = 0xC then ⟨.rw, 0xFFF, 0x800⟩ else if o ≤ 0x28 then roReg 0 else reservedReg

/-- R79: the register at an offset of the control space that is a multiple of 4; none outside every block. -/
def regInfo (o : Nat) : Option RegInfo :=
  if o < 0x10000 then some (featReg o)
  else if o < 0x20000 then some (benchReg (o - 0x10000))
  else if o < 0x30000 then some (partBlockReg (o - 0x20000))
  else if o < 0x38000 then some (hkReg (o - 0x30000))
  else if o < 0x40000 then some (thmReg (o - 0x38000))
  else if o < 0x48000 then some (eccReg (o - 0x40000))
  else if o < 0x50000 then some (regionReg (o - 0x48000))
  else if o < 0x58000 then some (bootReg (o - 0x50000))
  else if o < 0x60000 then some (fuseReg (o - 0x58000))
  else if o < 0x100000 then none
  else if o < 0x240000 then
    let s := (o - 0x100000) / 0x10000
    let k := o % 0x10000
    some (if k < 0x8000 then stkReg s k else seqReg (k - 0x8000))
  else if o < 0x300000 then none
  else if o < 0x314000 then some (lnkReg ((o - 0x300000) / 0x1000) (o % 0x1000))
  else if o < 0x400000 then none
  else if o < 0x408000 then some (ethReg (o - 0x400000))
  else if o < 0x410000 then some (ptpReg (o - 0x408000))
  else none

/-- Reset value of the register at `o` (0 where there is none). -/
def regReset (o : Nat) : Reg := BitVec.ofNat 32 ((regInfo o).elim 0 (·.reset))

/-- PART_ register `o` of partition `p`. -/
def partOff (p o : Nat) : Nat := 0x20100 + p * 0x100 + o
/-- Region entry `n`, register `o`. -/
def rgnOff (n o : Nat) : Nat := 0x48000 + n * 16 + o
/-- STK_ register of stack `s`. -/
def stkOff (s o : Nat) : Nat := 0x100000 + s * 0x10000 + o
/-- SEQ_ register of stack `s`. -/
def seqOff (s o : Nat) : Nat := 0x108000 + s * 0x10000 + o
/-- SEQ_ register `o` of channel `c` of stack `s`. -/
def seqChOff (s c o : Nat) : Nat := seqOff s (0x100 + c * 0x20 + o)
/-- LNK_ register of link `l`. -/
def lnkOff (l o : Nat) : Nat := 0x300000 + l * 0x1000 + o
/-- The route entry of device `v`. -/
def routeOff (v : Nat) : Nat := lnkOff (v / 512) (0x800 + v % 512 * 4)
/-- ETH_ register `o` of port `p`. -/
def ethOff (p o : Nat) : Nat := 0x400000 + p * 0x80 + o
/-- ECC_ register. -/
def eccOff (o : Nat) : Nat := 0x40000 + o
/-- BENCH_ register. -/
def benchOff (o : Nat) : Nat := 0x10000 + o
/-- BOOT_ register. -/
def bootOff (o : Nat) : Nat := 0x50000 + o
/-- FUSE_ register. -/
def fuseOff (o : Nat) : Nat := 0x58000 + o
/-- HK_ register. -/
def hkOff (o : Nat) : Nat := 0x30000 + o
/-- THM_ register. -/
def thmOff (o : Nat) : Nat := 0x38000 + o
/-- PTP_ register. -/
def ptpOff (o : Nat) : Nat := 0x408000 + o
/-- ETH_QP_PART of queue pair `q`. -/
def qpPartOff (q : Nat) : Nat := 0x400400 + q * 4

end Sys2Proof.Machine
end

