-- ==== Sys2Proof/Machine/TypesHearth.lean ====
section
/-! DEFINITION. State of the hearth die: cores, clusters, commands in flight and travelling arrivals (R18, R81 to R118,
R133 to R139, R172, R188, R201, R373 to R376). -/
namespace Sys2Proof.Machine

/-- A rack entry (R133): a tile of 32 × 32 FP32 elements, element `T[m][n]` at place `32 m + n`, or a void entry. -/
inductive RackEntry where
  | tile (t : List Reg)
  | void
deriving DecidableEq, Repr

/-- A command's status, flags and fault report as its completion entry carries them (R112). -/
structure Report where
  status     : Nat
  flags      : Flags
  iteration  : Nat
  faultAddr  : Nat
  faultCount : Nat
  faultWord  : Nat
deriving DecidableEq, Repr

/-- Where a command in flight stands. -/
inductive Phase where
  /-- Work remains. -/
  | running
  /-- Its work has ended with this report; its completion is still to come (R111). -/
  | done (r : Report)
deriving DecidableEq, Repr

/-- A tensor descriptor (R91), with the command word that names it. Strides are in bytes. -/
structure Desc where
  word    : Nat
  base    : Nat
  scale   : Nat
  fmt     : Nat
  kind    : Nat
  rank    : Nat
  sizes   : List Nat
  shards  : List Nat
  strides : List Nat
  /-- Reserved bits are zero. -/
  clean   : Bool
deriving DecidableEq, Repr

/-- A whole image on its way to its granule: data address / 64, whether the command writes all 64 bytes itself (R197),
and the 64 bytes. -/
structure Late where
  granule : Nat
  full    : Bool
  image   : List Byte
deriving DecidableEq, Repr

/-- A command in flight (R83). -/
structure Cmd where
  uid     : Nat
  /-- Partition that owns the core's cluster. -/
  part    : Nat
  /-- Logical core, `32 × cluster + core`. -/
  core    : Nat
  queue   : Nat
  /-- Submission ring number and ring index (R112). -/
  ring    : Nat
  seq     : Nat
  /-- Host ring number that takes its completion. -/
  host    : Nat
  words   : List Dword
  /-- Its tensor descriptors as read at issue (R110). -/
  descs   : List Desc
  /-- Device time of issue (R376). -/
  issued  : Nat
  /-- The iteration that runs. -/
  iter    : Nat
  /-- Skipped by its predicate, with rack entries still to place or take (R135, R137). -/
  skipped : Bool
  /-- The rack entry the running iteration has taken (R136). -/
  taken   : Option RackEntry
  /-- The running iteration's rack wait (R136): how long its arrival or its entry was missing before, and since which
  device time one is missing now. -/
  waited  : Nat
  since   : Option Nat
  flags   : Flags
  /-- Stage of work on a remote target, transactions it waits for, their worst status so far, and the granules read
  back, by data address (R398 to R402). -/
  stage   : Nat
  txns    : List Nat
  remote  : Nat
  /-- First data address that failed on another module. -/
  failAt  : Nat
  buf     : Store (List Byte)
  /-- Images that its engine has formed and not yet written (R185, R197). -/
  late    : List Late
  /-- Writes of the running iteration that wait for a fold boundary (R245), by data address / 64: mask and bytes. -/
  todo    : Store (Nat × List Byte)
  /-- Its completion entry is discarded (R426). -/
  discard : Bool
  phase   : Phase
deriving DecidableEq, Repr

/-- An arrival of a tag on its way to a core (R97, R100). -/
structure Arrival where
  core : Nat
  tag  : Nat
deriving DecidableEq, Repr

/-- One hearth core. -/
structure Core where
  /-- Counts of tags 1 to 4,095 (R95). -/
  tags      : Store (BitVec 16)
  /-- Counters 0 to 15 (R103). -/
  counters  : Store Reg
  /-- Relations and references of comparators 0 to 3 (R103). -/
  relations : Store (BitVec 3)
  refs      : Store Reg
  /-- The rack, head first, at most eight entries (R133). -/
  rack      : List RackEntry
  /-- A finished tile that waits for a free rack entry (R134). -/
  hold      : Option RackEntry
  /-- The job whose rings the core serves in a sliced partition (R373), the end of its slice on this core, whether the
  core has stopped fetching, and the overrun owed by each job (R375). -/
  job       : Nat
  sliceEnd  : Nat
  stopped   : Bool
  debt      : Store Nat
deriving DecidableEq, Repr

/-- A core at power-on (assumption 4). -/
def Core.init : Core := ⟨[], [], [], [], [], none, 0, 0, false, []⟩

/-- One cluster. -/
structure Cluster where
  /-- Copies in the read cache (R70, R172). -/
  cache  : Store (List Byte)
  /-- Granules held by the network-attached atomic unit and the time of the last atomic on each (R188, R189). -/
  atomic : Store (List Byte)
  last   : Store Nat
deriving DecidableEq, Repr

/-- A cluster at power-on. -/
def Cluster.init : Cluster := ⟨[], [], []⟩

/-- What the last grant of a self-timed arbiter to a requester leaves owed (R118): the rings that were waiting at that
grant and are served before it is granted again. The arbiter is named by its engine (R124) and that engine's unit. -/
structure Turn where
  engine : Nat
  unit   : Nat
  ring   : Nat
  owed   : List Nat
deriving DecidableEq, Repr

/-- The hearth die. -/
structure Hearth where
  cores    : Store Core
  /-- Copies in the cores' scratchpad mirrors (R172), by core, keyed by granule address. -/
  mirrors  : Store (Store (List Byte))
  clusters : Store Cluster
  /-- Commands in flight, in issue order (R84). -/
  cmds     : List Cmd
  arrivals : List Arrival
  /-- What arbiters owe to waiting requesters (R118). -/
  turns    : List Turn
deriving DecidableEq, Repr

/-- The hearth die at power-on. -/
def Hearth.init : Hearth := ⟨[], [], [], [], [], []⟩

end Sys2Proof.Machine
end

