-- ==== Sys2Proof/Machine/TypesHost.lean ====
section
/-! DEFINITION. State of the host ports: rings, host rings, queue pairs, ports, control commands, authentication and the
PTP servo (R421 to R447). -/
namespace Sys2Proof.Machine

/-- A fetched entry of a submission ring that has not issued. -/
structure Head where
  words  : List Dword
  /-- The ring entry was read without an uncorrectable error (R453). -/
  good   : Bool
  /-- Time its tags or condition have been unmet so far, whether they were unmet at `mark`, and `mark` (R115). -/
  waited : Nat
  unmet  : Bool
  mark   : Nat
  /-- The last poll of a WAIT's condition word found the relation to hold (R101). -/
  cond   : Bool
  /-- The transaction that reads a WAIT's condition word on another module (R399). -/
  poll   : Option Nat
  /-- The condition read failed: status and data address. The WAIT then issues and completes with it. -/
  fail   : Option (Nat × Nat)
deriving DecidableEq, Repr

/-- A walk over the unissued commands of a ring (R436): where it ends, whether it unbinds the ring there, and whether
a bake has taken the ring's queue from it already (R358). -/
structure Walk where
  stop   : Nat
  unbind : Bool
  freed  : Bool
deriving DecidableEq, Repr

/-- A submission ring (R431 to R433). -/
structure Ring where
  base   : Nat
  log2   : Nat
  /-- 0 core queue, 1 serving loop, 2 control. -/
  target : Nat
  /-- Logical core `32 × cluster + core` and queue, for target 0. -/
  core   : Nat
  queue  : Nat
  job    : Nat
  /-- Host ring of the same queue pair that takes its completions. -/
  host   : Nat
  fetch  : Nat
  prod   : Nat
  /-- The halt state of the target queue for this ring's job (R113, R374). -/
  halted : Bool
  head   : Option Head
  walk   : Option Walk
deriving DecidableEq, Repr

/-- A host ring (R434, R435). -/
structure HostRing where
  addr  : Nat
  rkey  : Nat
  log2  : Nat
  event : Bool
  prod  : Nat
  cons  : Nat
  /-- Completion entries that wait in the module (R435). -/
  wait  : List (List Byte)
deriving DecidableEq, Repr

/-- What the module sends on a queue pair or a port. -/
inductive Msg where
  /-- RDMA WRITE to host memory (R438). -/
  | write (qp addr rkey : Nat) (data : List Byte)
  /-- RDMA READ of host memory, with a tag that says what for. -/
  | read (qp addr rkey len what : Nat)
  /-- Response to a host's RDMA READ. -/
  | readData (qp psn : Nat) (data : List Byte)
  | ack (qp psn : Nat)
  /-- NAK: 0 PSN sequence error, 1 invalid request, 2 remote access error, 3 remote operational error. -/
  | nak (qp psn code : Nat)
  | cnp (qp : Nat)
  | pfc (priority : Nat) (xoff : Bool)
  /-- An LLDPDU (R422): chassis ID and port ID as MAC addresses, time to live, system name. -/
  | lldp (chassis port ttl : Nat) (name : String)
  | arpReply (target sender : Nat)
  | neighbourAdvertisement (target sender : Nat)
  /-- Delay_Req with its sequence number (R443). -/
  | delayReq (seq : Nat)
deriving DecidableEq, Repr

/-- A message of the module's own that its peer has not acknowledged: first PSN, packets, the message. -/
structure Sent where
  psn     : Nat
  packets : Nat
  msg     : Msg
deriving DecidableEq, Repr

/-- Modes of a queue pair (R425 to R428). -/
inductive QpMode where
  | reset
  | ready
  | error
deriving DecidableEq, Repr

/-- A queue pair. -/
structure Qp where
  mode    : QpMode
  /-- The eight words of its descriptor (R427). -/
  desc    : List Dword
  sendPsn : Nat
  recvPsn : Nat
  /-- A NAK for a PSN sequence error has been sent and not yet been answered by the expected PSN. -/
  nakSent : Bool
  unacked : List Sent
  /-- Retransmissions used, and the time of the last progress of the oldest unacknowledged message (R428). -/
  retries : Nat
  since   : Nat
  /-- A host write or SEND in progress: key (0 for a SEND), next address, bytes still to come, bytes so far. -/
  inKey   : Nat
  inAddr  : Nat
  inLeft  : Nat
  inData  : List Byte
  inOpen  : Bool
  /-- Send rate in kB/s (R423), last CNP received, last cut, last rise, last CNP sent. -/
  rate    : Nat
  cnpAt   : Option Nat
  cutAt   : Option Nat
  riseAt  : Nat
  cnpSent : Option Nat
deriving DecidableEq, Repr

/-- A queue pair in reset; its rate is the full C of R423. -/
def Qp.init : Qp := ⟨.reset, [], 0, 0, false, [], 0, 0, 0, 0, 0, [], false, 100000000, none, none, 0, none⟩

/-- The headers of a RoCEv2 packet that leaves (R422, R425, R427): destination MAC address, VLAN tag as priority and ID,
IP version and destination address, DSCP, ECN field, UDP source and destination port, whether the UDP checksum is
computed or zero, destination QPN. -/
structure RoceHeader where
  mac      : Nat
  vlan     : Option (Nat × Nat)
  ipv6     : Bool
  ip       : List Byte
  dscp     : Nat
  ecn      : Nat
  srcPort  : Nat
  dstPort  : Nat
  checksum : Bool
  qpn      : Nat
deriving DecidableEq, Repr

/-- A frame that has left a port: a packet of a message, by its number in it, with the headers that a queue pair gives
it. -/
structure Out where
  msg    : Msg
  packet : Nat
  roce   : Option RoceHeader
deriving DecidableEq, Repr

/-- A host port. -/
structure Port where
  /-- Priorities that received PFC holds, as bits (R423). -/
  paused : Nat
  /-- KiB of receive buffer held per priority, and priorities for which XOFF was sent. -/
  fill   : Store Nat
  xoff   : Nat
  /-- Messages handed to the port's egress that have not wholly left, oldest first. -/
  egress : List Msg
  /-- Packets of each queue pair's oldest message that have left; partitions still to be granted in the running round; the
  queue pair of each partition that was granted last (R424). -/
  begun  : Store Nat
  round  : List Nat
  lastQp : Store Nat
  /-- Frames that have left, oldest first (assumption 9). -/
  sent   : List Out
  lldpAt : Nat
  /-- Frames received and sent, below the units of ETH_RX_FRAMES and ETH_TX_FRAMES (R445). -/
  rx     : Nat
  tx     : Nat
deriving DecidableEq, Repr

/-- A port at power-on. -/
def Port.init : Port := ⟨0, [], 0, [], [], [], [], [], 0, 0, 0⟩

/-- A control command that takes time (R440): its ring, ring index, host ring and words, and its status once known. -/
structure Ctrl where
  ring   : Nat
  seq    : Nat
  host   : Nat
  words  : List Dword
  status : Option Nat
deriving DecidableEq, Repr

/-- The PTP servo (R443). -/
structure Ptp where
  /-- Consecutive Syncs with an offset below 100 ns. -/
  good    : Nat
  /-- Time of the last Sync used; PTP has locked before (R442). -/
  lastSync : Option Nat
  locked  : Bool
  /-- A two-step master's Sync: sequence number and arrival time. -/
  pending : Option (Nat × Nat)
  /-- Best master's data set, ordered as the default algorithm compares: priority1, class, accuracy, variance,
  priority2, identity, steps removed, port identity of the sender. -/
  best    : List Nat
  bestAt  : Nat
  /-- Delay_Req outstanding: sequence number and departure time. -/
  delay   : Option (Nat × Nat)
  seq     : Nat
  /-- Last measured master-to-slave difference, for the path delay. -/
  t1      : Nat
  t2      : Nat
  /-- What the servo adds to device time to have PTP time, until the first lock (R442). -/
  ahead   : Int
deriving DecidableEq, Repr

/-- The servo at power-on. -/
def Ptp.init : Ptp := ⟨0, none, false, none, [], 0, none, 0, 0, 0, 0⟩

/-- The host side. -/
structure HostSide where
  /-- Submission rings by ring number `16 q + r`, host rings by `16 q + h`. -/
  rings     : Store (Option Ring)
  hostRings : Store (Option HostRing)
  qps       : Store Qp
  /-- Events of an owner's queue pair that were discarded since the last one written (R435). -/
  lost      : Store Nat
  port0     : Port
  port1     : Port
  /-- Control commands that take time, one per ring at most. -/
  ctrl      : List Ctrl
  /-- The nonce that the next AUTH may use (R441). -/
  nonce     : Option (List Byte)
  ptp       : Ptp
deriving DecidableEq, Repr

/-- The host side at power-on. -/
def HostSide.init : HostSide := ⟨[], [], [], [], Port.init, Port.init, [], none, Ptp.init⟩

end Sys2Proof.Machine
end

