-- ==== Sys2Proof/Machine/TypesServing.lean ====
section
/-! DEFINITION. State of the serving loop of one partition (R310 to R353). -/
namespace Sys2Proof.Machine

/-- A plan registered under a model handle (R318, R319). -/
structure Model where
  /-- 1 decoder, 2 frame encoder. -/
  type      : Nat
  layers    : Nat
  heads     : Nat
  vocab     : Nat
  appenders : Nat
  cNom      : Nat
  mNom      : Nat
  /-- SHA-256 digest of the plan. -/
  digest    : List Byte
deriving DecidableEq, Repr

/-- A cell (R285): its channel and its cell number in it. -/
structure PageCell where
  stack : Nat
  chan  : Nat
  num   : Nat
deriving DecidableEq, Repr

/-- A page (R330, R336): its number among the partition's pages, its cells by layer group, and once sealed its token ids
and digests. -/
structure Page where
  uid     : Nat
  cells   : List PageCell
  ids     : List Nat
  parent  : List Byte
  digest  : List Byte
  sealed  : Bool
  indexed : Bool
  /-- When it was last referenced, as a count of references. -/
  used    : Nat
  /-- A cell of it lay in a channel that was retired (R335). -/
  lost    : Bool
deriving DecidableEq, Repr

/-- Where a request stands (R321); an ended request is no longer listed. -/
inductive GenState where
  | queued
  | prefill
  | decode
  | step
deriving DecidableEq, Repr

/-- An active GENERATE request (R315, R321). -/
structure Gen where
  id       : Nat
  /-- Its number among the partition's requests: an id may be used again. -/
  uid      : Nat
  /-- Submission ring, ring index and host ring of its entry; its completion is discarded (R426). -/
  ring     : Nat
  seq      : Nat
  host     : Nat
  discard  : Bool
  model    : Nat
  priority : Nat
  width    : Nat
  noReuse  : Bool
  prompt   : Nat
  len      : Nat
  maxTokens : Nat
  /-- Slice ring: host address and key (R340). -/
  addr     : Nat
  rkey     : Nat
  seed     : Nat
  deadline : Nat
  temperature : Nat
  topP     : Nat
  topK     : Nat
  stop0    : Nat
  stop1    : Nat
  accepted : Nat
  state    : GenState
  /-- Positions prefilled so far, then the committed length (R321). -/
  n        : Nat
  /-- Token ids of positions known so far. -/
  tokens   : List Nat
  /-- Numbers of the pages it references, page 0 first. -/
  pages    : List Nat
  /-- Greedy choices of the draft heads for the positions after the pending token (R324). -/
  drafts   : List Nat
  /-- Tokens committed to its slice ring; those of batches that the host refused are taken off (R344). -/
  published : Nat
  steps    : Nat
  reused   : Nat
  starved  : Nat
  /-- Time from acceptance to the first published token, in µs. -/
  first    : Option Nat
  /-- Start of its starved spell, less time blocked on its slice ring (R333). -/
  hungry   : Option Nat
  /-- When it was last seen to stand blocked on its slice ring or queue pair (R333, R344). -/
  blocked  : Option Nat
  /-- When it last held a slot, as a step number (R326). -/
  held     : Option Nat
  /-- Producer index, last consumer index read, a read of it outstanding, and one that is still to be sent (R342, R343).
  -/
  prod     : Nat
  cons     : Nat
  asked    : Bool
  asks     : Bool
  /-- A referenced page was lost (R335); the host refused its slice ring (R344). -/
  lost     : Bool
  refused  : Bool
  /-- Positions of encoded frames to be appended, by frame, oldest first (R353). -/
  frames   : List Nat
deriving DecidableEq, Repr

/-- A CANCEL that has been read (R348). -/
structure Cancel where
  ring    : Nat
  seq     : Nat
  host    : Nat
  id      : Nat
  /-- Number of the request that it cancels, or of nothing. -/
  target  : Nat
  discard : Bool
deriving DecidableEq, Repr

/-- How a request has ended: what its completion entry tells (R317). -/
structure Ending where
  status : Nat
  reason : Nat
  time   : Nat
  gen    : Gen
deriving DecidableEq, Repr

/-- A batch of slice-ring entries that has been formed (R342, R344), with the ending whose completion follows it when the
request has ended. -/
structure Batch where
  request : Nat
  gen     : Nat
  qp      : Nat
  addr    : Nat
  rkey    : Nat
  first   : Nat
  entries : List (List Byte)
  ending  : Option Ending
deriving DecidableEq, Repr

/-- A prefill chunk that runs: request, first position, end, and whether it appends a frame (R322, R353). -/
structure Chunk where
  request : Nat
  gen     : Nat
  first   : Nat
  stop    : Nat
  frame   : Bool
deriving DecidableEq, Repr

/-- Slots of a step: request and width (R325). -/
structure Slot where
  request : Nat
  width   : Nat
deriving DecidableEq, Repr

/-- A frame stream (R349 to R353). -/
structure Stream where
  num     : Nat
  model   : Nat
  attach  : Nat
  input   : Nat
  bytes   : Nat
  period  : Nat
  t0      : Nat
  offset  : Nat
  output  : Nat
  ring    : Nat
  /-- Last frame number read, frame that waits, frame being encoded. -/
  last    : Option Nat
  waiting : Option Nat
  running : Option Nat
  encoded : Nat
  dropped : Nat
  /-- A STREAM_CLOSE that has been read: ring, ring index, host ring, completion discarded. -/
  closing : Option Cancel
deriving DecidableEq, Repr

/-- The serving state of one partition. -/
structure Serving where
  /-- Serving configuration in force (R320). -/
  active   : Bool
  /-- Clusters of the loop, decode first, then prefill, then frame (R310), and how many of each. -/
  clusters : List Nat
  decode   : Nat
  prefill  : Nat
  frame    : Nat
  rowLo    : Nat
  rowHi    : Nat
  reserve  : Nat
  /-- Starvation limit in ns. -/
  limit    : Nat
  work     : Nat
  workLen  : Nat
  models   : Store (Option Model)
  requests : List Gen
  cancels  : List Cancel
  streams  : List Stream
  pages    : List Page
  nextPage : Nat
  nextGen  : Nat
  /-- References to pages and steps counted so far. -/
  refs     : Nat
  stepNum  : Nat
  step     : Option (List Slot)
  chunk    : Option Chunk
  outbox   : List Batch
  /-- Device time of the last boundary. -/
  boundary : Nat
deriving DecidableEq, Repr

/-- No serving configuration. -/
def Serving.init : Serving :=
  ⟨false, [], 0, 0, 0, 0, 0, 0, 0, 0, 0, [], [], [], [], [], 0, 0, 0, 0, none, none, [], 0⟩

/-- A page is referenced by an active request. -/
def Serving.inUse (v : Serving) (uid : Nat) : Bool := v.requests.any fun x => x.pages.contains uid

end Sys2Proof.Machine
end

