-- ==== Sys2Proof/Machine/Dev.lean ====
section
/-! DEFINITION. Everything the manual gives the module (all of State but the command queue), and the primitive updates
through which, and only through which, a command changes it. -/
namespace Sys2Proof.Machine

/-- The module. -/
structure Dev where
  /-- Device time in ns (R442). -/
  time    : Nat
  /-- Number of the next free value (assumption 2). -/
  freeCtr : Nat
  /-- Number of the next command in flight (assumption 2). -/
  uidCtr  : Nat
  /-- Stack memory: bytes keyed by the direct-view module address without bit 47 (R65, R219). -/
  mem     : Store Byte
  /-- Difference of each granule's 72-byte stored image from the code word of its data (R448), by granule number. -/
  errs    : Store (List Byte)
  /-- Granule numbers that the flip mask has hit and that were not written in full since (R466). -/
  hits    : Store Bool
  /-- Granule numbers whose image is written in the light code; the others' are in the strong one, of which an image of
  zeros is a word of both (R448, R452). -/
  lights  : Store Bool
  /-- Scratchpads: bytes keyed by `2^19 × (32 × cluster + core) + offset` (R68). -/
  spad    : Store Byte
  /-- Control-space registers in force, and those staged on the bench, by offset (R79, R361). -/
  regs    : Store Reg
  bench   : Store (Option Reg)
  hearth  : Hearth
  host    : HostSide
  parts   : Parts
  stackSet  : Store Stack
  /-- Channels of the stacks, at `32 × stack + channel`. -/
  chans   : Store Channel
  upkeep  : Store Upkeep
  fabric  : Fabric
  serving : Store Serving
  boot    : Boot
  board   : Board
deriving DecidableEq, Repr

/-- The module at power-on, before bring-up. -/
def Dev.init : Dev :=
  { time := 0, freeCtr := 0, uidCtr := 0, mem := [], errs := [], hits := [], lights := [], spad := [], regs := [], bench := [],
    hearth := Hearth.init, host := HostSide.init, parts := Parts.init, stackSet := [], chans := [], upkeep := [], fabric := Fabric.init,
    serving := [], boot := Boot.init, board := Board.init }

/-- A primitive update. Everything a command does to the module is a list of these. -/
inductive Fx where
  /-- Device time moves on to at least this: it starts with the rails and never decreases (R442). -/
  | tick (now : Nat)
  /-- Free values have been drawn. -/
  | draw (n : Nat)
  /-- A command number has been given out. -/
  | uid
  /-- Bytes of stack memory are written from a key on. -/
  | bytes (key : Nat) (data : List Byte)
  /-- What an area covers and `before` does not is filled with zeros, error-free (R78, R368). -/
  | fill (a : Area) (before : Option Area)
  /-- The error pattern of a granule is set; an empty one is none. -/
  | err (g : Nat) (pattern : List Byte)
  /-- The code that a granule's image is written in: light, or strong. -/
  | light (g : Nat) (on : Bool)
  /-- A granule is marked, or no longer marked, as hit by the flip mask. -/
  | hit (g : Nat) (on : Bool)
  /-- Scratchpad bytes are written from a key on. -/
  | spad (key : Nat) (data : List Byte)
  /-- Scratchpad bytes of keys `lo` to `hi - 1` are cleared. -/
  | clear (lo hi : Nat)
  /-- A register in force takes a value; only bits that exist change (R9). -/
  | reg (off v : Nat)
  /-- A register is staged (R361). -/
  | stage (off v : Nat)
  /-- The bench is emptied. -/
  | empty
  /-- One core, one cluster. -/
  | core (k : Nat) (c : Core)
  | cluster (k : Nat) (c : Cluster)
  /-- Cores and clusters of the keys that meet `p` are as at power-on again. -/
  | dropCores (p : Nat → Bool)
  /-- One core's mirror; the mirrors of the keys that meet `p` are empty again. -/
  | mirror (k : Nat) (m : Store (List Byte))
  | dropMirrors (p : Nat → Bool)
  | dropClusters (p : Nat → Bool)
  /-- The commands in flight; the arrivals on their way. -/
  | cmds (l : List Cmd)
  | arrivals (l : List Arrival)
  /-- What arbiters owe (R118). -/
  | turns (l : List Turn)
  /-- One submission ring, one host ring; those of the keys that meet `p` are unbound. -/
  | ring (n : Nat) (x : Option Ring)
  | hostRing (n : Nat) (x : Option HostRing)
  | dropRings (p : Nat → Bool)
  | dropHostRings (p : Nat → Bool)
  | qp (q : Nat) (x : Qp)
  | lost (q n : Nat)
  /-- A port: 0, or the other. -/
  | port (p : Nat) (x : Port)
  | ctrl (l : List Ctrl)
  | nonce (x : Option (List Byte))
  | ptp (x : Ptp)
  | key (p v : Nat)
  | released (p : Nat) (b : Bool)
  | received (p : Nat) (b : Bool)
  | bake (b : Option Bake)
  | fills (l : List Fill)
  | job (p j : Nat)
  | sliceEnd (p t : Nat)
  | bucket (k n t : Nat)
  | lent (k p : Nat)
  | route (off : Nat) (v : Reg)
  /-- A stack, its sifter and remaps, one channel. -/
  | stack (k : Nat) (s : Stack)
  | upkeep (k : Nat) (u : Upkeep)
  | chan (s c : Nat) (ch : Channel)
  | link (l : Nat) (x : Link)
  /-- What waits in the switch, and one round of its grants. -/
  | queue (l : List Waiting)
  | rounds (k : Nat) (l : List Nat)
  | inbox (s : Nat) (l : List Frame)
  /-- Outstanding transactions, and the number of the next. -/
  | txns (l : List Txn) (next : Nat)
  | sent (v n : Nat)
  | confirmed (v n : Nat)
  | performed (v n : Nat)
  | refused (v st : Nat)
  | serving (p : Nat) (s : Serving)
  | boot (b : Boot)
  | board (b : Board)
  /-- Power is removed: the module holds nothing across power-off (R506), the HK_SHUTDOWN latch included (R507); the
  board still drives TRST_N. -/
  | off

/-- The bits of an offset that exist. -/
def regMask (off : Nat) : Nat := (regInfo off).elim 0 (·.mask)

/-- A primitive update performed. -/
def Dev.apply (d : Dev) (e : Fx) : Dev :=
  match e with
  | .tick now => if d.board.rails then { d with time := max d.time now } else d
  | .draw n => { d with freeCtr := d.freeCtr + n }
  | .uid => { d with uidCtr := d.uidCtr + 1 }
  | .bytes k l => { d with mem := mputs 0#8 d.mem k l }
  | .fill a b => { d with
      mem := mdrop (a.without b) d.mem
      errs := mdrop (fun g => a.without b (g * 64)) d.errs
      hits := mdrop (fun g => a.without b (g * 64)) d.hits
      lights := mdrop (fun g => a.without b (g * 64)) d.lights }
  | .light g b => { d with lights := mset false d.lights g b }
  | .err g p => { d with errs := mset [] d.errs g p }
  | .hit g b => { d with hits := mset false d.hits g b }
  | .spad k l => { d with spad := mputs 0#8 d.spad k l }
  | .clear lo hi => { d with spad := mdrop (fun k => decide (lo ≤ k) && decide (k < hi)) d.spad }
  | .reg off v => { d with regs := mset (regReset off) d.regs off (BitVec.ofNat 32 (v &&& regMask off)) }
  | .stage off v => { d with bench := mset none d.bench off (some (BitVec.ofNat 32 v)) }
  | .empty => { d with bench := [] }
  | .core k c => { d with hearth := { d.hearth with cores := mset Core.init d.hearth.cores k c } }
  | .cluster k c => { d with hearth := { d.hearth with clusters := mset Cluster.init d.hearth.clusters k c } }
  | .dropCores p => { d with hearth := { d.hearth with cores := mdrop p d.hearth.cores } }
  | .mirror k m => { d with hearth := { d.hearth with mirrors := mset [] d.hearth.mirrors k m } }
  | .dropMirrors p => { d with hearth := { d.hearth with mirrors := mdrop p d.hearth.mirrors } }
  | .dropClusters p => { d with hearth := { d.hearth with clusters := mdrop p d.hearth.clusters } }
  | .cmds l => { d with hearth := { d.hearth with cmds := l } }
  | .arrivals l => { d with hearth := { d.hearth with arrivals := l } }
  | .turns l => { d with hearth := { d.hearth with turns := l } }
  | .ring n x => { d with host := { d.host with rings := mset none d.host.rings n x } }
  | .hostRing n x => { d with host := { d.host with hostRings := mset none d.host.hostRings n x } }
  | .dropRings p => { d with host := { d.host with rings := mdrop p d.host.rings } }
  | .dropHostRings p => { d with host := { d.host with hostRings := mdrop p d.host.hostRings } }
  | .qp q x => { d with host := { d.host with qps := mset Qp.init d.host.qps q x } }
  | .lost q n => { d with host := { d.host with lost := mset 0 d.host.lost q n } }
  | .port p x => { d with host := if p = 0 then { d.host with port0 := x } else { d.host with port1 := x } }
  | .ctrl l => { d with host := { d.host with ctrl := l } }
  | .nonce x => { d with host := { d.host with nonce := x } }
  | .ptp x => { d with host := { d.host with ptp := x } }
  | .key p v => { d with parts := { d.parts with keys := mset 0 d.parts.keys p v } }
  | .released p b => { d with parts := { d.parts with released := mset false d.parts.released p b } }
  | .received p b => { d with parts := { d.parts with received := mset false d.parts.received p b } }
  | .bake b => { d with parts := { d.parts with bake := b } }
  | .fills l => { d with parts := { d.parts with fills := l } }
  | .job p j => { d with parts := { d.parts with job := mset 0 d.parts.job p j } }
  | .sliceEnd p t => { d with parts := { d.parts with sliceEnd := mset 0 d.parts.sliceEnd p t } }
  | .bucket k n t => { d with parts := { d.parts with
      tokens := mset 0 d.parts.tokens k n, counted := mset 0 d.parts.counted k t } }
  | .lent k p => { d with parts := { d.parts with lent := mset 0 d.parts.lent k p } }
  | .route off v => { d with parts := { d.parts with routes := mset 0#32 d.parts.routes off v } }
  | .stack k s => { d with stackSet := mset Stack.init d.stackSet k s }
  | .upkeep k u => { d with upkeep := mset Upkeep.init d.upkeep k u }
  | .chan s c ch => { d with chans := mset Channel.init d.chans (32 * s + c) ch }
  | .link l x => { d with fabric := { d.fabric with links := mset Link.init d.fabric.links l x } }
  | .queue l => { d with fabric := { d.fabric with queue := l } }
  | .rounds k l => { d with fabric := { d.fabric with rounds := mset [] d.fabric.rounds k l } }
  | .inbox s l => { d with fabric := { d.fabric with inbox := mset [] d.fabric.inbox s l } }
  | .txns l n => { d with fabric := { d.fabric with txns := l, nextTxn := n } }
  | .sent v n => { d with fabric := { d.fabric with sent := mset 0 d.fabric.sent v n } }
  | .confirmed v n => { d with fabric := { d.fabric with confirmed := mset 0 d.fabric.confirmed v n } }
  | .performed v n => { d with fabric := { d.fabric with done := mset 0 d.fabric.done v n } }
  | .refused v st => { d with fabric := { d.fabric with refused := mset 0 d.fabric.refused v st } }
  | .serving p s => { d with serving := mset Serving.init d.serving p s }
  | .boot b => { d with boot := b }
  | .board b => { d with board := b }
  | .off => { Dev.init with
      freeCtr := d.freeCtr, uidCtr := d.uidCtr, board := { Board.init with trstN := d.board.trstN }
      boot := { Boot.init with fuses := d.boot.fuses } }

/-- The modules that a list of primitive updates makes of `d₀`. -/
inductive Reach (d₀ : Dev) : Dev → Prop where
  | refl : Reach d₀ d₀
  | step {d : Dev} (e : Fx) : Reach d₀ d → Reach d₀ (d.apply e)

/-- A command part-way, begun on the module `d₀`: the module as its updates so far leave it. It changes only by
primitive updates, which `path` records. -/
structure Run (d₀ : Dev) where
  dev  : Dev
  path : Reach d₀ dev

/-- Perform one more primitive update. -/
def Run.emit {d₀ : Dev} (r : Run d₀) (e : Fx) : Run d₀ := ⟨r.dev.apply e, .step e r.path⟩

/-- What a command makes of the module. -/
def Dev.commit (d : Dev) (f : Run d → Run d) : Dev := (f ⟨d, .refl⟩).dev

end Sys2Proof.Machine
end

