-- ==== Sys2Proof/Machine/Ops.lean ====
section
/-! DEFINITION. Named operations over the module: registers, cores, channels, rings, links, free values, device time. -/
namespace Sys2Proof.Machine
variable {d₀ : Dev}

/-- The register in force at an offset, as a number; registers computed from other state are read by `regRead`. -/
def reg (d : Dev) (off : Nat) : Nat := (mget (regReset off) d.regs off).toNat

/-- Bits `[hi:lo]` of a register. -/
def field (d : Dev) (off hi lo : Nat) : Nat := bits (reg d off) hi lo

/-- Set a register. -/
def setReg (off v : Nat) (r : Run d₀) : Run d₀ := r.emit (.reg off v)

/-- Count `n` more in a register, modulo 2^32. -/
def addReg (off n : Nat) (r : Run d₀) : Run d₀ := r.emit (.reg off ((reg r.dev off + n) % 2 ^ 32))

/-- Replace bits `[hi:lo]` of a number by `v`. -/
def withBits (n hi lo v : Nat) : Nat := n - (bits n hi lo) * 2 ^ lo + (v % 2 ^ (hi + 1 - lo)) * 2 ^ lo

/-- Replace bits of a register. -/
def setField (off hi lo v : Nat) (r : Run d₀) : Run d₀ := r.emit (.reg off (withBits (reg r.dev off) hi lo v))

/-- Set or clear one bit of a register. -/
def setRegBit (off i : Nat) (b : Bool) (r : Run d₀) : Run d₀ :=
  r.emit (.reg off (if b then setBit (reg r.dev off) i else clearBit (reg r.dev off) i))

/-- Device time reaches `now` (R442). -/
def reach (now : Nat) (r : Run d₀) : Run d₀ := r.emit (.tick now)

/-- Draw a free value (assumption 2). -/
def fresh (r : Run d₀) : Nat × Run d₀ := (Config.freeNat r.dev.freeCtr, r.emit (.draw 1))

/-- Draw `n` free values: the number of the first. -/
def freshMany (n : Nat) (r : Run d₀) : Nat × Run d₀ := (r.dev.freeCtr, r.emit (.draw n))

/-- One core. -/
def coreOf (d : Dev) (k : Nat) : Core := mget Core.init d.hearth.cores k

/-- Replace one core. -/
def setCore (k : Nat) (c : Core) (r : Run d₀) : Run d₀ :=
  r.emit (.core k c)

/-- A core's mirror. -/
def mirrorOf (d : Dev) (k : Nat) : Store (List Byte) := mget [] d.hearth.mirrors k

/-- Replace a core's mirror. -/
def setMirror (k : Nat) (m : Store (List Byte)) (r : Run d₀) : Run d₀ := r.emit (.mirror k m)

/-- One cluster. -/
def clusterOf (d : Dev) (k : Nat) : Cluster := mget Cluster.init d.hearth.clusters k

/-- Replace one cluster. -/
def setCluster (k : Nat) (c : Cluster) (r : Run d₀) : Run d₀ :=
  r.emit (.cluster k c)

/-- The command in flight of this number. -/
def cmdOf (d : Dev) (uid : Nat) : Option Cmd := d.hearth.cmds.find? (·.uid == uid)

/-- Replace the command of the same number. -/
def setCmd (c : Cmd) (r : Run d₀) : Run d₀ :=
  r.emit (.cmds (r.dev.hearth.cmds.map fun x => if x.uid == c.uid then c else x))

/-- Take a command out of flight. -/
def dropCmd (uid : Nat) (r : Run d₀) : Run d₀ :=
  r.emit (.cmds (r.dev.hearth.cmds.filter fun x => x.uid != uid))

/-- One stack. -/
def stackOf (d : Dev) (s : Nat) : Stack := mget Stack.init d.stackSet s

/-- One channel of a stack. -/
def chanOf (d : Dev) (s c : Nat) : Channel := mget Channel.init d.chans (32 * s + c)

/-- A stack's sifter, hints and remaps. -/
def upkeepOf (d : Dev) (s : Nat) : Upkeep := mget Upkeep.init d.upkeep s

/-- Replace them. -/
def setUpkeep (s : Nat) (u : Upkeep) (r : Run d₀) : Run d₀ := r.emit (.upkeep s u)

/-- Replace a stack. -/
def setStack (s : Nat) (k : Stack) (r : Run d₀) : Run d₀ := r.emit (.stack s k)

/-- Replace a channel of a stack. -/
def setChan (s c : Nat) (ch : Channel) (r : Run d₀) : Run d₀ :=
  r.emit (.chan s c ch)

/-- The recipe of this number on a stack. -/
def recipeOf (d : Dev) (s uid : Nat) : Option Recipe := (stackOf d s).recipes.find? (·.uid == uid)

/-- Replace the recipe of the same number. -/
def setRecipe (s : Nat) (x : Recipe) (r : Run d₀) : Run d₀ :=
  let k := stackOf r.dev s
  r.emit (.stack s { k with recipes := k.recipes.map fun y => if y.uid == x.uid then x else y })

/-- One submission ring. -/
def ringOf (d : Dev) (n : Nat) : Option Ring := mget none d.host.rings n

/-- Bind, change or unbind a submission ring. -/
def setRing (n : Nat) (x : Option Ring) (r : Run d₀) : Run d₀ :=
  r.emit (.ring n x)

/-- One host ring. -/
def hostRingOf (d : Dev) (n : Nat) : Option HostRing := mget none d.host.hostRings n

/-- Bind or change a host ring. -/
def setHostRing (n : Nat) (x : Option HostRing) (r : Run d₀) : Run d₀ :=
  r.emit (.hostRing n x)

/-- One queue pair. -/
def qpOf (d : Dev) (q : Nat) : Qp := mget Qp.init d.host.qps q

/-- Replace a queue pair. -/
def setQp (q : Nat) (x : Qp) (r : Run d₀) : Run d₀ :=
  r.emit (.qp q x)

/-- One port. -/
def portOf (d : Dev) (p : Nat) : Port := if p = 0 then d.host.port0 else d.host.port1

/-- Replace a port. -/
def setPort (p : Nat) (x : Port) (r : Run d₀) : Run d₀ :=
  r.emit (.port p x)

/-- Port that a queue pair's descriptor names (R427). -/
def qpPort (q : Qp) : Nat := bits (wd q.desc 0) 48 48

/-- Hand a message to the egress of a port (R424). -/
def egress (p : Nat) (m : Msg) (r : Run d₀) : Run d₀ :=
  let x := portOf r.dev p
  setPort p { x with egress := x.egress ++ [m] } r

/-- Frames have been received on a port, counted in units of 1,024 (R445). -/
def countRxMany (p n : Nat) (r : Run d₀) : Run d₀ :=
  let x := portOf r.dev p
  addReg (ethOff p 0x24) ((x.rx + n) / 1024) (setPort p { x with rx := (x.rx + n) % 1024 } r)

/-- A frame has been received on a port. -/
def countRx (p : Nat) (r : Run d₀) : Run d₀ := countRxMany p 1 r

/-- A frame is discarded and counted (R421, R425). -/
def dropFrame (p : Nat) (r : Run d₀) : Run d₀ := addReg (ethOff p 0x2C) 1 r

/-- The port has locked (R476). -/
def portUp (d : Dev) (p : Nat) : Bool := bit (reg d (ethOff p 0)) 0

/-- A queue pair is ready to send and its port up (R425, R476). -/
def qpReady (d : Dev) (q : Nat) : Bool := decide ((qpOf d q).mode = .ready) && portUp d (qpPort (qpOf d q))

/-- `n` packets arrive for a queue pair at its port: counted, and taken as `f` says, or discarded where the queue pair is
not ready to send (R425, R445). With its port down nothing arrives. -/
def arrive (q n : Nat) (f : Run d₀ → Run d₀) (r : Run d₀) : Run d₀ :=
  let p := qpPort (qpOf r.dev q)
  if !portUp r.dev p then r
  else
    let r := countRxMany p n r
    if (qpOf r.dev q).mode = .ready then f r else addReg (ethOff p 0x2C) n r

/-- One link. -/
def linkOf (d : Dev) (l : Nat) : Link := mget Link.init d.fabric.links l

/-- Replace a link. -/
def setLink (l : Nat) (x : Link) (r : Run d₀) : Run d₀ :=
  r.emit (.link l x)

/-- Serving state of a partition. -/
def servingOf (d : Dev) (p : Nat) : Serving := mget Serving.init d.serving p

/-- Replace the serving state of a partition. -/
def setServing (p : Nat) (x : Serving) (r : Run d₀) : Run d₀ := r.emit (.serving p x)

/-- Act on each of a list of things in order. -/
def forEach {α : Type} (l : List α) (f : α → Run d₀ → Run d₀) (r : Run d₀) : Run d₀ := l.foldl (fun r a => f a r) r

/-- Act only when `b`. -/
def when (b : Bool) (f : Run d₀ → Run d₀) (r : Run d₀) : Run d₀ := if b then f r else r

/-- PART_CTRL.valid of a partition; partition 0 is always in force (R354). -/
def partInForce (d : Dev) (p : Nat) : Bool := p == 0 || bit (reg d (partOff p 0)) 0

/-- The partitions in force, ascending. -/
def partsInForce (d : Dev) : List Nat := (List.range 16).filter (partInForce d)

/-- Partition that holds a cluster (R354). -/
def clusterPart (d : Dev) (k : Nat) : Option Nat :=
  (partsInForce d).find? fun p => bit (reg d (partOff p (if k < 32 then 0x08 else 0x0C))) (k % 32)

/-- A partition holds a channel (R354). -/
def holdsChan (d : Dev) (p s c : Nat) : Bool := partInForce d p && bit (reg d (partOff p (0x40 + s * 4))) c

/-- Queue pair of the host that owns a partition (R355). -/
def ownerQp (d : Dev) (p : Nat) : Nat := if p = 0 then 0 else field d (partOff p 0x04) 15 0

/-- Partition of a queue pair (R425), if it is in use. -/
def qpPart (d : Dev) (q : Nat) : Option Nat :=
  if q = 0 then some 0
  else
    let v := reg d (qpPartOff q)
    if bit v 4 && partInForce d (bits v 3 0) then some (bits v 3 0) else none

/-- The partition number that a queue pair has, in use or not (R447). -/
def qpOwner (d : Dev) (q : Nat) : Nat := if q = 0 then 0 else bits (reg d (qpPartOff q)) 3 0

/-- Enabled clusters and cores per cluster (R68, R121). -/
def clusterCount (d : Dev) : Nat := field d 0x4 23 16
/-- Enabled cores per cluster. -/
def coresPerCluster (d : Dev) : Nat := field d 0x4 31 24

/-- Mode of a channel: 0 memory, 1 process, 2 retired (R246). -/
def chanMode (d : Dev) (s c : Nat) : Nat := bits (reg d (stkOff s (if c < 16 then 0x08 else 0x0C))) (2 * (c % 16) + 1) (2 * (c % 16))

/-- This module's device number (R408). -/
def deviceNumber (d : Dev) : Nat := field d (lnkOff 0 0) 15 0

/-- Bring-up has reached event 12 (R474). -/
def isReady (d : Dev) : Bool := bit (reg d (bootOff 0)) 4


end Sys2Proof.Machine
end

