-- ==== Sys2Proof/Machine/Queue.lean ====
section
/-! DEFINITION. Status codes, host rings, events, completion entries and the completion of a command (R97, R111 to R116,
R123, R317, R428, R434 to R438). -/
namespace Sys2Proof.Machine
variable {d₀ : Dev}

/-! ## Status codes (R123) -/
/-- 0x00 -/ def stOk : Nat := 0x00
/-- 0x01 -/ def stSkipped : Nat := 0x01
/-- 0x10 -/ def stAlign : Nat := 0x10
/-- 0x11 -/ def stIndex : Nat := 0x11
/-- 0x12 -/ def stDescriptor : Nat := 0x12
/-- 0x13 -/ def stFormat : Nat := 0x13
/-- 0x20 -/ def stWait : Nat := 0x20
/-- 0x21 -/ def stOverrun : Nat := 0x21
/-- 0x22 -/ def stHalted : Nat := 0x22
/-- 0x30 -/ def stGuard : Nat := 0x30
/-- 0x31 -/ def stFold : Nat := 0x31
/-- 0x32 -/ def stMode : Nat := 0x32
/-- 0x33 -/ def stBake : Nat := 0x33
/-- 0x40 -/ def stCorrected : Nat := 0x40
/-- 0x41 -/ def stUncorrectable : Nat := 0x41
/-- 0x42 -/ def stRemapFull : Nat := 0x42
/-- 0x50 -/ def stExhausted : Nat := 0x50
/-- 0x51 -/ def stDeadline : Nat := 0x51
/-- 0x52 -/ def stStarved : Nat := 0x52
/-- 0x53 -/ def stDropped : Nat := 0x53
/-- 0x60 -/ def stDegraded : Nat := 0x60
/-- 0x61 -/ def stLinkDown : Nat := 0x61
/-- 0x70 -/ def stSig : Nat := 0x70
/-- 0x80 -/ def stWarn : Nat := 0x80
/-- 0x81 -/ def stThrottle : Nat := 0x81

/-- A report with nothing but a status. -/
def plain (st : Nat) : Report := ⟨st, noFlags, 0, 0, 0, 0⟩

/-! ## Messages on a queue pair -/

/-- Path MTU in bytes of a queue pair's code (R427). -/
def qpMtu (q : Qp) : Nat := 2 ^ (7 + bits (wd q.desc 1) 42 40)

/-- Packets a message of `n` bytes takes. -/
def packetsOf (q : Qp) (n : Nat) : Nat := max 1 (cdiv n (qpMtu q))

/-- Frames that a message leaves in. -/
def msgFrames (q : Qp) : Msg → Nat
  | .write _ _ _ d => packetsOf q d.length
  | .readData _ _ d => packetsOf q d.length
  | _ => 1

/-- A message that only its response acknowledges. -/
def isRead (m : Sent) : Bool := match m.msg with | .read _ _ _ _ _ => true | _ => false

/-- PSNs of a message of the module's own: a READ request takes as many as its response has packets. -/
def msgPackets (q : Qp) : Msg → Nat
  | .write _ _ _ d => packetsOf q d.length
  | .read _ _ _ n _ => packetsOf q n
  | _ => 1

/-- Send a request on a ready queue pair: it takes the next PSNs and stays unacknowledged until its ACK (R428). -/
def sendMsg (n : Nat) (m : Msg) (r : Run d₀) : Run d₀ :=
  let q := qpOf r.dev n
  if q.mode = .ready then
    let k := msgPackets q m
    let q' := { q with
      sendPsn := (q.sendPsn + k) % 2 ^ 24
      unacked := q.unacked ++ [⟨q.sendPsn, k, m⟩]
      since := if q.unacked.isEmpty then r.dev.time else q.since }
    egress (qpPort q) m (setQp n q' r)
  else r

/-! ## Host rings -/

/-- Entries of a host ring. -/
def hostEntries (h : HostRing) : Nat := 2 ^ h.log2

/-- The host ring has room for one more entry (R435). -/
def hostRoom (h : HostRing) : Bool := decide ((h.prod + 2 ^ 32 - h.cons) % 2 ^ 32 < hostEntries h)

/-- Write one entry into a host ring: the entry, then the producer index that publishes it (R434, R438). -/
def putEntry (n : Nat) (h : HostRing) (e : List Byte) (r : Run d₀) : Run d₀ :=
  let q := n / 16
  let p := (h.prod + 1) % 2 ^ 32
  let r := sendMsg q (.write q (h.addr + 64 * (h.prod % hostEntries h)) h.rkey e) r
  let r := sendMsg q (.write q (h.addr + 64 * hostEntries h) h.rkey (natLE p 4)) r
  setHostRing n (some { h with prod := p }) r

/-- A completion host ring can take an entry now: bound, room, its queue pair ready, none waiting (R435). -/
def hostOpen (d : Dev) (n : Nat) : Bool :=
  match hostRingOf d n with
  | some h => !h.event && hostRoom h && h.wait.isEmpty && decide ((qpOf d (n / 16)).mode = .ready)
  | none => false

/-- No completion entry waits for a host ring that is bound (R436). -/
def hostQuiet (d : Dev) (n : Nat) : Bool :=
  match hostRingOf d n with
  | some h => !h.event && h.wait.isEmpty
  | none => false

/-- Hand a completion entry to a host ring: it is written at once or waits in the module (R435). A host ring that is
not bound takes none. -/
def postCompletion (n : Nat) (e : List Byte) (r : Run d₀) : Run d₀ :=
  match hostRingOf r.dev n with
  | some h =>
    if hostOpen r.dev n then putEntry n h e r else setHostRing n (some { h with wait := h.wait ++ [e] }) r
  | none => r

/-- The event host ring of a partition's owner: the lowest-numbered one bound (R434, R437). -/
def eventRing (d : Dev) (p : Nat) : Option (Nat × HostRing) :=
  ((List.range 16).filterMap fun h =>
    let n := ownerQp d p * 16 + h
    match hostRingOf d n with
    | some x => if x.event then some (n, x) else none
    | none => none).head?

/-- R437: the layout of an event entry. -/
def eventEntry (code source part tag id detail time lost : Nat) : List Byte :=
  natLE (code + source * 2 ^ 8 + part * 2 ^ 12 + tag * 2 ^ 16 + id % 2 ^ 32 * 2 ^ 32) 8 ++ natLE detail 8 ++
    natLE time 8 ++ natLE (lost % 2 ^ 32) 8 ++ List.replicate 32 0#8

/-- Count the events discarded since the last one written to a queue pair's event ring. -/
def setLost (q n : Nat) (r : Run d₀) : Run d₀ :=
  r.emit (.lost q n)

/-- Send an event to the owner of a partition (R435, R437): written, or discarded and counted in ETH_EVENTS_LOST. -/
def postEvent (part code source tag id detail : Nat) (r : Run d₀) : Run d₀ :=
  let q := ownerQp r.dev part
  let lost := mget 0 r.dev.host.lost q
  let drop := addReg 0x400108 1 (setLost q (lost + 1) r)
  match eventRing r.dev part with
  | some (n, h) =>
    if hostRoom h && decide ((qpOf r.dev (n / 16)).mode = .ready) then
      setLost q 0 (putEntry n h (eventEntry code source part tag id detail r.dev.time lost) r)
    else drop
  | none => drop

/-- R112: the completion entry of a command. -/
def completionEntry (rep : Report) (signal queue core ring seq time : Nat) : List Byte :=
  natLE (rep.status + flagBits rep.flags * 2 ^ 8 + signal * 2 ^ 16 + queue * 2 ^ 28 + core % 32 * 2 ^ 30 +
      core / 32 * 2 ^ 35 + rep.iteration % 2 ^ 16 * 2 ^ 48) 8 ++
    natLE (seq % 2 ^ 32 + ring * 2 ^ 32) 8 ++ natLE time 8 ++ natLE rep.faultAddr 8 ++
    natLE (rep.faultCount % 2 ^ 32 + rep.faultWord * 2 ^ 32) 8 ++ List.replicate 24 0#8

/-- What a request completion reports besides status, kind and identity (R317). -/
structure Outcome where
  tokens  : Nat
  steps   : Nat
  length  : Nat
  reused  : Nat
  starved : Nat
  first   : Option Nat
  encoded : Nat
  dropped : Nat

/-- Nothing to report: no token was published. -/
def noOutcome : Outcome := ⟨0, 0, 0, 0, 0, none, 0, 0⟩

/-- R317: a request completion entry. -/
def requestEntry (status reason kind id ring seq time : Nat) (o : Outcome) : List Byte :=
  natLE (status + reason * 2 ^ 8 + 2 ^ 15 + kind * 2 ^ 16 + id % 2 ^ 32 * 2 ^ 32) 8 ++
    natLE (seq % 2 ^ 32 + ring * 2 ^ 32) 8 ++ natLE time 8 ++
    natLE (o.tokens % 2 ^ 32 + o.steps % 2 ^ 32 * 2 ^ 32) 8 ++ natLE (o.length % 2 ^ 22 + o.reused % 2 ^ 32 * 2 ^ 32) 8 ++
    natLE (o.starved % 2 ^ 32 + (o.first.elim 0xFFFFFFFF fun t => min t 0xFFFFFFFE) * 2 ^ 32) 8 ++
    natLE (o.encoded % 2 ^ 32 + o.dropped % 2 ^ 32 * 2 ^ 32) 8 ++ List.replicate 8 0#8

/-- R317: the id of a request entry's completion: of a stream kind, the stream number (R314). -/
def entryId (w : List Dword) : Nat :=
  if 3 ≤ bits (wd w 0) 7 0 ∧ bits (wd w 0) 7 0 ≤ 5 then bits (wd w 0) 15 12 else bits (wd w 0) 63 32

/-! ## Fields of words 0 and 1 (R86, R87) -/
/-- Opcode. -/ def fOpcode (w : List Dword) : Nat := bits (wd w 0) 7 0
/-- Scope. -/ def fScope (w : List Dword) : Nat := bits (wd w 0) 10 8
/-- Predicated. -/ def fPred (w : List Dword) : Bool := bit (wd w 0) 11
/-- Predicate counter. -/ def fPredCounter (w : List Dword) : Nat := bits (wd w 0) 15 12
/-- Predicate comparator. -/ def fPredComp (w : List Dword) : Nat := bits (wd w 0) 17 16
/-- Rounding mode. -/ def fRound (w : List Dword) : Nat := bits (wd w 0) 19 18
/-- Mask policy zero. -/ def fMaskZero (w : List Dword) : Bool := bit (wd w 0) 20
/-- Negative indices wrap. -/ def fWrap (w : List Dword) : Bool := bit (wd w 0) 21
/-- COPY writes pad positions. -/ def fPadWrite (w : List Dword) : Bool := bit (wd w 0) 22
/-- Completion entry wanted. -/ def fNotify (w : List Dword) : Bool := bit (wd w 0) 23
/-- First wait tag. -/ def fWaitA (w : List Dword) : Nat := bits (wd w 0) 39 28
/-- Second wait tag. -/ def fWaitB (w : List Dword) : Nat := bits (wd w 0) 51 40
/-- Signal tag. -/ def fSignal (w : List Dword) : Nat := bits (wd w 0) 63 52
/-- Repeat count. -/ def fRepeat (w : List Dword) : Nat := bits (wd w 1) 15 0
/-- Format of the first source. -/ def fFmtA (w : List Dword) : Nat := bits (wd w 1) 19 16
/-- Format of the second source. -/ def fFmtB (w : List Dword) : Nat := bits (wd w 1) 23 20
/-- Format of the output. -/ def fFmtOut (w : List Dword) : Nat := bits (wd w 1) 27 24
/-- Wait timeout in ns (R87). -/
def fTimeout (w : List Dword) : Nat :=
  if bits (wd w 1) 47 32 = 0 then 100000000 else bits (wd w 1) 47 32 * 10000

/-! ## Completion of a command -/

/-- The head's unmet time stands still from here on (R114, R364). -/
def Head.pause (t : Nat) (h : Head) : Head :=
  { h with waited := if h.unmet then h.waited + (t - h.mark) else h.waited, unmet := false, mark := t }

/-- Halt the queue of a ring and tell the owner (R113). -/
def haltQueue (ringNo status part queue core seq : Nat) (r : Run d₀) : Run d₀ :=
  let r := match ringOf r.dev ringNo with
    | some x => setRing ringNo (some { x with halted := true, head := x.head.map (Head.pause r.dev.time) }) r
    | none => r
  postEvent part status 0 0 ringNo (queue + core % 32 * 2 ^ 2 + core / 32 * 2 ^ 7 + seq % 2 ^ 32 * 2 ^ 32) r

/-- Send an arrival of a tag on its way to a core (R97). -/
def sendArrival (core tag : Nat) (r : Run d₀) : Run d₀ :=
  if tag = 0 then r
  else
    r.emit (.arrivals (r.dev.hearth.arrivals ++ [⟨core, tag⟩]))

/-- The completion entry of R111, when one is due, and the halt of R113. -/
def reportEnd (rep : Report) (words : List Dword) (part queue core ringNo host seq : Nat) (discard : Bool)
    (r : Run d₀) : Run d₀ :=
  let r := when ((decide (stSkipped < rep.status) || fNotify words) && !discard)
    (postCompletion host (completionEntry rep (fSignal words) queue core ringNo seq r.dev.time)) r
  when (decide (0x10 ≤ rep.status)) (haltQueue ringNo rep.status part queue core seq) r

/-- Cores that a SIGNAL's target word names (R99), none of them outside the partition. -/
def signalCores (d : Dev) (part target : Nat) : List Nat :=
  let k := bits target 7 2
  let all := fun (c : Nat) => (List.range (coresPerCluster d)).map fun j => 32 * c + j
  let named := match bits target 1 0 with
    | 0 => if bits target 12 8 < coresPerCluster d then [32 * k + bits target 12 8] else []
    | 1 => all k
    | 2 => (List.range (clusterCount d)).flatMap all
    | _ => []
  named.filter fun c => decide (clusterPart d (c / 32) = some part)

/-- R97: where the arrival of a completing command goes, other than a SIGNAL's or a MATMUL's. `dest` is the core whose
scratchpad is the destination of a VECOP, REDUCE, GATHER, SCATTER, COPY or DMA. -/
def arrivalCore (c : Cmd) (dest : Option Nat) : Nat := dest.getD c.core

/-- A command completes: it leaves flight, delivers its arrivals (R97), and reports (R111, R113). A SIGNAL of kind 3 that
is skipped sends its event as one that ran does, since R97 and R104 deliver its tag either way (DESIGN CHOICE,
assumption 51). -/
def completeCmd (c : Cmd) (rep : Report) (dest : Option Nat) (r : Run d₀) : Run d₀ :=
  let r := dropCmd c.uid r
  let good := decide (rep.status = stOk) || decide (rep.status = stSkipped)
  let r :=
    if !good then r
    else if fOpcode c.words = 0x01 then r
    else if fOpcode c.words = 0x11 then
      let t := wd c.words 2
      if bits t 1 0 = 3 then
        postEvent c.part stOk 3 (fSignal c.words) c.ring
          (c.queue + c.core % 32 * 2 ^ 2 + c.core / 32 * 2 ^ 7 + c.seq % 2 ^ 32 * 2 ^ 32) r
      else forEach (signalCores r.dev c.part t) (fun k => sendArrival k (fSignal c.words)) r
    else sendArrival (arrivalCore c dest) (fSignal c.words) r
  reportEnd rep c.words c.part c.queue c.core c.ring c.host c.seq c.discard r

end Sys2Proof.Machine
end

