-- ==== Sys2Proof/Machine/Regulate.lean ====
section
/-! DEFINITION. Token-bucket regulators (R370 to R372). A class is named by the offset of its PART_REG_ register: 0x20 stack
injection, 0x24 fabric egress, 0x28 host egress, 0x2C atomics; a port by its number in the class. -/
namespace Sys2Proof.Machine
variable {d₀ : Dev}

/-- Lanes in service of a link (R420). -/
def linkWidth (d : Dev) (l : Nat) : Nat := field d (lnkOff l 0x04) 7 4

/-- C of a port, in bytes per ns (R370); of a link in proportion to its lanes. -/
def portCapacity (d : Dev) (o port : Nat) : Nat :=
  if o = 0x20 then 2048 else if o = 0x24 then linkWidth d port * 50 else if o = 0x28 then 100 else 64

/-- Bucket of a partition at a port. -/
def bucketKey (o port p : Nat) : Nat := o * 2 ^ 16 + port * 16 + p

/-- What a bucket gains in a ns, in units of 1/256 byte (R371). -/
def fillRate (d : Dev) (o port p : Nat) : Nat := field d (partOff p o) 8 0 * portCapacity d o port

/-- Tokens of a partition at a port now, in units of 1/256 byte. -/
def tokensNow (d : Dev) (o port p : Nat) : Nat :=
  let k := bucketKey o port p
  min (field d (partOff p o) 22 16 * 1024 * 256)
    (mget 0 d.parts.tokens k + fillRate d o port p * (d.time - mget 0 d.parts.counted k))

/-- The bucket holds the charge of `n` bytes. -/
def hasTokens (d : Dev) (o port p n : Nat) : Bool := decide (n * 256 ≤ tokensNow d o port p)

/-- The partition may borrow in a class. -/
def mayBorrow (d : Dev) (p o : Nat) : Bool := bit (reg d (partOff p o)) 24

/-- The partition that borrowed last at a port. -/
def lastLent (d : Dev) (o port : Nat) : Nat := mget 0 d.parts.lent (o * 64 + port)

/-- Of partitions that wait to borrow at a port, the one whose turn it is: the next by number after the last (R371). -/
def borrowTurn (d : Dev) (o port : Nat) (l : List Nat) : Option Nat :=
  ((List.range 16).map fun i => (lastLent d o port + 1 + i) % 16).find? l.contains

/-- A charge of `n` bytes does not pass: the bucket lacks it, and the partition may not borrow, or of those that wait at
the port (`waiting`, by partition) another has tokens for `n` bytes or its turn to borrow (R371, R372). -/
def regShut (d : Dev) (o port p n : Nat) (waiting : List Nat) : Bool :=
  let others := waiting.filter (· != p)
  !hasTokens d o port p n &&
    (!mayBorrow d p o || (others.any fun q => hasTokens d o port q n) ||
      borrowTurn d o port (p :: others.filter fun q => mayBorrow d q o) != some p)

/-- Draw a charge of `n` bytes that has passed; one that borrows draws nothing, and is noted as the port's last. -/
def charge (o port p n : Nat) (r : Run d₀) : Run d₀ :=
  if n = 0 then r
  else if hasTokens r.dev o port p n then
    r.emit (.bucket (bucketKey o port p) (tokensNow r.dev o port p - n * 256) r.dev.time)
  else if mayBorrow r.dev p o then r.emit (.lent (o * 64 + port) p)
  else r

/-- Draw a charge of `n` bytes that passes as the bucket fills: what the bucket lacks is counted from when it has
passed. -/
def chargeAnyway (o port p n : Nat) (r : Run d₀) : Run d₀ :=
  let t := tokensNow r.dev o port p
  let rate := fillRate r.dev o port p
  if hasTokens r.dev o port p n || mayBorrow r.dev p o || rate == 0 then charge o port p n r
  else
    r.emit (.bucket (bucketKey o port p) 0 (max r.dev.time (mget 0 r.dev.parts.counted (bucketKey o port p)) +
      cdiv (n * 256 - t) rate))

/-- Draw the charges of `n` units of 64 bytes that one command passes together: those that the bucket holds; the others
borrow, or pass as it fills. -/
def chargeUnits (o port p n : Nat) (r : Run d₀) : Run d₀ :=
  let held := min n (tokensNow r.dev o port p / 16384)
  if mayBorrow r.dev p o then charge o port p (64 * (n - held)) (charge o port p (64 * held) r)
  else chargeAnyway o port p (64 * n) r

/-- Ports of a class (R370). -/
def classPorts (o : Nat) : Nat := if o = 0x28 then 2 else 20

/-- The bucket of a partition at a port is counted up to now, before its rate changes (R371). -/
def settleBucket (o port p : Nat) (r : Run d₀) : Run d₀ :=
  if r.dev.time < mget 0 r.dev.parts.counted (bucketKey o port p) then r
  else r.emit (.bucket (bucketKey o port p) (tokensNow r.dev o port p) r.dev.time)

/-- Every bucket of a partition and class is counted up to now. -/
def settleClass (p o : Nat) (r : Run d₀) : Run d₀ :=
  forEach (List.range (classPorts o)) (fun port => settleBucket o port p) r

/-- The buckets at a link are counted up to now, before its width changes (R370). -/
def settleLink (l : Nat) (r : Run d₀) : Run d₀ := forEach (List.range 16) (settleBucket 0x24 l) r

end Sys2Proof.Machine
end

