-- ==== Sys2Proof/Machine/Egress.lean ====
section
/-! DEFINITION. What leaves a host port, and in which order (R370, R371, R422 to R425, R445). -/
namespace Sys2Proof.Machine
variable {d₀ : Dev}

/-- Queue pair of a message. -/
def msgQp : Msg → Option Nat
  | .write q _ _ _ => some q
  | .read q _ _ _ _ => some q
  | .readData q _ _ => some q
  | .ack q _ => some q
  | .nak q _ _ => some q
  | .cnp q => some q
  | _ => none

/-- Messages that leave before all others: acknowledgements, NAKs and CNPs (R424); the port's own frames, which belong
to no queue pair, leave with them (DESIGN CHOICE, assumption 53). -/
def urgent : Msg → Bool
  | .ack _ _ => true
  | .nak _ _ _ => true
  | .cnp _ => true
  | m => (msgQp m).isNone

/-! ## The receive buffer (R423) -/

/-- A priority of a port is lossless, and its thresholds in KiB (R423, R445): xon at or above xoff acts as xoff − 1. -/
def pfcLimits (d : Dev) (p n : Nat) : Option (Nat × Nat) :=
  let v := reg d (ethOff p 0x20)
  if bit v n then some (bits v 15 8, if bits v 15 8 ≤ bits v 23 16 then bits v 15 8 - 1 else bits v 23 16) else none

/-- What the receive buffer of a priority holds is judged: XOFF above xoff, XON again below xon. -/
def judgeBuffer (p n : Nat) (r : Run d₀) : Run d₀ :=
  let x := portOf r.dev p
  let held := mget 0 x.fill n
  match pfcLimits r.dev p n with
  | some (xoff, xon) =>
    if xoff < held && !bit x.xoff n then
      addReg (ethOff p 0x3C) 1 (egress p (.pfc n true) (setPort p { x with xoff := setBit x.xoff n } r))
    else if held < xon && bit x.xoff n then
      addReg (ethOff p 0x3C) 1 (egress p (.pfc n false) (setPort p { x with xoff := clearBit x.xoff n } r))
    else r
  | none => r

/-- The receive buffer of a priority holds `held` KiB. -/
def holdBuffer (p n held : Nat) (r : Run d₀) : Run d₀ :=
  let x := portOf r.dev p
  judgeBuffer p n (setPort p { x with fill := mset 0 x.fill n (min held 256) } r)

/-- Some of what a port's receive buffer holds is taken out of it (DESIGN CHOICE, assumption 53: how much is free). -/
def drainPort (p : Nat) (r : Run d₀) : Run d₀ :=
  forEach (List.range 8) (fun n r =>
    let held := mget 0 (portOf r.dev p).fill n
    if held = 0 then r
    else
      let (v, r) := fresh r
      holdBuffer p n (held - v % (held + 1)) r) r

/-! ## Order of leaving -/

/-- A received XOFF holds a message's priority (R423). -/
def heldByPfc (d : Dev) (p : Nat) (m : Msg) : Bool :=
  (msgQp m).elim false fun q => bit (portOf d p).paused (bits (wd (qpOf d q).desc 0) 51 49)

/-- Messages of a queue pair that wait at its port, but those that answer its peer, are dropped. -/
def dropBulk (q : Nat) (r : Run d₀) : Run d₀ :=
  let p := qpPort (qpOf r.dev q)
  let x := portOf r.dev p
  setPort p { x with egress := x.egress.filter (fun m => urgent m || msgQp m != some q), begun := mset 0 x.begun q 0 } r

/-- Every message of a queue pair that waits at a port is dropped. -/
def dropPackets (q : Nat) (r : Run d₀) : Run d₀ :=
  forEach [0, 1] (fun p r =>
    let x := portOf r.dev p
    setPort p { x with egress := x.egress.filter (fun m => msgQp m != some q), begun := mset 0 x.begun q 0 } r) r

/-- Data bytes of packet `k` of a message. -/
def packetData (x : Qp) (k : Nat) : Msg → Nat
  | .write _ _ _ data => min (qpMtu x) (data.length - k * qpMtu x)
  | .readData _ _ data => min (qpMtu x) (data.length - k * qpMtu x)
  | _ => 0

/-- Bytes of a frame of a queue pair: Ethernet, IP, UDP and BTH headers, extended transport header, data, padding, ICRC
and FCS (PRESUMED, assumption 53). -/
def roceBytes (x : Qp) (k : Nat) (m : Msg) : Nat :=
  let n := packetData x k m
  let ext := match m with
    | .write _ _ _ _ => if k = 0 then 16 else 0
    | .read _ _ _ _ _ => 16
    | .readData _ _ data => if k = 0 ∨ k + 1 = packetsOf x data.length then 4 else 0
    | .cnp _ => 16
    | _ => 4
  14 + (if bit (wd x.desc 0) 58 then 4 else 0) + (if bit (wd x.desc 0) 59 then 40 else 20) + 8 + 12 + ext + cdiv n 4 * 4 + 8

/-- The headers that a queue pair gives its packets (R422, R425, R427). -/
def roceHeader (q : Nat) (x : Qp) : RoceHeader :=
  let w := wd x.desc
  let ipv6 := bit (w 0) 59
  { mac := bits (w 0) 47 0
    vlan := if bit (w 0) 58 then some (bits (w 0) 51 49, bits (w 1) 11 0) else none
    ipv6 := ipv6
    ip := (natLE (w 3) 8 ++ natLE (w 4) 8).take (if ipv6 then 16 else 4)
    dscp := bits (w 0) 57 52, ecn := 2, srcPort := 0xC000 + q, dstPort := 4791, checksum := ipv6
    qpn := bits (w 1) 39 16 }

/-- A frame leaves a port: packet `k` of a message (R445). -/
def leavePacket (p k : Nat) (m : Msg) (r : Run d₀) : Run d₀ :=
  let x := portOf r.dev p
  let out : Out := ⟨m, k, (msgQp m).map fun q => roceHeader q (qpOf r.dev q)⟩
  addReg (ethOff p 0x28) ((x.tx + 1) / 1024) (setPort p { x with sent := x.sent ++ [out], tx := (x.tx + 1) % 1024 } r)

/-- The oldest message of each queue pair that waits at a port to be granted, with its place. -/
def oldestBulk (d : Dev) (p : Nat) : List (Nat × Nat × Msg) :=
  let e := (portOf d p).egress
  (List.range e.length).foldl (fun l i =>
    match e[i]? with
    | some m =>
      match msgQp m with
      | some q => if urgent m || l.any (fun z => z.2.1 == q) then l else l ++ [(i, q, m)]
      | none => l
    | none => l) []

/-- Partition of a queue pair that sends. -/
def sendPart (d : Dev) (q : Nat) : Nat := (qpPart d q).getD 0

/-- The host-egress regulator has the tokens for the next packet of a message (R370). -/
def packetTokens (d : Dev) (p : Nat) (e : Nat × Nat × Msg) : Bool :=
  hasTokens d 0x28 p (sendPart d e.2.1) (roceBytes (qpOf d e.2.1) (mget 0 (portOf d p).begun e.2.1) e.2.2)

/-- Messages whose next packet may leave now: not held by PFC, with tokens or borrowing (R371). -/
def mayLeave (d : Dev) (p : Nat) : List (Nat × Nat × Msg) :=
  let l := (oldestBulk d p).filter fun e => !heldByPfc d p e.2.2
  l.filter fun e =>
    packetTokens d p e || (mayBorrow d (sendPart d e.2.1) 0x28 &&
      !l.any fun y => sendPart d y.2.1 != sendPart d e.2.1 && packetTokens d p y)

/-- The partition that is granted next, and those left in the round: in ascending number (R424). -/
def nextPart (round ready : List Nat) : Option (Nat × List Nat) :=
  match round.dropWhile fun p => !ready.contains p with
  | p :: rest => some (p, rest)
  | [] =>
    match ready with
    | p :: rest => some (p, rest)
    | [] => none

/-- The next message after the queue pair that was granted last, round-robin. -/
def nextQp (last : Nat) (l : List (Nat × Nat × Msg)) : Option (Nat × Nat × Msg) :=
  let up := fun (l : List (Nat × Nat × Msg)) =>
    l.foldl (fun (best : Option (Nat × Nat × Msg)) e =>
      if best.elim true fun b => decide (e.2.1 < b.2.1) then some e else best) none
  (up (l.filter fun e => decide (last < e.2.1))).or (up l)

/-- A port sends one packet other than the urgent ones (R424). -/
def grantPacket (p : Nat) (r : Run d₀) : Run d₀ :=
  let l := mayLeave r.dev p
  let x := portOf r.dev p
  match nextPart x.round ((List.range 16).filter fun a => l.any fun e => sendPart r.dev e.2.1 == a) with
  | none => r
  | some (part, rest) =>
    match nextQp (mget 0 x.lastQp part) (l.filter fun e => sendPart r.dev e.2.1 == part) with
    | none => r
    | some (i, q, m) =>
      let k := mget 0 x.begun q
      let y := qpOf r.dev q
      let last := decide (msgFrames y m ≤ k + 1)
      let r := charge 0x28 p part (roceBytes y k m) r
      let r := setPort p { x with
        round := rest
        lastQp := mset 0 x.lastQp part q
        begun := mset 0 x.begun q (if last then 0 else k + 1)
        egress := if last then x.egress.eraseIdx i else x.egress } r
      leavePacket p k m r

/-- A port that is up sends one frame, if one may leave (R424). -/
def grantPort (p : Nat) (r : Run d₀) : Run d₀ :=
  let x := portOf r.dev p
  if !portUp r.dev p then r
  else
    match findIdx (fun m => urgent m && !heldByPfc r.dev p m) x.egress 0 with
    | some (i, m) => leavePacket p 0 m (setPort p { x with egress := x.egress.eraseIdx i } r)
    | none => grantPacket p r

/-- What the module does while no command waits: each host port takes some of what its receive buffer holds, and sends one
frame (DESIGN CHOICE, assumption 10). -/
def idle (r : Run d₀) : Run d₀ := grantPort 1 (grantPort 0 (drainPort 1 (drainPort 0 r)))

end Sys2Proof.Machine
end

