-- ==== Sys2Proof/Machine/Ecc.lean ====
section
/-! DEFINITION. The strong and the light code of a granule (R448 to R451), over the 72-byte difference between a stored
image and the code word of the data it was written with (both codes are linear). -/
namespace Sys2Proof.Machine

/-- Multiplication by x in GF(2^8), primitive polynomial x^8+x^4+x^3+x^2+1 (R449). -/
def gfX (a : Nat) : Nat := if 128 ≤ a then ((2 * a) ^^^ 0x11D) % 256 else 2 * a

/-- `fuel` steps of the shift-and-add product. -/
def gfMulRun : Nat → Nat → Nat → Nat
  | 0, _, _ => 0
  | fuel + 1, a, b => (if b % 2 = 1 then a else 0) ^^^ gfMulRun fuel (gfX a) (b / 2)

/-- The product in GF(2^8). -/
def gfMul (a b : Nat) : Nat := gfMulRun 8 a b

/-- α^n. -/
def gfPow (n : Nat) : Nat := (List.range (n % 255)).foldl (fun a _ => gfX a) 1

/-- The n-th power of an element, by repeated product. -/
def gfExp (a : Nat) : Nat → Nat
  | 0 => 1
  | n + 1 => gfMul a (gfExp a n)

/-- The inverse a^254. -/
def gfInv (a : Nat) : Nat :=
  let a2 := gfMul a a
  let a4 := gfMul a2 a2
  let a8 := gfMul a4 a4
  let a16 := gfMul a8 a8
  let a32 := gfMul a16 a16
  let a64 := gfMul a32 a32
  let a128 := gfMul a64 a64
  gfMul a128 (gfMul a64 (gfMul a32 (gfMul a16 (gfMul a8 (gfMul a4 a2)))))

/-- A polynomial, lowest coefficient first, at a point. -/
def gfEval (p : List Nat) (x : Nat) : Nat := p.foldr (fun c acc => c ^^^ gfMul acc x) 0

/-- The sum of two polynomials. -/
def gfAdd : List Nat → List Nat → List Nat
  | [], q => q
  | p, [] => p
  | a :: p, b :: q => (a ^^^ b) :: gfAdd p q

/-- The generator polynomial Π (x − α^i), i = 0 to 7, lowest coefficient first (R449). -/
def rsGen : List Nat :=
  (List.range 8).foldl (fun g i => gfAdd (0 :: g) (g.map (gfMul (gfPow i)))) [1]

/-- One step of the remainder of the division by the generator, highest coefficient first. -/
def rsStep (rem : List Nat) (b : Nat) : List Nat :=
  let f := b ^^^ rem.headD 0
  List.zipWith (fun r g => r ^^^ gfMul f g) (rem.drop 1 ++ [0]) ((rsGen.take 8).reverse)

/-- The 8 check bytes of 64 data bytes (R449). -/
def rsCheck (data : List Byte) : List Byte :=
  ((data.map BitVec.toNat).foldl rsStep (List.replicate 8 0)).map (BitVec.ofNat 8)

/-- The eight syndromes of a 72-byte difference; byte k is the coefficient of x^(71−k). -/
def rsSyndromes (e : List Byte) : List Nat :=
  (List.range 8).map fun j => e.foldl (fun acc b => gfMul acc (gfPow j) ^^^ b.toNat) 0

/-- The state of the search for the shortest register. -/
structure RsSearch where
  c : List Nat
  b : List Nat
  len : Nat
  gap : Nat
  last : Nat
deriving DecidableEq, Repr

/-- One step of the search for the shortest register that makes the syndromes. -/
def rsSearchStep (s : List Nat) (r : RsSearch) (n : Nat) : RsSearch :=
  let d := (List.range (r.len + 1)).foldl (fun acc i => acc ^^^ gfMul (r.c.getD i 0) (s.getD (n - i) 0)) 0
  if d = 0 then { r with gap := r.gap + 1 }
  else
    let t := gfAdd r.c (List.replicate r.gap 0 ++ r.b.map (gfMul (gfMul d (gfInv r.last))))
    if 2 * r.len ≤ n then ⟨t, r.c, n + 1 - r.len, 1, d⟩ else { r with c := t, gap := r.gap + 1 }

/-- The places whose locators are roots of the register. -/
def rsPlaces (c : List Nat) : List Nat :=
  (List.range 72).filter fun k => gfEval c (gfPow (255 - (71 - k))) = 0

/-- The error values at the places found. -/
def rsValue (s c : List Nat) (k : Nat) : Nat :=
  let x := gfPow (71 - k)
  let xi := gfPow (255 - (71 - k))
  let omega := (List.range 8).map fun i =>
    (List.range (i + 1)).foldl (fun acc j => acc ^^^ gfMul (s.getD j 0) (c.getD (i - j) 0)) 0
  let deriv := (List.range c.length).map fun i => if i % 2 = 0 then c.getD (i + 1) 0 else 0
  gfMul (gfMul x (gfEval omega xi)) (gfInv (gfEval deriv xi))

/-- The pattern of at most four symbols with these syndromes, if there is one. -/
def rsPattern (s : List Nat) : Option (List Byte) :=
  let r := (List.range 8).foldl (rsSearchStep s) ⟨[1], [1], 0, 1, 1⟩
  let places := rsPlaces r.c
  if 4 < r.len || places.length ≠ r.len then none
  else
    let e := (List.range 72).map fun k =>
      BitVec.ofNat 8 (if places.contains k then rsValue s r.c k else 0)
    if rsSyndromes e = s then some e else none

/-- What a decoder makes of a stored image. `residual` is the difference of the delivered data from the data written. -/
structure EccResult where
  uncorrectable : Bool
  corrected : Bool
  residual : List Byte
deriving DecidableEq, Repr

/-- R450: the strong decoder. -/
def decodeStrong (err : List Byte) : EccResult :=
  let s := rsSyndromes err
  if s.all (· == 0) then ⟨false, false, err.take 64⟩
  else
    match rsPattern s with
    | some c => ⟨false, true, xorBytes (err.take 64) (c.take 64)⟩
    | none => ⟨true, false, List.replicate 64 0⟩

/-- How many bits of a byte are set. -/
def weight (n : Nat) : Nat := popcount n 8

/-- R451: the columns of the 64 data bits. -/
def lightColumns : List Nat :=
  ((List.range 256).filter fun n => weight n = 3) ++ (((List.range 256).filter fun n => weight n = 5).take 8)

/-- The column of data bit b (0 to 63) or of check bit b − 64 (R451). -/
def lightColumn (b : Nat) : Nat := if b < 64 then lightColumns.getD b 0 else 2 ^ (b - 64)

/-- The syndrome of one word's difference: 8 data bytes and the check byte as one 72-bit number. -/
def lightSyndrome (e : Nat) : Nat :=
  (List.range 72).foldl (fun acc b => if bit e b then acc ^^^ lightColumn b else acc) 0

/-- One word: uncorrectable, corrected, and what remains of the difference. -/
def lightWord (e : Nat) : Bool × Bool × Nat :=
  let s := lightSyndrome e
  if s = 0 then (false, false, e)
  else
    match (List.range 72).find? fun b => lightColumn b = s with
    | some b => (false, true, e ^^^ 2 ^ b)
    | none => (true, false, 0)

/-- R451: the light decoder over the eight words of a granule. -/
def decodeLight (err : List Byte) : EccResult :=
  let ws := (List.range 8).map fun w =>
    lightWord (leNat ((err.drop (8 * w)).take 8 ++ [err.getD (64 + w) 0]))
  ⟨ws.any (·.1), !(ws.any (·.1)) && ws.any (·.2.1), ws.flatMap fun w => natLE w.2.2 8⟩

/-- The light code's check byte of a 64-bit word (R451). -/
def lightCheck (w : Nat) : Nat :=
  (List.range 64).foldl (fun acc b => if bit w b then acc ^^^ lightColumn b else acc) 0

/-- Decode under the code of a region: strong or light (R452). -/
def eccDecode (light : Bool) (err : List Byte) : EccResult :=
  if light then decodeLight err else decodeStrong err

end Sys2Proof.Machine
end

