-- ==== Sys2Proof/Machine/Region.lean ====
section
/-! DEFINITION. The region table (R76 to R78), the rules it must keep, and the descriptors of queue pairs, rings and host
rings (R427, R433, R434). -/
namespace Sys2Proof.Machine

/-- One entry of the region table. -/
structure Region where
  entry  : Nat
  valid  : Bool
  zero   : Bool
  scrub  : Bool
  light  : Bool
  owner  : Nat
  area   : Area
deriving DecidableEq, Repr

/-- Entry `n` with these three register values (R78). -/
def regionFrom (n base limit attr : Nat) : Region :=
  ⟨n, bit attr 31, bit attr 7, bit attr 6, bit attr 4, bits attr 3 0, ⟨bit attr 5, bits base 25 0, bits limit 25 0⟩⟩

/-- Entry `n` as a register reading gives it. -/
def regionVia (rd : Nat → Nat) (n : Nat) : Region :=
  regionFrom n (rd (rgnOff n 0)) (rd (rgnOff n 4)) (rd (rgnOff n 8))

/-- Entry `n` in force. -/
def regionAt (d : Dev) (n : Nat) : Region := regionVia (reg d) n

/-- Entries whose attributes a store lists: an entry not listed is not valid. -/
def listedEntries (m : Store Reg) : List Nat :=
  m.filterMap fun e =>
    if 0x48000 ≤ e.1 ∧ e.1 < 0x4A000 ∧ e.1 % 16 = 8 then some ((e.1 - 0x48000) / 16) else none

/-- The valid entries in force, ascending. -/
def validRegions (d : Dev) : List Region := ((listedEntries d.regs).map (regionAt d)).filter (·.valid)

/-- The valid entry that covers a key (R76; rules 4 and 5 of R77 leave at most one). -/
def regionOf (d : Dev) (k : Nat) : Option Region := (validRegions d).find? fun x => x.area.covers k

/-- The code of a granule: light, or strong (also where no region covers it, assumption 3). -/
def isLight (d : Dev) (k : Nat) : Bool := (regionOf d k).elim false (·.light)

/-- R76: the partition owns the region that covers the key, and the region is one of the view of the address (03, line
127: an entry covers blocks of one view). -/
def ownsKey (d : Dev) (direct : Bool) (p k : Nat) : Bool :=
  (regionOf d k).elim false fun x => x.owner == p && x.area.direct == direct

/-- R67: the address is not withdrawn: its view's group or channel is available. -/
def available (d : Dev) (direct : Bool) (k : Nat) : Bool :=
  bit (reg d (0x40 + keyStack k * 4)) (keyChan k) && (direct || bit (reg d 0x20) (keyChan k / 4))

/-! ## The rules of R77 -/

/-- Blocks of 2 MiB in a channel group. -/
def groupBlocks : Nat := 81920

/-- Channels of one stack that a direct area covers, as `32 × stack + channel`, or all of an interleaved area's. -/
def areaChans (a : Area) : List Nat :=
  if a.direct then
    (List.range (a.limit / 2 ^ 10 + 1 - a.base / 2 ^ 10)).map fun i => (a.base / 2 ^ 10 + i) % 1024
  else
    (List.range 20).flatMap fun s => (List.range 4).map fun j => 32 * s + 4 * (a.base / groupBlocks) + j

/-- Rule 1. -/
def rule77_1 (x : Region) : Bool := decide (x.area.base ≤ x.area.limit)
/-- Rule 2. -/
def rule77_2 (x : Region) : Bool :=
  x.area.direct ||
    (x.area.base / groupBlocks == x.area.limit / groupBlocks && decide (x.area.limit < 8 * groupBlocks))
/-- Rule 3. -/
def rule77_3 (x : Region) : Bool :=
  !x.area.direct ||
    (x.area.base / 2 ^ 15 == x.area.limit / 2 ^ 15 && decide (x.area.limit / 2 ^ 15 < 20))
/-- Two areas overlap. -/
def overlap (a b : Area) : Bool :=
  a.direct == b.direct && decide (a.base ≤ b.limit) && decide (b.base ≤ a.limit)
/-- Rule 4 for two entries. -/
def rule77_4 (x y : Region) : Bool := x.entry == y.entry || !overlap x.area y.area
/-- Rule 5 for two entries. -/
def rule77_5 (x y : Region) : Bool :=
  x.area.direct == y.area.direct ||
    (let i := if x.area.direct then y else x
     let k := if x.area.direct then x else y
     !((areaChans k.area).any fun c => c % 32 / 4 == i.area.base / groupBlocks))

/-! ## Descriptors of the host side -/

/-- R427: a queue-pair descriptor is valid. -/
def qpDescOk (w : List Dword) : Bool :=
  w.length == 8 && bits (wd w 0) 63 60 == 0 && bits (wd w 1) 15 12 == 0 && bits (wd w 1) 63 50 == 0 &&
    [3, 4, 5].contains (bits (wd w 1) 42 40) && decide (1 ≤ bits (wd w 1) 46 43) && bits (wd w 2) 63 48 == 0 &&
    wd w 5 == 0 && wd w 6 == 0 && wd w 7 == 0

/-- R433: the fields of a submission-ring descriptor that its own words judge. -/
def ringDescOk (w : List Dword) : Bool :=
  let b := wd w 1
  w.length == 8 && decide (6 ≤ bits b 4 0) && decide (bits b 4 0 ≤ 16) && decide (bits b 6 5 ≤ 2) && !bit b 7 &&
    bits b 23 21 == 0 && bits b 63 36 == 0 && (bits b 6 5 == 0 || bits b 20 8 == 0) &&
    bits (wd w 0) 63 48 == 0xFFFF && wd w 0 % 64 == 0 &&
    [2, 3, 4, 5, 6, 7].all fun i => wd w i == 0

/-- R433: the ring a descriptor describes. -/
def ringFrom (w : List Dword) : Ring :=
  let b := wd w 1
  { base := bits (wd w 0) 47 0, log2 := bits b 4 0, target := bits b 6 5, core := 32 * bits b 13 8 + bits b 18 14,
    queue := bits b 20 19, job := bits b 31 24, host := bits b 35 32, fetch := 0, prod := 0, halted := false,
    head := none, walk := none }

/-- R434: the host ring a descriptor describes, if it is valid. -/
def hostRingFrom (w : List Dword) : Option HostRing :=
  let b := wd w 1
  if w.length == 8 && wd w 0 % 64 == 0 && decide (4 ≤ bits b 36 32) && decide (bits b 36 32 ≤ 16) &&
      bits b 63 38 == 0 && [2, 3, 4, 5, 6, 7].all fun i => wd w i == 0 then
    some { addr := wd w 0, rkey := bits b 31 0, log2 := bits b 36 32, event := bit b 37, prod := 0, cons := 0,
           wait := [] }
  else none

/-- A queue pair connected with a descriptor (R427). -/
def connectedQp (w : List Dword) : Qp :=
  { Qp.init with mode := .ready, desc := w, sendPsn := bits (wd w 2) 23 0, recvPsn := bits (wd w 2) 47 24 }

end Sys2Proof.Machine
end

