-- ==== Sys2Proof/Machine/Granule.lean ====
section
/-! DEFINITION. Granules of stack memory at their home: reads that check the stored image (R448 to R457), whole and
merged writes (R185, R197, R199), the flip mask (R468), and the counters they keep. -/
namespace Sys2Proof.Machine
variable {d₀ : Dev}

/-- The 64 bytes of data that a granule's stored image encodes. -/
def granuleData (d : Dev) (k : Nat) : List Byte := mgets 0#8 d.mem (keyGranule k) 64

/-- The module address of a key: in the view of the region that covers it (R77, rule 5), else direct. -/
def viewAddr (d : Dev) (k : Nat) : Nat :=
  match regionOf d k with
  | some x => if x.area.direct then 2 ^ 47 + k else interAddr k
  | none => 2 ^ 47 + k

/-- The data address of a granule, for events and fault reports (R453, R456). -/
def granuleAddr (d : Dev) (k : Nat) : Nat := 0xFFFF * 2 ^ 48 + viewAddr d (keyGranule k)

/-- Partition that an event about a granule goes to (R456). -/
def granulePart (d : Dev) (k : Nat) : Nat := (regionOf d k).elim 0 (·.owner)

/-- ECC_ register of a stack (R472). -/
def eccStk (s o : Nat) : Nat := eccOff (0x400 + s * 0x20 + o)

/-- Count one in the register of the region that covers the key. -/
def countRegion (k o : Nat) (r : Run d₀) : Run d₀ :=
  match regionOf r.dev k with
  | some x => addReg (eccOff (0x4000 + x.entry * 8 + o)) 1 r
  | none => r

/-- R460: place a granule in its stack's hint queue. -/
def placeHint (k : Nat) (r : Run d₀) : Run d₀ :=
  let s := keyStack k
  let x := upkeepOf r.dev s
  if x.hints.length < 16 then setUpkeep s { x with hints := x.hints ++ [keyGranule k] } r
  else addReg (eccStk s 0x18) 1 r

/-- R457: the ECC_CORRECTED event, at most one per stack and ms. -/
def correctedEvent (k : Nat) (r : Run d₀) : Run d₀ :=
  let s := keyStack k
  let x := upkeepOf r.dev s
  if x.corrAt.elim false fun t => decide (r.dev.time < t + 1000000) then addReg (eccOff 0x14) 1 r
  else
    postEvent (granulePart r.dev k) stCorrected 6 0 s (granuleAddr r.dev k)
      (setUpkeep s { x with corrAt := some r.dev.time } r)

/-- A read that corrected the granule: counters and event (R457); a demand read also places a hint (R452). -/
def noteCorrected (demand : Bool) (k : Nat) (r : Run d₀) : Run d₀ :=
  let r := addReg (eccOff 0x00) 1 r
  let r := addReg (eccStk (keyStack k) 0x10) 1 r
  let r := countRegion k 0 r
  let r := when demand (placeHint k) r
  correctedEvent k r

/-- R466: the firmware has a row to remap on account of this granule, unless the flip mask has hit it. -/
def askRemap (k : Nat) (r : Run d₀) : Run d₀ :=
  let g := keyGranule k
  let x := upkeepOf r.dev (keyStack k)
  if mget false r.dev.hits (k / 64) || x.due.contains g then r
  else setUpkeep (keyStack k) { x with due := x.due ++ [g] } r

/-- An uncorrectable granule found: counters, ECC_LAST and event (R453, R456, R473). -/
def countUncorrectable (k : Nat) (r : Run d₀) : Run d₀ :=
  let a := viewAddr r.dev (keyGranule k)
  let r := addReg (eccOff 0x04) 1 r
  let r := addReg (eccStk (keyStack k) 0x14) 1 r
  let r := countRegion k 4 r
  let r := setReg (eccOff 0x18) (a % 2 ^ 32) r
  let r := setReg (eccOff 0x1C) (a / 2 ^ 32 + 2 ^ 31) r
  postEvent (granulePart r.dev k) stUncorrectable 6 0 (keyStack k) (granuleAddr r.dev k) r

/-- A read that found the granule uncorrectable, which asks for a remap of its row (R466). -/
def noteUncorrectable (k : Nat) (r : Run d₀) : Run d₀ := countUncorrectable k (askRemap k r)

/-- Check bytes of 64 data bytes under the light or the strong code (R449, R451). -/
def checkBytes (light : Bool) (data : List Byte) : List Byte :=
  if light then (List.range 8).map fun w => BitVec.ofNat 8 (lightCheck (leNat ((data.drop (8 * w)).take 8))) else rsCheck data

/-- The difference of a granule's stored image from the code word that its data has under its region's code: what has
disturbed it, and the check bytes of another code that the image was written in, under an entry before this one (R78,
R452). -/
def imageError (d : Dev) (k : Nat) : List Byte :=
  let e := mget [] d.errs (k / 64)
  if mget false d.lights (k / 64) = isLight d k then e
  else
    let data := granuleData d k
    let x := List.replicate 64 0#8 ++ xorBytes (checkBytes true data) (checkBytes false data)
    if e.isEmpty then x else xorBytes e x

/-- What a granule's stored image decodes to under its region's code. -/
def granuleCheck (d : Dev) (k : Nat) : EccResult :=
  match imageError d k with
  | [] => ⟨false, false, []⟩
  | e => eccDecode (isLight d k) e

/-- The data that a read delivers (R452): what was written, but for a miscorrection's residue (R450). -/
def delivered (d : Dev) (k : Nat) : List Byte :=
  let x := (granuleCheck d k).residual
  if x.isEmpty then granuleData d k else xorBytes (granuleData d k) ((x ++ List.replicate 64 0#8).take 64)

/-- Read a granule at its home: none when it is uncorrectable (R452, R453). -/
def readHome (k : Nat) (r : Run d₀) : Option (List Byte) × Run d₀ :=
  let c := granuleCheck r.dev k
  let r := when (chanMode r.dev (keyStack k) (keyChan k) == 0) (addReg (stkOff (keyStack k) 0x30) 1) r
  if c.uncorrectable then (none, noteUncorrectable k r)
  else (some (delivered r.dev k), when c.corrected (noteCorrected true k) r)

/-- Set a granule's difference pattern; one of zeros is none. -/
def setErr (k : Nat) (pattern : List Byte) (r : Run d₀) : Run d₀ :=
  r.emit (.err (k / 64) (if pattern.all (· == 0#8) then [] else pattern))

/-- R448: a disturbance of a granule's stored image, XORed into it. -/
def disturb (k : Nat) (pattern : List Byte) (r : Run d₀) : Run d₀ :=
  let p := (pattern ++ List.replicate 72 0#8).take 72
  match mget [] r.dev.errs (k / 64) with
  | [] => setErr k p r
  | e => setErr k (xorBytes e p) r

/-- The 72 bytes of ECC_FLIP_MASK (R468). -/
def flipMask (d : Dev) : List Byte := (List.range 18).flatMap fun i => natLE (reg d (eccOff (0x140 + 4 * i))) 4

/-- The flip mask is armed on an entry that covers the key. -/
def flipHits (d : Dev) (k : Nat) : Bool :=
  bit (reg d (eccOff 0x100)) 31 &&
    (regionOf d k).elim false fun x => x.entry == field d (eccOff 0x100) 8 0

/-- The image of a granule replaced by the code word of new data (R185); the write keeps no error, but for the flip
mask where it hits (R468). -/
def encodeGranule (k : Nat) (data : List Byte) (maskable full : Bool) (r : Run d₀) : Run d₀ :=
  let k := keyGranule k
  let hit := maskable && flipHits r.dev k
  let a := viewAddr r.dev k
  let r := (r.emit (.bytes k (data.take 64))).emit (.light (k / 64) (isLight r.dev k))
  if hit then
    let r := setErr k (flipMask r.dev) r
    let r := r.emit (.hit (k / 64) true)
    let r := setRegBit (eccOff 0x100) 31 false r
    let r := setReg (eccOff 0x104) (a % 2 ^ 32) r
    setReg (eccOff 0x108) (a / 2 ^ 32 + 2 ^ 31) r
  else
    let r := setErr k [] r
    when full (fun r => r.emit (.hit (k / 64) false)) r

/-- Write all 64 bytes of a granule. -/
def writeHome (k : Nat) (data : List Byte) (r : Run d₀) : Run d₀ :=
  let r := when (chanMode r.dev (keyStack k) (keyChan k) == 0) (addReg (stkOff (keyStack k) 0x34) 1) r
  encodeGranule k data true true r

/-- An atomic unit writes back a granule it has read (R188). -/
def storeHome (k : Nat) (data : List Byte) (r : Run d₀) : Run d₀ :=
  let r := when (chanMode r.dev (keyStack k) (keyChan k) == 0) (addReg (stkOff (keyStack k) 0x34) 1) r
  encodeGranule k data true false r

/-- Bytes `new` where `mask` has a bit, `old` elsewhere. -/
def mergeBytes (mask : Nat) (old new : List Byte) : List Byte :=
  (List.range 64).map fun i => if bit mask i then new.getD i 0 else old.getD i 0

/-- A mask of all 64 bytes. -/
def fullMask : Nat := 2 ^ 64 - 1

/-- Write a granule's stored image back corrected and encoded afresh, as the sifter does (R460); never hit by the flip
mask (R468). -/
def writeBack (k : Nat) (r : Run d₀) : Run d₀ := encodeGranule k (delivered r.dev (keyGranule k)) false false r

/-! ## Rows and channels that take no access for a while (R464, R489) -/

/-- The row that holds a key is being copied to its spare. -/
def rowHeld (d : Dev) (k : Nat) : Bool :=
  (upkeepOf d (keyStack k)).remaps.any fun m =>
    m.channel == keyChan k && m.bank == keyBank k && m.row == keyRow k

/-- No access to the key is performed now: its row is being copied, or its channel's interface is retrained. -/
def homeHeld (d : Dev) (k : Nat) : Bool := (chanOf d (keyStack k) (keyChan k)).retrain || rowHeld d k

/-- Some row is being copied or some channel retrained. -/
def anyHeld (d : Dev) : Bool := d.upkeep.any (fun e => !e.2.remaps.isEmpty) || d.chans.any (·.2.retrain)

/-- A row of the channel is being copied (R465). -/
def remapping (d : Dev) (s c : Nat) : Bool := (upkeepOf d s).remaps.any (·.channel == c)

/-! ## Copies of a network-attached atomic unit (R188, R189) -/

/-- A unit's copy goes home and is dropped. An uncorrectable granule does not arise: the unit writes all 64 bytes. -/
def dropAtomic (cluster g : Nat) (r : Run d₀) : Run d₀ :=
  let c := clusterOf r.dev cluster
  match mget [] c.atomic g with
  | [] => r
  | data =>
    writeHome (g * 64) data
      (setCluster cluster { c with atomic := mset [] c.atomic g [], last := mset 0 c.last g 0 } r)

/-- Before an agent writes a granule at its home, the copies that network-attached units hold of it go home: their atomics
precede the write in the granule's order (R177; DEDUCED, assumption 13). -/
def settleAll (k : Nat) (r : Run d₀) : Run d₀ :=
  forEach ((r.dev.hearth.clusters.filter fun e => !(mget [] e.2.atomic (k / 64)).isEmpty).map (·.1))
    (fun c => dropAtomic c (k / 64)) r

/-- The copies of a granule that the units of other clusters hold go home. -/
def settleOthers (cluster k : Nat) (r : Run d₀) : Run d₀ :=
  forEach ((r.dev.hearth.clusters.filter fun e => e.1 != cluster && !(mget [] e.2.atomic (k / 64)).isEmpty).map (·.1))
    (fun c => dropAtomic c (k / 64)) r

/-- Mask of a whole image that a merge has formed of bytes it read earlier (R197). -/
def mergedMask : Nat := 2 ^ 64 + fullMask

/-- R197: write the masked bytes of a granule, all at once or by a merge at the home; false where the merge read meets
an uncorrectable error, and nothing is written (R199). -/
def mergeHome (k mask : Nat) (data : List Byte) (r : Run d₀) : Bool × Run d₀ :=
  let r := settleAll k r
  if mask = fullMask then (true, writeHome k data r)
  else if mask = mergedMask then (true, storeHome (keyGranule k) data r)
  else
    match readHome k r with
    | (none, r) => (false, r)
    | (some old, r) =>
      let r := when (chanMode r.dev (keyStack k) (keyChan k) == 0) (addReg (stkOff (keyStack k) 0x34) 1) r
      (true, encodeGranule k (mergeBytes mask old data) true false r)

/-- Every copy of a granule in caches and mirrors is dropped (R174). -/
def dropCopies (cluster : Nat) (g : Nat) (r : Run d₀) : Run d₀ :=
  let c := clusterOf r.dev cluster
  setCluster cluster { c with cache := mset [] c.cache g [] } r

/-- A core's mirror drops its copy of a granule. -/
def dropMirror (core g : Nat) (r : Run d₀) : Run d₀ :=
  setMirror core (mset [] (mirrorOf r.dev core) g []) r

end Sys2Proof.Machine
end

