-- ==== Sys2Proof/Machine/Access.lean ====
section
/-! DEFINITION. Data addresses (R60, R61, R65, R68, R69, R542) and the accesses of a core to granules: copies in caches
and mirrors (R172 to R174), the network-attached unit's copy (R188, R189), scratchpads (R455) and merges (R197). -/
namespace Sys2Proof.Machine
variable {d₀ : Dev}

/-- Where a data address lies. -/
inductive Place where
  /-- A scratchpad byte, by its key. -/
  | spad (key : Nat)
  /-- A byte of this module's memory: view and key. -/
  | mem (direct : Bool) (key : Nat)
  /-- A byte of another module's memory: device and module address. -/
  | remote (dev addr : Nat)
  /-- No such address. -/
  | none
deriving DecidableEq, Repr

/-- R68: a scratchpad local address names an existing byte. -/
def spadOk (d : Dev) (l : Nat) : Bool :=
  decide (l < 2 ^ 30) && decide (l / 2 ^ 24 < clusterCount d) && decide (l / 2 ^ 19 % 32 < coresPerCluster d) &&
    decide (l % 2 ^ 19 < 0x60000)

/-- R60, R61: where a 64-bit data address lies. -/
def placeOf (d : Dev) (a : Nat) : Place :=
  let sp := a / 2 ^ 48
  let l := a % 2 ^ 48
  if sp = 0xFFFE then (if spadOk d l then .spad l else .none)
  else if sp = 0xFFFF ∨ (sp = deviceNumber d ∧ sp < 0x1000) then
    match moduleKey l with
    | some k => .mem (bit l 47) k
    | none => .none
  else if sp < 0x1000 then (if (moduleKey l).isSome then .remote sp l else .none)
  else .none

/-- The data address in one spelling: this module's own device number is space 0xFFFF (R61). -/
def plainAddr (d : Dev) (a : Nat) : Nat :=
  if a / 2 ^ 48 = deviceNumber d ∧ a / 2 ^ 48 < 0x1000 then 0xFFFF * 2 ^ 48 + a % 2 ^ 48 else a

/-- R67, R69, R76: the partition may reach the place. -/
def placeOwned (d : Dev) (p : Nat) : Place → Bool
  | .spad k => clusterPart d (k / 2 ^ 24) == some p
  | .mem v k => available d v k && ownsKey d v p k
  | .remote _ _ => true
  | .none => false

/-- The place lies in a process-mode channel of this module. -/
def placeProcess (d : Dev) : Place → Bool
  | .mem _ k => chanMode d (keyStack k) (keyChan k) == 1
  | _ => false

/-- No access to the address is performed now (R464, R489). -/
def addrHeld (d : Dev) (a : Nat) : Bool :=
  match placeOf d a with
  | .mem _ k => homeHeld d k
  | _ => false

/-- No access to `n` bytes from an address on is performed now. -/
def rangeHeld (d : Dev) (a n : Nat) : Bool :=
  anyHeld d && (List.range (cdiv n 64 + 1)).any fun i => addrHeld d (a - a % 64 + 64 * i)

/-- Cluster of a core. -/
def coreCluster (core : Nat) : Nat := core / 32

/-! ## Reads -/

/-- Which copies a read may be served from (R173). -/
structure Copies where
  cache  : Bool
  mirror : Bool
deriving DecidableEq, Repr

/-- A read that never uses a copy. -/
def atHome : Copies := ⟨false, false⟩

/-- Before a core of the cluster reads or writes a granule at its home, its own unit's copy goes home (DEDUCED,
assumption 13). -/
def settleAtomic (core k : Nat) (r : Run d₀) : Run d₀ := dropAtomic (coreCluster core) (k / 64) r

/-- Granules a cluster cache and a mirror hold at most (R70, R172). -/
def cacheSize : Nat := 16384
/-- See `cacheSize`. -/
def mirrorSize : Nat := 256

/-- The copy that serves a read, if one is present: with both present, either (R173). -/
def findCopy (core : Nat) (c : Copies) (g : Nat) (r : Run d₀) : List Byte × Run d₀ :=
  let inCache := if c.cache then mget [] (clusterOf r.dev (coreCluster core)).cache g else []
  let inMirror := if c.mirror then mget [] (mirrorOf r.dev core) g else []
  if inCache.isEmpty then (inMirror, r)
  else if inMirror.isEmpty then (inCache, r)
  else
    let (n, r) := fresh r
    (if n % 2 = 0 then inCache else inMirror, r)

/-- On a miss a copy may be kept (R173). -/
def keepCopy (core : Nat) (c : Copies) (g : Nat) (data : List Byte) (r : Run d₀) : Run d₀ :=
  let (n, r) := fresh r
  let cl := clusterOf r.dev (coreCluster core)
  let m := mirrorOf r.dev core
  let r := when (c.cache && bit n 0 && decide (cl.cache.length < cacheSize))
    (setCluster (coreCluster core) { cl with cache := mset [] cl.cache g data }) r
  when (c.mirror && bit n 1 && decide (m.length < mirrorSize)) (setMirror core (mset [] m g data)) r

/-- Read the granule of this module's memory that holds a key, for a core: none when it is uncorrectable. -/
def readMem (core : Nat) (c : Copies) (k : Nat) (r : Run d₀) : Option (List Byte) × Run d₀ :=
  let g := k / 64
  let (copy, r) := findCopy core c g r
  if copy.isEmpty then
    match readHome k (settleAtomic core k r) with
    | (some data, r) => (some data, if c.cache || c.mirror then keepCopy core c g data r else r)
    | (none, r) => (none, r)
  else (some copy, r)

/-- 64 bytes of a scratchpad. -/
def readSpad (d : Dev) (k : Nat) : List Byte := mgets 0#8 d.spad (k - k % 64) 64

/-- R455: an uncorrectable scratchpad error is counted and reported. -/
def noteSpad (k : Nat) (r : Run d₀) : Run d₀ :=
  let r := addReg (eccOff 0x0C) 1 r
  postEvent ((clusterPart r.dev (k / 2 ^ 24)).getD 0) stUncorrectable 6 0 0xFFFFFFFF (0xFFFE * 2 ^ 48 + k) r

/-- An uncorrectable error of on-die storage other than a scratchpad (R455, R456). -/
def noteSram (part : Nat) (r : Run d₀) : Run d₀ :=
  postEvent part stUncorrectable 6 0 0xFFFFFFFF 0 (addReg (eccOff 0x0C) 1 r)

/-- Bytes at a data address as they stand, for what the module decides without performing a read. -/
def peek (d : Dev) (a n : Nat) : List Byte :=
  (List.range n).map fun i =>
    match placeOf d (a + i) with
    | .spad k => mget 0#8 d.spad k
    | .mem _ k => (delivered d (keyGranule k)).getD (k % 64) 0
    | _ => 0

/-- Key of a data address in this module's memory. -/
def memKey (d : Dev) (a : Nat) : Option Nat :=
  match placeOf d a with
  | .mem _ k => some k
  | _ => none

/-- What a list of granule reads delivers: the granules by data address / 64, the first failing data address. -/
structure ReadSet where
  buf   : Store (List Byte)
  fault : Option Nat

/-- Read one granule by its data address into a set. `upset` is what the scratchpad's checkers find (R455). From the first
failing granule on nothing more is read; the set then holds what the granules would have delivered, for the new contents
that a fault may leave behind (R163, R209). -/
def readInto (core : Nat) (c : Copies) (upset : Upset) (a : Nat) (x : ReadSet × Run d₀) : ReadSet × Run d₀ :=
  let s := x.1
  let r := x.2
  let here := a - a % 64
  let missed := { s with buf := mset [] s.buf (a / 64) (peek r.dev here 64) }
  if s.fault.isSome then (missed, r)
  else
    match placeOf r.dev a with
    | .spad k =>
      let s' := { s with buf := mset [] s.buf (a / 64) (readSpad r.dev k) }
      match upset with
      | .none => (s', r)
      | .corrected => (s', addReg (eccOff 0x08) 1 r)
      | .uncorrectable => ({ s' with fault := some here }, noteSpad (k - k % 64) r)
    | .mem _ k =>
      match readMem core c k r with
      | (some data, r) => ({ s with buf := mset [] s.buf (a / 64) data }, r)
      | (none, r) => ({ missed with fault := some here }, r)
    | _ => (s, r)

/-- The upset of a step that reads in several batches strikes one of them, free. -/
def upsetOf (pick : Nat) (batches batch : Nat) (upset : Upset) : Upset :=
  if pick % batches = batch then upset else .none

/-- The scratchpad granule of a list of reads that an upset strikes: any one of them, free. -/
def victim (upset : Upset) (l : List Nat) (r : Run d₀) : Option Nat × Run d₀ :=
  let sp := l.filter fun a => match placeOf r.dev a with | .spad _ => true | _ => false
  if upset = .none then (none, r)
  else
    let (n, r) := fresh r
    (sp[n % sp.length]?, r)

/-- Further granules into a set, each once, in order; an upset strikes one of the scratchpad granules. -/
def readMore (core : Nat) (c : Copies) (upset : Upset) (l : List Nat) (x : ReadSet × Run d₀) : ReadSet × Run d₀ :=
  let (v, r) := victim upset l x.2
  l.foldl (fun x a => readInto core c (if v = some a then upset else .none) a x) (x.1, r)

/-- Read granules by data address. -/
def readAll (core : Nat) (c : Copies) (upset : Upset) (l : List Nat) (r : Run d₀) : ReadSet × Run d₀ :=
  readMore core c upset l (⟨[], none⟩, r)

/-- A byte of a read set. -/
def bufByte (b : Store (List Byte)) (a : Nat) : Byte := (mget [] b (a / 64)).getD (a % 64) 0

/-- `n` bytes of a read set. -/
def bufBytes (b : Store (List Byte)) (a n : Nat) : List Byte := (List.range n).map fun i => bufByte b (a + i)

/-- A little-endian number of a read set. -/
def bufNat (b : Store (List Byte)) (a n : Nat) : Nat := leNat (bufBytes b a n)

/-! ## Writes -/

/-- Bytes to be written: by data address / 64, which bytes, and their values. -/
abbrev WriteSet := Store (Nat × List Byte)

/-- Nothing to be written. -/
def noWrite : Nat × List Byte := (0, [])

/-- Add one byte. -/
def putByte (w : WriteSet) (a : Nat) (v : Byte) : WriteSet :=
  let e := mget noWrite w (a / 64)
  let old := if e.2.isEmpty then List.replicate 64 0#8 else e.2
  mset noWrite w (a / 64) (setBit e.1 (a % 64), old.set (a % 64) v)

/-- Add bytes from an address on. -/
def putBytes (w : WriteSet) (a : Nat) : List Byte → WriteSet
  | [] => w
  | v :: r => putBytes (putByte w a v) (a + 1) r

/-- A core writes masked bytes of a granule of this module's memory: the merge reads at the home, and its own cluster's
and mirror's copies are dropped (R174, R197). -/
def writeMem (core k mask : Nat) (data : List Byte) (r : Run d₀) : Bool × Run d₀ :=
  mergeHome k mask data (dropMirror core (k / 64) (dropCopies (coreCluster core) (k / 64) r))

/-- Write masked bytes of a scratchpad granule. -/
def writeSpad (k mask : Nat) (data : List Byte) (r : Run d₀) : Run d₀ :=
  let k := k - k % 64
  r.emit (.spad k (mergeBytes mask (readSpad r.dev k) data))

/-- A core writes masked bytes of one granule by its data address. -/
def writeGranuleAt (core a mask : Nat) (data : List Byte) (r : Run d₀) : Run d₀ :=
  match placeOf r.dev a with
  | .spad k => writeSpad k mask data r
  | .mem _ k => (writeMem core k mask data r).2
  | _ => r

/-- A write that needs a merge read: of some of the granule's bytes, not all (R197). -/
def inPart (e : Nat × Nat × List Byte) : Bool := e.2.1 != fullMask && e.2.1 != mergedMask

/-- The merge read of a granule to be written in part would meet an uncorrectable error (R199). -/
def mergeFails (d : Dev) (e : Nat × Nat × List Byte) : Bool :=
  match placeOf d (e.1 * 64) with
  | .mem _ k => inPart e && (granuleCheck d k).uncorrectable
  | _ => false

/-- Before the merge reads of an iteration, the copies that units hold of those granules go home (R177, R199). -/
def settleMerges (w : WriteSet) (r : Run d₀) : Run d₀ :=
  forEach w (fun e r =>
    match placeOf r.dev (e.1 * 64) with
    | .mem _ k => when (inPart e) (settleAll k) r
    | _ => r) r

/-- A whole image that a core has formed reaches its granule. -/
def writeImage (core : Nat) (e : Late) (r : Run d₀) : Run d₀ :=
  match placeOf r.dev (e.granule * 64) with
  | .mem _ k =>
    let r := settleAll k (dropMirror core (k / 64) (dropCopies (coreCluster core) (k / 64) r))
    if e.full then writeHome (keyGranule k) e.image r else storeHome (keyGranule k) e.image r
  | .spad _ => writeGranuleAt core (e.granule * 64) fullMask e.image r
  | _ => r

/-- The whole image that a write of a granule makes, its merge read done now at the granule's home (R197); none where that
read fails. -/
def formImage (e : Nat × Nat × List Byte) (r : Run d₀) : Option Late × Run d₀ :=
  if e.2.1 = fullMask then (some ⟨e.1, true, e.2.2⟩, r)
  else if e.2.1 = mergedMask then (some ⟨e.1, false, e.2.2⟩, r)
  else
    match placeOf r.dev (e.1 * 64) with
    | .mem _ k =>
      match readHome k (settleAll k r) with
      | (some old, r) => (some ⟨e.1, false, mergeBytes e.2.1 old e.2.2⟩, r)
      | (none, r) => (none, r)
    | .spad k => (some ⟨e.1, false, mergeBytes e.2.1 (readSpad r.dev k) e.2.2⟩, r)
    | _ => (none, r)

/-- Stack and channel of the granule of a write, as one number. -/
def writeRank (d : Dev) (e : Nat × Nat × List Byte) : Nat :=
  match placeOf d (e.1 * 64) with
  | .mem _ k => 32 * keyStack k + keyChan k
  | _ => 0

/-- One write put among others, before the first of a higher rank. -/
def insertWrite (d : Dev) (e : Nat × Nat × List Byte) : WriteSet → WriteSet
  | [] => [e]
  | x :: l => if writeRank d e < writeRank d x then e :: x :: l else x :: insertWrite d e l

/-- The order of the writes that one step performs: ascending; while the flip mask is armed the lowest stack, then the
lowest channel, comes first, since the writes of one tick are hit in that order (R468). -/
def tickOrder (d : Dev) (w : WriteSet) : WriteSet :=
  if bit (reg d (eccOff 0x100)) 31 then w.foldl (fun l e => insertWrite d e l) [] else w

/-- Form the images of an iteration's writes; each reaches its granule now, or later, which is free, so that a write of
another agent may fall between a merge's read and its write (R185, R197, R208). Answers those still on their way. -/
def writeOrKeep (core : Nat) (w : WriteSet) (r : Run d₀) : List Late × Run d₀ :=
  (tickOrder r.dev w).foldl (fun z e =>
    let (n, r) := fresh z.2
    if n % 2 = 0 then (z.1, writeGranuleAt core (e.1 * 64) e.2.1 e.2.2 r)
    else
      let (i, r) := formImage e r
      (z.1 ++ i.toList, r)) ([], r)

/-- Perform writes of a core, ascending. -/
def writeAll (core : Nat) (w : WriteSet) (r : Run d₀) : Run d₀ :=
  forEach (tickOrder r.dev w) (fun e => writeGranuleAt core (e.1 * 64) e.2.1 e.2.2) r

/-- Perform some of a set of writes, which ones being free: what a fault leaves behind (R163, R209). -/
def writeSome (core : Nat) (w : WriteSet) (r : Run d₀) : Run d₀ :=
  forEach (tickOrder r.dev w) (fun e r =>
    let (n, r) := fresh r
    when (n % 2 == 1) (writeGranuleAt core (e.1 * 64) e.2.1 e.2.2) r) r

/-- The scratchpad granule whose merge read an upset strikes: any one of those written in part, free (R199, R455). -/
def mergeVictim (upset : Upset) (w : WriteSet) (r : Run d₀) : Option Nat × Run d₀ :=
  victim upset ((w.filter fun e => e.2.1 != fullMask).map fun e => e.1 * 64) r

/-- Perform the writes of one iteration; `upset` is what the checkers find in its scratchpad merge reads. Where a merge
read fails, the data address of that granule is answered and each other granule holds its old or its new image, which is
free (R163, R199, R209). Images still on their way are answered beside it. -/
def writeIter (core : Nat) (w : WriteSet) (upset : Upset) (r : Run d₀) : (Option Nat × List Late) × Run d₀ :=
  let (v, r) := mergeVictim upset w (settleMerges w r)
  let struck := fun (e : Nat × Nat × List Byte) => upset == .uncorrectable && v == some (e.1 * 64)
  let bad := fun (e : Nat × Nat × List Byte) => mergeFails r.dev e || struck e
  match w.find? bad with
  | none =>
    let (late, r) := writeOrKeep core w (when (decide (upset = .corrected) && v.isSome) (addReg (eccOff 0x08) 1) r)
    ((none, late), r)
  | some e =>
    let good := w.filter fun x => !bad x
    let r := match placeOf r.dev (e.1 * 64) with
      | .mem _ k => (readHome k r).2
      | .spad k => noteSpad (k - k % 64) r
      | _ => r
    ((some (e.1 * 64), []), writeSome core good r)

end Sys2Proof.Machine
end

