-- ==== Sys2Proof/Machine/Float.lean ====
section
/-! DEFINITION. The eleven value formats and the scales (R26 to R41), exact arithmetic on their values and the one
rounding that every result and every conversion goes through (R48 to R57). -/
namespace Sys2Proof.Machine

/-- A decoded value, exact: NaN, an infinity, or `± mag × 2^e / den`. -/
inductive Val where
  | nan
  | inf (neg : Bool)
  | fin (neg : Bool) (mag : Nat) (e : Int) (den : Nat)
deriving DecidableEq, Repr

/-- `+0`. -/
def vzero : Val := .fin false 0 0 1
/-- An integer as a value. -/
def vint (i : Int) : Val := .fin (decide (i < 0)) i.natAbs 0 1
/-- `2^e`. -/
def vpow2 (e : Int) : Val := .fin false 1 e 1

/-- The sign of a value; NaN counts as positive (R54: canonical NaNs are positive). -/
def vneg : Val → Bool
  | .nan => false
  | .inf n => n
  | .fin n _ _ _ => n

/-- The value with its sign changed. -/
def vminus : Val → Val
  | .nan => .nan
  | .inf n => .inf (!n)
  | .fin n m e d => .fin (!n) m e d

/-- The magnitude. -/
def vabs : Val → Val
  | .nan => .nan
  | .inf _ => .inf false
  | .fin _ m e d => .fin false m e d

/-- Zero of either sign. -/
def vIsZero : Val → Bool
  | .fin _ m _ _ => m == 0
  | _ => false

/-- NaN. -/
def vIsNan : Val → Bool
  | .nan => true
  | _ => false

/-- An infinity. -/
def vIsInf : Val → Bool
  | .inf _ => true
  | _ => false

/-- `m × 2^(e - base)` for `base ≤ e`. -/
def alignTo (base : Int) (m : Nat) (e : Int) : Nat := m * 2 ^ (e - base).toNat

/-- The signed numerator of a finite value over `2^base` and the denominator `den` it is brought to. -/
def numerator (base : Int) (mul : Nat) (n : Bool) (m : Nat) (e : Int) : Int :=
  if n then -(alignTo base (m * mul) e : Int) else (alignTo base (m * mul) e : Int)

/-- The exact sum, and whether it is invalid (`∞ − ∞`, R54). -/
def vadd (a b : Val) : Val × Bool :=
  match a, b with
  | .nan, _ => (.nan, false)
  | _, .nan => (.nan, false)
  | .inf x, .inf y => if x = y then (.inf x, false) else (.nan, true)
  | .inf x, _ => (.inf x, false)
  | _, .inf y => (.inf y, false)
  | .fin n1 m1 e1 d1, .fin n2 m2 e2 d2 =>
    let base := min e1 e2
    let s := numerator base d2 n1 m1 e1 + numerator base d1 n2 m2 e2
    (.fin (if s = 0 then n1 && n2 else decide (s < 0)) s.natAbs base (d1 * d2), false)

/-- The exact product, and whether it is invalid (`0 × ∞`, R54). -/
def vmul (a b : Val) : Val × Bool :=
  match a, b with
  | .nan, _ => (.nan, false)
  | _, .nan => (.nan, false)
  | .inf x, .inf y => (.inf (x != y), false)
  | .inf x, .fin n m _ _ => if m = 0 then (.nan, true) else (.inf (x != n), false)
  | .fin n m _ _, .inf y => if m = 0 then (.nan, true) else (.inf (y != n), false)
  | .fin n1 m1 e1 d1, .fin n2 m2 e2 d2 => (.fin (n1 != n2) (m1 * m2) (e1 + e2) (d1 * d2), false)

/-- The exact quotient with the special cases of R148: `x / ±0` is an infinity without a flag, `0 / 0` and `∞ / ∞`
are invalid. -/
def vdiv (a b : Val) : Val × Bool :=
  match a, b with
  | .nan, _ => (.nan, false)
  | _, .nan => (.nan, false)
  | .inf _, .inf _ => (.nan, true)
  | .inf x, .fin n _ _ _ => (.inf (x != n), false)
  | .fin n _ _ _, .inf y => (.fin (n != y) 0 0 1, false)
  | .fin n1 m1 e1 d1, .fin n2 m2 e2 d2 =>
    if m2 = 0 then (if m1 = 0 then (.nan, true) else (.inf (n1 != n2), false))
    else (.fin (n1 != n2) (m1 * d2) (e1 - e2) (d1 * m2), false)

/-- `a < b` on numbers; false when either is NaN. -/
def vlt (a b : Val) : Bool :=
  match a, b with
  | .nan, _ => false
  | _, .nan => false
  | .inf x, .inf y => x && !y
  | .inf x, _ => x
  | _, .inf y => !y
  | .fin n1 m1 e1 d1, .fin n2 m2 e2 d2 =>
    let base := min e1 e2
    decide (numerator base d2 n1 m1 e1 < numerator base d1 n2 m2 e2)

/-- `a = b` on numbers (`−0 = +0`, R146); false when either is NaN. -/
def veq (a b : Val) : Bool := !vIsNan a && !vIsNan b && !vlt a b && !vlt b a

/-- Maximum (R54): NaN if either is NaN; `+0` above `−0`. -/
def vmax (a b : Val) : Val :=
  if vIsNan a || vIsNan b then .nan
  else if vlt a b then b else if vlt b a then a else if vneg a then b else a

/-- Minimum (R54): NaN if either is NaN; the minimum of `−0` and `+0` is `−0`. -/
def vmin (a b : Val) : Val :=
  if vIsNan a || vIsNan b then .nan
  else if vlt a b then a else if vlt b a then b else if vneg a then a else b

/-- A floating-point layout: exponent bits, mantissa bits, bias, infinity, and how NaN is encoded. -/
structure FloatFmt where
  ebits : Nat
  mbits : Nat
  bias  : Nat
  /-- 0 IEEE (infinity and NaN at exponent all ones), 1 E4M3 (one NaN mantissa), 2 neither. -/
  kind  : Nat
deriving DecidableEq, Repr

/-- R26, R27: the floating-point format of a code, if it is one. -/
def floatFmt : Nat → Option FloatFmt
  | 0x0 => some ⟨8, 23, 127, 0⟩
  | 0x1 => some ⟨8, 7, 127, 0⟩
  | 0x2 => some ⟨5, 10, 15, 0⟩
  | 0x3 => some ⟨4, 3, 7, 1⟩
  | 0x4 => some ⟨5, 2, 15, 0⟩
  | 0x5 => some ⟨3, 2, 3, 2⟩
  | 0x6 => some ⟨2, 3, 1, 2⟩
  | 0x7 => some ⟨2, 1, 1, 2⟩
  | _ => none

/-- FP32, code 0. -/
def fp32 : FloatFmt := ⟨8, 23, 127, 0⟩
/-- BF16, code 1. -/
def bf16 : FloatFmt := ⟨8, 7, 127, 0⟩
/-- FP16, code 2. -/
def fp16 : FloatFmt := ⟨5, 10, 15, 0⟩

/-- R26: element width in bits of a format code. -/
def fmtBits : Nat → Nat
  | 0x0 => 32 | 0x1 => 16 | 0x2 => 16 | 0x3 => 8 | 0x4 => 8 | 0x5 => 6 | 0x6 => 6 | 0x7 => 4
  | 0x8 => 8 | 0x9 => 4 | 0xA => 3 | _ => 0

/-- An integer format (R28). -/
def isIntFmt (c : Nat) : Bool := c == 0x8 || c == 0x9 || c == 0xA

/-- R26: the code names a format. -/
def fmtDefined (c : Nat) : Bool := decide (c ≤ 0xA)

/-- R30: block size of a scale kind. -/
def blockSize : Nat → Nat
  | 1 => 32 | 2 => 128 | 3 => 168 | _ => 1

/-- R30: bytes of one scale. -/
def scaleBytes : Nat → Nat
  | 1 => 1 | 2 => 2 | 3 => 2 | _ => 0

/-- R30: the permitted pairings of format and scale kind. -/
def scaleOk (fmt kind : Nat) : Bool :=
  match kind with
  | 0 => [0x0, 0x1, 0x2, 0x3, 0x4, 0x8].contains fmt
  | 1 => [0x3, 0x4, 0x5, 0x6, 0x7, 0x8, 0x9].contains fmt
  | 2 => [0x3, 0x4, 0x5, 0x6, 0x7, 0x8, 0x9].contains fmt
  | 3 => fmt == 0xA
  | _ => false

/-- The magnitude code (sign cleared) of the largest finite value. -/
def maxCode (f : FloatFmt) : Nat :=
  match f.kind with
  | 0 => (2 ^ f.ebits - 1) * 2 ^ f.mbits - 1
  | 1 => 2 ^ (f.ebits + f.mbits) - 2
  | _ => 2 ^ (f.ebits + f.mbits) - 1

/-- The exponent of the unit in the last place of the subnormals. -/
def qmin (f : FloatFmt) : Int := 1 - (f.bias : Int) - f.mbits

/-- R27: decode the bits of a floating-point code. -/
def decodeFloat (f : FloatFmt) (code : Nat) : Val :=
  let neg := bit code (f.ebits + f.mbits)
  let ex := bits code (f.ebits + f.mbits - 1) f.mbits
  let man := code % 2 ^ f.mbits
  if f.kind = 0 && ex = 2 ^ f.ebits - 1 then (if man = 0 then .inf neg else .nan)
  else if f.kind = 1 && ex = 2 ^ f.ebits - 1 && man = 2 ^ f.mbits - 1 then .nan
  else if ex = 0 then .fin neg man (qmin f) 1
  else .fin neg (2 ^ f.mbits + man) (qmin f + (ex : Int) - 1) 1

/-- R55: a signalling NaN of FP32, BF16, FP16 or FP8 E5M2. -/
def isSnan (f : FloatFmt) (code : Nat) : Bool :=
  f.kind = 0 && vIsNan (decodeFloat f code) && !bit code (f.mbits - 1)

/-- Decode an element of any format (R26 to R28). -/
def decodeElem (fmt code : Nat) : Val :=
  match floatFmt fmt with
  | some f => decodeFloat f code
  | none => vint (signed (fmtBits fmt) code)

/-- Reading a signalling NaN sets invalid (R55). -/
def readFlags (fmt code : Nat) : Flags :=
  match floatFmt fmt with
  | some f => invalidIf (isSnan f code)
  | none => noFlags

/-- R31, R32: the value of a scale. -/
def decodeScale (kind code : Nat) : Val :=
  match kind with
  | 1 => if code = 0xFF then .nan else vpow2 ((code : Int) - 127)
  | 2 => decodeFloat bf16 code
  | 3 => decodeFloat bf16 code
  | _ => .fin false 1 0 1

/-- Reading a signalling NaN as a scale sets invalid (R55); an E8M0 NaN is quiet, and a kind-0 tensor has no scale. -/
def scaleFlags (kind code : Nat) : Flags := if kind = 2 ∨ kind = 3 then readFlags 0x1 code else noFlags

/-- ⌊log2 (mag × 2^e / den)⌋ for a non-zero magnitude. -/
def ilog2Q (mag : Nat) (e : Int) (den : Nat) : Int :=
  let k : Int := (mag.log2 : Int) - (den.log2 : Int)
  let low := if 0 ≤ k then decide (mag < den * 2 ^ k.toNat) else decide (mag * 2 ^ (-k).toNat < den)
  (if low then k - 1 else k) + e

/-- `mag × 2^e / den` counted in units of `2^q`: the whole part, the remainder and its divisor. -/
def scaled (mag : Nat) (e : Int) (den : Nat) (q : Int) : Nat × Nat × Nat :=
  let num := if q ≤ e then mag * 2 ^ (e - q).toNat else mag
  let dn := if q ≤ e then den else den * 2 ^ (q - e).toNat
  (num / dn, num % dn, dn)

/-- R49, R50: round a whole part and remainder. `mode` 0 nearest even, 1 toward zero, 2 stochastic with the 16 bits
`rnd`. -/
def roundUnits (mode rnd : Nat) (u : Nat × Nat × Nat) : Nat :=
  match mode with
  | 1 => u.1
  | 2 => if u.2.2 * 65536 ≤ u.2.1 * 65536 + (rnd % 65536) * u.2.2 then u.1 + 1 else u.1
  | _ =>
    if u.2.2 < 2 * u.2.1 then u.1 + 1
    else if 2 * u.2.1 = u.2.2 then u.1 + u.1 % 2
    else u.1

/-- The canonical NaN of a format (R54). -/
def nanCode (f : FloatFmt) : Nat :=
  match f.kind with
  | 0 => (2 ^ f.ebits - 1) * 2 ^ f.mbits + 2 ^ (f.mbits - 1)
  | _ => 2 ^ (f.ebits + f.mbits) - 1

/-- A magnitude code with its sign. -/
def withSign (f : FloatFmt) (neg : Bool) (code : Nat) : Nat :=
  if neg then 2 ^ (f.ebits + f.mbits) + code else code

/-- How a value that has no place in the format is written: `given` for a scale or format the command supplies (R52,
R53), `computed` for a scale the engine has just computed (R38), `saturate` for bank units and reducers (R233). -/
inductive Clamp where
  | given
  | computed
  | saturate
deriving DecidableEq, Repr

/-- R52: what a finite result beyond the largest finite value is written as. -/
def overflowCode (f : FloatFmt) (clamp : Clamp) (mode : Nat) (neg : Bool) : Nat × Flags :=
  match clamp with
  | .computed => (withSign f neg (maxCode f), inexactFlag)
  | .saturate => (withSign f neg (maxCode f), overflowFlag)
  | .given =>
    if f.kind = 0 && mode ≠ 1 then (withSign f neg (maxCode f + 1), overflowFlag)
    else (withSign f neg (maxCode f), overflowFlag)

/-- The one rounding of a value into a floating-point format: R27, R49 to R54, R57. -/
def roundFloat (f : FloatFmt) (clamp : Clamp) (mode rnd : Nat) (v : Val) : Nat × Flags :=
  match v with
  | .nan => if f.kind = 2 then (0, invalidFlag) else (nanCode f, noFlags)
  | .inf neg =>
    match f.kind with
    | 0 => (withSign f neg (maxCode f + 1), noFlags)
    | 1 => (nanCode f, invalidFlag)
    | _ => (withSign f neg (maxCode f), invalidFlag)
  | .fin neg mag e den =>
    if mag = 0 then (withSign f neg 0, noFlags)
    else
      let q := max (qmin f) (ilog2Q mag e den - f.mbits)
      let u := scaled mag e den q
      let n := roundUnits mode rnd u
      let code := (q - qmin f).toNat * 2 ^ f.mbits + n
      let inexact := decide (u.2.1 ≠ 0)
      if maxCode f < code then overflowCode f clamp mode neg
      else
        (withSign f neg code,
          ⟨false, false, inexact && decide (code ≠ 0) && decide (code < 2 ^ f.mbits), inexact⟩)

/-- The conversion to an integer format (R51 to R53). -/
def roundInt (w : Nat) (clamp : Clamp) (mode rnd : Nat) (v : Val) : Nat × Flags :=
  let top := fun (neg : Bool) => if neg then 2 ^ (w - 1) else 2 ^ (w - 1) - 1
  match v with
  | .nan => (0, invalidFlag)
  | .inf neg => (top neg, invalidFlag)
  | .fin neg mag e den =>
    let u := scaled mag e den 0
    let n := roundUnits mode rnd u
    if (if neg then 2 ^ (w - 1) else 2 ^ (w - 1) - 1) < n then
      (top neg, if clamp = .computed then inexactFlag else overflowFlag)
    else ((if neg then unsigned w (-(n : Int)) else n), ⟨false, false, false, decide (u.2.1 ≠ 0)⟩)

/-- Convert a value to a format code's element (R51 to R54). -/
def convert (fmt : Nat) (clamp : Clamp) (mode rnd : Nat) (v : Val) : Nat × Flags :=
  match floatFmt fmt with
  | some f => roundFloat f clamp mode rnd v
  | none => roundInt (fmtBits fmt) clamp mode rnd v

/-- An FP32 result: round to nearest even (R48). -/
def round32 (v : Val) : Nat × Flags := roundFloat fp32 .given 0 0 v

/-- FP32 bits to value. -/
def val32 (n : Nat) : Val := decodeFloat fp32 n

/-- An exact result that may be invalid, rounded to FP32 (R48, R54). -/
def finish32 (r : Val × Bool) : Nat × Flags :=
  let o := round32 r.1
  (o.1, orFlags o.2 (invalidIf r.2))

/-- FP32 addition (R48). -/
def add32 (a b : Nat) : Nat × Flags :=
  let r := finish32 (vadd (val32 a) (val32 b))
  (r.1, orFlags r.2 (invalidIf (isSnan fp32 a || isSnan fp32 b)))

/-- FP32 multiplication (R48). -/
def mul32 (a b : Nat) : Nat × Flags :=
  let r := finish32 (vmul (val32 a) (val32 b))
  (r.1, orFlags r.2 (invalidIf (isSnan fp32 a || isSnan fp32 b)))

/-- R35: emax of a format for E8M0 scales. -/
def emaxOf : Nat → Int
  | 0x3 => 8 | 0x4 => 15 | 0x5 => 4 | 0x6 => 2 | 0x7 => 2 | 0x8 => 6 | 0x9 => 2 | _ => 0

/-- R35: qmax of a format for BF16 scales. -/
def qmaxOf : Nat → Val
  | 0x3 => vint 448 | 0x4 => vint 57344 | 0x5 => vint 28 | 0x6 => .fin false 15 (-1) 1 | 0x7 => vint 6
  | 0x8 => vint 127 | 0x9 => vint 7 | 0xA => vint 3 | _ => vint 1

/-- R35 to R37: the scale code computed for a block of source values, and whether the block is NaN or infinite. -/
def computeScale (fmt kind : Nat) (vs : List Val) : Nat × Bool :=
  if vs.any fun v => vIsNan v || vIsInf v then (if kind = 1 then 0xFF else 0x7FC0, true)
  else
    let amax := vs.foldl (fun m v => vmax m (vabs v)) vzero
    match amax with
    | .fin _ mag e den =>
      if mag = 0 then (0, false)
      else if kind = 1 then
        let x := ilog2Q mag e den - emaxOf fmt
        ((max (-127) (min 127 x) + 127).toNat, false)
      else
        let c := (roundFloat bf16 .given 0 0 (vdiv amax (qmaxOf fmt)).1).1
        (if c = 0 then 1 else c, false)
    | _ => (0, false)

/-- R35 to R38: convert one element of a block against the scale just computed for it. DESIGN CHOICE (assumption 50): a
zero element keeps its sign where the format has one, in a block whose amax is 0 as in any other. -/
def convertScaled (fmt kind mode rnd : Nat) (scale : Nat × Bool) (v : Val) : Nat × Flags :=
  if scale.2 then (0, invalidFlag)
  else
    match v with
    | .fin _ 0 _ _ => convert fmt .computed mode rnd v
    | _ => convert fmt .computed mode rnd (vdiv v (decodeScale kind scale.1)).1

end Sys2Proof.Machine
end

