-- ==== Sys2Proof/Machine/Operands.lean ====
section
/-! DEFINITION. Tensor descriptors (R91 to R94, R107, R193 to R196, R213, R214, R544), their checks in the order of R110,
and elements read and written through them (R29, R34, R39, R145). -/
namespace Sys2Proof.Machine
variable {d₀ : Dev}

/-- R91: read a descriptor from its eight words. -/
def descFrom (word : Nat) (w : List Dword) : Desc :=
  { word := word, base := wd w 0, scale := bits (wd w 1) 47 0, fmt := bits (wd w 1) 51 48,
    kind := bits (wd w 1) 53 52, rank := bits (wd w 1) 56 54,
    sizes := [2, 3, 4].flatMap fun i => [bits (wd w i) 21 0, bits (wd w i) 43 22],
    shards := ((List.range 4).map fun i => bits (wd w 2) (48 + 5 * i) (44 + 5 * i)) ++
      ((List.range 2).map fun i => bits (wd w 3) (48 + 5 * i) (44 + 5 * i)),
    strides := [5, 6, 7].flatMap fun i => [32 * bits (wd w i) 31 0, 32 * bits (wd w i) 63 32],
    clean := bits (wd w 1) 63 57 == 0 && bits (wd w 3) 63 54 == 0 && bits (wd w 4) 63 44 == 0 }

/-- Length of a dimension; 1 above the rank. -/
def Desc.size (x : Desc) (i : Nat) : Nat := if i < x.rank then x.sizes.getD i 0 else 1
/-- Byte stride of a slot; 0 where there is none. -/
def Desc.stride (x : Desc) (i : Nat) : Nat := x.strides.getD i 0
/-- R107: bytes by which an iteration advances the base. -/
def Desc.advance (x : Desc) : Nat := x.stride x.rank
/-- Lengths below the rank. -/
def Desc.dims (x : Desc) : List Nat := x.sizes.take x.rank

/-- R39: bytes of a packing group, and the elements it holds. -/
def fmtGroup (fmt : Nat) : Nat × Nat :=
  match fmtBits fmt with
  | 4 => (1, 2)
  | 6 => (3, 4)
  | 3 => (8, 21)
  | w => (w / 8, 1)

/-- Index tuples over lengths, the first dimension fastest. -/
def tuples : List Nat → List (List Nat)
  | [] => [[]]
  | n :: r => (tuples r).flatMap fun t => (List.range n).map fun i => i :: t

/-- Place of a tuple in that order. -/
def linear : List Nat → List Nat → Nat
  | n :: r, i :: t => i + n * linear r t
  | _, _ => 0

/-- Index tuples of the rows: dimensions 1 and above. -/
def Desc.rows (x : Desc) : List (List Nat) := tuples (x.dims.drop 1)

/-- R193: address of element 0 of a row in an iteration. -/
def Desc.rowAddr (x : Desc) (t : Nat) (idx : List Nat) : Nat :=
  x.base + t * x.advance + (List.range idx.length).foldl (fun a i => a + idx.getD i 0 * x.stride (i + 1)) 0

/-- Bytes of a dense row. -/
def Desc.rowBytes (x : Desc) : Nat := (fmtGroup x.fmt).1 * cdiv (x.size 0) (fmtGroup x.fmt).2

/-- R193: address of the packing group of element `i` of a row. -/
def Desc.elemAddr (x : Desc) (t : Nat) (idx : List Nat) (i : Nat) : Nat :=
  x.rowAddr t idx +
    (if x.stride 0 = 0 then (fmtGroup x.fmt).1 * (i / (fmtGroup x.fmt).2) else i * x.stride 0)

/-- Byte runs of a row: address and length. -/
def Desc.rowRuns (x : Desc) (t : Nat) (idx : List Nat) : List (Nat × Nat) :=
  if x.stride 0 = 0 then [(x.rowAddr t idx, x.rowBytes)]
  else (List.range (x.size 0)).map fun i => (x.elemAddr t idx i, fmtBits x.fmt / 8)

/-! ## Scales (R34, R107) -/

/-- Blocks along a row. -/
def Desc.rowBlocks (x : Desc) : Nat := x.size 0 / blockSize x.kind
/-- Blocks of one iteration. -/
def Desc.blocks (x : Desc) : Nat := x.rowBlocks * (x.dims.drop 1).foldl (· * ·) 1
/-- R107: the advance counted in elements is a whole number of blocks. -/
def Desc.advanceWhole (x : Desc) : Bool :=
  x.kind == 0 || x.advance * (fmtGroup x.fmt).2 % ((fmtGroup x.fmt).1 * blockSize x.kind) == 0
/-- Blocks by which an iteration advances the scale base. -/
def Desc.scaleAdvance (x : Desc) : Nat :=
  x.advance * (fmtGroup x.fmt).2 / ((fmtGroup x.fmt).1 * blockSize x.kind)
/-- R34: data address of the scale of a block. -/
def Desc.scaleAddr (x : Desc) (t : Nat) (idx : List Nat) (blk : Nat) : Nat :=
  x.base / 2 ^ 48 * 2 ^ 48 + x.scale +
    (t * x.scaleAdvance + blk + x.rowBlocks * linear (x.dims.drop 1) idx) * scaleBytes x.kind
/-- The run of the scale array in an iteration. -/
def Desc.scaleRun (x : Desc) (t : Nat) : List (Nat × Nat) :=
  if x.kind = 0 then []
  else [(x.base / 2 ^ 48 * 2 ^ 48 + x.scale + t * x.scaleAdvance * scaleBytes x.kind,
    x.blocks * scaleBytes x.kind)]

/-- Byte runs of an iteration, scales last. -/
def Desc.runs (x : Desc) (t : Nat) : List (Nat × Nat) := x.rows.flatMap (x.rowRuns t) ++ x.scaleRun t

/-- Granules (data address / 64) of byte runs, ascending, each once. -/
def runGranules (l : List (Nat × Nat)) : List Nat :=
  (l.foldl (fun m e => (List.range (if e.2 = 0 then 0 else (e.1 + e.2 - 1) / 64 + 1 - e.1 / 64)).foldl
    (fun m i => mset false m (e.1 / 64 + i) true) m) ([] : Store Bool)).map (·.1)

/-- Granules of an iteration's extent. -/
def Desc.granules (x : Desc) (t : Nat) : List Nat := runGranules (x.runs t)

/-- Granules of the whole extent over `n` iterations (R75, R108). -/
def Desc.extent (x : Desc) (n : Nat) : List Nat := runGranules ((List.range n).flatMap x.runs)

/-! ## Checks -/

/-- R72: the alignment that the space of an address asks for. -/
def alignUnit (a : Nat) : Nat := if a / 2 ^ 48 = 0xFFFE then 32 else 64

/-- Step 3 of R110: bases and non-zero strides of every slot are aligned (R72, R92); else the base, or the scale base, at
fault. Without scales there is no scale array to be aligned: a scale base is then a field of step 4. -/
def Desc.misaligned (x : Desc) : Option Nat :=
  let u := alignUnit x.base
  if x.base % u ≠ 0 then some x.base
  else if x.kind ≠ 0 ∧ x.scale % u ≠ 0 then some (x.base / 2 ^ 48 * 2 ^ 48 + x.scale)
  else if x.strides.any fun s => s % u != 0 then some x.base
  else none

/-- R93: a shard field. -/
def shardOk (s : Nat) : Bool := decide (s / 4 ≤ 4) && (s % 4 != 0 || s / 4 == 0)
/-- A shard that is not NONE. -/
def sharded (s : Nat) : Bool := s % 4 != 0

/-- R92, R93, R214, R26, R30, R33, R39, R40: the fields of a descriptor that it alone judges. -/
def Desc.fieldsOk (x : Desc) : Bool :=
  x.clean && decide (1 ≤ x.rank) && decide (x.rank ≤ 6) &&
    (List.range 6).all (fun i =>
      if i < x.rank then x.sizes.getD i 0 != 0 else x.sizes.getD i 0 == 0 && x.shards.getD i 0 == 0) &&
    x.shards.all shardOk &&
    decide (((x.shards.filter sharded).map (· / 4)).Nodup) &&
    fmtDefined x.fmt && scaleOk x.fmt x.kind && (x.kind != 0 || x.scale == 0) &&
    x.size 0 % blockSize x.kind == 0 &&
    ((x.fmt != 0x5 && x.fmt != 0x6) || x.size 0 % 256 == 0) &&
    (decide (8 ≤ fmtBits x.fmt) || x.stride 0 == 0)

/-- Devices of a partition's mesh (R357). -/
def inMesh (d : Dev) (p dev : Nat) : Bool :=
  let n := field d (partOff p 0x14) 12 0 * field d (partOff p 0x14) 28 16 *
    (field d (partOff p 0x18) 12 0 * field d (partOff p 0x18) 28 16)
  let b := field d (partOff p 0x1C) 11 0
  if n = 1 then dev == deviceNumber d else decide (b ≤ dev) && decide (dev < b + n)

/-- R213: the base fits the axes along which the descriptor is sharded. -/
def Desc.axesOk (d : Dev) (p : Nat) (x : Desc) : Bool :=
  (x.shards.filter sharded).all fun s =>
    if s / 4 = 4 then
      let first := field d (partOff p 0x1C) 20 16
      let n := field d (partOff p 0x1C) 28 24
      match placeOf d x.base with
      | .mem true k => decide (first ≤ keyStack k) && decide (keyStack k < first + n)
      | .remote _ a => bit a 47 && decide (first ≤ bits a 40 36) && decide (bits a 40 36 < first + n)
      | _ => false
    else
      match placeOf d x.base with
      | .remote dev _ => inMesh d p dev
      | _ => true

/-- R194: the elements of a destination occupy distinct bytes. Spans are counted in bits, of which an element has as many
as its format. -/
def Desc.distinct (x : Desc) : Bool :=
  let span0 := if x.stride 0 = 0 then x.size 0 * fmtBits x.fmt else fmtBits x.fmt
  let all := (List.range x.rank).filter fun i => decide (1 < x.size i) && (i != 0 || x.stride 0 != 0)
  let sorted := all.mergeSort fun a b => decide (x.stride a ≤ x.stride b)
  (sorted.foldl (fun (acc : Bool × Nat) i =>
    (acc.1 && decide (acc.2 ≤ 8 * x.stride i), (x.size i - 1) * (8 * x.stride i) + acc.2)) (true, span0)).1

/-- Where an operand may lie (R126, R200). -/
inductive Reachable where
  | own
  | anySpad
  | ownOrMem
  | local_
  | anywhere
deriving DecidableEq, Repr

/-- The place is one that the operand's column of R126 allows. -/
def reachable (core : Nat) : Reachable → Place → Bool
  | _, .none => false
  | .own, .spad k => k / 2 ^ 19 == core
  | .own, _ => false
  | .anySpad, .spad _ => true
  | .anySpad, _ => false
  | .ownOrMem, .spad k => k / 2 ^ 19 == core
  | .ownOrMem, .mem _ _ => true
  | .ownOrMem, _ => false
  | .local_, .remote _ _ => false
  | .local_, _ => true
  | .anywhere, _ => true

/-- An operand that a command names by a descriptor: command word, descriptor address, where it may lie, whether it is a
destination, and the format field it must equal (R88). -/
structure Operand where
  word  : Nat
  addr  : Nat
  reach : Reachable
  dest  : Bool
  fmt   : Nat
deriving DecidableEq, Repr

/-- R544: a descriptor may lie here. -/
def descPlace (d : Dev) (p a : Nat) : Bool :=
  let x := placeOf d a
  match x with
  | .spad _ => placeOwned d p x
  | .mem _ _ => placeOwned d p x && !placeProcess d x
  | _ => false

/-- A granule of an operand's extent that the operand may reach: of the space of its base, where its column of R126
allows, and owned by the partition (R75, R76). -/
def extentOk (d : Dev) (p core : Nat) (o : Operand) (x : Desc) (g : Nat) : Bool :=
  g * 64 / 2 ^ 48 == x.base / 2 ^ 48 && reachable core o.reach (placeOf d (g * 64)) &&
    placeOwned d p (placeOf d (g * 64))

/-- The fields of an operand of `n` iterations that step 4 judges, its format field among them. -/
def operandFields (d : Dev) (p n : Nat) (o : Operand) (x : Desc) : Bool :=
  x.fieldsOk && x.fmt == o.fmt && x.axesOk d p && (n == 1 || x.advanceWhole) &&
    (!o.dest || ((List.range x.rank).all fun i =>
      i == 0 || decide (x.size i ≤ 1) || x.stride i != 0) && x.distinct)

/-- Step 4 for one operand of `n` iterations: fields, format field, range and ownership of the extent (R75, R76). Where it
fails, the address reported: the descriptor's for a field, else the first granule that may not be accessed. -/
def operandBad (d : Dev) (p core n : Nat) (o : Operand) (x : Desc) : Option Nat :=
  if !operandFields d p n o x then some o.addr
  else ((x.extent n).find? fun g => !extentOk d p core o x g).map (· * 64)

/-- Step 6 for one operand: the first granule in a process-mode channel. -/
def operandMode (d : Dev) (n : Nat) (x : Desc) : Option Nat :=
  ((x.extent n).find? fun g => placeProcess d (placeOf d (g * 64))).map (· * 64)

/-- A check that failed: status, command word, fault address. -/
structure Failed where
  status : Nat
  word   : Nat
  addr   : Nat
deriving DecidableEq, Repr

/-- Read the descriptors of a command that lie where R544 allows (at their home, R173). -/
def readDescs (core : Nat) (p : Nat) (upset : Upset) (os : List Operand) (r : Run d₀) : ReadSet × Run d₀ :=
  readAll core atHome upset ((os.filter fun o => descPlace r.dev p o.addr).map fun o => o.addr) r

/-- The descriptors of a command, once read. -/
def descsOf (d : Dev) (p : Nat) (b : Store (List Byte)) (os : List Operand) : List (Operand × Desc) :=
  (os.filter fun o => descPlace d p o.addr).map fun o =>
    (o, descFrom o.word (toWords (bufBytes b o.addr 64)))

/-- Steps 3 and 4 of R110 for the operands of a command of `n` iterations. `extra` is what the opcode asks of its
descriptors together at step 4. -/
def checkOperands (d : Dev) (p core n : Nat) (os : List Operand) (xs : List (Operand × Desc))
    (extra : Bool) : Option Failed :=
  match os.find? (fun o => o.addr % 64 != 0), xs.find? (fun e => e.2.misaligned.isSome),
      os.find? (fun o => !descPlace d p o.addr), xs.find? (fun e => (operandBad d p core n e.1 e.2).isSome) with
  | some o, _, _, _ => some ⟨stAlign, o.word, o.addr⟩
  | none, some e, _, _ => some ⟨stAlign, e.1.word, e.2.misaligned.getD 0⟩
  | none, none, some o, _ => some ⟨stDescriptor, o.word, o.addr⟩
  | none, none, none, some e => some ⟨stDescriptor, e.1.word, (operandBad d p core n e.1 e.2).getD 0⟩
  | none, none, none, none => if extra then none else some ⟨stDescriptor, 0, 0⟩

/-- Step 6 of R110. -/
def checkModes (d : Dev) (n : Nat) (xs : List (Operand × Desc)) : Option Failed :=
  match xs.find? fun e => (operandMode d n e.2).isSome with
  | some e => some ⟨stMode, e.1.word, (operandMode d n e.2).getD 0⟩
  | none => none

/-! ## Elements -/

/-- The code of element `i` of a row. -/
def Desc.code (x : Desc) (b : Store (List Byte)) (t : Nat) (idx : List Nat) (i : Nat) : Nat :=
  let g := fmtGroup x.fmt
  let w := fmtBits x.fmt
  bufNat b (x.elemAddr t idx i) g.1 / 2 ^ (w * (i % g.2)) % 2 ^ w

/-- The code of the scale of element `i`'s block. -/
def Desc.scaleCode (x : Desc) (b : Store (List Byte)) (t : Nat) (idx : List Nat) (i : Nat) : Nat :=
  bufNat b (x.scaleAddr t idx (i / blockSize x.kind)) (scaleBytes x.kind)

/-- The value of an element without its scale. -/
def Desc.raw (x : Desc) (b : Store (List Byte)) (t : Nat) (idx : List Nat) (i : Nat) : Val :=
  decodeElem x.fmt (x.code b t idx i)

/-- R29, R145: an element decoded to FP32, its scale applied. -/
def Desc.val (x : Desc) (b : Store (List Byte)) (t : Nat) (idx : List Nat) (i : Nat) : Val × Flags :=
  let f := readFlags x.fmt (x.code b t idx i)
  if x.kind = 0 then (x.raw b t idx i, f)
  else
    let f := orFlags f (scaleFlags x.kind (x.scaleCode b t idx i))
    let p := finish32 (vmul (x.raw b t idx i) (decodeScale x.kind (x.scaleCode b t idx i)))
    (val32 p.1, orFlags f p.2)

/-- The bytes of packing groups of codes (R39, R41). -/
def packGroup (fmt : Nat) (codes : List Nat) : List Byte :=
  let w := fmtBits fmt
  natLE ((List.range codes.length).foldl (fun a i => a + codes.getD i 0 % 2 ^ w * 2 ^ (w * i)) 0) (fmtGroup fmt).1

/-- Write codes of a row; an element without a code is left as it is. -/
def Desc.putRow (x : Desc) (t : Nat) (idx : List Nat) (codes : List (Option Nat)) (w : WriteSet) : WriteSet :=
  let n := (fmtGroup x.fmt).2
  (List.range (cdiv codes.length n)).foldl (fun w j =>
    let group := (codes.drop (j * n)).take n
    if group.all (·.isSome) then
      putBytes w (x.elemAddr t idx (j * n)) (packGroup x.fmt (group.map fun c => c.getD 0))
    else w) w

/-- Write the scale of a block. -/
def Desc.putScale (x : Desc) (t : Nat) (idx : List Nat) (blk code : Nat) (w : WriteSet) : WriteSet :=
  putBytes w (x.scaleAddr t idx blk) (natLE code (scaleBytes x.kind))

/-- A result to be written: left out (keep), the zero element (R151), or a value. -/
inductive Cell where
  | keep
  | zero
  | val (v : Val)
deriving DecidableEq, Repr

/-- The value of a cell, if it has one. -/
def Cell.val? : Cell → Option Val
  | .val v => some v
  | _ => none

/-- Convert one cell of an unscaled destination; `rnd` is its stochastic draw. -/
def cellCode (fmt mode rnd : Nat) : Cell → Option Nat × Flags
  | .keep => (none, noFlags)
  | .zero => (some 0, noFlags)
  | .val v => let c := convert fmt .given mode rnd v; (some c.1, c.2)

/-- Convert one cell of a block whose scale has been computed (R35 to R38, R152). -/
def blockCode (fmt kind mode rnd : Nat) (scale : Nat × Bool) : Cell → Option Nat × Flags
  | .keep => (none, noFlags)
  | .zero => (some 0, noFlags)
  | .val v => let c := convertScaled fmt kind mode rnd scale v; (some c.1, c.2)

/-- The stochastic draw of element `i` of a command's iteration (R50). -/
def draw (seed i : Nat) : Nat := Config.freeNat (seed + i) % 65536

/-- Write one row of results, converted by the command's rounding mode. `seed` numbers its first stochastic draw. -/
def Desc.putResults (x : Desc) (mode seed t : Nat) (idx : List Nat) (cells : List Cell) (a : WriteSet × Flags) :
    WriteSet × Flags :=
  if x.kind = 0 then
    let cs := (List.range cells.length).map fun i => cellCode x.fmt mode (draw seed i) (cells.getD i .keep)
    (x.putRow t idx (cs.map (·.1)) a.1, cs.foldl (fun f c => orFlags f c.2) a.2)
  else
    let bs := blockSize x.kind
    let blks := chunks bs cells.length cells
    let scs := blks.map fun b => computeScale x.fmt x.kind (b.filterMap Cell.val?)
    let cs := (List.range cells.length).map fun i =>
      blockCode x.fmt x.kind mode (draw seed i) (scs.getD (i / bs) (0, false)) (cells.getD i .keep)
    let w := x.putRow t idx (cs.map (·.1)) a.1
    let w := (List.range scs.length).foldl (fun w b => x.putScale t idx b (scs.getD b (0, false)).1 w) w
    let nan := scs.any (·.2)
    (w, orFlags (cs.foldl (fun f c => orFlags f c.2) a.2) (invalidIf nan))

end Sys2Proof.Machine
end

