-- ==== Sys2Proof/Machine/Commands.lean ====
section
/-! DEFINITION. What the eight words of a command say by themselves: opcodes, operands and step 1 of R110 (R86 to R90,
R99, R101, R103, R107, R131, R136, R141, R144, R146, R153 to R156, R160, R179, R186, R202, R204, R266). -/
namespace Sys2Proof.Machine

/-! ## Opcodes (R89) -/
/-- NOP -/ def opNop : Nat := 0x00
/-- MATMUL -/ def opMatmul : Nat := 0x01
/-- VECOP -/ def opVecop : Nat := 0x02
/-- REDUCE -/ def opReduce : Nat := 0x03
/-- GATHER -/ def opGather : Nat := 0x04
/-- SCATTER -/ def opScatter : Nat := 0x05
/-- COPY -/ def opCopy : Nat := 0x06
/-- DMA -/ def opDma : Nat := 0x07
/-- RECIPE -/ def opRecipe : Nat := 0x08
/-- WAIT -/ def opWait : Nat := 0x10
/-- SIGNAL -/ def opSignal : Nat := 0x11
/-- RELEASE -/ def opRelease : Nat := 0x12
/-- ACQUIRE -/ def opAcquire : Nat := 0x13
/-- ATOMIC -/ def opAtomic : Nat := 0x14
/-- COUNT -/ def opCount : Nat := 0x15
/-- FENCE -/ def opFence : Nat := 0x16

/-- The opcodes of R89. -/
def opcodeDefined (o : Nat) : Bool :=
  decide (o ≤ 0x08) || (decide (0x10 ≤ o) && decide (o ≤ 0x16))

/-- Iterations of a command (R107). -/
def iterations (w : List Dword) : Nat := fRepeat w + 1

/-- VECOP operation code (R144). -/ def vop (w : List Dword) : Nat := bits (wd w 5) 7 0
/-- VECOP runs in BF16 lanes. -/ def vopBf16 (w : List Dword) : Bool := bit (wd w 5) 8
/-- A VECOP that reads the rack (R136). -/
def readsRack (w : List Dword) : Bool := fOpcode w == opVecop && wd w 2 == 0
/-- Operations of one operand (R144). -/
def vopUnary (v : Nat) : Bool :=
  v == 0x00 || v == 0x08 || v == 0x09 || v == 0x10 || (decide (0x12 ≤ v) && decide (v ≤ 0x1B)) || v == 0x30
/-- Operations of two operands. -/
def vopBinary (v : Nat) : Bool :=
  (decide (0x01 ≤ v) && decide (v ≤ 0x07)) || v == 0x11 || (decide (0x20 ≤ v) && decide (v ≤ 0x23))
/-- Comparisons (R146). -/
def vopCompare (v : Nat) : Bool := decide (0x20 ≤ v) && decide (v ≤ 0x23)

/-! ## Step 1 of R110 -/

/-- Words `l` are zero. -/
def wordsZero (w : List Dword) (l : List Nat) : Bool := l.all fun i => wd w i == 0

/-- Format fields: used ones name a format, unused ones are zero (R26, R88). -/
def fmtsOk (w : List Dword) (a b out : Bool) : Bool :=
  (if a then fmtDefined (fFmtA w) else fFmtA w == 0) && (if b then fmtDefined (fFmtB w) else fFmtB w == 0) &&
    (if out then fmtDefined (fFmtOut w) else fFmtOut w == 0)

/-- Fields of words 0 and 1 that every command shares (R49, R86, R87, R90). -/
def commonOk (w : List Dword) : Bool :=
  opcodeDefined (fOpcode w) && decide (fScope w ≤ 3) && fRound w != 3 && bits (wd w 0) 27 24 == 0 &&
    bits (wd w 1) 31 28 == 0 && bits (wd w 1) 63 48 == 0

/-- VECOP (R136, R141, R144, R146). -/
def vecopOk (w : List Dword) : Bool :=
  let v := vop w
  bits (wd w 5) 63 9 == 0 && bits (wd w 7) 63 32 == 0 && (vopUnary v || vopBinary v) &&
    (!vopUnary v || wd w 3 == 0) && (v != 0x04 || wd w 3 != 0) && (!vopCompare v || fFmtOut w == 0x8) &&
    (wd w 2 != 0 || (fWaitA w != 0 && fFmtA w == 0)) &&
    (if v == 0x30 then wordsZero w [2, 3, 4, 6] && fmtsOk w false false false
     else fmtsOk w (wd w 2 != 0) (wd w 3 != 0) true)

/-- REDUCE (R153, R155). -/
def reduceOk (w : List Dword) : Bool :=
  let rop := bits (wd w 5) 3 0
  fmtsOk w true false true && wordsZero w [3, 7] && bits (wd w 5) 63 7 == 0 && decide (rop ≤ 6) &&
    ((rop != 4 && rop != 5) || fFmtOut w == 0)

/-- GATHER and SCATTER (R155, R156, R160). -/
def indexedOk (w : List Dword) (opBits : Nat) : Bool :=
  fmtsOk w true true true && fFmtB w == 0 && wd w 7 == 0 && bits (wd w 5) 63 opBits == 0

/-- COPY (R202, R204). -/
def copyOk (w : List Dword) : Bool :=
  fmtsOk w true false true && wordsZero w [3, 6] && bits (wd w 5) 63 18 == 0 &&
    (if fPadWrite w then decide (wd w 7 < 2 ^ fmtBits (fFmtOut w)) else wd w 7 == 0)

/-- RECIPE (R266). -/
def recipeOk (w : List Dword) : Bool :=
  fRepeat w == 0 && fmtsOk w false false false && fScope w == 2 && bits (wd w 3) 31 5 == 0 &&
    decide (bits (wd w 3) 4 0 ≤ 19) && bits (wd w 3) 63 32 != 0 && wordsZero w [5, 6, 7]

/-- WAIT (R101). -/
def waitOk (w : List Dword) : Bool :=
  bits (wd w 3) 63 32 == 0 && bits (wd w 4) 63 3 == 0 && decide (bits (wd w 4) 2 0 ≤ 5) && wordsZero w [5, 6, 7]

/-- ATOMIC (R186). -/
def atomicOk (w : List Dword) : Bool :=
  let o := wd w 5
  let wide := bit o 4
  bits o 63 7 == 0 && decide (bits o 3 0 ≤ 7) && (!wide || [2, 3, 6, 7].contains (bits o 3 0)) &&
    (wide || (bits (wd w 3) 63 32 == 0 && bits (wd w 4) 63 32 == 0)) && wd w 7 == 0

/-- COUNT (R103). -/
def countOk (w : List Dword) : Bool :=
  let o := bits (wd w 2) 2 0
  bits (wd w 2) 63 9 == 0 && decide (o ≤ 5) && wordsZero w [4, 5, 6, 7] &&
    (if o == 2 || o == 3 then true else if o == 5 then decide (wd w 3 ≤ 5) else decide (wd w 3 < 2 ^ 32))

/-- Step 1 of R110: everything that the command's own words judge. -/
def wordsOk (w : List Dword) : Bool :=
  let o := fOpcode w
  commonOk w &&
    (if o == opMatmul then fmtsOk w true true false && wordsZero w [4, 6, 7] && bits (wd w 5) 63 32 == 0
     else if o == opVecop then vecopOk w
     else if o == opReduce then reduceOk w
     else if o == opGather then indexedOk w 3
     else if o == opScatter then indexedOk w 6 && decide (bits (wd w 5) 5 3 ≤ 3)
     else if o == opCopy then copyOk w
     else if o == opDma then fmtsOk w true false true && wordsZero w [3, 5, 6, 7]
     else if o == opRecipe then recipeOk w
     else
       fRepeat w == 0 && fmtsOk w false false false &&
         (if o == opWait then waitOk w
          else if o == opSignal then bits (wd w 2) 63 13 == 0 && wordsZero w [3, 4, 5, 6, 7]
          else if o == opRelease || o == opAcquire then wordsZero w [4, 5, 6, 7]
          else if o == opAtomic then atomicOk w
          else if o == opCount then countOk w
          else wordsZero w [2, 3, 4, 5, 6, 7]))

/-! ## Operands that are named by descriptors (R89, R126) -/

/-- A mask operand, if word 6 names one (R150). -/
def maskOperand (w : List Dword) : List Operand := if wd w 6 = 0 then [] else [⟨6, wd w 6, .own, false, 0x8⟩]

/-- The operands a command names by descriptors. -/
def operandsOf (w : List Dword) : List Operand :=
  let o := fOpcode w
  if o = opMatmul then [⟨2, wd w 2, .own, false, fFmtA w⟩, ⟨3, wd w 3, .own, false, fFmtB w⟩]
  else if o = opVecop then
    if vop w = 0x30 then []
    else
      (if wd w 2 = 0 then [] else [⟨2, wd w 2, .own, false, fFmtA w⟩]) ++
        (if wd w 3 = 0 then [] else [⟨3, wd w 3, .own, false, fFmtB w⟩]) ++
        [⟨4, wd w 4, .anySpad, true, fFmtOut w⟩] ++ maskOperand w
  else if o = opReduce then [⟨2, wd w 2, .own, false, fFmtA w⟩, ⟨4, wd w 4, .anySpad, true, fFmtOut w⟩] ++ maskOperand w
  else if o = opGather then
    [⟨2, wd w 2, .ownOrMem, false, fFmtA w⟩, ⟨3, wd w 3, .own, false, 0⟩, ⟨4, wd w 4, .anySpad, true, fFmtOut w⟩] ++
      maskOperand w
  else if o = opScatter then
    [⟨2, wd w 2, .own, false, fFmtA w⟩, ⟨3, wd w 3, .own, false, 0⟩, ⟨4, wd w 4, .ownOrMem, true, fFmtOut w⟩] ++
      maskOperand w
  else if o = opCopy then [⟨2, wd w 2, .local_, false, fFmtA w⟩, ⟨4, wd w 4, .local_, true, fFmtOut w⟩]
  else if o = opDma then [⟨2, wd w 2, .anywhere, false, fFmtA w⟩, ⟨4, wd w 4, .anywhere, true, fFmtOut w⟩]
  else []

/-- The descriptor that a command word names. -/
def descOf (l : List Desc) (word : Nat) : Option Desc := l.find? (·.word == word)

/-- Two descriptors have one rank and the same sizes. -/
def sameShape (x y : Desc) : Bool := x.rank == y.rank && x.dims == y.dims

/-- R202: source dimension of destination dimension `j`. -/
def permDim (word j : Nat) : Nat := if word = 0 then j else bits word (3 * j + 2) (3 * j)

/-- R202: the permutation word fits a rank. -/
def permOk (word rank : Nat) : Bool :=
  word == 0 ||
    (decide (((List.range rank).map (permDim word)).Nodup) &&
      (List.range rank).all (fun j => decide (permDim word j < rank)) &&
      ((List.range 6).all fun j => decide (j < rank) || permDim word j == 0))

/-- R150: a mask has the shape it needs. -/
def maskOk (l : List Desc) (like : Desc) : Bool :=
  match descOf l 6 with
  | some m => m.kind == 0 && sameShape m like
  | none => true

/-- Sizes of a table's lookup result: dimension `dim` has length `n` (R156, R160). -/
def dimsWith (x : Desc) (dim n : Nat) : List Nat := x.dims.set dim n

/-- What step 4 asks of a command's descriptors together (R129, R141, R142, R150, R152, R153, R155, R156, R160, R164,
R202, R203). -/
def togetherOk (w : List Dword) (l : List Desc) : Bool :=
  let o := fOpcode w
  match descOf l 2, descOf l 3, descOf l 4 with
  | some a, some b, none =>
    -- MATMUL
    o == opMatmul && a.rank == 2 && b.rank == 2 && a.size 0 == b.size 0 && decide (a.size 1 ≤ 32) &&
      decide (b.size 1 ≤ 32)
  | a, b, some c =>
    if o = opVecop then
      (a.elim true (sameShape · c)) && (b.elim true (sameShape · c)) && maskOk l c &&
        (wd w 2 != 0 || (c.rank == 2 && decide (c.size 0 ≤ 32) && decide (c.size 1 ≤ 32))) &&
        (wd w 6 == 0 || fMaskZero w || c.kind == 0)
    else if o = opReduce then
      match a with
      | some a =>
        let dim := bits (wd w 5) 6 4
        let arg := bits (wd w 5) 3 0 == 4 || bits (wd w 5) 3 0 == 5
        decide (dim < a.rank) && maskOk l a && (!arg || (c.kind == 0 && c.stride 0 == 0)) &&
          (if a.rank = 1 then c.rank == 1 && c.size 0 == 1
           else c.rank == a.rank - 1 && c.dims == a.dims.eraseIdx dim)
      | none => false
    else if o = opGather ∨ o = opScatter then
      match a, b with
      | some a, some i =>
        let dim := bits (wd w 5) 2 0
        let table := if o = opGather then a else c
        let other := if o = opGather then c else a
        decide (dim < table.rank) && i.rank == 1 && i.kind == 0 && i.stride 0 == 0 && other.rank == table.rank &&
          other.dims == dimsWith table dim (i.size 0) && maskOk l i &&
          (o != opGather || wd w 6 == 0 || fMaskZero w || c.kind == 0)
      | _, _ => false
    else if o = opCopy then
      match a with
      | some a =>
        a.rank == c.rank && permOk (wd w 5) a.rank &&
          (List.range a.rank).all fun j => decide (a.size (permDim (wd w 5) j) ≤ c.size j)
      | none => false
    else (a.elim false (sameShape · c))
  | _, _, none => o == opVecop

/-! ## Step 5 of R110: formats in their roles (R42, R46, R145, R156, R160, R162, R206) -/

/-- Sub-byte formats (R206). -/
def subByte (f : Nat) : Bool := decide (fmtBits f < 8)

/-- The command word of the first operand whose format its role does not support (R110 step 5); 0 where every operand's
is supported. -/
def formatWord (w : List Dword) (l : List Desc) : Nat :=
  let o := fOpcode w
  let k := fun (i : Nat) => (descOf l i).elim 0 (·.kind)
  if o = opMatmul then (if fFmtA w = 0 then 2 else if fFmtB w = 0 ∨ fFmtB w = 0xA then 3 else 0)
  else if o = opVecop then
    if !vopBf16 w then 0
    else if wd w 2 = 0 ∨ fFmtA w ≠ 1 ∨ k 2 ≠ 0 then 2
    else if wd w 3 ≠ 0 ∧ (fFmtB w ≠ 1 ∨ k 3 ≠ 0) then 3
    else 0
  else if o = opGather ∨ o = opScatter then
    if k 2 ≠ 0 then 2
    else if k 4 ≠ 0 ∨ (o = opScatter ∧ bits (wd w 5) 5 3 ≠ 0 ∧ fFmtOut w ≠ 0) then 4
    else 0
  else if o = opCopy ∨ o = opDma then
    if fFmtA w ≠ fFmtOut w ∨ k 2 ≠ k 4 then 4
    else if o = opCopy ∧ permDim (wd w 5) 0 ≠ 0 ∧ (subByte (fFmtA w) ∨ k 2 ≠ 0) then 2
    else 0
  else 0

/-! ## Relations (R101, R104) -/

/-- A value stands in a relation to a reference. -/
def relationHolds (rel a b : Nat) : Bool :=
  match rel with
  | 0 => a == b
  | 1 => a != b
  | 2 => decide (signed 32 a < signed 32 b)
  | 3 => decide (signed 32 b ≤ signed 32 a)
  | 4 => decide (a < b)
  | 5 => decide (b ≤ a)
  | _ => false

/-- R104: the predicate of a command on a core. -/
def predicate (c : Core) (w : List Dword) : Bool :=
  relationHolds (mget 0#3 c.relations (fPredComp w)).toNat (mget 0#32 c.counters (fPredCounter w)).toNat
    (mget 0#32 c.refs (fPredComp w)).toNat

end Sys2Proof.Machine
end

