-- ==== Sys2Proof/Machine/Transcend.lean ====
section
/-! DEFINITION. The functions of R144 whose results R147 bounds: their exact results to 2^-120 or better, in fixed point
of 160 fraction bits, and the free choice of a result within the bound. -/
namespace Sys2Proof.Machine

/-- Fraction bits of the fixed point. -/
def fxP : Nat := 160
/-- 1.0 in fixed point. -/
def fxOne : Nat := 2 ^ 160
/-- ln 2 in fixed point. -/
def fxLn2 : Int := 1013035739299659071135698605846798551586536899366
/-- π in fixed point. -/
def fxPi : Int := 4591442807048218921384805199743311128454155024418
/-- √(2/π) in fixed point. -/
def fxSqrt2OverPi : Int := 1166109592014436081468383460887399764390691815008

/-- A finite value in fixed point, rounded down. -/
def toFx : Val → Int
  | .fin neg mag e den =>
    let u := (scaled mag e den (-160)).1
    if neg then -(u : Int) else u
  | _ => 0

/-- A fixed-point number as a value. -/
def ofFx (i : Int) : Val := .fin (decide (i < 0)) i.natAbs (-160) 1

/-- Fixed-point product. -/
def fxMul (a b : Int) : Int := a * b / (fxOne : Int)

/-- Σ r^n / n! from term `n`, `fuel` terms. -/
def expSeries (r : Int) : Nat → Nat → Int → Int
  | 0, _, _ => 0
  | fuel + 1, n, term => term + expSeries r fuel (n + 1) (fxMul term r / (n + 1 : Int))

/-- e^v for a finite value. -/
def expVal (v : Val) : Val :=
  if vlt (vint 200) v then vpow2 300
  else if vlt v (vint (-200)) then vpow2 (-300)
  else
    let t := toFx v
    let k := t / fxLn2
    .fin false (expSeries (t - k * fxLn2) 48 0 fxOne).natAbs (k - 160) 1

/-- Σ y^(2n+1) / (2n+1). -/
def atanhSeries (y2 : Int) : Nat → Nat → Int → Int
  | 0, _, _ => 0
  | fuel + 1, n, pw => pw / (2 * n + 1 : Int) + atanhSeries y2 fuel (n + 1) (fxMul pw y2)

/-- ln v for a positive finite value. -/
def lnVal (v : Val) : Val :=
  match v with
  | .fin _ mag e den =>
    let k := ilog2Q mag e den
    let m := toFx (.fin false mag (e - k) den)
    let y := (m - fxOne) * fxOne / (m + fxOne)
    ofFx (2 * atanhSeries (fxMul y y) 52 0 y + k * fxLn2)
  | _ => vzero

/-- 1 / (1 + e^(-v)). -/
def sigmoidVal (v : Val) : Val :=
  (vdiv (vint 1) (vadd (vint 1) (expVal (vminus v))).1).1

/-- tanh v = 2 sigmoid(2v) − 1. -/
def tanhVal (v : Val) : Val :=
  (vadd (vmul (vint 2) (sigmoidVal (vmul (vint 2) v).1)).1 (vint (-1))).1

/-- √v for a value ≥ 0, to 2^-150 of its size. -/
def sqrtVal (v : Val) : Val :=
  match v with
  | .fin neg mag e den =>
    if mag = 0 then .fin neg 0 0 1
    else
      let k := ilog2Q mag e den / 2
      let n := (scaled mag (e - 2 * k) den (-320)).1
      let exact := decide ((scaled mag (e - 2 * k) den (-320)).2.1 = 0) && decide (n.sqrt * n.sqrt = n)
      .fin false (2 * n.sqrt + (if exact then 0 else 1)) (k - 161) 1
  | w => w

/-- Σ (−1)^n x^(2n+s) / (2n+s)!, the term given. -/
def trigSeries (x2 : Int) (s : Nat) : Nat → Nat → Int → Int
  | 0, _, _ => 0
  | fuel + 1, n, term =>
    term + trigSeries x2 s fuel (n + 1) (-(fxMul term x2) / ((2 * n + s + 1 : Int) * (2 * n + s + 2)))

/-- An angle brought to [−π, π). -/
def reduceAngle (v : Val) : Int := (toFx v + fxPi) % (2 * fxPi) - fxPi

/-- sin of an angle in radians. -/
def sinVal (v : Val) : Val := let x := reduceAngle v; ofFx (trigSeries (fxMul x x) 1 40 0 x)
/-- cos of an angle in radians. -/
def cosVal (v : Val) : Val := let x := reduceAngle v; ofFx (trigSeries (fxMul x x) 0 40 0 fxOne)

/-- GELU as R144 writes it: 0.5 A (1 + tanh y) = A × sigmoid(2y). -/
def geluVal (v : Val) : Val :=
  let cube := (vmul v (vmul v v).1).1
  let inner := (vadd v (vmul (.fin false 44715 0 1000000) cube).1).1
  let y2 := (vmul (vmul (vint 2) (ofFx fxSqrt2OverPi)).1 inner).1
  (vmul v (sigmoidVal y2)).1

/-- One unit in the last place of the lane format at a value. -/
def ulpOf (f : FloatFmt) (v : Val) : Val :=
  match v with
  | .fin _ mag e den => if mag = 0 then vpow2 (qmin f) else vpow2 (max (qmin f) (ilog2Q mag e den - f.mbits))
  | _ => vzero

/-- |a − b| ≤ bound. -/
def within (a b bound : Val) : Bool :=
  !vIsNan a && !vIsInf a && !vlt bound (vabs (vadd a (vminus b)).1)

/-- R57: the flags of delivering `code` for an exact result. `open_` says that the exact result is no number that a code
can hold, whatever the fixed point shows of it. -/
def codeFlags (f : FloatFmt) (open_ : Bool) (exact : Val) (code : Nat) : Flags :=
  let mag := code % 2 ^ (f.ebits + f.mbits)
  let inexact := open_ || !veq (decodeFloat f code) exact
  ⟨false, false, inexact && decide (mag ≠ 0) && decide (mag < 2 ^ f.mbits), inexact⟩

/-- R147: a result within `ulps` units in the last place, or within `2^abs` where that is larger. The candidate is a
free choice; when it misses the bound, the correctly rounded result stands. The flags are those of the result delivered
(R57). -/
def bounded (f : FloatFmt) (choice ulps : Nat) (absExp : Option Int) (open_ : Bool) (exact : Val) : Nat × Flags :=
  let b0 := (vmul (vint ulps) (ulpOf f exact)).1
  let b := match absExp with | some a => vmax b0 (vpow2 a) | none => b0
  let best := roundFloat f .given 0 0 exact
  let cand := choice % 2 ^ (1 + f.ebits + f.mbits)
  if best.2.overflow then best
  else
    let code := if within (decodeFloat f cand) exact b then cand else best.1
    (code, codeFlags f open_ exact code)

/-- R147, |A| > 2^24: any value in [−1, 1]. -/
def anyUnit (f : FloatFmt) (choice : Nat) : Nat × Flags :=
  let cand := choice % 2 ^ (1 + f.ebits + f.mbits)
  let code := if within (decodeFloat f cand) vzero (vint 1) then cand else 0
  (code, codeFlags f true vzero code)

end Sys2Proof.Machine
end

