-- ==== Sys2Proof/Machine/Lanes.lean ====
section
/-! DEFINITION. Arithmetic of the vector engine on single elements: the operations of R144 with the bounds of R147 and the
special operands of R148, and the reductions of R153 and R154. -/
namespace Sys2Proof.Machine

/-- An exact result, rounded once into the lane's format. -/
def laneRound (f : FloatFmt) (x : Val × Bool) : Val × Flags :=
  let o := roundFloat f .given 0 0 x.1
  (decodeFloat f o.1, orFlags o.2 (invalidIf x.2))

/-- A result that R147 bounds; `open_` where no code can hold the exact result. -/
def laneBounded (f : FloatFmt) (choice ulps : Nat) (absExp : Option Int) (open_ : Bool) (exact : Val) : Val × Flags :=
  let o := bounded f choice ulps absExp open_ exact
  (decodeFloat f o.1, o.2)

/-- A special result of R148. -/
def special (v : Val) : Val × Flags := (v, noFlags)
/-- An invalid operation (R54). -/
def invalidOp : Val × Flags := (.nan, invalidFlag)
/-- An infinity or a zero with the sign of `a`. -/
def infLike (a : Val) : Val := .inf (vneg a)
/-- A zero with the sign of `a`. -/
def zeroLike (a : Val) : Val := .fin (vneg a) 0 0 1

/-- BF16 lanes. -/
def isBf (f : FloatFmt) : Bool := f.mbits == 7

/-- R147: e^x within 2 ulp (1 in BF16 lanes). -/
def laneExp (f : FloatFmt) (ch : Nat) (a : Val) : Val × Flags :=
  match a with
  | .nan => special .nan
  | .inf true => special vzero
  | .inf false => special a
  | _ => laneBounded f ch (if isBf f then 1 else 2) none (!vIsZero a) (expVal a)

/-- EXPSUB: the difference is exact. Equal finite operands give exactly 1, as R298 (merging with an empty partial), R300
(l is at least 1) and R301 (the output is c_0 exactly) have it (DEDUCED, assumption 18). -/
def laneExpSub (f : FloatFmt) (ch : Nat) (a b : Val) : Val × Flags :=
  match a, b with
  | .inf true, .inf true => special vzero
  | .inf false, .inf false => invalidOp
  | _, _ =>
    let x := (vadd a (vminus b)).1
    if vIsZero x then special (vint 1) else laneExp f ch x

/-- ln x; of 1 exactly 0 (DEDUCED from R301, whose LSE holds only then; assumption 18). -/
def laneLog (f : FloatFmt) (ch : Nat) (a : Val) : Val × Flags :=
  if vIsNan a then special .nan
  else if vIsZero a then special (.inf true)
  else if vneg a then invalidOp
  else if vIsInf a then special a
  else if veq a (vint 1) then special vzero
  else laneBounded f ch (if isBf f then 1 else 2) none true (lnVal a)

/-- 1 / x. -/
def laneRecip (f : FloatFmt) (ch : Nat) (a : Val) : Val × Flags :=
  if vIsNan a then special .nan
  else if vIsZero a then special (infLike a)
  else if vIsInf a then special (zeroLike a)
  else laneBounded f ch 1 none false (vdiv (vint 1) a).1

/-- √x, correctly rounded. -/
def laneSqrt (f : FloatFmt) (a : Val) : Val × Flags :=
  if vIsNan a then special .nan
  else if vIsZero a then special a
  else if vneg a then invalidOp
  else if vIsInf a then special a
  else laneRound f (sqrtVal a, false)

/-- 1 / √x. -/
def laneRsqrt (f : FloatFmt) (ch : Nat) (a : Val) : Val × Flags :=
  if vIsNan a then special .nan
  else if vIsZero a then special (infLike a)
  else if vneg a then invalidOp
  else if vIsInf a then special vzero
  else laneBounded f ch 1 none false (vdiv (vint 1) (sqrtVal a)).1

/-- TANH, SIGMOID, SILU, GELU: the exact result, or what an infinity gives. -/
def laneSmooth (f : FloatFmt) (ch : Nat) (atNeg atPos : Val) (g : Val → Val) (a : Val) : Val × Flags :=
  match a with
  | .nan => special .nan
  | .inf true => special atNeg
  | .inf false => special atPos
  | _ => laneBounded f ch (if isBf f then 1 else 4) (some (if isBf f then -9 else -24)) (!vIsZero a) (g a)

/-- SIN and COS: an absolute bound up to 2^24, any value of [−1, 1] beyond. -/
def laneTrig (f : FloatFmt) (ch : Nat) (g : Val → Val) (a : Val) : Val × Flags :=
  if vIsNan a then special .nan
  else if vIsInf a then invalidOp
  else if vlt (vpow2 24) (vabs a) then
    let o := anyUnit f ch
    (decodeFloat f o.1, o.2)
  else laneBounded f ch 0 (some (if isBf f then -8 else -22)) (!vIsZero a) (g a)

/-- A comparison's result (R146). -/
def truth (b : Bool) : Val × Flags := special (vint (if b then 1 else 0))

/-- R144: one operation in lanes of format `f`. `ch` chooses among the results that R147 allows. -/
def laneOp (v : Nat) (f : FloatFmt) (ch : Nat) (a b s : Val) : Val × Flags :=
  match v with
  | 0x00 => laneRound f (a, false)
  | 0x01 => laneRound f (vadd a b)
  | 0x02 => laneRound f (vadd a (vminus b))
  | 0x03 => laneRound f (vmul a b)
  | 0x04 =>
    let p := vmul a s
    let q := vadd p.1 b
    laneRound f (q.1, p.2 || q.2)
  | 0x05 => laneRound f (vdiv a b)
  | 0x06 => laneRound f (vmax a b, false)
  | 0x07 => laneRound f (vmin a b, false)
  | 0x08 => laneRound f (vabs a, false)
  | 0x09 => laneRound f (vminus a, false)
  | 0x10 => laneExp f ch a
  | 0x11 => laneExpSub f ch a b
  | 0x12 => laneLog f ch a
  | 0x13 => laneRecip f ch a
  | 0x14 => laneSqrt f a
  | 0x15 => laneRsqrt f ch a
  | 0x16 => laneSmooth f ch (vint (-1)) (vint 1) tanhVal a
  | 0x17 => laneSmooth f ch vzero (vint 1) sigmoidVal a
  | 0x18 => laneSmooth f ch (.fin true 0 0 1) (.inf false) (fun x => (vmul x (sigmoidVal x)).1) a
  | 0x19 => laneSmooth f ch (.fin true 0 0 1) (.inf false) geluVal a
  | 0x1A => laneTrig f ch sinVal a
  | 0x1B => laneTrig f ch cosVal a
  | 0x20 => truth (vlt a b)
  | 0x21 => truth (!vIsNan a && !vIsNan b && !vlt b a)
  | 0x22 => truth (veq a b)
  | 0x23 => truth (!veq a b)
  | _ => special vzero

/-! ## Reductions -/

/-- Take element `i` (modulo the length) out of a list. -/
def takeAt {α : Type} (l : List α) (i : Nat) : Option α × List α :=
  match l[i % l.length]? with
  | some a => (some a, l.eraseIdx (i % l.length))
  | none => (none, l)

/-- Rounded additions in a free order: two terms, freely chosen, are replaced by their rounded sum until one is left. -/
def sumTerms : Nat → Nat → List Val → Flags → Val × Flags
  | 0, _, l, f => (l.headD vzero, f)
  | fuel + 1, seed, l, f =>
    match takeAt l (Config.freeNat seed) with
    | (some a, l') =>
      match takeAt l' (Config.freeNat (seed + 1)) with
      | (some b, l'') =>
        let s := laneRound fp32 (vadd a b)
        sumTerms fuel (seed + 2) (l'' ++ [s.1]) (orFlags f s.2)
      | (none, _) =>
        let s := laneRound fp32 (a, false)
        (s.1, orFlags f s.2)
    | (none, _) => (vzero, f)

/-- R153: the FP32 value of some order of rounded additions; with no term `+0`. Whether an accumulator's `+0` takes part
is free. -/
def anySum (seed : Nat) (l : List Val) : Val × Flags :=
  let l := if Config.freeNat seed % 2 = 1 then l ++ [vzero] else l
  sumTerms (l.length + 1) (seed + 1) l noFlags

/-- Free values that a sum of `n` terms may use. -/
def sumDraws (n : Nat) : Nat := 2 * n + 4

/-- ARGMAX and ARGMIN over the active elements with their indices: the first NaN, else the lowest index of the best
value; −1 with no element. -/
def argBest (better : Val → Val → Bool) (l : List (Nat × Val)) : Int :=
  match l.find? fun e => vIsNan e.2 with
  | some e => e.1
  | none =>
    match l with
    | [] => -1
    | h :: t => ((t.foldl (fun best e => if better e.2 best.2 then e else best) h).1 : Int)

/-- LSE (R153, R154): max + ln Σ e^(x − max), its parts within the bounds of R147. -/
def lse (seed : Nat) (l : List Val) : Val × Flags :=
  let top := l.foldl vmax (.inf true)
  match top with
  | .nan => special .nan
  | .inf n => special (.inf n)
  | _ =>
    let es := (List.range l.length).map fun i =>
      laneExpSub fp32 (Config.freeNat (seed + i)) (l.getD i vzero) top
    let s := anySum (seed + l.length) (es.map (·.1))
    let g := laneLog fp32 (Config.freeNat (seed + l.length + sumDraws l.length)) s.1
    let r := laneRound fp32 (vadd top g.1)
    (r.1, orFlags (es.foldl (fun f e => orFlags f e.2) noFlags) (orFlags s.2 (orFlags g.2 r.2)))

/-- Free values that one reduction of `n` elements may use. -/
def reduceDraws (n : Nat) : Nat := n + sumDraws n + 1

/-- R153: one reduction over the active elements of a line, with their indices: a value, or an index for ARGMAX and
ARGMIN. -/
def reduceLine (rop seed : Nat) (l : List (Nat × Val)) : (Val × Flags) ⊕ Int :=
  let vs := l.map (·.2)
  match rop with
  | 0 => .inl (anySum seed vs)
  | 1 => .inl (special (vs.foldl vmax (.inf true)))
  | 2 => .inl (special (vs.foldl vmin (.inf false)))
  | 3 => .inl (anySum seed (vs.map fun v => (vmul v v).1))
  | 4 => .inr (argBest (fun a b => vlt b a) l)
  | 5 => .inr (argBest vlt l)
  | _ => .inl (lse seed vs)

end Sys2Proof.Machine
end

