-- ==== Sys2Proof/Machine/ControlWords.lean ====
section
/-! DEFINITION. The words of a control command (R440): its fields, what R440 and R441 refuse, and the registers that a
REG_WRITE writes. -/
namespace Sys2Proof.Machine

/-! ## Control commands (R440) -/
/-- REG_READ -/ def ctRead : Nat := 0x01
/-- REG_WRITE -/ def ctWrite : Nat := 0x02
/-- AUTH_NONCE -/ def ctNonce : Nat := 0x03
/-- AUTH -/ def ctAuth : Nat := 0x04
/-- QP_CONNECT -/ def ctConnect : Nat := 0x05
/-- QP_RESET -/ def ctReset : Nat := 0x06
/-- ATTEST -/ def ctAttest : Nat := 0x10
/-- UPDATE -/ def ctUpdate : Nat := 0x11

/-- op -/ def cOp (w : List Dword) : Nat := bits (wd w 0) 7 0
/-- count -/ def cCount (w : List Dword) : Nat := bits (wd w 0) 15 8
/-- offset -/ def cOffset (w : List Dword) : Nat := bits (wd w 1) 31 0
/-- host address -/ def cHost (w : List Dword) : Nat := wd w 2
/-- rkey -/ def cKey (w : List Dword) : Nat := bits (wd w 3) 31 0
/-- register value i -/
def cValue (w : List Dword) (i : Nat) : Nat := leNat (((wordBytes (w.drop 4)).drop (4 * i)).take 4)

/-- Offsets that a REG_READ or REG_WRITE names. -/
def cOffsets (w : List Dword) : List Nat := (List.range (cCount w)).map fun i => cOffset w + 4 * i

/-- Queue pair 0 has authenticated (R441). -/
def authenticated (d : Dev) : Bool := bit (reg d 0x400100) 0

/-- What queue pair 0 accepts before it has authenticated (R441). -/
def openOp (w : List Dword) : Bool :=
  cOp w == ctNonce || cOp w == ctAuth || (cOp w == ctRead && (cOffsets w).all fun o => decide (o < 0x10000))

/-- The ops of R440. -/
def ctrlOps : List Nat := [ctRead, ctWrite, ctNonce, ctAuth, ctConnect, ctReset, ctAttest, ctUpdate]

/-- Status of a control command of queue pair `q` that R440 or R441 refuses: authentication is judged first. -/
def ctrlFault (d : Dev) (q : Nat) (w : List Dword) : Option Nat :=
  let o := cOp w
  let reserved := bits (wd w 0) 63 16 != 0 || bits (wd w 1) 63 32 != 0 || bits (wd w 3) 63 32 != 0
  let count := (o == ctRead && (cCount w == 0 || decide (64 < cCount w))) ||
    (o == ctWrite && (cCount w == 0 || decide (8 < cCount w)))
  if q == 0 && !authenticated d && !openOp w then some stSig
  else if !ctrlOps.contains o || reserved || count || (q != 0 && o != ctRead && o != ctAttest) then some stDescriptor
  else none

/-! ## Register writes -/

/-- Register writes that have a row of their own. -/
inductive WriteKind where
  | plain
  | bake
  | discard
  | ptp
  | arm
  | disarm
  | retrain (link : Nat)
  | remap
deriving DecidableEq, Repr

/-- The kind of a write of `v` at an offset. -/
def kindAt (off v : Nat) : WriteKind :=
  if off = benchOff 0 then (if bit v 0 then .bake else if bit v 1 then .discard else .plain)
  else if off = ptpOff 0x0C then .ptp
  else if off = eccOff 0x100 then (if bit v 31 then .arm else .disarm)
  else if off = eccOff 0x800 then .remap
  else if 0x300000 ≤ off ∧ off < 0x314000 ∧ off % 0x1000 = 0x10 ∧ bit v 0 then .retrain ((off - 0x300000) / 0x1000)
  else .plain

/-- The writes of a REG_WRITE: offset and value. -/
def cWrites (w : List Dword) : List (Nat × Nat) := (List.range (cCount w)).map fun i => (cOffset w + 4 * i, cValue w i)

/-- The kind of a REG_WRITE; its offsets hold at most one register with a row of its own. -/
def writeKind (w : List Dword) : WriteKind :=
  (((cWrites w).map fun e => kindAt e.1 e.2).find? (· != .plain)).getD .plain

/-- Value that a REG_WRITE gives the register at an offset. -/
def valueAt (w : List Dword) (off : Nat) : Nat := (((cWrites w).find? (·.1 == off)).map (·.2)).getD 0

/-- An ECC_REMAP_REQ that R440 and R441 let be performed, for a row of the channel, is at the head of a control ring. -/
def remapAsked (d : Dev) (s c : Nat) : Bool :=
  d.host.rings.any fun e => e.2.elim false fun x => x.head.elim false fun h =>
    let v := valueAt h.words (eccOff 0x800)
    x.target == 2 && h.good && cOp h.words == ctWrite && writeKind h.words == .remap &&
      (ctrlFault d (e.1 / 16) h.words).isNone && bits v 4 0 == s && bits v 9 5 == c

end Sys2Proof.Machine
end

