-- ==== Sys2Proof/Machine/RecipeWords.lean ====
section
/-! DEFINITION. The words of a RECIPE's image and of its parameter block (R254, R264, R265), and the byte ranges that it
names. -/
namespace Sys2Proof.Machine

/-! ## Images (R254) -/

/-- A header's words are valid (proof code 1). -/
def headerOk (h : List Dword) : Bool :=
  bits (wd h 0) 31 0 == 0x4B524350 && decide (1 ≤ bits (wd h 0) 47 32) && decide (bits (wd h 0) 47 32 ≤ 8192) &&
    bits (wd h 0) 55 48 == 1 && bits (wd h 0) 63 56 == 0 && bits (wd h 1) 63 32 == 0 &&
    [2, 3, 4, 5, 6, 7].all fun i => wd h i == 0

/-- Instructions that a header announces. -/
def headerCount (h : List Dword) : Nat := bits (wd h 0) 47 32

/-- The image in a list of bytes. -/
def imageFrom (addr : Nat) (data : List Byte) : Image :=
  let w := toWords data
  { addr := addr, used := bits (wd w 1) 31 0, instrs := (w.drop 8).map (·.toNat) }

/-- Load entries, destinations and row bases used. -/
def usedLoads (u : Nat) : Nat := bits u 15 0
/-- See `usedLoads`. -/
def usedDests (u : Nat) : Nat := bits u 23 16
/-- See `usedLoads`. -/
def usedBases (u : Nat) : Nat := bits u 31 24

/-- The data address of instruction `i` (R254). -/
def insAddr (imageAt i : Nat) : Nat := imageAt + 64 + 8 * i

/-! ## Parameter blocks (R264, R265) -/

/-- Word `i` of a parameter block. -/
def paramWord (p : List Byte) (i : Nat) : Nat := leNat ((p.drop (8 * i)).take 8)
/-- Row base `j`. -/
def paramBase (p : List Byte) (j : Nat) : Nat := leNat ((p.drop (8 + 2 * j)).take 2)
/-- Constant `k`. -/
def paramConst (p : List Byte) (k : Nat) : Nat := leNat ((p.drop (24 + 4 * k)).take 4)
/-- Load entry `e`. -/
def paramLoad (p : List Byte) (e : Nat) : Nat := paramWord p (8 + e)
/-- Reload the image (R255). -/
def paramReload (p : List Byte) : Bool := bit (paramWord p 0) 0

/-- A destination entry. -/
structure Dest where
  addr    : Nat
  fmt     : Nat
  combine : Nat
  slots   : Nat
  first   : Nat
  count   : Nat
  stride  : Nat
deriving DecidableEq, Repr

/-- Destination entry `i`. -/
def paramDest (p : List Byte) (i : Nat) : Dest :=
  let x := paramWord p (25 + 2 * i)
  ⟨paramWord p (24 + 2 * i), bits x 3 0, bits x 5 4, bits x 9 6, bits x 19 10, bits x 30 20, bits x 63 32⟩

/-- Reserved bits of the whole block are zero (R10). -/
def paramClean (p : List Byte) : Bool :=
  paramWord p 0 / 2 == 0 && (List.range 8).all (fun j => !bit (paramBase p j) 14) &&
    (List.range 8).all fun i => !bit (paramWord p (25 + 2 * i)) 31

/-- R265: bytes of one slot's run. -/
def Dest.run (x : Dest) : Nat :=
  cdiv (x.count * (fmtBits x.fmt / 8)) 64 * 64 + (if x.combine = 1 then 64 else 0)

/-- R265: the byte ranges of a destination for a mask of `n` channels. -/
def Dest.ranges (x : Dest) (n : Nat) : List (Nat × Nat) :=
  let size := x.run * (bitsSet x.slots 4).length
  if x.combine = 2 then (List.range n).map fun j => (x.addr + j * x.stride * 64, size) else [(x.addr, size)]

/-! ## What a RECIPE names -/

/-- The image at an address, however it is spelled (R61), is resident in every channel of a mask (R255): that of its
lowest channel, where channels of the mask hold different copies (DESIGN CHOICE, assumption 60). -/
def residentImage (d : Dev) (s mask addr : Nat) : Option Image :=
  let here := fun (c : Nat) => (chanOf d s c).store.find? fun x => x.addr == plainAddr d addr
  if (bitsSet mask 32).all fun c => (here c).isSome then (bitsSet mask 32).head?.bind here else none

/-- Byte ranges of a RECIPE with this parameter block and these used bits (R264): its image, its parameter block, and the
load entries and destinations that its image marks as used. -/
def recipeRangesWith (d : Dev) (w : List Dword) (p : List Byte) (used : Nat) : List (Nat × Nat) :=
  let n := popcount (bits (wd w 3) 63 32) 32
  (wd w 2, 64 + 8 * headerCount (toWords (peek d (wd w 2) 64))) :: (wd w 4, 320) ::
    ((bitsSet (usedLoads used) 16).map fun e => (paramLoad p e, 1024)) ++
    (bitsSet (usedDests used) 8).flatMap fun i => (paramDest p i).ranges n

/-- Those of a RECIPE at the head of its queue, as its parameter block and its image stand. -/
def recipeRanges (d : Dev) (w : List Dword) : List (Nat × Nat) :=
  let p := peek d (wd w 4) 320
  let kept := if paramReload p then none else residentImage d (bits (wd w 3) 4 0) (bits (wd w 3) 63 32) (wd w 2)
  recipeRangesWith d w p (kept.elim (bits (wd (toWords (peek d (wd w 2) 64)) 1) 31 0) (·.used))

/-- Those of a RECIPE in flight, as it was issued. -/
def recipeRangesOf (d : Dev) (c : Cmd) : List (Nat × Nat) :=
  let b := mget [] c.buf 0
  recipeRangesWith d c.words (b.take 320) (leNat (b.drop 320))

end Sys2Proof.Machine
end

