-- ==== Sys2Proof/Machine/Door.lean ====
section
/-! DEFINITION. The oven door (R248, R364, R368): what a bake between prepare and instant, or a zero-fill, holds. -/
namespace Sys2Proof.Machine

/-- A unit lies between its prepare and the end of the bake. -/
def affects (d : Dev) (u : BakeUnit) : Bool := d.parts.bake.elim false fun b => b.units.contains u

/-- A register as the bake in progress stages it, else as in force. -/
def stagedReg (d : Dev) (off : Nat) : Nat :=
  match d.parts.bake with
  | some b => (mget (BitVec.ofNat 32 (reg d off)) b.staged off).toNat
  | none => reg d off

/-- Region entries that the bake in progress affects. -/
def doorRegions (d : Dev) : List Nat :=
  d.parts.bake.elim [] fun b => b.units.filterMap fun u =>
    match u with
    | .region n => some n
    | .upkeep n => some n
    | _ => none

/-- A channel is held. -/
def doorChan (d : Dev) (s c : Nat) : Bool := affects d (.mode s c) || affects d (.holder s c)

/-- An access to a key is held: its channel, its region before or after the bake, or one being filled (R364, R368). -/
def doorKey (d : Dev) (k : Nat) : Bool :=
  doorChan d (keyStack k) (keyChan k) ||
    (doorRegions d).any (fun n =>
      let a := regionAt d n
      let b := regionVia (stagedReg d) n
      (a.valid && a.area.covers k) || (b.valid && b.area.covers k)) ||
    d.parts.fills.any fun f => f.area.covers k

/-- An access to a data address is held: of a scratchpad, while its cluster is affected. -/
def doorAddr (d : Dev) (a : Nat) : Bool :=
  match placeOf d a with
  | .mem _ k => doorKey d k
  | .spad k => affects d (.cluster (k / 2 ^ 24))
  | _ => false

/-- A RECIPE whose mask has the channel is aimed at a region that covers part of it: one that the bake affects, or one
being filled (R364, R368; DEDUCED, assumption 55: the mask names what covers its channels). -/
def doorMask (d : Dev) (s c : Nat) : Bool :=
  let on := fun (a : Area) => (areaChans a).contains (32 * s + c)
  ((doorRegions d).any fun n =>
    let a := regionAt d n
    let b := regionVia (stagedReg d) n
    (a.valid && on a.area) || (b.valid && on b.area)) ||
  d.parts.fills.any fun f => on f.area

/-- A mesh or stack-axis change of a partition is held. -/
def doorMesh (d : Dev) (p : Nat) : Bool :=
  [0x14, 0x18, 0x1C].any fun o => affects d (.setting (partOff p o))

/-- The descriptors of a command as they stand. -/
def peekDescs (d : Dev) (p : Nat) (w : List Dword) : List (Operand × Desc) :=
  ((operandsOf w).filter fun o => descPlace d p o.addr).map fun o =>
    (o, descFrom o.word (toWords (peek d o.addr 64)))

/-! ## Ranges -/

/-- Module addresses at which a range can enter areas, channels or clusters' scratchpads in which it does not begin: where
each begins, and for a channel also the blocks of one turn of its group's interleave (R63). -/
def edgePoints (areas : List Area) (chans : List (Nat × Nat)) (clusters : List Nat) : List Nat :=
  (areas.map fun a => (if a.direct then 2 ^ 47 else 0) + a.base * 2 ^ 21) ++
    (chans.flatMap fun e => (2 ^ 47 + e.1 * 2 ^ 36 + e.2 * 2 ^ 31) ::
      (List.range 80).map fun i => e.2 / 4 * groupSize + 4096 * i) ++
    clusters.map (· * 2 ^ 24)

/-- Some byte of the `n` from data address `a` on lies where `p` holds, for a `p` of whole areas, channels and clusters
that begin at `edges`: two turns of the interleave from `a` on show every channel that the range reaches. -/
def rangeMeets (p : Nat → Bool) (edges : List Nat) (a n : Nat) : Bool :=
  let inside := fun (x : Nat) => decide (a ≤ x) && decide (x < a + n) && p x
  inside (a + n - 1) || (List.range 160).any (fun i => inside (a + 4096 * i)) ||
    edges.any fun e => inside (a / 2 ^ 48 * 2 ^ 48 + e)

/-- Byte ranges that a command at the head of its queue names otherwise than by a descriptor or by one address. A RELEASE
or ACQUIRE of length 0 names no unit (DESIGN CHOICE, assumption 55). -/
def headRanges (d : Dev) (w : List Dword) : List (Nat × Nat) :=
  if fOpcode w = opRelease ∨ fOpcode w = opAcquire then [(wd w 2, wd w 3)]
  else if fOpcode w = opRecipe then recipeRanges d w
  else []

/-- Those of a command in flight. -/
def cmdRanges (d : Dev) (c : Cmd) : List (Nat × Nat) :=
  if fOpcode c.words = opRecipe then recipeRangesOf d c else headRanges d c.words

/-- Something is held. -/
def doorShut (d : Dev) : Bool := d.parts.bake.isSome || !d.parts.fills.isEmpty

/-- Where what is held begins. -/
def doorEdges (d : Dev) : List Nat :=
  let units := d.parts.bake.elim [] (·.units)
  edgePoints
    ((doorRegions d).flatMap (fun n => [(regionAt d n).area, (regionVia (stagedReg d) n).area]) ++
      d.parts.fills.map (·.area))
    (units.filterMap fun u => match u with
      | .mode s c => some (s, c)
      | .holder s c => some (s, c)
      | _ => none)
    (units.filterMap fun u => match u with
      | .cluster k => some k
      | _ => none)

/-- Some byte of a range is held. -/
def rangeShut (d : Dev) (a n : Nat) : Bool := doorShut d && rangeMeets (doorAddr d) (doorEdges d) a n

/-- Addresses that a command without descriptors names. -/
def plainAddrs (w : List Dword) : List Nat :=
  let o := fOpcode w
  if o = opWait ∧ wd w 2 ≠ 0 then [wd w 2]
  else if o = opAtomic then [wd w 2] ++ (if wd w 6 = 0 then [] else [wd w 6])
  else if o = opCount ∧ (bits (wd w 2) 2 0 = 2 ∨ bits (wd w 2) 2 0 = 3) then [wd w 3]
  else []

/-- R364: the command of a core is held at the head of its queue. -/
def heldAtDoor (d : Dev) (p core : Nat) (w : List Dword) : Bool :=
  let n := iterations w
  affects d (.cluster (core / 32)) ||
    (operandsOf w).any (fun o => doorAddr d o.addr) ||
    ((peekDescs d p w).any fun e =>
      (e.2.shards.any sharded && doorMesh d p) || ((e.2.extent n).any fun g => doorAddr d (g * 64))) ||
    (plainAddrs w).any (doorAddr d) ||
    (fOpcode w == opSignal && (signalCores d p (wd w 2)).any fun c => affects d (.cluster (c / 32))) ||
    (fOpcode w == opRecipe &&
      (affects d (.budget (bits (wd w 3) 4 0)) ||
        ((bitsSet (bits (wd w 3) 63 32) 32).any fun c =>
          doorChan d (bits (wd w 3) 4 0) c || doorMask d (bits (wd w 3) 4 0) c))) ||
    (doorShut d && (headRanges d w).any fun e => rangeShut d e.1 e.2)

end Sys2Proof.Machine
end

