-- ==== Sys2Proof/Machine/Issue.lean ====
section
/-! DEFINITION. Queues: fetch, waits, issue, completion, timeouts and walks (R81 to R118, R373, R374, R435, R436). -/
namespace Sys2Proof.Machine
variable {d₀ : Dev}

/-! ## Engines (R124, R125, R201) -/

/-- The engine a command needs: 1 matrix, 2 vector, 3 DMA, 4 layout, 5 a stack, 0 the command processor. -/
def engineOf (w : List Dword) : Nat :=
  let o := fOpcode w
  if o = opMatmul then 1
  else if o = opVecop ∨ o = opReduce ∨ o = opGather ∨ o = opScatter then 2
  else if o = opDma then 3
  else if o = opCopy then 4
  else if o = opRecipe then 5
  else 0

/-- Work remains for the command. -/
def Cmd.runs (c : Cmd) : Bool :=
  match c.phase with
  | .running => true
  | .done _ => false

/-- The commands that an engine of a core (the layout engine: of its cluster) holds, in issue order. -/
def engineHolds (d : Dev) (core e : Nat) : List Cmd :=
  d.hearth.cmds.filter fun c =>
    c.runs && engineOf c.words == e && (if e = 4 then c.core / 32 == core / 32 else c.core == core)

/-- Accepted recipes of a channel that have not started on it, in order (R267). -/
def unstarted (d : Dev) (s c : Nat) : List Recipe :=
  (stackOf d s).recipes.filter fun x => x.accepted && x.stop.isNone && bit x.mask c && !bit x.started c

/-- A channel holds its running recipe, or one about to start, and a waiting one (R267). -/
def chanFull (d : Dev) (s c : Nat) : Bool :=
  decide (2 ≤ (unstarted d s c).length + (if (chanOf d s c).run.isSome then 1 else 0))

/-- A channel of a RECIPE's mask holds a waiting recipe (R267). -/
def recipeBlocked (d : Dev) (s mask : Nat) : Bool := (bitsSet mask 32).any fun c => chanFull d s c || (chanOf d s c).retrain

/-- Condition 4 of R83. -/
def accepts (d : Dev) (core : Nat) (w : List Dword) : Bool :=
  match engineOf w with
  | 1 => decide ((engineHolds d core 1).length < 2)
  | 2 => decide ((engineHolds d core 2).length < 2)
  | 3 => decide ((engineHolds d core 3).length < 8)
  | 4 => decide ((engineHolds d core 4).length < 4)
  | 5 => !recipeBlocked d (bits (wd w 3) 4 0) (bits (wd w 3) 63 32)
  | _ => true

/-! ## Tags and conditions (R95, R96, R98, R101) -/

/-- Count of a tag at a core. -/
def tagCount (c : Core) (t : Nat) : Nat := (mget 0#16 c.tags t).toNat

/-- The counts cover both wait tags at once. -/
def tagsCover (c : Core) (w : List Dword) : Bool :=
  let a := fWaitA w
  let b := fWaitB w
  if a != 0 && a == b then decide (2 ≤ tagCount c a)
  else (a == 0 || decide (1 ≤ tagCount c a)) && (b == 0 || decide (1 ≤ tagCount c b))

/-- Consume one arrival of a tag. -/
def takeTag (t : Nat) (c : Core) : Core :=
  if t = 0 then c else { c with tags := mset 0#16 c.tags t (BitVec.ofNat 16 (tagCount c t - 1)) }

/-- The tags consumed at issue: both, or only wait_b for a VECOP that reads the rack. -/
def consumeTags (w : List Dword) (c : Core) : Core :=
  let c := takeTag (fWaitB w) c
  if readsRack w then c else takeTag (fWaitA w) c

/-- Steps 3, 4 and 6 of R110 for one plain address of `size` bytes. -/
def addrFault (d : Dev) (p word a size : Nat) : Option Failed :=
  if a % size ≠ 0 then some ⟨stAlign, word, a⟩
  else if !placeOwned d p (placeOf d a) then some ⟨stDescriptor, word, a⟩
  else if placeProcess d (placeOf d a) then some ⟨stMode, word, a - a % 64⟩
  else none

/-- A WAIT's condition still has to hold (R101). -/
def condUnmet (d : Dev) (p : Nat) (h : Head) : Bool :=
  fOpcode h.words == opWait && wd h.words 2 != 0 && (addrFault d p 2 (wd h.words 2) 4).isNone && !h.cond

/-- Conditions 1 and 2 of R83 are unmet; not while the queue is halted (R114) or the head is held at the oven door
(R364). -/
def headUnmet (d : Dev) (x : Ring) (h : Head) : Bool :=
  let p := (clusterPart d (x.core / 32)).getD 0
  x.target == 0 && !x.halted && (!tagsCover (coreOf d x.core) h.words || condUnmet d p h) && !heldAtDoor d p x.core h.words

/-- R115: bring a head's unmet time up to date. Without its wait tags a WAIT's condition counts as not yet read, since the
read that satisfies it is one of a command that its tags precede (R170, R171, R178). -/
def accountHead (d : Dev) (x : Ring) (h : Head) : Head :=
  let covered := tagsCover (coreOf d x.core) h.words
  let h := { h with cond := h.cond && covered, poll := if covered then h.poll else none }
  { h.pause d.time with unmet := headUnmet d x h }

/-- The command that an engine of a core runs: the first it holds. -/
def runningOn (d : Dev) (core e : Nat) : Option Cmd := (engineHolds d core e).head?

/-- R136: bring the rack wait of a core's running VECOP up to date: its time runs while an arrival of wait_a or an entry
is missing. -/
def accountRack (core : Nat) (r : Run d₀) : Run d₀ :=
  match runningOn r.dev core 2 with
  | some c =>
    if !readsRack c.words || c.taken.isSome then r
    else
      let k := coreOf r.dev core
      let missing := tagCount k (fWaitA c.words) == 0 || k.rack.isEmpty
      setCmd { c with waited := c.waited + c.since.elim 0 fun t => r.dev.time - t
                      since := if missing then some r.dev.time else none } r
  | none => r

/-- Bring the heads of a core's queues up to date, and its rack wait; of every core with `none`. -/
def accountHeads (core : Option Nat) (r : Run d₀) : Run d₀ :=
  let r := core.elim r fun k => accountRack k r
  forEach (r.dev.host.rings.map (·.1)) (fun n r =>
    match ringOf r.dev n with
    | some x =>
      match x.head with
      | some h =>
        if x.target = 0 ∧ (core = none ∨ core = some x.core) then
          setRing n (some { x with head := some (accountHead r.dev x h) }) r
        else r
      | none => r
    | none => r) r

/-! ## Commands that wait for nothing but their accesses -/

/-- An earlier command of the queue that the command processor has not started (R84). -/
def behind (d : Dev) (c : Cmd) : Bool :=
  ((d.hearth.cmds.takeWhile fun x => x.uid != c.uid).filter fun x =>
    x.core == c.core && x.queue == c.queue && x.runs && (engineOf x.words == 0 || engineOf x.words == 5)).any (·.stage == 0)

/-- An earlier command of the core that its DMA engine has not started: the engine starts its commands in issue order
(R125). -/
def dmaBehind (d : Dev) (c : Cmd) : Bool :=
  ((engineHolds d c.core 3).takeWhile fun x => x.uid != c.uid).any (·.stage == 0)

/-- An iteration of a command has to wait for a row or a channel (R464, R489). -/
def cmdHeld (d : Dev) (c : Cmd) : Bool :=
  anyHeld d && c.descs.any fun x => (x.granules c.iter).any fun g => addrHeld d (g * 64)

/-- The command performs accesses as soon as the stacks' interfaces let them pass. -/
def readyToAccess (d : Dev) (c : Cmd) : Bool :=
  let running := (runningOn d c.core (engineOf c.words)).elim false fun x => x.uid == c.uid
  c.runs && c.txns.isEmpty && !cmdHeld d c &&
    match engineOf c.words with
    | 0 => c.stage != 0 || !behind d c
    | 1 => running && (coreOf d c.core).hold.isNone && !c.skipped
    | 3 => !dmaBehind d c
    | 5 => false
    | _ => running && !(readsRack c.words && c.taken.isNone)

/-! ## Stack injection (R370 to R372) -/

/-- Stacks in which data addresses lie. -/
def stacksOf (d : Dev) (l : List Nat) : List Nat := ((l.filterMap (memKey d)).map keyStack).eraseDups

/-- Data addresses that the running iteration of a command names. -/
def iterAddrs (c : Cmd) : List Nat :=
  (c.descs.flatMap fun x => (x.granules c.iter).map (· * 64)) ++ plainAddrs c.words

/-- Partitions whose commands wait at a stack's interface. -/
def stackWaiters (d : Dev) (s : Nat) : List Nat :=
  (d.hearth.cmds.filter fun x => readyToAccess d x && (stacksOf d (iterAddrs x)).contains s).map (·.part)

/-- The stack-injection regulators of some of a list of stacks do not let a partition's accesses pass now. -/
def portsShut (d : Dev) (p : Nat) (l : List Nat) : Bool := l.any fun s => regShut d 0x20 s p 64 (stackWaiters d s)

/-- Those of the stacks in which data addresses lie. -/
def stackShut (d : Dev) (p : Nat) (l : List Nat) : Bool := portsShut d p (stacksOf d l)

/-- Granules that have crossed a stack's interface (R253). -/
def stackCount (d : Dev) (s : Nat) : Nat := reg d (stkOff s 0x30) + reg d (stkOff s 0x34)

/-- Each granule that has crossed a stack's interface since the module stood as `before` is charged to a partition. -/
def meter (p : Nat) (before : Dev) (r : Run d₀) : Run d₀ :=
  forEach (List.range 20) (fun s r => chargeUnits 0x20 s p ((stackCount r.dev s + 2 ^ 33 - stackCount before s) % 2 ^ 32) r) r

/-- A step of a partition's command: each granule that crosses a stack's interface in it is charged there. -/
def metered (p : Nat) (f : Run d₀ → Run d₀) (r : Run d₀) : Run d₀ := meter p r.dev (f r)

/-! ## Fetch (R82, R110 step 1, R374, R436) -/

/-- A ring's job runs on its core (R374); without slicing every job does. -/
def jobRuns (d : Dev) (x : Ring) : Bool :=
  match clusterPart d (x.core / 32) with
  | some p =>
    let c := coreOf d x.core
    !bit (reg d (partOff p 0)) 1 || (servingOf d p).clusters.contains (x.core / 32) || (c.job == x.job && !c.stopped)
  | none => false

/-- Data address of a ring entry. -/
def entryAddr (x : Ring) (i : Nat) : Nat := 0xFFFF * 2 ^ 48 + x.base + 64 * (i % 2 ^ x.log2)

/-- A control command of the ring is still being performed (R440). -/
def ctrlBusy (d : Dev) (n : Nat) : Bool := d.host.ctrl.any (·.ring == n)

/-- Partition for which a ring's entries are read: that of its core, else of its queue pair. -/
def entryPart (d : Dev) (n : Nat) (x : Ring) : Nat :=
  (if x.target = 0 then clusterPart d (x.core / 32) else qpPart d (n / 16)).getD 0

/-- A ring may fetch its next entry. -/
def fetchable (d : Dev) (n : Nat) (x : Ring) : Bool :=
  !x.halted && x.head.isNone && x.walk.isNone && x.fetch != x.prod && !doorAddr d (entryAddr x x.fetch) &&
    !addrHeld d (entryAddr x x.fetch) && !stackShut d (entryPart d n x) [entryAddr x x.fetch] &&
    (match x.target with
     | 0 => jobRuns d x
     | 1 => hostQuiet d (n / 16 * 16 + x.host)
     | _ => hostOpen d (n / 16 * 16 + x.host) && !ctrlBusy d n)

/-- A command as it leaves the head of a ring. -/
def mkCmd (d : Dev) (n : Nat) (x : Ring) (w : List Dword) (descs : List Desc) : Cmd :=
  { uid := d.uidCtr, part := (clusterPart d (x.core / 32)).getD 0, core := x.core, queue := x.queue, ring := n,
    seq := x.fetch, host := n / 16 * 16 + x.host, words := w, descs := descs, issued := d.time, iter := 0,
    skipped := false, taken := none, waited := 0, since := none, flags := noFlags, stage := 0, txns := [], remote := 0,
    failAt := 0, buf := [], late := [], todo := [], discard := false, phase := .running }

/-- What the requesters of an arbiter are: 0 heads of rings, 1 RECIPEs at a stack's launch FIFO, by ring, 2 commands of a
DMA engine, by number. -/
def turnKind (e : Nat) : Nat := if e = 5 then 1 else if e = 7 then 2 else 0

/-- A requester that waits no longer, or is granted, is owed nothing (R118). -/
def clearTurn (kind n : Nat) (r : Run d₀) : Run d₀ :=
  r.emit (.turns ((r.dev.hearth.turns.map fun t =>
    if turnKind t.engine = kind then { t with owed := t.owed.filter (· != n) } else t).filter fun t => !t.owed.isEmpty))

/-- The head of a ring leaves it: the fetch pointer moves on. -/
def leaveHead (n : Nat) (x : Ring) (r : Run d₀) : Run d₀ :=
  clearTurn 0 n (setRing n (some { x with head := none, fetch := (x.fetch + 1) % 2 ^ 32 }) r)

/-- The head command completes without having been in flight. -/
def endHead (n : Nat) (x : Ring) (w : List Dword) (rep : Report) (r : Run d₀) : Run d₀ :=
  let c := mkCmd r.dev n x w []
  completeCmd c rep none (leaveHead n x (r.emit .uid))

/-- COMMAND_FETCH: read the next entry of a ring. A core command that fails step 1, or whose entry is uncorrectable,
completes at fetch and consumes no tags. -/
def fetchRing (n now : Nat) (r : Run d₀) : Run d₀ :=
  let r := reach now r
  match ringOf r.dev n with
  | none => r
  | some x =>
    if !fetchable r.dev n x then r
    else metered (entryPart r.dev n x) (fun r =>
      match placeOf r.dev (entryAddr x x.fetch) with
      | .mem _ k =>
        match readHome k r with
        | (none, r) =>
          if x.target = 0 then
            endHead n x [] { plain stUncorrectable with faultAddr := granuleAddr r.dev k, faultCount := 1 } r
          else setRing n (some { x with head := some ⟨[], false, 0, false, r.dev.time, false, none, none⟩ }) r
        | (some b, r) =>
          let w := toWords b
          if x.target = 0 && !wordsOk w then endHead n x w (plain stDescriptor) r
          else
            let h : Head := ⟨w, true, 0, false, r.dev.time, false, none, none⟩
            setRing n (some { x with head := some { h with unmet := headUnmet r.dev x h } }) r
      | _ => r) r

/-! ## Issue (R83, R85, R96, R98, R104, R110, R135, R137) -/

/-- Earlier commands of a queue that are in flight. -/
def queueInFlight (d : Dev) (x : Ring) : List Cmd :=
  d.hearth.cmds.filter fun c => c.core == x.core && c.queue == x.queue

/-- A RELEASE, or an ATOMIC that is first a release. -/
def isRelease (w : List Dword) : Bool :=
  fOpcode w == opRelease || (fOpcode w == opAtomic && bit (wd w 5) 5)

/-- An ACQUIRE, or an ATOMIC that is then an acquire. -/
def isAcquire (w : List Dword) : Bool :=
  fOpcode w == opAcquire || (fOpcode w == opAtomic && bit (wd w 5) 6)

/-- R85, R170, R180, R181: the order that FENCE, RELEASE and ACQUIRE keep in a queue; a WAIT with a condition completes
as it issues (R171). -/
def orderOk (d : Dev) (x : Ring) (w : List Dword) : Bool :=
  let fl := queueInFlight d x
  (!(fOpcode w == opFence || isRelease w) || fl.isEmpty) &&
    !fl.any fun c => fOpcode c.words == opFence || isRelease c.words || isAcquire c.words

/-- Commands in flight of a partition (R83, condition 3). -/
def inFlight (d : Dev) (p : Nat) : Nat := (d.hearth.cmds.filter fun c => c.part == p).length

/-- What a command is read from at issue cannot be read now (R464, R489). -/
def namesHeld (d : Dev) (w : List Dword) : Bool :=
  anyHeld d && ((operandsOf w).any (fun o => addrHeld d o.addr) ||
    (fOpcode w == opRecipe && (addrHeld d (wd w 2) || rangeHeld d (wd w 4) 319)))

/-- What a command is read from at issue: its descriptors, or its image's header and its parameter block. -/
def issueAddrs (w : List Dword) : List Nat :=
  (operandsOf w).map (·.addr) ++
    if fOpcode w = opRecipe then wd w 2 :: (List.range 5).map fun i => wd w 4 + 64 * i else []

/-- The head of a ring may issue as soon as its engine accepts it. -/
def headReady (d : Dev) (n : Nat) (x : Ring) (h : Head) : Bool :=
  let p := (clusterPart d (x.core / 32)).getD 0
  x.target == 0 && h.good && !x.halted && x.walk.isNone && jobRuns d x && hostOpen d (n / 16 * 16 + x.host) &&
    !heldAtDoor d p x.core h.words && !namesHeld d h.words && !stackShut d p (issueAddrs h.words) && orderOk d x h.words && tagsCover (coreOf d x.core) h.words &&
    !condUnmet d p h && decide (inFlight d p < 512)

/-! ## Arbiters (R118, R201) -/

/-- The unit of an engine that a core's commands compete for: the layout engine is its cluster's. -/
def engineUnit (core e : Nat) : Nat := if e = 4 then core / 32 else core

/-- A ring waits for an engine: its head lacks nothing but the engine's acceptance. -/
def waitsFor (d : Dev) (e unit n : Nat) : Bool :=
  match ringOf d n with
  | some x => x.head.elim false fun h =>
      engineOf h.words == e && engineUnit x.core e == unit && headReady d n x h
  | none => false

/-- The rings that an arbiter owes a grant before it grants `n` again. -/
def owedBefore (d : Dev) (e unit n : Nat) : List Nat :=
  (d.hearth.turns.filter fun t => t.engine == e && t.unit == unit && t.ring == n).flatMap (·.owed)

/-- An arbiter grants `n`: the rings that were waiting are served before it is granted again. -/
def grantTurn (e unit n : Nat) (waiting : List Nat) (r : Run d₀) : Run d₀ :=
  let rest := (clearTurn (turnKind e) n r).dev.hearth.turns.filter fun t => !(t.engine == e && t.unit == unit && t.ring == n)
  r.emit (.turns (if waiting.isEmpty then rest else rest ++ [⟨e, unit, n, waiting⟩]))

/-- The arbiter of the engine that the head of a ring needs has nothing to serve first. -/
def inTurn (d : Dev) (n : Nat) (x : Ring) (h : Head) : Bool :=
  let e := engineOf h.words
  e == 0 || e == 5 || !(owedBefore d e (engineUnit x.core e) n).any (waitsFor d e (engineUnit x.core e))

/-- The grant of the engine that the head of a ring needs. RECIPE commands compete for their stack at launch (R267). -/
def grantEngine (n : Nat) (x : Ring) (h : Head) (r : Run d₀) : Run d₀ :=
  let e := engineOf h.words
  let unit := engineUnit x.core e
  if e = 0 ∨ e = 5 then r
  else grantTurn e unit n ((r.dev.host.rings.map (·.1)).filter fun m => m != n && waitsFor r.dev e unit m) r

/-- The head of a ring may issue. -/
def issuable (d : Dev) (n : Nat) (x : Ring) (h : Head) : Bool :=
  headReady d n x h && accepts d x.core h.words && inTurn d n x h

/-- Put a command in flight. -/
def launchCmd (c : Cmd) (r : Run d₀) : Run d₀ :=
  r.emit (.cmds (r.dev.hearth.cmds ++ [c]))

/-- A report of a check that failed. -/
def failedReport (f : Failed) : Report := { plain f.status with faultAddr := f.addr, faultWord := f.word }

/-- Steps 3 to 6 of R110 for a command that names its operands by descriptors. -/
def descChecks (d : Dev) (p core : Nat) (w : List Dword) (xs : List (Operand × Desc)) : Option Failed :=
  let n := iterations w
  let os := operandsOf w
  let l := xs.map (·.2)
  match checkOperands d p core n os xs (togetherOk w l) with
  | some f => some f
  | none =>
    if formatWord w l ≠ 0 then
      some ⟨stFormat, formatWord w l, ((os.find? fun o => o.word == formatWord w l).map (·.addr)).getD 0⟩
    else if fOpcode w = opDma then
      -- R165: base die to base die reaches either mode
      let remote := fun (i : Nat) => (descOf l i).elim false fun x =>
        match placeOf d x.base with
        | .remote _ _ => true
        | _ => false
      let inMem := fun (i : Nat) => (descOf l i).elim false fun x =>
        match placeOf d x.base with
        | .spad _ => false
        | _ => true
      if (remote 2 || remote 4) && inMem 2 && inMem 4 then none else checkModes d n xs
    else checkModes d n xs

/-- R179: checks of a range. The limits of R64, R65, R68 and R542 on addresses are not applied to it: R179 names only
its space (DESIGN CHOICE, assumption 59). -/
def rangeFault (w : List Dword) : Option Failed :=
  if wd w 2 % 64 ≠ 0 then some ⟨stAlign, 2, wd w 2⟩
  else if wd w 3 % 64 ≠ 0 then some ⟨stAlign, 3, wd w 2⟩
  else if wd w 3 = 0 then none
  else
    let sp := wd w 2 / 2 ^ 48
    if (sp < 0x1000 ∨ 0xFFFE ≤ sp) ∧ wd w 2 % 2 ^ 48 + wd w 3 ≤ 2 ^ 48 then none
    else some ⟨stDescriptor, 2, wd w 2⟩

/-- R99: a SIGNAL's target lies in the partition. -/
def targetFault (d : Dev) (p : Nat) (w : List Dword) : Option Failed :=
  let t := wd w 2
  let k := bits t 7 2
  let bad := match bits t 1 0 with
    | 0 => clusterPart d k != some p || decide (coresPerCluster d ≤ bits t 12 8)
    | 1 => clusterPart d k != some p
    | _ => false
  if bad then some ⟨stDescriptor, 2, 0⟩ else none

/-- R73, R187, R188: addresses of an ATOMIC. -/
def atomicFault (d : Dev) (p : Nat) (w : List Dword) : Option Failed :=
  let size := if bit (wd w 5) 4 then 8 else 4
  if wd w 2 % size ≠ 0 then some ⟨stAlign, 2, wd w 2⟩
  else if wd w 6 % size ≠ 0 then some ⟨stAlign, 6, wd w 6⟩
  else if !placeOwned d p (placeOf d (wd w 2)) then some ⟨stDescriptor, 2, wd w 2⟩
  else if wd w 6 ≠ 0 && !descPlace d p (wd w 6) then some ⟨stDescriptor, 6, wd w 6⟩
  else if placeProcess d (placeOf d (wd w 2)) then some ⟨stMode, 2, wd w 2 - wd w 2 % 64⟩
  else none

/-- Steps 3 to 6 of R110 for a command without descriptors, but for RECIPE. -/
def plainChecks (d : Dev) (p : Nat) (w : List Dword) : Option Failed :=
  let o := fOpcode w
  if o = opWait then (if wd w 2 = 0 then none else addrFault d p 2 (wd w 2) 4)
  else if o = opSignal then targetFault d p w
  else if o = opRelease ∨ o = opAcquire then rangeFault w
  else if o = opAtomic then atomicFault d p w
  else if o = opCount ∧ (bits (wd w 2) 2 0 = 2 ∨ bits (wd w 2) 2 0 = 3) then addrFault d p 3 (wd w 3) 4
  else none

/-- The destination descriptor of a command that does not run, as its place holds it: it says where the command's arrival
goes (R97). -/
def skippedDest (d : Dev) (p : Nat) (w : List Dword) : List Desc :=
  ((operandsOf w).filter fun o => o.word == 4 && o.addr % 64 == 0 && descPlace d p o.addr).map fun o =>
    descFrom 4 (toWords (peek d o.addr 64))

/-- Core whose scratchpad is the destination of a command (R97). Where the destination's strides reach several cores'
scratchpads it is the core that holds its base (DESIGN CHOICE, assumption 51). -/
def destCore (d : Dev) (c : Cmd) : Option Nat :=
  match (descOf c.descs 4).map fun x => placeOf d x.base with
  | some (.spad k) => some (k / 2 ^ 19)
  | _ => none

/-- A false predicate (R104): a MATMUL still places void entries (R135), a VECOP that reads the rack still takes entries
(R137); every other command completes with SKIPPED. Its arrival goes where R97 sends that of one that ran (DEDUCED,
assumption 51). Its completion reports iteration 0 when it ends here, and `repeat` when it has placed or taken all its
entries (DESIGN CHOICE, assumption 51). -/
def skipHead (n : Nat) (x : Ring) (w : List Dword) (r : Run d₀) : Run d₀ :=
  let p := (clusterPart r.dev (x.core / 32)).getD 0
  let c := mkCmd r.dev n x w (skippedDest r.dev p w)
  if fOpcode w = opMatmul ∨ readsRack w then launchCmd { c with skipped := true } (leaveHead n x (r.emit .uid))
  else completeCmd c (plain stSkipped) (destCore r.dev c) (leaveHead n x (r.emit .uid))

/-- An uncorrectable upset at issue strikes the core's tag tables, counters, comparators or queue state: where what the
command is read from lies in a scratchpad, that or the scratchpad, free (R455). -/
def ownUpset (l : List Nat) (upset : Upset) (r : Run d₀) : Bool × Run d₀ :=
  if upset ≠ .uncorrectable then (false, r)
  else if l.any fun a => match placeOf r.dev a with | .spad _ => true | _ => false then
    let (n, r) := fresh r
    (n % 2 == 1, r)
  else (true, r)

/-- The head command passes or fails its checks, with its descriptors read. -/
def checkHead (n : Nat) (x : Ring) (w : List Dword) (upset : Upset)
    (recipeChecks : Nat → List Dword → Run d₀ → (Option Report × List Byte) × Run d₀) (r : Run d₀) : Run d₀ :=
  let p := (clusterPart r.dev (x.core / 32)).getD 0
  let (own, r) := ownUpset (issueAddrs w) upset r
  if own then endHead n x w (plain stUncorrectable) (noteSram p r)
  else if fOpcode w = opRecipe then
      match recipeChecks p w r with
      | ((some rep, _), r) => endHead n x w rep r
      | ((none, params), r) =>
        let c := { mkCmd r.dev n x w [] with buf := mset [] [] 0 params }
        launchCmd c (leaveHead n x (r.emit .uid))
  else
    let os := operandsOf w
    let aligned := os.all fun o => o.addr % 64 == 0
    let (s, r) := readDescs x.core p upset (if aligned then os else []) r
    match s.fault with
      | some a =>
        let word := ((os.find? fun o => o.addr == a).map (·.word)).getD 0
        endHead n x w { plain stUncorrectable with faultAddr := a, faultCount := 1, faultWord := word } r
      | none =>
        let xs := if aligned then descsOf r.dev p s.buf os else []
        let bad := if os.isEmpty && fOpcode w != opVecop then plainChecks r.dev p w else descChecks r.dev p x.core w xs
        match bad with
        | some f => endHead n x w (failedReport f) r
        | none =>
          let c := mkCmd r.dev n x w (xs.map (·.2))
          -- R171
          if fOpcode w = opWait ∧ wd w 2 ≠ 0 then endHead n x w (plain stOk) r
          else launchCmd c (leaveHead n x (r.emit .uid))

/-- COMMAND_ISSUE. -/
def issueHead (n now : Nat) (upset : Upset)
    (recipeChecks : Nat → List Dword → Run d₀ → (Option Report × List Byte) × Run d₀) (r : Run d₀) : Run d₀ :=
  let r := reach now r
  match ringOf r.dev n with
  | none => r
  | some x =>
    match x.head with
    | none => r
    | some h =>
      if !issuable r.dev n x h then r
      else
        let w := h.words
        let r := grantEngine n x h r
        let r := setCore x.core (consumeTags w (coreOf r.dev x.core)) r
        let go := !fPred w || predicate (coreOf r.dev x.core) w
        let p := (clusterPart r.dev (x.core / 32)).getD 0
        let r :=
          if !go then
            if upset = .uncorrectable then endHead n x w (plain stUncorrectable) (noteSram p r) else skipHead n x w r
          else match h.fail with
            | some (st, a) => endHead n x w { plain st with faultAddr := a, faultCount := 1, faultWord := 2 } r
            | none => metered p (checkHead n x w upset recipeChecks) r
        accountHeads (some x.core) r

/-! ## Arrivals (R95, R100) -/

/-- Count one arrival of a tag at a core; at 65,535 it is lost. -/
def countTag (t : Nat) (c : Core) : Core :=
  if tagCount c t = 65535 then c
  else { c with tags := mset 0#16 c.tags t (BitVec.ofNat 16 (tagCount c t + 1)) }

/-- TAG_ARRIVAL: the n-th travelling arrival is counted. -/
def arriveTag (n now : Nat) (r : Run d₀) : Run d₀ :=
  let r := reach now r
  match r.dev.hearth.arrivals[n]? with
  | none => r
  | some a =>
    let r := r.emit (.arrivals (r.dev.hearth.arrivals.eraseIdx n))
    accountHeads (some a.core) (setCore a.core (countTag a.tag (coreOf r.dev a.core)) r)

/-! ## Completion (R97, R111, R435) -/

/-- The images that a command has formed reach their granules. -/
def writeLate (c : Cmd) (r : Run d₀) : Run d₀ := forEach c.late (writeImage c.core) r

/-- COMMAND_COMPLETION: a command whose work has ended completes, with all it writes written. -/
def completeDone (uid now : Nat) (r : Run d₀) : Run d₀ :=
  let r := reach now r
  match cmdOf r.dev uid with
  | some c =>
    match c.phase with
    | .done rep => completeCmd c rep (destCore r.dev c) (metered c.part (writeLate c) r)
    | .running => r
  | none => r

/-- The work of a command has ended; its engine runs its next command. -/
def finishCmd (c : Cmd) (rep : Report) (r : Run d₀) : Run d₀ :=
  accountRack c.core (setCmd { c with phase := .done rep } r)

/-- COMPLETION_ENTRY: the oldest entry that waits for a host ring is written as room allows. -/
def writeWaiting (n : Nat) (r : Run d₀) : Run d₀ :=
  match hostRingOf r.dev n with
  | some h =>
    match h.wait with
    | e :: rest =>
      if hostRoom h && decide ((qpOf r.dev (n / 16)).mode = .ready) then putEntry n { h with wait := rest } e r
      else r
    | [] => r
  | none => r

/-! ## Timeouts (R115, R136) -/

/-- Unmet time of a head by now. -/
def headWaited (d : Dev) (h : Head) : Nat := if h.unmet then h.waited + (d.time - h.mark) else h.waited

/-- The rack-reading VECOP of the ring that its engine runs, if its running iteration has waited out its timeout with an
arrival or an entry missing still (R136, R137). -/
def rackExpired (d : Dev) (n : Nat) : Option Cmd :=
  (d.hearth.cmds.find? fun c => c.ring == n && c.runs && readsRack c.words && c.taken.isNone).bind fun c =>
    match runningOn d c.core 2, c.since with
    | some x, some t => if x.uid = c.uid ∧ fTimeout c.words ≤ c.waited + (d.time - t) then some c else none
    | _, _ => none

/-- WAIT_TIMEOUT: the head of a ring that is not halted (R114), or an iteration of its rack-reading VECOP, has waited
out its timeout. -/
def expireWait (n now : Nat) (r : Run d₀) : Run d₀ :=
  let r := reach now r
  match ringOf r.dev n with
  | none => r
  | some x =>
    let late := x.head.elim false fun h =>
      x.target == 0 && !x.halted && headUnmet r.dev x h && decide (fTimeout h.words ≤ headWaited r.dev h)
    match x.head, late with
    | some h, true => endHead n x h.words (plain stWait) r
    | _, _ =>
      match rackExpired r.dev n with
      | some c => finishCmd c { plain stWait with iteration := c.iter, flags := c.flags } r
      | none => r

/-! ## Walks (R114, R436) -/

/-- A walk starts at a ring: up to the producer index. -/
def startWalk (n : Nat) (unbind freed : Bool) (r : Run d₀) : Run d₀ :=
  match ringOf r.dev n with
  | some x => clearTurn 0 n (setRing n (some { x with walk := some ⟨x.prod, unbind, freed⟩, head := none }) r)
  | none => r

/-- The walk reaches its end: the halt clears, or the ring unbinds. -/
def endWalk (n : Nat) (x : Ring) (unbind : Bool) (r : Run d₀) : Run d₀ :=
  if unbind then setRing n none r
  else setRing n (some { x with walk := none, halted := false }) r

/-- What a walk reads of a ring entry (R452): an uncorrectable one gives no words. -/
def walkEntry (a : Nat) (r : Run d₀) : Option (List Dword) × Run d₀ :=
  match placeOf r.dev a with
  | .mem _ k =>
    match readHome k r with
    | (some b, r) => (some (toWords b), r)
    | (none, r) => (none, r)
  | _ => (none, r)

/-- The completion entry of an entry that a walk has read: QUEUE_HALTED, or ECC_UNCORRECTABLE where it could not be read
(R453; DEDUCED, assumption 58). -/
def walkCompletion (x : Ring) (n a now : Nat) : Option (List Dword) → List Byte
  | some w =>
    if x.target = 1 then requestEntry stHalted 0 (fOpcode w) (entryId w) n x.fetch now noOutcome
    else if x.target = 0 then completionEntry (plain stHalted) (fSignal w) x.queue x.core n x.fetch now
    else completionEntry (plain stHalted) 0 0 0 n x.fetch now
  | none =>
    let st := { plain stUncorrectable with faultAddr := a, faultCount := 1 }
    if x.target = 1 then requestEntry stUncorrectable 0 0 0 n x.fetch now noOutcome
    else if x.target = 0 then completionEntry st 0 x.queue x.core n x.fetch now
    else completionEntry st 0 0 0 n x.fetch now

/-- FLUSH_WALK: one unissued command completes with QUEUE_HALTED, delivering no tag, when the host ring has room. -/
def walkStep (n now : Nat) (r : Run d₀) : Run d₀ :=
  let r := reach now r
  match ringOf r.dev n with
  | none => r
  | some x =>
    match x.walk with
    | none => r
    | some w =>
      if w.unbind && (ctrlBusy r.dev n || r.dev.hearth.cmds.any fun c => c.ring == n) then r
      else if x.fetch = w.stop then endWalk n x w.unbind r
      else if !hostOpen r.dev (n / 16 * 16 + x.host) || doorAddr r.dev (entryAddr x x.fetch) ||
          addrHeld r.dev (entryAddr x x.fetch) || stackShut r.dev (entryPart r.dev n x) [entryAddr x x.fetch] then r
      else
        let part := entryPart r.dev n x
        let before := r.dev
        let (words, r) := walkEntry (entryAddr x x.fetch) r
        let r := meter part before r
        let e := walkCompletion x n (entryAddr x x.fetch) r.dev.time words
        let x := { x with fetch := (x.fetch + 1) % 2 ^ 32 }
        let r := postCompletion (n / 16 * 16 + x.host) e (setRing n (some x) r)
        if x.fetch = w.stop then endWalk n x w.unbind r else r

end Sys2Proof.Machine
end

