-- ==== Sys2Proof/Machine/Fabric.lean ====
section
/-! DEFINITION. Transactions between modules at their origin (R398 to R402, R406): requests sent, and how they end. -/
namespace Sys2Proof.Machine
variable {d₀ : Dev}

/-! ## Frame types (R391) -/
/-- IDLE -/ def tIdle : Nat := 0x00
/-- WRITE -/ def tWrite : Nat := 0x10
/-- MERGE_WRITE -/ def tMerge : Nat := 0x11
/-- READ -/ def tRead : Nat := 0x12
/-- ATOMIC -/ def tAtomic : Nat := 0x13
/-- CHECK -/ def tCheck : Nat := 0x14
/-- SYNC -/ def tSync : Nat := 0x15
/-- WRITE_ACK -/ def tWriteAck : Nat := 0x20
/-- READ_DATA -/ def tReadData : Nat := 0x22
/-- ATOMIC_DATA -/ def tAtomicData : Nat := 0x23
/-- CHECK_ACK -/ def tCheckAck : Nat := 0x24
/-- SYNC_ACK -/ def tSyncAck : Nat := 0x25

/-- A request of this module. -/
structure Req where
  /-- Stack whose port it leaves by. -/
  stack    : Nat
  type     : Nat
  dst      : Nat
  addr     : Nat
  granules : Nat
  arg      : Nat
  aop      : Nat
  hearth   : Bool
  posted   : Bool
  payload  : List Byte

/-- Links of the route entry of a device (R404). -/
def routeOf (d : Dev) (dev : Nat) : Nat := reg d (routeOff dev) % 2 ^ 20

/-- Posted writes sent to a device (R401). -/
def sentTo (d : Dev) (dev : Nat) : Nat := mget 0 d.fabric.sent dev

/-- Frames that wait at a stack port. -/
def inboxOf (d : Dev) (s : Nat) : List Frame := mget [] d.fabric.inbox s

/-- A frame enters the link switch at an input and waits there (R387). -/
def enterSwitch (input : Nat) (x : Frame) (r : Run d₀) : Run d₀ :=
  r.emit (.queue (r.dev.fabric.queue ++ [⟨input, x⟩]))

/-- Send a request: it takes a transaction number and enters the switch at its stack port. READ, ATOMIC and SYNC carry the
count of posted writes sent (R401). -/
def sendRequest (part uid : Nat) (q : Req) (r : Run d₀) : Nat × Run d₀ :=
  let f := r.dev.fabric
  let num := f.nextTxn % 2 ^ 20
  let sent := sentTo r.dev q.dst
  let counted := q.type == tRead || q.type == tAtomic || q.type == tSync
  let x : Frame :=
    { type := q.type, vc := 0, part := part, granules := q.granules, seq := 0, hops := 127,
      posted := q.posted, dst := q.dst, addr := q.addr, src := deviceNumber r.dev, txn := num, srcStack := q.stack,
      status := 0, aop := q.aop, hearth := q.hearth, arg := if counted then sent else q.arg, payload := q.payload }
  let t : Txn :=
    { num := num, stack := q.stack, uid := uid, type := q.type, dst := q.dst,
      addr := if q.type = tSync then sent else q.addr, at_ := r.dev.time }
  let r := r.emit (.txns (f.txns ++ [t]) (f.nextTxn + 1))
  let r := if q.posted then r.emit (.sent q.dst ((sent + 1) % 2 ^ 32)) else r
  (num, enterSwitch (20 + q.stack) x r)

/-- A command sends a request; with an empty route entry it sends none and has LINK_DOWN (R406). -/
def cmdRequest (c : Cmd) (q : Req) (r : Run d₀) : Cmd × Run d₀ :=
  if routeOf r.dev q.dst = 0 then
    (if c.remote = 0 then { c with remote := stLinkDown, failAt := q.dst * 2 ^ 48 + q.addr } else c, r)
  else
    let (n, r) := sendRequest c.part c.uid q r
    ({ c with txns := c.txns ++ [n] }, r)

/-- The stack whose interface carries a hearth-side request: free. -/
def hearthPort (r : Run d₀) : Nat × Run d₀ :=
  let (n, r) := fresh r
  (n % 20, r)

/-- Scope FABRIC; a remote write of any other scope is posted (R401). -/
def fabricScope (c : Cmd) : Bool := fScope c.words == 3

/-! ## Ends of transactions -/

/-- Number under which the poll of a WAIT's condition word on another module stands in `Txn.uid`. -/
def pollUid (ring : Nat) : Nat := 2 ^ 64 + ring

/-- A poll has read the condition word, or failed. -/
def setCond (n : Nat) (value : Option Nat) (st addr : Nat) (r : Run d₀) : Run d₀ :=
  match ringOf r.dev n with
  | some x =>
    match x.head with
    | some h =>
      let ok := match value with
        | some v => relationHolds (bits (wd h.words 4) 2 0) v (bits (wd h.words 3) 31 0)
        | none => true
      let h := { h with cond := ok, poll := none, fail := if value.isNone then some (st, addr) else none }
      setRing n (some { x with head := some (accountHead r.dev x h) }) r
    | none => r
  | none => r

/-- Granules that a response carries, by data address / 64. -/
def granulesAt (a : Nat) (data : List Byte) (b : Store (List Byte)) : Store (List Byte) :=
  (List.range (data.length / 64)).foldl (fun b i => mset [] b (a / 64 + i) ((data.drop (64 * i)).take 64)) b

/-- The transaction `num` ends with a status and the granules it returns. A response to a transaction that has ended
already is discarded (R402). -/
def endTxn (num st : Nat) (data : List Byte) (r : Run d₀) : Run d₀ :=
  let f := r.dev.fabric
  match f.txns.find? (·.num == num) with
  | none => r
  | some t =>
    let r := r.emit (.txns (f.txns.filter fun x => x.num != num) f.nextTxn)
    let a := t.dst * 2 ^ 48 + t.addr
    if 2 ^ 64 ≤ t.uid then
      let n := t.uid - 2 ^ 64
      match ringOf r.dev n with
      | some x =>
        let o := x.head.elim 0 fun h => wd h.words 2 % 64
        if x.head.elim false (fun h => h.poll == some num) then
          setCond n (if st = stOk then some (leNat ((data.drop o).take 4)) else none) st a r
        else r
      | none => r
    else
      match cmdOf r.dev t.uid with
      | some c =>
        if c.txns.contains num then
          setCmd { c with
            txns := c.txns.filter (· != num)
            remote := if c.remote = 0 then st else c.remote
            failAt := if c.remote = 0 && st != 0 then a else c.failAt
            buf := if t.type = tRead then granulesAt a data c.buf
              else if t.type = tAtomic then mset [] c.buf 0 (data ++ List.replicate 56 0#8) else c.buf } r
        else r
      | none => r

/-- A posted write counts as done for its command (R401). -/
def postedDone (num : Nat) (r : Run d₀) : Run d₀ :=
  match r.dev.fabric.txns.find? (·.num == num) with
  | some t =>
    match cmdOf r.dev t.uid with
    | some c => setCmd { c with txns := c.txns.filter (· != num) } r
    | none => r
  | none => r

end Sys2Proof.Machine
end

