-- ==== Sys2Proof/Machine/State.lean ====
section
/-! DEFINITION. State: the module and the queue of commands that wait for it; how a step can end. -/
namespace Sys2Proof.Machine

/-- The module with the commands that wait, first in, first out. -/
structure State extends Dev where
  /-- Commands not yet taken (the model's own field). -/
  pending : List Instr
deriving DecidableEq, Repr

/-- Reasons for a fault. There are none: the manual gives every command an effect on the module, and an error is a
status, an event or a halted bring-up (R123, R437, R477), which is state. -/
inductive Fault where
deriving DecidableEq, Repr

/-- Reasons for a refusal. -/
inductive Refusal where
  /-- Raised by the dispatch for a command without a meaning. Safe: the machine stops. -/
  | notModelled (mnemonic : String)
deriving DecidableEq, Repr

/-- The module before power-on, with no command waiting (R474: bring-up begins with POWER_ON). -/
def State.reset : State := { toDev := Dev.init, pending := [] }

/-- Answer the next state: the module as `f` changes it, the queue as it is. -/
def State.run (s : State) (f : {d₀ : Dev} → Run d₀ → Run d₀) : Host.Outcome State Fault Refusal :=
  .next { s with toDev := s.toDev.commit f }

end Sys2Proof.Machine
end

