-- ==== Sys2Proof/Machine/Vector.lean ====
section
/-! DEFINITION. The vector engine: VECOP, REDUCE, GATHER and SCATTER, one iteration at a time (R141 to R163), and how an
iteration of any engine ends. -/
namespace Sys2Proof.Machine
variable {d₀ : Dev}

/-! ## Iterations -/

/-- What one iteration of an engine has computed: its writes, its flags, the first failing source granule, and the
out-of-range lanes (address of the first index element, number). -/
structure IterOut where
  writes : WriteSet
  flags  : Flags
  fault  : Option Nat
  range  : Option (Nat × Nat)
  /-- The writes are made by base-die atomic units (R162). -/
  unit   : Bool

/-- An iteration that does nothing. -/
def IterOut.nothing : IterOut := ⟨[], noFlags, none, none, false⟩

/-- The command's work ends at its running iteration. -/
def stopCmd (c : Cmd) (status : Nat) (flags : Flags) (addr count word : Nat) (r : Run d₀) : Run d₀ :=
  finishCmd c ⟨status, flags, c.iter, addr, count, word⟩ r

/-- The running iteration has ended well: the next one starts, or the command's work ends (R107, R112). -/
def nextIter (c : Cmd) (flags : Flags) (r : Run d₀) : Run d₀ :=
  if iterations c.words ≤ c.iter + 1 then stopCmd c (if c.skipped then stSkipped else stOk) flags 0 0 0 r
  else
    accountRack c.core
      (setCmd { c with iter := c.iter + 1, flags := flags, taken := none, waited := 0, since := none } r)

/-- The command word whose operand holds a granule in the running iteration (R112). -/
def operandWord (c : Cmd) (a : Nat) : Nat :=
  ((c.descs.find? fun x => (x.granules c.iter).contains (a / 64)).map (·.word)).getD 0

/-- ECC_UNCORRECTABLE at a granule. -/
def stopUncorrectable (c : Cmd) (flags : Flags) (a : Nat) (r : Run d₀) : Run d₀ :=
  stopCmd c stUncorrectable flags a 1 (operandWord c a) r

/-- An atomic unit writes one granule of which it has read the whole: copies stay (R174). -/
def writeUnit (core : Nat) (e : Nat × Nat × List Byte) (r : Run d₀) : Run d₀ :=
  match placeOf r.dev (e.1 * 64) with
  | .mem _ k => storeHome (keyGranule k) e.2.2 (settleAll k r)
  | _ => writeGranuleAt core (e.1 * 64) e.2.1 e.2.2 r

/-- The head rack entry frees (R136, R163). -/
def freeEntry (core : Nat) (r : Run d₀) : Run d₀ :=
  let k := coreOf r.dev core
  setCore core { k with rack := k.rack.drop 1 } r

/-- The rack entry that the running iteration took frees. -/
def freeTaken (c : Cmd) (r : Run d₀) : Run d₀ := when c.taken.isSome (freeEntry c.core) r

/-- Perform an iteration's writes, or some of them where it faults; then end it. One that took a rack entry keeps it, at
stage 1, until the last of its images is written (R136). `upset` is what the checkers find in its scratchpad merge
reads. -/
def endIter (c : Cmd) (o : IterOut) (upset : Upset) (r : Run d₀) : Run d₀ :=
  let flags := orFlags c.flags o.flags
  match o.fault with
  | some a => stopUncorrectable c flags a (freeTaken c (writeSome c.core o.writes r))
  | none =>
    let ((bad, late), r) :=
      if o.unit then (((none, []), forEach o.writes (writeUnit c.core) r) : (Option Nat × List Late) × Run d₀)
      else writeIter c.core o.writes upset r
    let c := { c with late := late }
    match bad, o.range with
    | some a, _ => stopUncorrectable c flags a (freeTaken c r)
    | none, some (a, n) => stopCmd c stIndex flags a n 3 r
    | none, none =>
      if c.taken.isSome && !late.isEmpty then setCmd { c with stage := 1, flags := flags } r
      else nextIter c flags (freeTaken c r)

/-! ## A destination that shares bytes with a source (R149, R207) -/

/-- Number of a granule (data address / 64) in one spelling of its address (R61). -/
def plainGranule (d : Dev) (g : Nat) : Nat := plainAddr d (g * 64) / 64

/-- The bytes of byte runs: maximal intervals, rising, in one spelling of their addresses (R61). -/
def byteSet (d : Dev) (l : List (Nat × Nat)) : List (Nat × Nat) :=
  let s := ((l.filter fun e => e.2 != 0).map fun e => (plainAddr d e.1, plainAddr d e.1 + e.2)).mergeSort
    fun a b => decide (a.1 ≤ b.1)
  (s.foldl (fun acc e =>
    match acc with
    | (a, b) :: t => if e.1 ≤ b then (a, max b e.2) :: t else e :: acc
    | [] => [e]) []).reverse

/-- Two extents share a granule. -/
def extentsMeet (d : Dev) (n : Nat) (dst src : Desc) : Bool :=
  let e := (src.extent n).map (plainGranule d)
  (dst.extent n).any fun g => e.contains (plainGranule d g)

/-- R149: how a VECOP's destination and source extents meet: 0 not at all, 1 identical, 2 in part. -/
def meeting (d : Dev) (n : Nat) (dst src : Desc) : Nat :=
  if !extentsMeet d n dst src then 0
  else if plainAddr d dst.base = plainAddr d src.base ∧ dst.dims = src.dims ∧ fmtBits dst.fmt = fmtBits src.fmt ∧
      dst.strides.take (dst.rank + 1) = src.strides.take (src.rank + 1) then 1
  else 2

/-- R207: the same of a COPY, whose extents are identical when they are the same bytes (R196). -/
def copyMeeting (d : Dev) (n : Nat) (dst src : Desc) : Nat :=
  if !extentsMeet d n dst src then 0
  else if byteSet d ((List.range n).flatMap dst.runs) = byteSet d ((List.range n).flatMap src.runs) then 1
  else 2

/-- The bytes that a command has overwritten, as they stood before it: 8 bytes of mask, then 64 of data, then what a read
would have found then: 0 no error, 1 a corrected one, 2 an uncorrectable one; by granule. -/
def oldBytes (old : Store (List Byte)) (g : Nat) (now : List Byte) : List Byte :=
  match mget [] old g with
  | [] => now
  | e => mergeBytes (leNat (e.take 8)) now (e.drop 8)

/-- What a read of the granule at a data address would find now. -/
def readState (d : Dev) (a : Nat) : Byte :=
  match placeOf d a with
  | .mem _ k => if (granuleCheck d k).uncorrectable then 2 else if (granuleCheck d k).corrected then 1 else 0
  | _ => 0

/-- Note what a set of writes is about to overwrite. -/
def noteOld (d : Dev) (w : WriteSet) (old : Store (List Byte)) : Store (List Byte) :=
  w.foldl (fun old e =>
    let g := plainGranule d e.1
    let had := mget [] old g
    let m := leNat (had.take 8)
    mset [] old g (natLE ((m ||| e.2.1) % 2 ^ 64) 8 ++ oldBytes old g (peek d (e.1 * 64) 64) ++
      [if had.isEmpty then readState d (e.1 * 64) else had.getD 72 0])) old

/-- A read set as it stood before the command. -/
def beforeCmd (d : Dev) (old b : Store (List Byte)) : Store (List Byte) :=
  b.map fun e => (e.1, oldBytes old (plainGranule d e.1) e.2)

/-- A read set after further writes. -/
def afterWrites (d : Dev) (b : Store (List Byte)) (w : WriteSet) : Store (List Byte) :=
  let w := w.map fun e => (plainGranule d e.1, e.2)
  b.map fun e => let x := mget noWrite w (plainGranule d e.1); (e.1, mergeBytes x.1 e.2 x.2)

/-! ## Masks (R150, R151) -/

/-- Position active: no mask, or a mask element other than 0. -/
def active (d : Dev) (m : Option Desc) (t : Nat) (idx : List Nat) (i : Nat) : Bool :=
  m.elim true fun x => (peek d (x.elemAddr t idx i) 1).headD 0 != 0

/-- Byte runs of one element and its scale. -/
def Desc.cellRuns (x : Desc) (t : Nat) (idx : List Nat) (i : Nat) : List (Nat × Nat) :=
  (x.elemAddr t idx i, (fmtGroup x.fmt).1) ::
    (if x.kind = 0 then [] else [(x.scaleAddr t idx (i / blockSize x.kind), scaleBytes x.kind)])

/-- Data addresses of the granules of byte runs. -/
def runAddrs (l : List (Nat × Nat)) : List Nat := (runGranules l).map (· * 64)

/-- Every position of a tensor: row indices and place in the row. -/
def Desc.positions (x : Desc) : List (List Nat × Nat) :=
  x.rows.flatMap fun idx => (List.range (x.size 0)).map fun i => (idx, i)

/-- What an inactive position becomes (R151). -/
def inactiveCell (w : List Dword) : Cell := if fMaskZero w then .zero else .keep

/-! ## VECOP -/

/-- The lane format of a VECOP. -/
def vopFmt (w : List Dword) : FloatFmt := if vopBf16 w then bf16 else fp32

/-- The scalar s in the lane's format, with the flags of its conversion. -/
def vopScalar (w : List Dword) : Val × Flags :=
  let c := bits (wd w 7) 31 0
  let o := roundFloat (vopFmt w) .given 0 0 (val32 c)
  (decodeFloat (vopFmt w) o.1, orFlags o.2 (invalidIf (isSnan fp32 c)))

/-- An element of source A: of the rack's tile (R142) or of its descriptor. -/
def vopA (a : Option Desc) (tile : Option (List Reg)) (b : Store (List Byte)) (t : Nat) (idx : List Nat) (i : Nat) :
    Val × Flags :=
  match tile with
  | some l =>
    let c := (l.getD (32 * idx.getD 0 0 + i) 0).toNat
    (val32 c, invalidIf (isSnan fp32 c))
  | none => a.elim (vzero, noFlags) fun x => x.val b t idx i

/-- One element of a VECOP. -/
def vopCell (w : List Dword) (a b : Option Desc) (tile : Option (List Reg)) (buf : Store (List Byte)) (t ch : Nat)
    (idx : List Nat) (i : Nat) : Val × Flags :=
  let v := vop w
  let x := vopA a tile buf t idx i
  let s := vopScalar w
  let y := match b with
    | some y => y.val buf t idx i
    | none => s
  let o := laneOp v (vopFmt w) (Config.freeNat ch) x.1 y.1 s.1
  let f := orFlags x.2 o.2
  (o.1, if vopBinary v then orFlags f (orFlags y.2 (if v = 0x04 then s.2 else noFlags)) else f)

/-- One iteration of a VECOP, its operands read. -/
def vopIter (c : Cmd) (tile : Option (List Reg)) (upset : Upset) (r : Run d₀) : IterOut × Run d₀ :=
  match descOf c.descs 4 with
  | none => (.nothing, r)
  | some x =>
    let w := c.words
    let t := c.iter
    let n := iterations w
    let a := descOf c.descs 2
    let b := descOf c.descs 3
    let m := descOf c.descs 6
    let act := active r.dev m t
    let runs := m.elim [] (·.runs t) ++ x.positions.flatMap fun e =>
      if act e.1 e.2 then a.elim [] (·.cellRuns t e.1 e.2) ++ b.elim [] (·.cellRuns t e.1 e.2) else []
    let (s, r) := readAll c.core atHome upset (runAddrs runs) r
    let (seed, r) := freshMany (3 * (x.dims.foldl (· * ·) 1)) r
    let meet := max (a.elim 0 (meeting r.dev n x)) (b.elim 0 (meeting r.dev n x))
    -- R149: with identical extents every element is read as it stood before the command; where the extents meet in part,
    -- so, or after the command's earlier writes, which are those of its earlier rows (DESIGN CHOICE, assumption 18)
    let d := r.dev
    let before := if meet = 0 then s.buf else beforeCmd d c.buf s.buf
    let size := x.size 0
    let o := x.rows.foldl (fun (acc : WriteSet × Flags × Store (List Byte)) idx =>
      let first := 3 * size * linear (x.dims.drop 1) idx
      let cells := (List.range size).map fun i =>
        if act idx i then
          let later := decide (meet = 2) && Config.freeNat (seed + first + i) % 2 == 1
          let e := vopCell w a b tile (if later then acc.2.2 else before) t (seed + first + size + i) idx i
          (Cell.val e.1, e.2)
        else (inactiveCell w, noFlags)
      let f := cells.foldl (fun f e => orFlags f e.2) acc.2.1
      let o := x.putResults (fRound w) (seed + first + 2 * size) t idx (cells.map (·.1)) (acc.1, f)
      (o.1, o.2, if meet = 2 then afterWrites d acc.2.2 o.1 else acc.2.2)) (([] : WriteSet), noFlags, s.buf)
    (⟨o.1, o.2.1, s.fault, none, false⟩, r)

/-- Keep what a command whose destination meets a source is about to overwrite. -/
def keepOld (c : Cmd) (o : IterOut) (d : Dev) : Cmd :=
  let n := iterations c.words
  match descOf c.descs 4 with
  | some x =>
    if c.descs.any fun s => (s.word == 2 || s.word == 3) && extentsMeet d n x s then
      { c with buf := noteOld d o.writes c.buf }
    else c
  | none => c

/-! ## REDUCE -/

/-- The positions of a source line: the destination position `(idx, i)` with the reduced dimension put back in. -/
def lineIndex (src : Desc) (dim : Nat) (idx : List Nat) (i k : Nat) : List Nat :=
  if src.rank = 1 then [k] else ((i :: idx).take dim ++ [k] ++ (i :: idx).drop dim)

/-- One iteration of a REDUCE. Where its destination meets its source it reads what stands as the iteration starts, after
the writes of its earlier iterations (DESIGN CHOICE, assumption 18). -/
def reduceIter (c : Cmd) (upset : Upset) (r : Run d₀) : IterOut × Run d₀ :=
  match descOf c.descs 2, descOf c.descs 4 with
  | some a, some x =>
    let w := c.words
    let t := c.iter
    let m := descOf c.descs 6
    let rop := bits (wd w 5) 3 0
    let dim := bits (wd w 5) 6 4
    let len := a.size dim
    let act := active r.dev m t
    let runs := m.elim [] (·.runs t) ++ a.positions.flatMap fun e => if act e.1 e.2 then a.cellRuns t e.1 e.2 else []
    let (s, r) := readAll c.core atHome upset (runAddrs runs) r
    let per := reduceDraws len + 1
    let (seed, r) := freshMany (per * (x.dims.foldl (· * ·) 1)) r
    let size := x.size 0
    let o := x.rows.foldl (fun (acc : WriteSet × Flags) idx =>
      let first := per * size * linear (x.dims.drop 1) idx
      let outs := (List.range size).map fun i =>
        let line := ((List.range len).map fun k => (k, lineIndex a dim idx i k)).filter fun e =>
          act e.2.tail (e.2.headD 0)
        let vals := line.map fun e => (e.1, a.val s.buf t e.2.tail (e.2.headD 0))
        let f := vals.foldl (fun f e => orFlags f e.2.2) noFlags
        (reduceLine rop (seed + first + size + i * (per - 1)) (vals.map fun e => (e.1, e.2.1)), f)
      let f := outs.foldl (fun f e => orFlags f e.2) acc.2
      if rop = 4 ∨ rop = 5 then
        let codes := outs.map fun e => match e.1 with
          | .inr k => some (unsigned 32 k)
          | .inl _ => none
        (x.putRow t idx codes acc.1, f)
      else
        let vals := outs.map fun e => match e.1 with
          | .inl v => v
          | .inr _ => special vzero
        x.putResults (fRound w) (seed + first) t idx (vals.map fun e => .val e.1)
          (acc.1, vals.foldl (fun f e => orFlags f e.2) f)) (([] : WriteSet), noFlags)
    (⟨o.1, o.2, s.fault, none, false⟩, r)
  | _, _ => (.nothing, r)

/-! ## GATHER and SCATTER -/

/-- R157: the position an index names along a dimension of length `n`, if in range. -/
def indexPos (wrap : Bool) (n code : Nat) : Option Nat :=
  let v := signed 32 code
  let v := if wrap && decide (v < 0) then v + n else v
  if 0 ≤ v ∧ v < n then some v.toNat else none

/-- What the index lanes say: lane by lane active, and its position if in range. -/
def lanes (d : Dev) (w : List Dword) (ix : Desc) (m : Option Desc) (b : Store (List Byte)) (t n : Nat) :
    List (Bool × Option Nat) :=
  (List.range (ix.size 0)).map fun i => (active d m t [] i, indexPos (fWrap w) n (ix.code b t [] i))

/-- The active lanes out of range: address of the first one's index element, and how many (R158). -/
def lanesOut (ix : Desc) (t : Nat) (l : List (Bool × Option Nat)) : Option (Nat × Nat) :=
  let bad := (List.range l.length).filter fun i =>
    let e := l.getD i (false, none)
    e.1 && e.2.isNone
  match bad with
  | [] => none
  | i :: _ => some (ix.elemAddr t [] i, bad.length)

/-- The position that a lane moves, if it is active and in range. -/
def lanePos (l : List (Bool × Option Nat)) (i : Nat) : Option Nat :=
  let e := l.getD i (false, none)
  if e.1 then e.2 else none

/-- Byte runs of the index elements of the active lanes (R151). -/
def indexRuns (d : Dev) (ix : Desc) (m : Option Desc) (t : Nat) : List (Nat × Nat) :=
  ((List.range (ix.size 0)).filter (active d m t [])).map fun i => (ix.elemAddr t [] i, 4)

/-- One iteration of a GATHER. Where its destination meets its table it reads what stands as the iteration starts, after
the writes of its earlier iterations (DESIGN CHOICE, assumption 18). -/
def gatherIter (c : Cmd) (upset : Upset) (r : Run d₀) : IterOut × Run d₀ :=
  match descOf c.descs 2, descOf c.descs 3, descOf c.descs 4 with
  | some a, some ix, some x =>
    let w := c.words
    let t := c.iter
    let m := descOf c.descs 6
    let dim := bits (wd w 5) 2 0
    let windows := cdiv (ix.size 0) 64
    let (pick, r) := fresh r
    let (s, r) := readAll c.core atHome (upsetOf pick (windows + 1) 0 upset)
      (runAddrs (m.elim [] (·.runs t) ++ indexRuns r.dev ix m t)) r
    let l := lanes r.dev w ix m s.buf t (a.size dim)
    let source := fun (idx : List Nat) (i : Nat) =>
      let p := i :: idx
      (lanePos l (p.getD dim 0)).map fun k => p.set dim k
    -- R159: one read of each slice per window of 64 lanes
    let (s, r) := (List.range windows).foldl (fun z win =>
      let runs := x.positions.flatMap fun e =>
        if (e.2 :: e.1).getD dim 0 / 64 = win then
          (source e.1 e.2).elim [] fun p => a.cellRuns t p.tail (p.headD 0)
        else []
      readMore c.core ⟨true, true⟩ (upsetOf pick (windows + 1) (win + 1) upset) (runAddrs runs) z) (s, r)
    let (seed, r) := freshMany (x.dims.foldl (· * ·) 1) r
    let size := x.size 0
    let o := x.rows.foldl (fun (acc : WriteSet × Flags) idx =>
      let cells := (List.range size).map fun i =>
        match source idx i with
        | some p =>
          let e := a.val s.buf t p.tail (p.headD 0)
          let o := laneRound fp32 (e.1, false)
          (Cell.val o.1, orFlags e.2 o.2)
        | none => (inactiveCell w, noFlags)
      x.putResults (fRound w) (seed + size * linear (x.dims.drop 1) idx) t idx (cells.map (·.1))
        (acc.1, cells.foldl (fun f e => orFlags f e.2) acc.2)) (([] : WriteSet), noFlags)
    (⟨o.1, o.2, s.fault, lanesOut ix t l, false⟩, r)
  | _, _, _ => (.nothing, r)

/-- R162: combine one contribution. -/
def combine (mode : Nat) (acc v : Val) : Val × Flags :=
  match mode with
  | 1 => laneRound fp32 (vadd acc v)
  | 2 => laneRound fp32 (vmax acc v, false)
  | _ => laneRound fp32 (vmin acc v, false)

/-- Combine contributions in a free order. -/
def combineAll : Nat → Nat → Nat → Val → List Val → Flags → Val × Flags
  | 0, _, _, acc, _, f => (acc, f)
  | fuel + 1, mode, seed, acc, l, f =>
    match takeAt l (Config.freeNat seed) with
    | (some v, l') =>
      let o := combine mode acc v
      combineAll fuel mode (seed + 1) o.1 l' (orFlags f o.2)
    | (none, _) => (acc, f)

/-- One iteration of a SCATTER. It reads what stands as the iteration starts, after the writes of its earlier
iterations; of the lanes that select one element which one's value it keeps is free, for each element by itself,
elements of one granule too (DESIGN CHOICE, assumption 18). -/
def scatterIter (c : Cmd) (upset : Upset) (r : Run d₀) : IterOut × Run d₀ :=
  match descOf c.descs 2, descOf c.descs 3, descOf c.descs 4 with
  | some a, some ix, some x =>
    let w := c.words
    let t := c.iter
    let m := descOf c.descs 6
    let dim := bits (wd w 5) 2 0
    let mode := bits (wd w 5) 5 3
    let (pick, r) := fresh r
    let (s, r) := readAll c.core atHome (upsetOf pick 2 0 upset)
      (runAddrs (m.elim [] (·.runs t) ++ indexRuns r.dev ix m t)) r
    let l := lanes r.dev w ix m s.buf t (x.size dim)
    -- each active in-range value with the address of its destination element
    let moves := a.positions.filterMap fun e =>
      let p := e.2 :: e.1
      (lanePos l (p.getD dim 0)).map fun k =>
        let q := p.set dim k
        (e, x.elemAddr t q.tail (q.headD 0))
    let (s, r) := readMore c.core atHome (upsetOf pick 2 1 upset)
      (runAddrs (moves.flatMap fun e => a.cellRuns t e.1.1 e.1.2)) (s, r)
    let count := moves.length
    let (seed, r) := freshMany (2 * count) r
    let vals := (List.range count).map fun i =>
      let e := moves.getD i (([], 0), 0)
      (e.2, a.val s.buf t e.1.1 e.1.2)
    let read := vals.foldl (fun f e => orFlags f e.2.2) noFlags
    let bytes := fmtBits x.fmt / 8
    if mode = 0 then
      let codes := (List.range count).map fun i =>
        let e := vals.getD i (0, special vzero)
        let o := laneRound fp32 (e.2.1, false)
        let k := convert x.fmt .given (fRound w) (draw seed i) o.1
        (e.1, k.1, orFlags o.2 k.2)
      let by_ := codes.foldl (fun m e => mset [] m e.1 (mget [] m e.1 ++ [e.2.1])) ([] : Store (List Nat))
      let ws := (List.range by_.length).foldl (fun ws i =>
        let e := by_.getD i (0, [])
        putBytes ws e.1 (natLE ((takeAt e.2 (Config.freeNat (seed + count + i))).1.getD 0) bytes)) ([] : WriteSet)
      (⟨ws, codes.foldl (fun f e => orFlags f e.2.2) read, s.fault, lanesOut ix t l, false⟩, r)
    else
      let by_ := vals.foldl (fun m e => mset [] m e.1 (mget [] m e.1 ++ [e.2.1])) ([] : Store (List Val))
      let (old, r) := readAll c.core atHome .none (runAddrs (by_.map fun e => (e.1, 4))) r
      let outs := (List.range by_.length).map fun i =>
        let e := by_.getD i (0, [])
        let code := bufNat old.buf e.1 4
        let o := combineAll (e.2.length + 1) mode (seed + count + i) (val32 code) e.2 (invalidIf (isSnan fp32 code))
        (e.1, (round32 o.1).1, o.2)
      let ws := outs.foldl (fun ws e => putBytes ws e.1 (natLE e.2.1 4)) ([] : WriteSet)
      -- an atomic unit writes back the whole granule it has read
      let ws := ws.map fun e => (e.1, e.2.1, mergeBytes e.2.1 (mget [] old.buf e.1) e.2.2)
      let fault := if s.fault.isSome then s.fault else old.fault
      let ws := ws.filter fun e => old.fault != some (e.1 * 64)
      (⟨ws, outs.foldl (fun f e => orFlags f e.2.2) read, fault, lanesOut ix t l, true⟩, r)
  | _, _, _ => (.nothing, r)

/-! ## Running an iteration -/

/-- One iteration of the vector engine's command. -/
def vectorIter (c : Cmd) (upset : Upset) (r : Run d₀) : IterOut × Run d₀ :=
  let o := fOpcode c.words
  if o = opVecop then
    match c.taken with
    | some (.tile l) => vopIter c (some l) upset r
    | _ => vopIter c none upset r
  else if o = opReduce then reduceIter c upset r
  else if o = opGather then gatherIter c upset r
  else scatterIter c upset r

/-- A row or channel it needs is held, or a stack-injection regulator lets its accesses not pass (R370 to R372). -/
def stkBlocked (d : Dev) (c : Cmd) : Bool := stackShut d c.part (iterAddrs c) || cmdHeld d c

/-- The command `uid` is the one that its engine runs and has the opcode `op`. -/
def runningCmd (d : Dev) (uid op : Nat) : Option Cmd :=
  match cmdOf d uid with
  | some c =>
    if fOpcode c.words == op && (runningOn d c.core (engineOf c.words)).elim false (fun x => x.uid == uid) then some c
    else none
  | none => none

/-- One iteration of a command of the vector engine that has all it needs; its earlier ones are written by then. An upset
strikes what it reads, or its merge reads, free. -/
def runVector (c : Cmd) (upset : Upset) (r : Run d₀) : Run d₀ :=
  metered c.part (fun r =>
    let (pick, r) := fresh (writeLate c r)
    let (o, r) := vectorIter c (upsetOf pick 2 0 upset) r
    endIter (keepOld c o r.dev) o (upsetOf pick 2 1 upset) r) r

/-- The images that an iteration with a rack entry had still on their way are written: its entry frees and it ends. -/
def endTaken (c : Cmd) (r : Run d₀) : Run d₀ :=
  nextIter { c with stage := 0, late := [] } c.flags (freeTaken c (metered c.part (writeLate c) r))

/-- VECOP, REDUCE, GATHER, SCATTER: the running command performs its next iteration. A VECOP that reads the rack must
hold its entry (R136). -/
def stepVector (op uid : Nat) (upset : Upset) (r : Run d₀) : Run d₀ :=
  match runningCmd r.dev uid op with
  | some c =>
    if (readsRack c.words && c.taken.isNone) || stkBlocked r.dev c then r
    else if c.stage = 1 then endTaken c r
    else runVector c upset r
  | none => r

/-- RACK_ENTRY_TAKEN: one arrival of wait_a is counted, and the head entry is taken. A void entry, one discarded by a
skipped command, and one that DROP takes, free at once (R136, R137, R144). -/
def takeEntry (core now : Nat) (upset : Upset) (r : Run d₀) : Run d₀ :=
  let r := reach now r
  match runningOn r.dev core 2 with
  | none => r
  | some c =>
    let k := coreOf r.dev core
    match k.rack.head? with
    | none => r
    | some e =>
      if !readsRack c.words || c.taken.isSome || tagCount k (fWaitA c.words) == 0 then r
      else
        let r := accountHeads (some core) (setCore core (takeTag (fWaitA c.words) k) r)
        let used := decide (e ≠ .void) && !c.skipped
        let r := when (used && decide (upset = .corrected)) (addReg (eccOff 0x08) 1) r
        if used && decide (upset = .uncorrectable) then
          -- R455, R163
          let r := noteSram c.part r
          let (o, r) := vectorIter { c with taken := some e } .none (writeLate c r)
          stopCmd { c with late := [] } stUncorrectable (orFlags c.flags o.flags) 0 0 0 (writeSome core o.writes (freeEntry core r))
        else if used && vop c.words != 0x30 then setCmd { c with taken := some e } r
        else nextIter c c.flags (freeEntry core r)

end Sys2Proof.Machine
end

