-- ==== Sys2Proof/Machine/Movers.lean ====
section
/-! DEFINITION. COPY (R200 to R209) and DMA (R163 to R166, R195, R398 to R402). -/
namespace Sys2Proof.Machine
variable {d₀ : Dev}

/-- One packing group or scale to be moved: where from (none: a pad), where to, and its bytes if it is a pad. -/
structure Move where
  src : Option Nat
  dst : Nat
  len : Nat
  pad : List Byte

/-- Bytes of a packing group as an engine writes them: bit 63 of an INT3 word is zero (R41). -/
def cleanGroup (fmt : Nat) (l : List Byte) : List Byte :=
  if fmt = 0xA then l.set 7 (l.getD 7 0 &&& 0x7F#8) else l

/-- R203: the source tuple of a destination tuple under a permutation, if it is no pad position. -/
def sourceTuple (a : Desc) (perm : Nat) (e : List Nat) : Option (List Nat) :=
  if (List.range a.rank).all fun j => decide (e.getD j 0 < a.size (permDim perm j)) then
    some ((List.range a.rank).map fun i =>
      match (List.range a.rank).find? fun j => permDim perm j == i with
      | some j => e.getD j 0
      | none => 0)
  else none

/-- The moves of one iteration (R164, R203 to R206). `pad` is the element code of pad positions, if they are written. -/
def moves (a x : Desc) (perm : Nat) (pad : Option Nat) (t : Nat) : List Move :=
  let g := fmtGroup x.fmt
  let values := x.rows.flatMap fun idx =>
    (List.range (cdiv (x.size 0) g.2)).filterMap fun j =>
      let dst := x.elemAddr t idx (j * g.2)
      match sourceTuple a perm (j * g.2 :: idx), pad with
      | some s, _ => some ⟨some (a.elemAddr t s.tail (s.headD 0)), dst, g.1, []⟩
      | none, some code => some ⟨none, dst, g.1, packGroup x.fmt (List.replicate g.2 code)⟩
      | none, none => none
  let scales := if x.kind = 0 then [] else x.rows.flatMap fun idx =>
    (List.range x.rowBlocks).filterMap fun b =>
      let dst := x.scaleAddr t idx b
      let n := scaleBytes x.kind
      match sourceTuple a perm (b * blockSize x.kind :: idx), pad with
      | some s, _ => some ⟨some (a.scaleAddr t s.tail (s.headD 0 / blockSize x.kind)), dst, n, []⟩
      | none, some _ => some ⟨none, dst, n, natLE (if x.kind = 1 then 0x7F else 0x3F80) n⟩
      | none, none => none
  values ++ scales

/-- Bytes read by moves. -/
def moveRuns (l : List Move) : List (Nat × Nat) := l.filterMap fun m => m.src.map fun a => (a, m.len)

/-- The writes of moves; `src` gives the bytes of a source run, by the move's number. -/
def moveWrites (fmt : Nat) (src : Nat → Nat → Nat → List Byte) (l : List Move) : WriteSet :=
  (List.range l.length).foldl (fun w i =>
    match l[i]? with
    | some m =>
      match m.src with
      | some a => putBytes w m.dst (if m.len = 8 then cleanGroup fmt (src i a m.len) else src i a m.len)
      | none => putBytes w m.dst m.pad
    | none => w) []

/-! ## COPY -/

/-- One iteration of a COPY. -/
def copyIter (c : Cmd) (upset : Upset) (r : Run d₀) : IterOut × Run d₀ :=
  match descOf c.descs 2, descOf c.descs 4 with
  | some a, some x =>
    let w := c.words
    let t := c.iter
    let l := moves a x (wd w 5) (if fPadWrite w then some (wd w 7) else none) t
    let (s, r) := readAll c.core ⟨true, false⟩ upset (runAddrs (moveRuns l)) r
    let meet := copyMeeting r.dev (iterations w) x a
    let d := r.dev
    let before := if meet = 0 then s.buf else beforeCmd d c.buf s.buf
    let ws := moveWrites x.fmt (fun _ p n => bufBytes before p n) l
    if meet ≠ 2 then (⟨ws, noFlags, s.fault, none, false⟩, r)
    else
      -- R207: each element as before the command, or after the command's own writes so far
      let (seed, r) := freshMany l.length r
      let o := (List.range l.length).foldl (fun (acc : WriteSet × Store (List Byte)) i =>
        match l[i]? with
        | some m =>
          let b := if Config.freeNat (seed + i) % 2 = 1 then acc.2 else before
          let one := moveWrites x.fmt (fun _ p n => bufBytes b p n) [m]
          (one.foldl (fun w e => (List.range 64).foldl (fun w k =>
            if bit e.2.1 k then putByte w (e.1 * 64 + k) (e.2.2.getD k 0) else w) w) acc.1, afterWrites d acc.2 one)
        | none => acc) (([] : WriteSet), s.buf)
      (⟨o.1, noFlags, s.fault, none, false⟩, r)
  | _, _ => (.nothing, r)

/-- COPY: the command that its cluster's layout engine runs performs its next iteration (R201). -/
def stepCopy (uid : Nat) (upset : Upset) (r : Run d₀) : Run d₀ :=
  match runningCmd r.dev uid opCopy with
  | some c =>
    if stkBlocked r.dev c then r
    else metered c.part (fun r =>
      let (pick, r) := fresh (writeLate c r)
      let (o, r) := copyIter c (upsetOf pick 2 0 upset) r
      endIter (keepOld c o r.dev) o (upsetOf pick 2 1 upset) r) r
  | none => r

/-! ## DMA -/

/-- The remote place of an address. -/
def remoteOf (d : Dev) (a : Nat) : Option (Nat × Nat) :=
  match placeOf d a with
  | .remote dev addr => some (dev, addr)
  | _ => none

/-- A scratchpad address. -/
def isSpad (d : Dev) (a : Nat) : Bool :=
  match placeOf d a with
  | .spad _ => true
  | _ => false

/-- R165: a transfer from base die to base die, between two modules' memories. -/
def baseToBase (d : Dev) (a x : Desc) : Bool :=
  !isSpad d a.base && !isSpad d x.base && (remoteOf d a.base).map (·.1) != (remoteOf d x.base).map (·.1)

/-- A remap of a row of the channel could begin now (R465): no bake holds the channel, its interface works, and in process
mode no recipe runs, or it is at a fold boundary or its end that has room for the 32 granules of a row among its 64. -/
def remapFree (d : Dev) (s c : Nat) : Bool :=
  let ch := chanOf d s c
  !doorChan d s c && !ch.retrain && ch.run.elim true fun x => x.phase != .fold && decide (x.served ≤ 32)

/-- At the fold boundary that the channel is at, the firmware has a row of it to remap, or management asks for one: what
else the boundary serves waits for it (R465). -/
def remapDue (d : Dev) (s c : Nat) : Bool :=
  (chanOf d s c).run.isSome && remapFree d s c && (remapAsked d s c || (upkeepOf d s).due.any fun k =>
    keyChan k == c && !(mget false d.hits (k / 64)) && !rowHeld d k)

/-- R245, R403, R465: granules of link traffic that a channel takes now: any number in memory mode or while no recipe runs
on it, none during a fold or a remap, and at a fold boundary what is left of 64. -/
def linkRoom (d : Dev) (k : Nat) : Option Nat :=
  if chanMode d (keyStack k) (keyChan k) ≠ 1 then none
  else match (chanOf d (keyStack k) (keyChan k)).run with
    | some x =>
      let shut := x.phase = .fold ∨ remapping d (keyStack k) (keyChan k) ∨ remapDue d (keyStack k) (keyChan k)
      some (if shut then 0 else 64 - x.served)
    | none => none

/-- Of granules of link traffic (by key), those that their channels take now, in order: which of them, by place. -/
def linkFits (d : Dev) (keys : List (Option Nat)) : List Bool :=
  (keys.foldl (fun (acc : List Bool × Store Nat) key =>
    match key with
    | some k =>
      let c := 32 * keyStack k + keyChan k
      let used := mget 0 acc.2 c
      let ok := (linkRoom d k).elim true fun n => decide (used < n)
      (acc.1 ++ [ok], if ok then mset 0 acc.2 c (used + 1) else acc.2)
    | none => (acc.1 ++ [true], acc.2)) ([], [])).1

/-- R245: granules served in a process-mode channel are counted, and towards the 64 of a fold boundary. -/
def countServed (k : Nat) (r : Run d₀) : Run d₀ :=
  let s := keyStack k
  let c := keyChan k
  if chanMode r.dev s c ≠ 1 then r
  else
    let ch := chanOf r.dev s c
    let r := match ch.run with
      | some x => setChan s c { ch with run := some { x with served := x.served + 1 } } r
      | none => r
    addReg (stkOff s 0x44) 1 r

/-- The stack port by which a request leaves (R397): that of the stack named, or for the hearth's own requests the
interface that carries it, free. -/
def leavePort (stack : Option Nat) (r : Run d₀) : Nat × Run d₀ :=
  match stack with
  | some s => (s, r)
  | none => hearthPort r

/-- Granules (data address / 64) in frames of up to four consecutive ones, none across a 256-byte line. -/
def frameGroups (l : List Nat) : List (List Nat) :=
  l.foldr (fun g acc =>
    match acc with
    | (h :: t) :: rest => if h = g + 1 ∧ h / 4 = g / 4 then (g :: h :: t) :: rest else [g] :: acc
    | _ => [g] :: acc) []

/-- A move whose bytes at address `a` of it cross a block of 4 KiB, cut there: the blocks may lie in two stacks (R63). -/
def cutMove (a : Option Nat) (m : Move) : List Move :=
  match a with
  | some a =>
    let n := 4096 - a % 4096
    if m.len ≤ n then [m]
    else [{ m with len := n }, { m with src := m.src.map (· + n), dst := m.dst + n, len := m.len - n, pad := m.pad.drop n }]
  | none => [m]

/-- R22: the moves of an iteration by the stack of this module's side of each byte, with that stack; all together for a
transfer that crosses the hearth die. -/
def movesByStack (d : Dev) (base : Bool) (side : Move → Option Nat) (l : List Move) : List (Option Nat × List Move) :=
  if !base then [(none, l)]
  else
    let l := l.flatMap fun m => cutMove (side m) m
    let stackAt := fun (m : Move) => ((side m).bind (memKey d)).map keyStack
    (l.map stackAt).eraseDups.map fun s => (s, l.filter fun m => stackAt m == s)

/-- Granules to be read for moves. -/
def sourceGranules (l : List Move) : List Nat := runGranules (moveRuns l)

/-- READ frames for a source on another module, in one iteration. -/
def readFrames (d : Dev) (base : Bool) (l : List Move) : List (Option Nat × List Nat) :=
  (movesByStack d base (fun m => some m.dst) l).flatMap fun e => (frameGroups (sourceGranules e.2)).map fun f => (e.1, f)

/-- Frames that writes to another module take: whole granules in WRITE frames, others in MERGE_WRITE frames (R391). -/
def writeFrames (w : WriteSet) : List (List Nat) :=
  frameGroups ((w.filter fun e => e.2.1 == fullMask).map (·.1)) ++
    (w.filter fun e => e.2.1 != fullMask).map fun e => [e.1]

/-- R398, R399: the extent takes more than one frame over all iterations; `reads` for the source. -/
def manyFrames (d : Dev) (base reads : Bool) (a x : Desc) (n : Nat) : Bool :=
  let count := fun (t : Nat) =>
    let l := moves a x 0 none t
    if reads then (readFrames d base l).length
    else ((movesByStack d base (·.src) l).map fun e =>
      (writeFrames (moveWrites x.fmt (fun _ _ n => List.replicate n 0#8) e.2)).length).foldl (· + ·) 0
  decide (1 < ((List.range n).map count).foldl (· + ·) 0)

/-- R398: a CHECK for a remote extent that takes more than one frame. -/
def sendCheck (stack : Option Nat) (base many : Bool) (x : Desc) (z : Cmd × Run d₀) : Cmd × Run d₀ :=
  let l := x.extent (iterations z.1.words)
  match remoteOf z.2.dev x.base, l.head?, l.getLast?, many with
  | some (dev, _), some lo, some hi, true =>
    let (port, r) := leavePort stack z.2
    cmdRequest z.1 ⟨port, tCheck, dev, lo * 64 % 2 ^ 48, 0, hi * 64 % 2 ^ 48, 0, !base, false, []⟩ r
  | _, _, _, _ => z

/-- R406: the lowest granule of a remote extent whose device has an empty route entry. -/
def routeMissing (d : Dev) (n : Nat) (x : Desc) : Option Nat :=
  match remoteOf d x.base with
  | some (dev, _) => if routeOf d dev = 0 then some ((x.extent n).headD 0 * 64) else none
  | none => none

/-- Send READ frames for the source granules of another module. -/
def sendReads (base : Bool) (l : List Move) (z : Cmd × Run d₀) : Cmd × Run d₀ :=
  (readFrames z.2.dev base l).foldl (fun z f =>
    let a := f.2.headD 0 * 64
    let (port, r) := leavePort f.1 z.2
    cmdRequest z.1 ⟨port, tRead, a / 2 ^ 48, a % 2 ^ 48, f.2.length, 0, 0, !base, false, []⟩ r) z

/-- Send writes to granules of another module. -/
def sendWrites (stack : Option Nat) (base : Bool) (w : WriteSet) (z : Cmd × Run d₀) : Cmd × Run d₀ :=
  (writeFrames w).foldl (fun z f =>
    let a := f.headD 0 * 64
    let e := mget noWrite w (f.headD 0)
    let (port, r) := leavePort stack z.2
    if e.1 = fullMask then
      cmdRequest z.1 ⟨port, tWrite, a / 2 ^ 48, a % 2 ^ 48, f.length, 0, 0, !base, !fabricScope z.1,
        f.flatMap fun g => (mget noWrite w g).2⟩ r
    else cmdRequest z.1 ⟨port, tMerge, a / 2 ^ 48, a % 2 ^ 48, 1, e.1, 0, !base, !fabricScope z.1, e.2⟩ r) z

/-- R195: a granule that an earlier iteration of the DMA wrote keeps that image, takes this iteration's bytes over it, or
holds this iteration's image over what its merge read found before the command wrote; free. -/
def dmaWrites (d : Dev) (c : Cmd) (seed : Nat) (w : WriteSet) : WriteSet :=
  (List.range w.length).filterMap fun i =>
    (w[i]?).bind fun e =>
      let g := plainGranule d e.1
      if (mget [] c.buf g).isEmpty then some e
      else
        match Config.freeNat (seed + i) % 3 with
        | 0 => none
        | 1 => some e
        | _ =>
          if inPart e then some (e.1, mergedMask, mergeBytes e.2.1 (oldBytes c.buf g (peek d (e.1 * 64) 64)) e.2.2)
          else some e

/-- The merge reads of a DMA's iteration that came before its earlier iterations' writes: counted, with what they found
(R197, R199, R452); the data address of the first that was uncorrectable. -/
def earlyMerges (c : Cmd) (w : WriteSet) (r : Run d₀) : Option Nat × Run d₀ :=
  w.foldl (fun z e =>
    match placeOf z.2.dev (e.1 * 64), z.1 with
    | .mem _ k, none =>
      if e.2.1 ≠ mergedMask then z
      else
        let r := when (chanMode z.2.dev (keyStack k) (keyChan k) == 0) (addReg (stkOff (keyStack k) 0x30) 1) z.2
        match (mget [] c.buf (plainGranule r.dev e.1)).getD 72 0 with
        | 2 => (some (e.1 * 64), noteUncorrectable k r)
        | 1 => (none, noteCorrected true k r)
        | _ => (none, r)
    | _, _ => z) (none, r)

/-- Send the writes of a DMA's iteration to another module, each from the base die of its source granule (R22); with a
faulting source, those of some destination granules, free (R163). -/
def dmaSend (c : Cmd) (a x : Desc) (l : List Move) (b : Store (List Byte)) (fault : Option Nat) (r : Run d₀) : Run d₀ :=
  let base := baseToBase r.dev a x
  let places := runGranules (l.map fun m => (m.dst, m.len))
  let (seed, r) := freshMany places.length r
  let (c, r) := (movesByStack r.dev base (·.src) l).foldl (fun z e =>
    let w := moveWrites x.fmt (fun _ p n => bufBytes b p n) e.2
    let w := if fault.isSome then w.filter fun e => Config.freeNat (seed + places.idxOf e.1) % 2 == 1 else w
    sendWrites e.1 base w z) ({ c with stage := 3, buf := [] }, r)
  match fault with
  | some f => stopUncorrectable c c.flags f r
  | none => setCmd c r

/-- Perform the writes of a DMA's iteration that their channels take now (R245); the iteration ends with the last of
them. -/
def dmaWriteNow (c : Cmd) (upset : Upset) (r : Run d₀) : Run d₀ :=
  let fits := linkFits r.dev (c.todo.map fun e => memKey r.dev (e.1 * 64))
  let some_ := fun (b : Bool) => ((c.todo.zip fits).filter fun e => e.2 == b).map (·.1)
  let now := some_ true
  let c := { c with todo := some_ false, stage := 4 }
  let r := forEach now (fun e r => (memKey r.dev (e.1 * 64)).elim r fun k => countServed k r) r
  let ((bad, late), r) := writeIter c.core now upset r
  let inProcess := fun (e : Late) => placeProcess r.dev (placeOf r.dev (e.granule * 64))
  let r := forEach (late.filter inProcess) (writeImage c.core) r
  let c := { c with late := c.late ++ late.filter fun e => !inProcess e }
  match bad with
  | some a => stopUncorrectable { c with todo := [] } c.flags a (writeSome c.core c.todo r)
  | none => if c.todo.isEmpty then nextIter { c with stage := 1 } c.flags r else setCmd c r

/-- Perform or send the writes of a DMA's iteration, its source granules at hand. -/
def dmaStore (c : Cmd) (a x : Desc) (l : List Move) (b : Store (List Byte)) (fault : Option Nat) (upset : Upset)
    (r : Run d₀) : Run d₀ :=
  match remoteOf r.dev x.base with
  | some _ => dmaSend c a x l b fault r
  | none =>
    let w := moveWrites x.fmt (fun _ p n => bufBytes b p n) l
    let (seed, r) := freshMany w.length r
    let out := dmaWrites r.dev c seed w
    let (early, r) := if fault.isSome then (none, r) else earlyMerges c out r
    let c := if iterations c.words = 1 then c else { c with buf := noteOld r.dev w c.buf }
    match fault.or early with
    | some f => stopUncorrectable { c with stage := 1 } c.flags f (writeSome c.core (out.filter fun e => early != some (e.1 * 64)) r)
    | none => dmaWriteNow { c with todo := out } upset r

/-- Read the source granules of a DMA's iteration in this module that their channels give now (R245): those still missing
afterwards, and what has been read. -/
def dmaRead (c : Cmd) (base : Bool) (upset : Upset) (l : List Move) (r : Run d₀) : (Bool × ReadSet) × Run d₀ :=
  if !base then
    let (s, r) := readAll c.core ⟨true, false⟩ upset (runAddrs (moveRuns l)) r
    ((false, s), r)
  else
    let want := (runAddrs (moveRuns l)).filter fun p => (mget [] c.buf (p / 64)).isEmpty
    let fits := linkFits r.dev (want.map (memKey r.dev))
    let now := ((want.zip fits).filter (·.2)).map (·.1)
    let r := forEach now (fun p r => (memKey r.dev p).elim r fun k => countServed k r) r
    let (s, r) := readMore c.core atHome .none now (⟨c.buf, none⟩, r)
    ((fits.any (!·), s), r)

/-- A remote transaction of a DMA has failed: nothing was written when a CHECK failed (R398); otherwise granules of the
running iteration hold their old or their new image (R163, R400). -/
def dmaFail (c : Cmd) (a x : Desc) (l : List Move) (r : Run d₀) : Run d₀ :=
  let r :=
    if c.stage = 2 ∧ (remoteOf r.dev x.base).isNone then
      let here := l.filter fun m => m.src.elim false fun p => !(mget [] c.buf (p / 64)).isEmpty
      writeSome c.core (moveWrites a.fmt (fun _ p n => bufBytes c.buf p n) here) r
    else r
  stopCmd c c.remote c.flags c.failAt 1 (operandWord c c.failAt) r

/-- A DMA that the row of a granule or, if it crosses the hearth die, a stack-injection regulator holds (R370, R464). -/
def dmaHeld (d : Dev) (c : Cmd) (base : Bool) : Bool := if base then cmdHeld d c else stkBlocked d c

/-- The next part of a DMA: stage 0 sends its CHECKs, 1 starts an iteration, 2 has its READs back, 3 its writes
acknowledged, 4 has writes that wait for a fold boundary. The CHECKs of a base-to-base DMA leave by the port of the
stack that holds the base of its extent in this module, and its sources in this module are read at their home (DESIGN
CHOICE, assumption 17). An iteration reads all of its source before it writes, and after the writes of the iterations
before it (DESIGN CHOICE, assumption 18). -/
def dmaPart (c : Cmd) (a x : Desc) (upset : Upset) (r : Run d₀) : Run d₀ :=
  let d := r.dev
  let n := iterations c.words
  let l := moves a x 0 none c.iter
  let base := baseToBase d a x
  if c.remote ≠ 0 then dmaFail c a x l r
  else if c.stage = 0 then
    match routeMissing d n a, routeMissing d n x with
    | some p, _ => setCmd { c with stage := 1, remote := stLinkDown, failAt := p } r
    | none, some p => setCmd { c with stage := 1, remote := stLinkDown, failAt := p } r
    | none, none =>
      let near := if base then (((memKey d a.base).or (memKey d x.base)).map keyStack) else none
      let (c, r) := sendCheck near base (manyFrames d base true a x n) a
        (sendCheck near base (manyFrames d base false a x n) x (c, r))
      setCmd { c with stage := 1 } r
  else if c.stage = 1 then
    if (remoteOf d a.base).isSome then
      let (c, r) := sendReads base l ({ c with stage := 2 }, r)
      setCmd c r
    else
      let r := writeLate c r
      let c := { c with late := [] }
      let (pick, r) := fresh r
      let ((more, s), r) := dmaRead c base (upsetOf pick 2 0 upset) l r
      if more && s.fault.isNone then setCmd { c with buf := s.buf } r
      else dmaStore c a x l s.buf s.fault (upsetOf pick 2 1 upset) r
  else if c.stage = 2 then dmaStore { c with late := [] } a x l c.buf none upset (writeLate c r)
  else if c.stage = 4 then dmaWriteNow c upset r
  else nextIter { c with stage := 1 } c.flags r

/-- Granules of this module's memory that a DMA's iteration is about to read or write as its channels give or take them
(R245); none where it does not depend on them. -/
def dmaWants (d : Dev) (c : Cmd) (a x : Desc) : Option (List Nat) :=
  if c.stage = 4 then some (c.todo.map fun e => e.1 * 64)
  else if c.stage = 1 ∧ baseToBase d a x ∧ (remoteOf d a.base).isNone then
    some ((runAddrs (moveRuns (moves a x 0 none c.iter))).filter fun p => (mget [] c.buf (p / 64)).isEmpty)
  else none

/-- A DMA of this module's memory has a granule that its channels give or take now (R245). -/
def dmaMoves (d : Dev) (c : Cmd) (a x : Desc) : Bool :=
  (dmaWants d c a x).elim true fun l => l.isEmpty || (linkFits d (l.map (memKey d))).any id

/-- A DMA has a granule ready. -/
def dmaReady (d : Dev) (c : Cmd) : Bool :=
  match descOf c.descs 2, descOf c.descs 4 with
  | some a, some x =>
    fOpcode c.words == opDma && c.runs && c.txns.isEmpty && !dmaHeld d c (baseToBase d a x) && !dmaBehind d c &&
      dmaMoves d c a x
  | _, _ => false

/-- The DMAs of a core that have a granule ready, but for one. -/
def dmasReady (d : Dev) (core uid : Nat) : List Nat :=
  ((engineHolds d core 3).filter fun x => x.uid != uid && dmaReady d x).map (·.uid)

/-- The grant of a core's DMA engine to a command of it (R118, R166); what is owed to commands that have ended is
dropped. -/
def grantDma (c : Cmd) (r : Run d₀) : Run d₀ :=
  let r := grantTurn 7 c.core c.uid (dmasReady r.dev c.core c.uid) r
  r.emit (.turns (r.dev.hearth.turns.filter fun t => t.engine != 7 || (cmdOf r.dev t.ring).isSome))

/-- DMA: a command of a DMA engine that is ready goes on, when the engine owes no other of its commands a grant (R166). -/
def stepDma (uid : Nat) (upset : Upset) (r : Run d₀) : Run d₀ :=
  match cmdOf r.dev uid with
  | none => r
  | some c =>
    match descOf c.descs 2, descOf c.descs 4 with
    | some a, some x =>
      let owed := owedBefore r.dev 7 c.core c.uid
      if !dmaReady r.dev c || (dmasReady r.dev c.core c.uid).any owed.contains then r
      else
        let r := grantDma c r
        if baseToBase r.dev a x then dmaPart c a x upset r else metered c.part (dmaPart c a x upset) r
    | _, _ => r

/-! ## The commands -/

/-- COPY (R200 to R209). -/
def execCopy (uid : Nat) (upset : Upset) (s : State) : Host.Outcome State Fault Refusal := s.run (stepCopy uid upset)

/-- DMA (R164, R165). -/
def execDma (uid : Nat) (upset : Upset) (s : State) : Host.Outcome State Fault Refusal := s.run (stepDma uid upset)

end Sys2Proof.Machine
end

