-- ==== Sys2Proof/Machine/RecipeImage.lean ====
section
/-! DEFINITION. Recipe images, parameter blocks and instructions (R254, R256 to R266), proofing (R278), the checks of a
RECIPE at issue (R266), and the minimum timing table (R272). -/
namespace Sys2Proof.Machine
variable {d₀ : Dev}

/-! ## Instructions (R256, R257) -/

/-- ACT -/ def iAct : Nat := 0x01
/-- PRE -/ def iPre : Nat := 0x02
/-- DOT -/ def iDot : Nat := 0x03
/-- AXPY -/ def iAxpy : Nat := 0x04
/-- SCALE -/ def iScale : Nat := 0x05
/-- REREAD -/ def iReread : Nat := 0x06
/-- LOADV -/ def iLoadv : Nat := 0x07
/-- COPYV -/ def iCopyv : Nat := 0x08
/-- SYNC -/ def iSync : Nat := 0x09
/-- SCORE -/ def iScore : Nat := 0x0A
/-- SETQ -/ def iSetq : Nat := 0x0B
/-- CHAIN -/ def iChain : Nat := 0x0C
/-- STORE -/ def iStore : Nat := 0x0D
/-- IDLE -/ def iIdle : Nat := 0x0E
/-- END -/ def iEnd : Nat := 0x0F

/-- An instruction's fields, by the names of R257; a field that its opcode has not is 0. `n` and `e` are counts. -/
structure Ins where
  op     : Nat
  delta  : Nat
  fold   : Bool
  b0     : Nat
  b1     : Nat
  h      : Nat
  halves : Nat
  base   : Nat
  offset : Nat
  c      : Nat
  n      : Nat
  slots  : Nat
  fmt    : Nat
  r      : Nat
  i0     : Nat
  kind   : Nat
  load   : Nat
  k      : Nat
  kuse   : Bool
  chop   : Nat
  e      : Nat
  cbuf   : Bool
  red    : Nat
deriving DecidableEq, Repr

/-- An instruction with its common fields only. -/
def insCommon (w : Nat) : Ins :=
  { op := bits w 5 0, delta := bits w 17 6, fold := bit w 18, b0 := bits w 23 19, b1 := bits w 28 24, h := 0, halves := 0,
    base := 0, offset := 0, c := 0, n := 1, slots := 0, fmt := 0, r := 0, i0 := 0, kind := 0, load := 0, k := 0,
    kuse := false, chop := 0, e := 0, cbuf := false, red := 0 }

/-- R257: the fields of an instruction. A single slot is given as a mask. -/
def decodeIns (w : Nat) : Ins :=
  let x := insCommon w
  let op := x.op
  if op = iAct then { x with h := bits w 29 29, base := bits w 32 30, offset := bits w 46 33 }
  else if op = iPre then { x with halves := bits w 30 29 }
  else if op = iDot ∨ op = iAxpy then
    { x with h := bits w 29 29, c := bits w 35 30, n := bits w 41 36 + 1, slots := bits w 45 42, fmt := bits w 49 46,
             r := bits w 58 50, i0 := bits w 63 59 }
  else if op = iScale then { x with h := bits w 29 29, c := bits w 35 30, kind := bits w 37 36 }
  else if op = iReread then
    { x with c := bits w 34 29, n := bits w 40 35 + 1, slots := bits w 44 41, fmt := bits w 48 45, r := bits w 57 49 }
  else if op = iLoadv then { x with slots := 2 ^ bits w 30 29, load := bits w 34 31 }
  else if op = iCopyv then { x with h := bits w 29 29, c := bits w 35 30, n := 32, slots := 2 ^ bits w 37 36 }
  else if op = iSync then { x with load := bits w 22 19, b0 := 0, b1 := 0 }
  else if op = iScore then { x with r := bits w 37 29, slots := bits w 41 38, k := bits w 45 42, kuse := bit w 46 }
  else if op = iSetq then { x with slots := bits w 32 29, k := bits w 36 33 }
  else if op = iChain then
    { x with chop := bits w 30 29, r := bits w 39 31, e := bits w 48 40 + 1, slots := bits w 52 49, cbuf := bit w 53,
             red := bits w 63 54 }
  else if op = iStore then
    { x with h := bits w 29 29, c := bits w 35 30, n := bits w 41 36 + 1, r := bits w 50 42,
             slots := 2 ^ bits w 52 51, fmt := bits w 56 53 }
  else { x with b0 := 0, b1 := 0 }

/-- Reserved bits of an instruction are zero (R257). -/
def insClean (w : Nat) : Bool :=
  let op := bits w 5 0
  let top := if op = iAct then 47 else if op = iPre then 31 else if op = iDot then 64 else if op = iAxpy then 59
    else if op = iScale then 38 else if op = iReread then 58 else if op = iLoadv then 35 else if op = iCopyv then 38
    else if op = iSync then 23 else if op = iScore then 47 else if op = iSetq then 37 else if op = iChain then 64
    else if op = iStore then 57 else 19
  w / 2 ^ top % 2 ^ 64 == 0

/-- Banks of an instruction's range. -/
def Ins.banks (x : Ins) : List Nat := (List.range 32).filter fun b => decide (x.b0 ≤ b) && decide (b ≤ x.b1)
/-- The range holds a bank. -/
def Ins.on (x : Ins) (b : Nat) : Bool := decide (x.b0 ≤ b) && decide (b ≤ x.b1)
/-- Two instructions share a bank. -/
def shareBank (x y : Ins) : Bool := decide (x.b0 ≤ y.b1) && decide (y.b0 ≤ x.b1)
/-- Slots of a mask. -/
def Ins.slotList (x : Ins) : List Nat := bitsSet x.slots 4
/-- A column-port instruction (R258). -/
def Ins.port (x : Ins) : Bool :=
  x.op == iDot || x.op == iAxpy || x.op == iScale || x.op == iCopyv || x.op == iStore
/-- R45: stored elements of a column, by format. -/
def perColumn : Nat → Nat
  | 0x1 => 16 | 0x3 => 32 | 0x4 => 32 | 0x7 => 64 | 0x8 => 32 | 0x9 => 64 | 0xA => 84 | _ => 0
/-- R260: windows of a slot. -/
def windows (fmt : Nat) : Nat := if perColumn fmt = 0 then 0 else 512 / perColumn fmt
/-- R263: accumulator values of a STORE column. -/
def storePer : Nat → Nat
  | 0x0 => 8 | 0x1 => 16 | 0x3 => 32 | 0x4 => 32 | _ => 0
/-- R262: flits that a CHAIN moves on the chain: for PASS, ADD and MERGE those of every contributing bank (DEDUCED,
assumption 52). -/
def Ins.flits (x : Ins) : Nat :=
  if x.chop = 3 then (if x.cbuf then x.e else 32)
  else cdiv (x.e * (bitsSet x.slots 4).length) 8 * (x.b1 + 1 - x.b0)

/-! ## Proofing (R278) -/

/-- What proofing has seen of the running fold: open halves of the banks at `2 bank + half`, scale kind in each bank's
latch, elements it has served, the fold's length. -/
structure Proof where
  opened : List Nat
  kinds  : Store Nat
  served : Store Nat
  len    : Nat

/-- Range failures (proof code 3). A constant number above 9, which the parameter block has not, is one, whatever kuse
says (DESIGN CHOICE, assumption 60). -/
def rangeFails (used : Nat) (x : Ins) : Bool :=
  let ne := perColumn x.fmt
  decide (x.b1 < x.b0) ||
    ((x.op == iDot || x.op == iAxpy || x.op == iReread || x.op == iStore) && decide (64 < x.c + x.n)) ||
    (x.op == iDot && ne != 0 && decide (511 < x.r + (x.i0 + x.n - 1) / windows x.fmt)) ||
    ((x.op == iAxpy || x.op == iReread) && ne != 0 && decide (512 < x.r + x.n * ne)) ||
    (x.op == iStore && storePer x.fmt != 0 && decide (512 < x.r + x.n * storePer x.fmt)) ||
    (x.op == iCopyv && x.c != 0 && x.c != 32) ||
    ((x.op == iScore || x.op == iSetq) && decide (9 < x.k)) ||
    (x.op == iLoadv && !bit (usedLoads used) x.load) ||
    (x.op == iSync && (List.range (x.load + 1)).any fun e => !bit (usedLoads used) e) ||
    (x.op == iAct && !bit (usedBases used) x.base) ||
    (x.op == iChain && decide (x.chop < 3) &&
      (decide (512 < x.r + x.e) || decide (1024 < x.red + x.e * (if x.chop = 0 then x.b1 + 1 - x.b0 else 1)))) ||
    (x.op == iChain && x.chop == 3 &&
      ((bitsSet x.slots 4).length != 1 || (x.cbuf && decide (64 < x.r + x.e)) ||
        (x.b1 == 31 && decide (1024 < x.red + (if x.cbuf then 2 * x.e else 64)))))

/-- Format failures (proof code 4). -/
def formatFails (x : Ins) : Bool :=
  ((x.op == iDot || x.op == iAxpy) && perColumn x.fmt == 0) ||
    (x.op == iReread && x.fmt != 0x3 && x.fmt != 0x4 && x.fmt != 0x8) ||
    (x.op == iStore && storePer x.fmt == 0)

/-- Elements that one scale column serves (R235, R261). -/
def scaleServes (kind : Nat) : Nat := 32 / scaleBytes kind * blockSize kind

/-- The scale failures of proof code 5 in one bank. -/
def scaleFails (p : Proof) (x : Ins) (b : Nat) : Bool :=
  let k := mget 0 p.kinds b
  if x.fmt = 0x1 then false
  else if k = 0 then !scaleOk x.fmt 0
  else !scaleOk x.fmt k || decide (scaleServes k < mget 0 p.served b + x.n * perColumn x.fmt)

/-- Structure failures (proof code 5). -/
def structureFails (p : Proof) (last i : Nat) (x : Ins) : Bool :=
  let bound := x.fold && i != 0
  let p := if bound then { p with kinds := [] } else p
  (if i = 0 then !x.fold || x.delta != 0 else x.delta == 0) ||
    (x.op == iSync && !x.fold) || ((x.op == iEnd) != (i == last)) ||
    ((bound || x.op == iEnd) && !p.opened.isEmpty) ||
    (x.op == iAct && x.banks.any fun b => p.opened.contains (2 * b + x.h)) ||
    (x.port && x.banks.any fun b => !p.opened.contains (2 * b + x.h)) ||
    ((x.op == iDot || x.op == iAxpy) && x.banks.any (scaleFails p x))

/-- A fold ends here and is too long (proof code 6). -/
def lengthFails (p : Proof) (budget i : Nat) (x : Ins) : Bool :=
  ((x.fold && i != 0) || x.op == iEnd) && decide (budget < p.len + x.delta)

/-- The lowest proof code that an instruction fails; 0 if none. -/
def proofCode (p : Proof) (budget used last i w : Nat) : Nat :=
  let x := decodeIns w
  if x.op = 0 ∨ 0xF < x.op ∨ !insClean w then 2
  else if rangeFails used x then 3
  else if formatFails x then 4
  else if structureFails p last i x then 5
  else if lengthFails p budget i x then 6
  else 0

/-- Proofing past one instruction. -/
def proofNext (p : Proof) (x : Ins) : Proof :=
  let p := if x.fold then { p with kinds := [], served := [], len := 0 } else { p with len := p.len + x.delta }
  if x.op = iAct then { p with opened := x.banks.map (fun b => 2 * b + x.h) ++ p.opened }
  else if x.op = iPre then { p with opened := p.opened.filter fun q => !(x.on (q / 2) && bit x.halves (q % 2)) }
  else if x.op = iScale then
    { p with kinds := x.banks.foldl (fun m b => mset 0 m b x.kind) p.kinds
             served := x.banks.foldl (fun m b => mset 0 m b 0) p.served }
  else if (x.op = iDot ∨ x.op = iAxpy) ∧ x.fmt ≠ 0x1 then
    { p with served := x.banks.foldl (fun m b => mset 0 m b (mget 0 m b + x.n * perColumn x.fmt)) p.served }
  else p

/-- Proof instructions in order: code and index of the first failure. -/
def proofRun (budget used last : Nat) : Proof → Nat → List Nat → Option (Nat × Nat)
  | _, _, [] => none
  | p, i, w :: rest =>
    let c := proofCode p budget used last i w
    if c ≠ 0 then some (c, i) else proofRun budget used last (proofNext p (decodeIns w)) (i + 1) rest

/-- Proof an image whose header has passed. -/
def proofImage (budget : Nat) (x : Image) : Option (Nat × Nat) :=
  proofRun budget x.used (x.instrs.length - 1) ⟨[], [], [], 0⟩ 0 x.instrs

/-- Status of a proof code (R278). -/
def proofStatus (c : Nat) : Nat := if c = 4 then stFormat else if c = 6 then stFold else stDescriptor

/-! ## Checks at issue (R266, in the order of R110) -/

/-- `n` bytes from an address lie where an image or a parameter block may (R254, R264). -/
def recipePlace (d : Dev) (p a n : Nat) : Bool :=
  (runGranules [(a, n)]).all fun g => descPlace d p (g * 64)

/-- A destination byte range lies where R242 permits. -/
def destPlace (d : Dev) (p s a n : Nat) : Bool :=
  (runGranules [(a, n)]).all fun g =>
    let x := placeOf d (g * 64)
    descPlace d p (g * 64) ||
      match x with
      | .mem true k => placeOwned d p x && placeProcess d x && keyStack k == s
      | _ => false

/-- Blocks of 2 MiB that the partition's valid entries cover of a channel (direct), or of its group (interleaved). -/
def chanCovered (d : Dev) (p s c : Nat) : Bool :=
  let own := (validRegions d).filter fun x => x.owner == p
  let lo := (s * 32 + c) * 1024
  let part := fun (a : Area) (lo hi : Nat) => min (a.limit + 1) hi - max a.base lo
  let dir := (own.filter fun x => x.area.direct).foldl (fun n x => n + part x.area lo (lo + 1024)) 0
  let g := c / 4 * groupBlocks
  let int := (own.filter fun x => !x.area.direct).foldl (fun n x => n + part x.area g (g + groupBlocks)) 0
  dir == 1024 || int == groupBlocks

/-- Steps 3 to 6 with the used bits and the parameter block at hand. -/
def recipeFault (d : Dev) (p s mask img par used : Nat) (b : List Byte) : Option Failed :=
  let loads := bitsSet (usedLoads used) 16
  let dests := (bitsSet (usedDests used) 8).map (paramDest b)
  let n := popcount mask 32
  let badLoad := loads.find? fun e => paramLoad b e == 0 || !recipePlace d p (paramLoad b e) 1024
  let badDest := (bitsSet (usedDests used) 8).find? fun i =>
    let x := paramDest b i
    x.addr == 0 || decide (0xA < x.fmt) || x.combine == 3 || x.count == 0 || decide (1024 < x.first + x.count)
  let badRange := (dests.flatMap (·.ranges n)).find? fun e => !destPlace d p s e.1 e.2
  match loads.find? fun e => paramLoad b e % 64 != 0, dests.find? fun x => x.addr % alignUnit x.addr != 0 with
  | some e, _ => some ⟨stAlign, 4, paramLoad b e⟩
  | none, some x => some ⟨stAlign, 4, x.addr⟩
  | none, none =>
    if !recipePlace d p img 64 then some ⟨stDescriptor, 2, img⟩
    else if !recipePlace d p par 320 || !paramClean b then some ⟨stDescriptor, 4, par⟩
    else
      match badLoad, badDest, badRange with
      | some e, _, _ =>
        some ⟨stDescriptor, 4, if paramLoad b e = 0 then par + 64 + 8 * e else paramLoad b e⟩
      | none, some i, _ => some ⟨stDescriptor, 4, par + 192 + 16 * i⟩
      | none, none, some e => some ⟨stDescriptor, 4, e.1⟩
      | none, none, none =>
        if (bitsSet mask 32).any fun c => !holdsChan d p s c || !chanCovered d p s c then some ⟨stDescriptor, 3, 0⟩
        else
          match (bitsSet (usedDests used) 8).find? fun i => storePer (paramDest b i).fmt == 0 with
          | some i => some ⟨stFormat, 4, par + 192 + 16 * i⟩
          | none => if (bitsSet mask 32).any fun c => chanMode d s c != 1 then some ⟨stMode, 3, 0⟩ else none

/-- Read bytes at their home for a recipe: from a scratchpad, or granules of memory; the first failing data address.
`upset` is what the scratchpad's checkers find (R455). -/
def readRecipe (a n : Nat) (upset : Upset) (r : Run d₀) : (List Byte × Option Nat) × Run d₀ :=
  let l := (List.range (cdiv n 64)).map fun i => a + 64 * i
  let (v, r) := victim upset l r
  l.foldl (fun z at_ =>
    match placeOf z.2.dev at_, z.1.2 with
    | .spad k, none =>
      let data := z.1.1 ++ readSpad z.2.dev k
      if v ≠ some at_ then ((data, none), z.2)
      else if upset = .uncorrectable then ((z.1.1, some at_), noteSpad k z.2)
      else ((data, none), addReg (eccOff 0x08) 1 z.2)
    | .mem _ k, none =>
      match readHome k z.2 with
      | (some data, r) => ((z.1.1 ++ data, none), r)
      | (none, r) => ((z.1.1, some at_), r)
    | _, _ => z) (([], none), r)

/-- The checks of a RECIPE at issue: a report if it fails, else its parameter block and the used bits of its image. An
uncorrectable image header or parameter block completes it with ECC_UNCORRECTABLE (R238, R453). -/
def recipeChecks (upset : Upset) (p : Nat) (w : List Dword) (r : Run d₀) : (Option Report × List Byte) × Run d₀ :=
  let img := wd w 2
  let par := wd w 4
  let s := bits (wd w 3) 4 0
  let mask := bits (wd w 3) 63 32
  let fail := fun (st word addr : Nat) => some { plain st with faultAddr := addr, faultWord := word }
  if img % 64 ≠ 0 then ((fail stAlign 2 img, []), r)
  else if par % 64 ≠ 0 then ((fail stAlign 4 par, []), r)
  else if !recipePlace r.dev p img 64 then ((fail stDescriptor 2 img, []), r)
  else if !recipePlace r.dev p par 320 then ((fail stDescriptor 4 par, []), r)
  else
    let (pick, r) := fresh r
    let (b, r) := readRecipe par 320 (upsetOf pick 2 0 upset) r
    let old := if paramReload b.1 then none else residentImage r.dev s mask img
    let (h, r) := match old with
      | some x => (((natLE 0 8 ++ natLE x.used 8, none), r) : (List Byte × Option Nat) × Run d₀)
      | none => readRecipe img 64 (upsetOf pick 2 1 upset) r
    match b.2, h.2 with
    | some a, _ => ((fail stUncorrectable 4 a, []), r)
    | none, some a => ((fail stUncorrectable 2 a, []), r)
    | none, none =>
      let used := bits (wd (toWords h.1) 1) 31 0
      match recipeFault r.dev p s mask img par used b.1 with
      | some f => ((fail f.status f.word f.addr, []), r)
      | none => ((none, b.1 ++ natLE used 4), r)

/-! ## The minimum timing table (R272) -/

/-- ⌈10n/3⌉. -/
def colTicks (n : Nat) : Nat := cdiv (10 * n) 3
/-- tACC(n). -/
def accTicks (n : Nat) : Nat := 8 + 10 * (n - 1) / 3

/-- Two ranges `a … a+n−1` and `b … b+m−1` meet. -/
def rangesMeet (a n b m : Nat) : Bool := decide (a < b + m) && decide (b < a + n) && n != 0 && m != 0

/-- Accumulator entries that an instruction writes: first and number. -/
def Ins.accOut (x : Ins) : Nat × Nat :=
  if x.op = iDot then
    (x.r + x.i0 / windows x.fmt, (x.i0 + x.n - 1) / windows x.fmt + 1 - x.i0 / windows x.fmt)
  else if x.op = iAxpy ∨ x.op = iReread then (x.r, x.n * perColumn x.fmt)
  else (0, 0)

/-- Accumulator entries that an instruction reads (not as an accumulation). -/
def Ins.accIn (x : Ins) : Nat × Nat :=
  if x.op = iScore then (x.r, 1)
  else if x.op = iChain ∧ x.chop < 3 then (x.r, x.e)
  else if x.op = iStore then (x.r, x.n * storePer x.fmt)
  else (0, 0)

/-- Column-buffer entries that an instruction reads. -/
def Ins.bufIn (x : Ins) : Nat × Nat :=
  if x.op = iReread then (x.c, x.n) else if x.op = iChain ∧ x.chop = 3 ∧ x.cbuf then (x.r, x.e) else (0, 0)

/-- Slots that an instruction reads from the operand buffer. -/
def Ins.slotIn (x : Ins) : Nat :=
  if x.op = iDot then x.slots else if x.op = iChain ∧ x.chop = 3 ∧ !x.cbuf then x.slots else 0

/-- The banks into which a SHIFT writes, as an instruction range shared with another. -/
def shiftMeets (x y : Ins) : Bool := decide (x.b0 + 1 ≤ y.b1) && decide (y.b0 ≤ min 31 (x.b1 + 1)) && decide (x.b0 < 31)

/-- The minimums that an earlier instruction `j` sets for a later one `i`: code and ticks. -/
def minimums (hot : Bool) (j i : Ins) : List (Nat × Nat) :=
  let s := shareBank j i
  let mem := i.op == iScore || i.op == iSetq
  let m := fun (on : Bool) (code t : Nat) => if on then [(code, t)] else []
  m (j.op == iAct && i.port && s && j.h == i.h) 1 (if hot then 16 else 14) ++
  m (j.op == iAct && i.op == iPre && s && bit i.halves j.h) 2 (if hot then 35 else 33) ++
  m (j.op == iPre && i.op == iAct && s && bit j.halves i.h) 3 (if hot then 16 else 14) ++
  m (j.port && i.port && s) 4 (colTicks j.n) ++
  m (j.port && j.op != iStore && i.op == iPre && s && bit i.halves j.h) 5 (colTicks j.n + 2) ++
  m (j.op == iStore && i.op == iPre && s && bit i.halves j.h) 6 (colTicks j.n + (if hot then 14 else 12)) ++
  m (j.op == iLoadv && i.op == iLoadv) 7 16 ++
  m (j.op == iLoadv && s && (j.slots &&& i.slotIn) != 0) 8 16 ++
  m (s && (((j.slots &&& i.slots) != 0 && rangesMeet j.accOut.1 j.accOut.2 i.accIn.1 i.accIn.2) ||
      ((j.op == iDot || j.op == iAxpy) && rangesMeet j.c j.n i.bufIn.1 i.bufIn.2) ||
      (j.op == iCopyv && (j.slots &&& i.slotIn) != 0))) 9 (accTicks j.n) ++
  m ((j.op == iScore || j.op == iSetq) && (i.op == iAxpy || i.op == iReread) && s && (j.slots &&& i.slots) != 0) 10 12 ++
  m ((j.op == iScore || j.op == iSetq) && mem && s) 11 4 ++
  m (j.op == iReread && i.op == iReread && s) 12 (colTicks j.n) ++
  m (j.op == iChain && (i.op == iChain || i.op == iEnd)) 13 j.flits ++
  m (j.op == iChain && j.chop == 3 && shiftMeets j i &&
      (if j.cbuf then rangesMeet j.r j.e i.bufIn.1 i.bufIn.2 else (j.slots &&& i.slotIn) != 0)) 14 (j.flits + 64)

/-- The guard (R273): of the minimums that an issue of `i` at tick `t` would break, the one with the largest shortfall,
then the lowest code: code and shortfall. `past` holds the earlier instructions with their ticks. -/
def guardTrip (hot : Bool) (past : List (Ins × Nat)) (i : Ins) (t : Nat) : Option (Nat × Nat) :=
  (past.flatMap fun e => (minimums hot e.1 i).filterMap fun q =>
    if t < e.2 + q.2 then some (q.1, e.2 + q.2 - t) else none).foldl (fun worst q =>
      match worst with
      | none => some q
      | some w => if w.2 < q.2 ∨ (w.2 = q.2 ∧ q.1 < w.1) then some q else worst) none

end Sys2Proof.Machine
end

