-- ==== Sys2Proof/Machine/BankUnit.lean ====
section
/-! DEFINITION. The bank unit, the chain and the channel reducer (R227 to R241, R260 to R263, R296 to R298) as functions
on their contents. Each answers the new contents and the flags raised (R236). -/
namespace Sys2Proof.Machine

/-! ## Contents -/

/-- Accumulator of a row entry and slot. -/
def Bank.accAt (b : Bank) (e v : Nat) : Nat := (mget 0#32 b.acc (4 * e + v)).toNat
/-- Replace an accumulator. -/
def Bank.putAcc (b : Bank) (e v n : Nat) : Bank := { b with acc := mset 0#32 b.acc (4 * e + v) (BitVec.ofNat 32 n) }
/-- One of the four values of the statistics unit. -/
def statAt (l : List Reg) (v : Nat) : Nat := (l.getD v 0).toNat
/-- Replace it. -/
def putStat (l : List Reg) (v n : Nat) : List Reg := l.set v (BitVec.ofNat 32 n)
/-- Element of a slot, as BF16 bits. -/
def Bank.slotAt (b : Bank) (v i : Nat) : Nat := (mget 0#16 b.operand (512 * v + i)).toNat
/-- Bytes of a column-buffer entry. -/
def Bank.entry (b : Bank) (e : Nat) : List Byte := mgets 0#8 b.columns (32 * e) 32
/-- A column enters the buffer. -/
def Bank.putEntry (b : Bank) (e : Nat) (col : List Byte) : Bank := { b with columns := mputs 0#8 b.columns (32 * e) col }
/-- The 16-bit elements of bytes. -/
def halves16 (l : List Byte) : List (BitVec 16) := (chunks 2 l.length l).map fun c => BitVec.ofNat 16 (leNat c)
/-- Fill a slot from `i` on. -/
def Bank.putSlot (b : Bank) (v i : Nat) (l : List Byte) : Bank :=
  { b with operand := mputs 0#16 b.operand (512 * v + i) (halves16 l) }
/-- The 1,024 bytes of a slot. -/
def Bank.slotBytes (b : Bank) (v : Nat) : List Byte := (mgets 0#16 b.operand (512 * v) 512).flatMap fun x => natLE x.toNat 2
/-- Open row of a half. -/
def Bank.rowOf (b : Bank) (h : Nat) : Option Nat := if h = 0 then b.row0 else b.row1
/-- Open or close a row. -/
def Bank.setRow (b : Bank) (h : Nat) (row : Option Nat) : Bank := if h = 0 then { b with row0 := row } else { b with row1 := row }

/-! ## The multiply array (R230 to R232, R260, R261) -/

/-- Codes of the elements of a column (R39, R41, R45). -/
def columnCodes (fmt : Nat) (l : List Byte) : List Nat :=
  match fmtBits fmt with
  | 16 => (halves16 l).map (·.toNat)
  | 8 => l.map (·.toNat)
  | 4 => l.flatMap fun b => [b.toNat % 16, b.toNat / 16]
  | 3 => (toWords l).flatMap fun w => (List.range 21).map fun i => bits w.toNat (3 * i + 2) (3 * i)
  | _ => []

/-- Scale code number `n` of a latch. -/
def latchScale (f : Feed) (n : Nat) : Nat :=
  leNat ((f.latch.drop (n * scaleBytes f.kind)).take (scaleBytes f.kind))

/-- The scale of the element at place `i` of the feed's column, and the flags of reading it (R231, R261); BF16 columns and
columns that no SCALE serves are unscaled. -/
def feedScale (fmt : Nat) (f : Feed) (i : Nat) : Val × Flags :=
  if fmt = 0x1 ∨ f.kind = 0 then (vint 1, noFlags)
  else
    let code := latchScale f ((f.served + i) / blockSize f.kind)
    (decodeScale f.kind code, scaleFlags f.kind code)

/-- Block of the element at place `i` of a column; one block when it is unscaled. -/
def feedBlock (fmt : Nat) (f : Feed) (i : Nat) : Nat :=
  if fmt = 0x1 ∨ f.kind = 0 then 0 else (f.served + i) / blockSize f.kind

/-- An exact sum; invalid when infinities of both signs meet. -/
def exactSum : List Val → Val × Bool
  | [] => (vzero, false)
  | [v] => (v, false)
  | v :: r =>
    let s := exactSum r
    let t := vadd v s.1
    (t.1, s.2 || t.2)

/-- Round an accumulator's new value: one rounding to nearest even. -/
def accRound (v : Val × Bool) : Nat × Flags := finish32 v

/-- R231: a DOT column against one slot, one rounding for each scale block. -/
def dotSlot (fmt first : Nat) (f : Feed) (b : Bank) (e v : Nat) : Bank × Flags :=
  let codes := columnCodes fmt f.column
  let n := codes.length
  let blocks := ((List.range n).map (feedBlock fmt f)).eraseDups
  blocks.foldl (fun z blk =>
    let at_ := (List.range n).filter fun i => feedBlock fmt f i == blk
    let ps := at_.map fun i =>
      (vmul (decodeElem fmt (codes.getD i 0)) (decodeFloat bf16 (z.1.slotAt v (first + i))),
        orFlags (readFlags fmt (codes.getD i 0)) (readFlags 0x1 (z.1.slotAt v (first + i))))
    let s := exactSum (ps.map (·.1.1))
    let sc := feedScale fmt f (at_.headD 0)
    let p := vmul s.1 sc.1
    let t := vadd (val32 (z.1.accAt e v)) p.1
    let o := accRound (t.1, s.2 || p.2 || t.2 || ps.any fun q => q.1.2)
    (z.1.putAcc e v o.1, orFlags z.2 (orFlags sc.2 (ps.foldl (fun g q => orFlags g q.2) o.2)))) (b, noFlags)

/-- R232: an AXPY column into one slot. -/
def axpySlot (fmt : Nat) (f : Feed) (b : Bank) (e v : Nat) : Bank × Flags :=
  let codes := columnCodes fmt f.column
  let fv := val32 (statAt b.f v)
  let qv := val32 (statAt b.q v)
  let read := orFlags (readFlags 0x0 (statAt b.f v)) (readFlags 0x0 (statAt b.q v))
  (List.range codes.length).foldl (fun z j =>
    let sc := feedScale fmt f j
    let a := vmul (val32 (z.1.accAt (e + j) v)) fv
    let x := vmul (decodeElem fmt (codes.getD j 0)) sc.1
    let y := vmul x.1 qv
    let t := vadd a.1 y.1
    let o := accRound (t.1, a.2 || x.2 || y.2 || t.2)
    (z.1.putAcc (e + j) v o.1,
      orFlags z.2 (orFlags sc.2 (orFlags (readFlags fmt (codes.getD j 0)) o.2)))) (b, read)

/-- Act on each slot of an instruction. -/
def onSlots (x : Ins) (g : Bank → Nat → Bank × Flags) (b : Bank) : Bank × Flags :=
  x.slotList.foldl (fun z v =>
    let o := g z.1 v
    (o.1, orFlags z.2 o.2)) (b, noFlags)

/-- One column reaches the multiply array of one bank, and of a DOT or AXPY the column buffer (R229), or of a COPYV the
slot (R228). -/
def takeColumn (x : Ins) (k : Nat) (f : Feed) (b : Bank) : Bank × Flags :=
  if x.op = iDot then
    let w := windows x.fmt
    let o := onSlots x (fun b v => dotSlot x.fmt ((x.i0 + k) % w * perColumn x.fmt) f b (x.r + (x.i0 + k) / w) v) b
    (o.1.putEntry (x.c + k) f.column, o.2)
  else if x.op = iCopyv then (b.putSlot (x.slotList.headD 0) (16 * k) f.column, noFlags)
  else
    let o := onSlots x (fun b v => axpySlot x.fmt f b (x.r + k * perColumn x.fmt) v) b
    (if x.op = iAxpy then o.1.putEntry (x.c + k) f.column else o.1, o.2)

/-- A REREAD column is what its buffer entry holds when it reaches the array. -/
def rereadFeed (x : Ins) (k : Nat) (b : Bank) : Feed := ⟨b.entry (x.c + k), [], 0, 0, 0⟩

/-! ## Statistics unit (R234) -/

/-- SCORE in one slot; `ch` is the first of two choices within the bounds of R147. A score that is NaN, a quiet one too,
sets the invalid flag (R300, against R55; DEDUCED, assumption 60). -/
def scoreSlot (r ch : Nat) (factor : Option Nat) (b : Bank) (v : Nat) : Bank × Flags :=
  let a := b.accAt r v
  let s := match factor with
    | some k => mul32 a k
    | none => (a, readFlags 0x0 a)
  let sv := val32 s.1
  let bad := if vIsNan sv then invalidFlag else noFlags
  let m := val32 (statAt b.m v)
  let top := vmax m sv
  let f := laneExpSub fp32 (Config.freeNat ch) m top
  let q := laneExpSub fp32 (Config.freeNat (ch + 1)) sv top
  let p := vmul (val32 (statAt b.l v)) f.1
  let t := vadd p.1 q.1
  let l := accRound (t.1, p.2 || t.2)
  ({ b with m := putStat b.m v (round32 top).1, l := putStat b.l v l.1, f := putStat b.f v (round32 f.1).1,
            q := putStat b.q v (round32 q.1).1 },
    orFlags (orFlags bad s.2) (orFlags f.2 (orFlags q.2 l.2)))

/-- SETQ in one slot. -/
def setqSlot (k : Nat) (b : Bank) (v : Nat) : Bank × Flags :=
  ({ b with f := putStat b.f v 0x3F800000, q := putStat b.q v k }, noFlags)

/-! ## STORE (R233, R263) -/

/-- The 32 bytes of column `k` of a STORE. -/
def storeColumn (x : Ins) (b : Bank) (k : Nat) : List Byte × Flags :=
  let v := x.slotList.headD 0
  let n := storePer x.fmt
  let l := (List.range n).map fun i =>
    let a := b.accAt (x.r + k * n + i) v
    if x.fmt = 0x0 then (a, noFlags)
    else
      let o := convert x.fmt .saturate 0 0 (val32 a)
      (o.1, orFlags (readFlags 0x0 a) o.2)
  (l.flatMap fun o => natLE o.1 (fmtBits x.fmt / 8), l.foldl (fun f o => orFlags f o.2) noFlags)

/-! ## Partials and their merge (R296, R298) -/

/-- The empty partial's maximum, −∞. -/
def minusInf : Nat := 0xFF800000

/-- A partial of one slot, or of some of its elements: maximum, sum, elements, as FP32 bits; and that the whole of it is
the empty partial (R296, R298). -/
structure Partial where
  m    : Nat
  l    : Nat
  o    : List Nat
  void : Bool

/-- A whole partial; the empty one has maximum −∞, sum +0 and elements +0 (R296). -/
def Partial.of (m l : Nat) (o : List Nat) : Partial := ⟨m, l, o, m == minusInf && l == 0 && o.all (· == 0)⟩

/-- Flags of reading a partial as FP32 numbers (R55). -/
def Partial.flags (p : Partial) : Flags := (p.m :: p.l :: p.o).foldl (fun f n => orFlags f (readFlags 0x0 n)) noFlags

/-- R298: two partials; `ch` is the first of two choices within the bounds of R147. Merging an empty partial with any
partial yields that partial. -/
def mergePartials (ch : Nat) (a b : Partial) : Partial × Flags :=
  if a.m = minusInf ∧ b.m = minusInf then (⟨minusInf, 0, a.o.map fun _ => 0, true⟩, noFlags)
  else if a.void then (b, noFlags)
  else if b.void then (a, noFlags)
  else
    let top := vmax (val32 a.m) (val32 b.m)
    let fa := laneExpSub fp32 (Config.freeNat ch) (val32 a.m) top
    let fb := laneExpSub fp32 (Config.freeNat (ch + 1)) (val32 b.m) top
    let mix := fun (x y : Nat) =>
      let p := vmul (val32 x) fa.1
      let q := vmul (val32 y) fb.1
      let t := vadd p.1 q.1
      accRound (t.1, p.2 || q.2 || t.2)
    let l := mix a.l b.l
    let o := List.zipWith mix a.o b.o
    (⟨(round32 top).1, l.1, o.map (·.1), false⟩,
      orFlags (orFlags a.flags b.flags) (orFlags fa.2 (orFlags fb.2 (o.foldl (fun f e => orFlags f e.2) l.2))))

/-- Merge partials in a free order (R240): two, freely chosen, are replaced by their merge until one is left. -/
def mergeRun : Nat → Nat → List Partial → Flags → Partial × Flags
  | 0, _, l, f => (l.headD (.of minusInf 0 []), f)
  | fuel + 1, seed, l, f =>
    match takeAt l (Config.freeNat seed) with
    | (some a, l') =>
      match takeAt l' (Config.freeNat (seed + 1)) with
      | (some b, l'') =>
        let s := mergePartials (seed + 2) a b
        mergeRun fuel (seed + 4) (l'' ++ [s.1]) (orFlags f s.2)
      | (none, _) => (a, f)
    | (none, _) => (.of minusInf 0 [], f)

/-- Merge a list of partials. -/
def mergeAll (seed : Nat) (l : List Partial) : Partial × Flags := mergeRun (l.length + 1) seed l noFlags

/-- Free values that a merge of `n` partials may use. -/
def mergeDraws (n : Nat) : Nat := 4 * n + 4

/-- Merge partials of `n` elements, the maximum with the sum and each element in an order of its own (R240): `first i` is
the first free value of element `i`, and `first n` that of the maximum and sum. -/
def mergeEach (first : Nat → Nat) (n : Nat) (l : List Partial) : Partial × Flags :=
  let stats := mergeAll (first n) (l.map fun p => { p with o := [] })
  let each := (List.range n).map fun i => mergeAll (first i) (l.map fun p => { p with o := [p.o.getD i 0] })
  ({ stats.1 with o := each.map fun z => z.1.o.headD 0 }, each.foldl (fun f z => orFlags f z.2) stats.2)

/-- FP32 bits added in a free order: the sum's bits and flags. One term alone is that term, with no arithmetic done. -/
def sumBits (seed : Nat) (l : List Nat) : Nat × Flags :=
  match l with
  | [c] => (c, noFlags)
  | _ =>
    let f := l.foldl (fun f c => orFlags f (readFlags 0x0 c)) noFlags
    let s := sumTerms (l.length + 1) seed (l.map val32) f
    ((round32 s.1).1, s.2)

/-! ## The chain (R239, R240, R262) -/

/-- Reducer entry and slot. -/
def Reducer.at_ (d : Reducer) (e v : Nat) : Nat := (mget 0#32 d.entries (4 * e + v)).toNat
/-- Replace it. -/
def Reducer.put (d : Reducer) (e v n : Nat) : Reducer :=
  { d with entries := mset 0#32 d.entries (4 * e + v) (BitVec.ofNat 32 n) }

/-- Banks of a channel's run. -/
def bankAt (m : Store Bank) (b : Nat) : Bank := mget Bank.init m b

/-- PASS: each bank's entries into reducer entries of their own. -/
def chainPass (x : Ins) (banks : Store Bank) (d : Reducer) : Reducer :=
  x.banks.foldl (fun d b =>
    (List.range x.e).foldl (fun d i =>
      x.slotList.foldl (fun d v => d.put (x.red + (b - x.b0) * x.e + i) v ((bankAt banks b).accAt (x.r + i) v)) d) d) d

/-- ADD: the entries of all banks and what the reducer holds, in a free order of additions. -/
def chainAdd (x : Ins) (seed : Nat) (banks : Store Bank) (d : Reducer) : Reducer × Flags :=
  (List.range x.e).foldl (fun z i =>
    x.slotList.foldl (fun (z : Reducer × Flags) v =>
      let terms := z.1.at_ (x.red + i) v :: x.banks.map fun b => (bankAt banks b).accAt (x.r + i) v
      let s := sumBits (seed + (4 * i + v) * sumDraws 33) terms
      (z.1.put (x.red + i) v s.1, orFlags z.2 s.2)) z) (d, noFlags)

/-- MERGE: the partials of all banks and the reducer's, in a free order of merges for each entry. -/
def chainMerge (x : Ins) (seed : Nat) (banks : Store Bank) (d : Reducer) : Reducer × Flags :=
  x.slotList.foldl (fun z v =>
    let own := Partial.of (statAt z.1.m v) (statAt z.1.l v) ((List.range x.e).map fun i => z.1.at_ (x.red + i) v)
    let parts := x.banks.map fun b =>
      let u := bankAt banks b
      Partial.of (statAt u.m v) (statAt u.l v) ((List.range x.e).map fun i => u.accAt (x.r + i) v)
    let s := mergeEach (fun i => seed + (v * (x.e + 1) + i) * mergeDraws 33) x.e (own :: parts)
    let d := (List.range x.e).foldl (fun (d : Reducer) i => d.put (x.red + i) v (s.1.o.getD i 0)) z.1
    ({ d with m := putStat d.m v s.1.m, l := putStat d.l v s.1.l }, orFlags z.2 s.2)) (d, noFlags)

/-- What a bank shifts out: a slot, or column-buffer entries. -/
def shiftOut (x : Ins) (b : Bank) : List Byte :=
  if x.cbuf then (List.range x.e).flatMap fun i => b.entry (x.r + i) else b.slotBytes (x.slotList.headD 0)

/-- SHIFT: every bank's content into the next bank, all at once; bank 31's into the reducer, bit for bit. -/
def chainShift (x : Ins) (banks : Store Bank) (d : Reducer) : Store Bank × Reducer :=
  let out := x.banks.map fun b => (b, shiftOut x (bankAt banks b))
  out.foldl (fun z e =>
    if e.1 = 31 then
      let w := chunks 4 e.2.length e.2
      (z.1, (List.range w.length).foldl (fun (d : Reducer) i => d.put (x.red + i / 4) (i % 4) (leNat (w.getD i []))) z.2)
    else
      let u := bankAt z.1 (e.1 + 1)
      let u := if x.cbuf then { u with columns := mputs 0#8 u.columns (32 * x.r) e.2 }
        else u.putSlot (x.slotList.headD 0) 0 e.2
      (mset Bank.init z.1 (e.1 + 1) u, z.2)) (banks, d)

/-- Flits that a CHAIN delivers to the reducer: under ADD and MERGE a bank forwards sums, one stream (R239). -/
def Ins.delivered (x : Ins) : Nat :=
  if x.chop = 3 then (if x.b1 = 31 then x.flits else 0)
  else cdiv (x.e * (bitsSet x.slots 4).length) 8 * (if x.chop = 0 then x.b1 + 1 - x.b0 else 1)

end Sys2Proof.Machine
end

