-- ==== Sys2Proof/Machine/Sequencer.lean ====
section
/-! DEFINITION. The channel sequencer: the issue of recipe instructions under the guard (R258 to R263, R271, R273, R274,
R289) and what each does to the bank units of its range. -/
namespace Sys2Proof.Machine
variable {d₀ : Dev}

/-! ## Reads of banks (R238) -/

/-- Bytes of one granule over what is already to be written. -/
def overlay (w : WriteSet) (g : Nat) (e : Nat × List Byte) : WriteSet :=
  let old := mget noWrite w g
  mset noWrite w g (old.1 ||| e.1, mergeBytes e.1 (if old.2.isEmpty then List.replicate 64 0#8 else old.2) e.2)

/-- What STORE columns have written, latest first, as writes by granule. -/
def putSet (l : List (Nat × Nat × List Byte)) : WriteSet := l.foldr (fun e w => putBytes w e.2.1 e.2.2) []

/-- Read a granule for a recipe: what the recipe itself has written over what the bank holds; none when the bank's granule
is uncorrectable. -/
def readBank (w : WriteSet) (k : Nat) (r : Run d₀) : Option (List Byte) × Run d₀ :=
  let e := mget noWrite w (k / 64)
  if e.1 = fullMask then (some e.2, r)
  else
    match readHome k r with
    | (some data, r) => (some (mergeBytes e.1 data e.2), r)
    | (none, r) => (none, r)

/-- What a bank delivers: bytes from a column on, or the key of the granule that is uncorrectable. -/
structure BankRead where
  bytes : List Byte
  fault : Option Nat

/-- Read `n` columns of a row from column `col` on, each granule once. -/
def readColumns (w : WriteSet) (rowKey col n : Nat) (r : Run d₀) : BankRead × Run d₀ :=
  let first := col / 2
  let z := (List.range ((col + n - 1) / 2 + 1 - first)).foldl (fun z i =>
    if z.1.fault.isSome then z
    else
      let k := rowKey + 64 * (first + i)
      match readBank w k z.2 with
      | (some data, r) => (⟨z.1.bytes ++ data, none⟩, r)
      | (none, r) => (⟨z.1.bytes, some k⟩, r)) ((⟨[], none⟩ : BankRead), r)
  (⟨(z.1.bytes.drop (32 * (col % 2))).take (32 * n), z.1.fault⟩, z.2)

/-- Read the columns of a column-port instruction in every bank of its range: by bank, or the failing key. -/
def readPort (s c : Nat) (x : Ins) (w : WriteSet) (banks : Store Bank) (r : Run d₀) :
    (Store (List Byte) × Option Nat) × Run d₀ :=
  x.banks.foldl (fun z b =>
    if z.1.2.isSome then z
    else
      let row := ((bankAt banks b).rowOf x.h).getD 0
      let o := readColumns w (columnKey s c b row 0) x.c x.n z.2
      ((mset [] z.1.1 b o.1.bytes, o.1.fault), o.2)) (([], none), r)

/-! ## Columns on their way (R259, R260) -/

/-- Ticks from an issue to the passing of column `k`. -/
def columnDelay (k : Nat) : Nat := 4 + 10 * k / 3

/-- A delivery takes its place: by tick, the bank port before the re-read port (R260). Only columns of equal ticks meet in
one column cycle (DESIGN CHOICE, assumption 60). -/
def insertDelivery (e : Delivery) : List Delivery → List Delivery
  | [] => [e]
  | a :: l =>
    if a.tick < e.tick ∨ (a.tick = e.tick ∧ ((decodeIns a.word).op ≠ iReread ∨ (decodeIns e.word).op = iReread)) then
      a :: insertDelivery e l
    else e :: a :: l

/-- Flags that an instruction issued at a tick raises join those of its run. -/
def ChanRun.mark (t : Nat) (f : Flags) (run : ChanRun) : ChanRun :=
  if f = noFlags then run else { run with marks := (t, f) :: run.marks }

/-- A column passes in one bank: the bank, the column that a STORE writes, and the flags. A STORE takes the accumulators
as they stand (R263); the other columns reach the multiply array, the column buffer or a slot. -/
def passBank (x : Ins) (e : Delivery) (b : Nat) (u : Bank) : Bank × Option (Nat × List Byte) × Flags :=
  if x.op = iStore then
    let o := storeColumn x u e.k
    (u, some ((mget Feed.init e.feed b).key, o.1), o.2)
  else
    let o := takeColumn x e.k (if x.op = iReread then rereadFeed x e.k u else mget Feed.init e.feed b) u
    (o.1, none, o.2)

/-- A column passes in the banks of its instruction. -/
def passColumn (e : Delivery) (run : ChanRun) : ChanRun :=
  let x := decodeIns e.word
  let t := e.tick - columnDelay e.k
  x.banks.foldl (fun run b =>
    let o := passBank x e b (bankAt run.banks b)
    ({ run with banks := mset Bank.init run.banks b o.1
                puts := (o.2.1.map fun p => (t, p)).toList ++ run.puts }).mark t o.2.2) run

/-- Every column due by a tick passes. -/
def landColumns (upto : Nat) (run : ChanRun) : ChanRun :=
  (run.flow.filter fun e => decide (e.tick ≤ upto)).foldl (fun z e => passColumn e z)
    { run with flow := run.flow.filter fun e => !decide (e.tick ≤ upto) }

/-- Every column on its way passes. -/
def landAll (run : ChanRun) : ChanRun := landColumns (run.flow.foldl (fun t e => max t e.tick) 0) run

/-- A column on its way uses or fills what an instruction is about to replace: a slot, column-buffer entries, or
factors. -/
def replaces (x : Ins) (e : Delivery) : Bool :=
  let y := decodeIns e.word
  let meets := (x.slots &&& y.slots) != 0
  (x.op == iLoadv && (y.op == iDot || y.op == iCopyv) && shareBank x y && meets) ||
    ((x.op == iScore || x.op == iSetq) && (y.op == iAxpy || y.op == iReread) && shareBank x y && meets) ||
    (x.op == iChain && x.chop == 3 && shiftMeets x y &&
      (if x.cbuf then y.op == iAxpy || y.op == iReread || (y.op == iDot && rangesMeet x.r x.e y.c y.n)
        else (y.op == iDot || y.op == iCopyv) && meets))

/-- Ticks that the replacement takes at most (R272). -/
def replaceSpan (x : Ins) : Nat := if x.op = iLoadv then 16 else if x.op = iChain then x.flits + 64 else 12

/-- Before an instruction issued at tick `t` takes effect: the columns due by then arrive; of later ones that use what it
replaces, how many arrive before the replacement is free (the manual times only readers that issue after it). -/
def settle (t : Nat) (x : Ins) (run : ChanRun) (r : Run d₀) : ChanRun × Run d₀ :=
  if run.flow.any fun e => decide (t < e.tick) && decide (e.tick < t + replaceSpan x) && replaces x e then
    let (n, r) := fresh r
    (landColumns (t + n % replaceSpan x) run, r)
  else (landColumns t run, r)

/-- Before a column port reads, from four ticks after its issue on: the columns that a STORE has still to write in its
banks are written. -/
def settlePort (t : Nat) (x : Ins) (run : ChanRun) (r : Run d₀) : ChanRun × Run d₀ :=
  if run.flow.any fun e => (decodeIns e.word).op == iStore && shareBank x (decodeIns e.word) then
    (landColumns (t + 3) run, r)
  else settle t x run r

/-! ## Stopping a recipe (R273, R274) -/

/-- What a channel of a stopped recipe did up to the tick `halt`: the columns that had passed by then, and the columns
that earlier STORE instructions still write. -/
def haltedRun (halt : Nat) (run : ChanRun) : ChanRun :=
  let z := landColumns halt run
  landAll { z with flow := z.flow.filter fun e => (decodeIns e.word).op == iStore }

/-- A channel of a stopped recipe closes its rows and discards the state of its bank units and its reducer; what it stored
and flagged stays with the recipe. -/
def stopChan (s uid c : Nat) (r : Run d₀) : Run d₀ :=
  let ch := chanOf r.dev s c
  match ch.run, recipeOf r.dev s uid with
  | some run, some x =>
    if run.uid ≠ uid ∨ x.stop.isNone then r
    else
      let z := haltedRun x.halt run
      setRecipe s { x with puts := z.puts ++ x.puts, marks := z.marks ++ x.marks }
        (setChan s c { ch with run := some { run with phase := .stopped, banks := [], red := Reducer.init, flow := [],
                                                      puts := [], marks := [] } } r)
  | _, _ => r

/-- A recipe stops at a tick with a status and a fault report; its results are not sent, and no channel issues an
instruction more than 4 ticks later. Of several stops the earliest governs. -/
def stopRecipe (s : Nat) (x : Recipe) (tick st addr count word note : Nat) (r : Run d₀) : Run d₀ :=
  if x.stop.isSome && decide (x.halt ≤ tick + 4) then r
  else setRecipe s { x with stop := some (st, addr, count, word), halt := tick + 4, note := note } r

/-- A channel at which a recipe stops issues nothing further. -/
def stopAt (s c : Nat) (x : Recipe) (tick st addr count word note : Nat) (r : Run d₀) : Run d₀ :=
  stopChan s x.uid c (stopRecipe s x tick st addr count word note r)

/-- A guard trip at tick `t`: its registers, and the stop. -/
def tripRecipe (s c : Nat) (x : Recipe) (run : ChanRun) (t code short : Nat) (r : Run d₀) : Run d₀ :=
  let r := setReg (seqChOff s c 0x08) (run.ip + code * 2 ^ 16 + min short 255 * 2 ^ 20) r
  let r := addReg (seqChOff s c 0x0C) 1 r
  stopAt s c x t stGuard (insAddr x.imageAt run.ip) short 2 (run.ip * 2 ^ 12) r

/-! ## Issue -/

/-- A recipe that runs on a channel, with its image; a stopped one too, for what R273 still lets its channels issue. -/
def seated (d : Dev) (s c : Nat) : Option (ChanRun × Recipe × Image) :=
  match (chanOf d s c).run with
  | some run =>
    match recipeOf d s run.uid with
    | some x =>
      match x.image with
      | some i => some (run, x, i)
      | none => none
    | none => none
  | none => none

/-- Tick at which an instruction after a fold boundary issues at the earliest (R271). -/
def boundaryTick (run : ChanRun) (x : Ins) : Nat := if run.ip = 0 then run.ready else run.tick + x.delta

/-- Tick at which the next instruction issues (R271). -/
def issueTick (run : ChanRun) (x : Ins) : Nat :=
  if run.ip = 0 then run.ready else if x.fold then max (run.tick + x.delta) run.ready else run.tick + x.delta

/-- Earlier instructions with their ticks, latest first. -/
def issuedBefore (run : ChanRun) (i : Image) : List (Ins × Nat) :=
  List.zip ((i.instrs.take run.ip).reverse.map decodeIns) run.hist

/-- The channel's next instruction is one of those that a stopped recipe no longer issues (R273). -/
def barred (x : Recipe) (t : Nat) : Bool := x.stop.isSome && decide (x.halt < t)

/-- A fold boundary's first instruction may issue late: it is a SYNC (R276), transfers have been served (R245), or a remap
runs or is due (R465). -/
def mayBeLate (d : Dev) (s c : Nat) (run : ChanRun) (y : Ins) : Bool :=
  y.op == iSync || decide (0 < run.served) || remapping d s c || remapDue d s c

/-- The earliest tick at which a channel of a recipe's mask may yet issue an instruction of it; none when it issues no
more. -/
def nextIssue (d : Dev) (s c : Nat) (x : Recipe) : Option Nat :=
  if !bit x.started c then (if x.stop.isSome then none else some d.time)
  else
    match (chanOf d s c).run, x.image with
    | some run, some i =>
      let y := decodeIns ((i.instrs[run.ip]?).getD 0)
      let t := match run.phase with
        | .fold => some (issueTick run y)
        | .boundary =>
          let start := boundaryTick run y
          some (if mayBeLate d s c run y then max start d.time else start)
        | _ => none
      if run.uid = x.uid then t.filter fun t => !barred x t else none
    | _, _ => none

/-- Another channel of a recipe's mask may yet issue an instruction more than 4 ticks before tick `t`. -/
def trails (d : Dev) (s c : Nat) (x : Recipe) (t : Nat) : Bool :=
  (bitsSet x.mask 32).any fun j => j != c && (nextIssue d s j x).any fun u => decide (u + 4 < t)

/-- A channel of a stopped recipe may yet issue an instruction before the stop, and might stop it there (R273). -/
def beforeStop (d : Dev) (s c : Nat) (x : Recipe) : Bool := (nextIssue d s c x).any fun u => decide (u + 4 < x.halt)

/-- A channel does not issue at tick `t` now: its recipe has stopped, or might still stop on another channel more than 4
ticks earlier (R273). -/
def waitsIssue (d : Dev) (s c : Nat) (x : Recipe) (t : Nat) : Bool := barred x t || trails d s c x t

/-- What an instruction makes of the run; the failing granule's key. -/
structure Work where
  run    : ChanRun
  flags  : Flags
  fault  : Option Nat

/-- The instruction has issued and raised flags: the run moves on. -/
def moveOn (x : Ins) (t : Nat) (i : Image) (f : Flags) (run : ChanRun) : ChanRun :=
  let next := i.instrs[run.ip + 1]?
  let begins := x.fold || run.ip == 0
  { run.mark t f with
    ip := run.ip + 1, tick := t, hist := t :: run.hist, served := 0
    folds := if begins then run.folds + 1 else run.folds
    begun := if begins then t else run.begun
    phase := if x.op = iEnd then .ended else if next.elim false (fun w => (decodeIns w).fold) then .boundary else .fold }

/-- Lateness of an issue (R271), counted in units of 1,024 ticks. -/
def countLate (s c late : Nat) (r : Run d₀) : Run d₀ :=
  let ch := chanOf r.dev s c
  let n := ch.lateSum + late
  addReg (seqChOff s c 0x14) (n / 1024) (setChan s c { ch with lateSum := n % 1024 } r)

/-- Counts below the units of STK_PROC_COLS and STK_CHAIN_FLITS. -/
def countStack (s cols flits : Nat) (r : Run d₀) : Run d₀ :=
  let k := stackOf r.dev s
  let n := k.cols + cols
  let f := k.flits + flits
  let r := setStack s { k with cols := n % 1024, flits := f % 1024 } r
  addReg (stkOff s 0x38) (n / 1024) (addReg (stkOff s 0x3C) (f / 1024) r)

/-- No channel of the stack delivers a column before this tick any more: none issues before the tick of its last issue,
nor starts a recipe before now. -/
def columnsFrom (d : Dev) (s : Nat) : Nat :=
  (List.range 32).foldl (fun t c => (chanOf d s c).run.elim t fun run => min t run.tick) d.time

/-- The columns of an instruction issued at tick `t` pass: STK_PROC_COLS counts each column cycle once, however many banks
of the stack deliver in it. Columns that pass at one tick share a cycle (DESIGN CHOICE, assumption 60). -/
def countCols (s t n : Nat) (r : Run d₀) : Run d₀ :=
  let k := stackOf r.dev s
  let new := ((List.range n).map fun i => t + columnDelay i).filter fun a => !k.cycles.contains a
  let kept := k.cycles.filter fun a => decide (columnsFrom r.dev s ≤ a)
  countStack s new.length 0 (setStack s { k with cycles := kept ++ new } r)

/-- Issue the next instruction of a channel's recipe when it has the opcode `op`: the guard first, then what `g` says.
`parity` is what the checkers of the buffers it uses find (R455). -/
def issueIns (op s c : Nat) (parity : Bool) (g : Recipe → Ins → Nat → ChanRun → Run d₀ → Work × Run d₀) (r : Run d₀) :
    Run d₀ :=
  match seated r.dev s c with
  | none => r
  | some (run, x, i) =>
    match i.instrs[run.ip]? with
    | none => r
    | some w =>
      let y := decodeIns w
      let t := issueTick run y
      if run.phase ≠ .fold || y.op ≠ op || waitsIssue r.dev s c x t then r
      else
        let early := guardTrip (chanOf r.dev s c).hot (issuedBefore run i) y t
        let missing := y.op == iLoadv && (mget [] x.loads y.load).isEmpty
        match early, missing with
        | some q, _ => tripRecipe s c x run t q.1 q.2 r
        | none, true => tripRecipe s c x run t 15 0 r
        | none, false =>
          if parity then stopAt s c x t stUncorrectable 0 0 0 (run.ip * 2 ^ 12) (noteSram x.part r)
          else
          let late := if run.ip = 0 then 0 else t - (run.tick + y.delta)
          let (k, r) := g x y t run r
          match k.fault with
          | some key => stopAt s c x t stUncorrectable (directAddr key) 0 0 (run.ip * 2 ^ 12) r
          | none =>
            let ch := chanOf r.dev s c
            countLate s c late (setChan s c { ch with run := some (moveOn y t i k.flags k.run) } r)

/-- An instruction that only changes the bank units of its range. -/
def onBanks (y : Ins) (t : Nat) (run : ChanRun) (f : Nat → Bank → Bank × Flags) (r : Run d₀) : Work × Run d₀ :=
  let (z, r) := settle t y run r
  let o := y.banks.foldl (fun (o : Store Bank × Flags) b =>
    let u := f b (bankAt o.1 b)
    (mset Bank.init o.1 b u.1, orFlags o.2 u.2)) (z.banks, noFlags)
  (⟨{ z with banks := o.1 }, o.2, none⟩, r)

/-! ## The instructions (R257) -/

/-- The row that an ACT opens in channel `c`, from its row base; none when R289 refuses it. -/
def actRow (x : Recipe) (c : Nat) (y : Ins) : Option Nat :=
  let b := paramBase x.params y.base
  if bit b 15 then
    let e := mget 0 x.bases (8 * c + y.base)
    if bit e 15 ∧ bits e 14 14 = y.h ∧ y.offset ≤ 4 then some (y.h * 16384 + bits e 13 0 + y.offset) else none
  else some (y.h * 16384 + (bits b 13 0 + y.offset) % 16384)

/-- An ACT that R289 refuses stops the recipe instead of issuing. -/
def refuseAct (s c : Nat) (r : Run d₀) : Option (Run d₀) :=
  match seated r.dev s c with
  | some (run, x, i) =>
    match i.instrs[run.ip]? with
    | some w =>
      let y := decodeIns w
      if run.phase = .fold ∧ y.op = iAct ∧ (actRow x c y).isNone ∧ !waitsIssue r.dev s c x (issueTick run y) then
        some (stopAt s c x (issueTick run y) stDescriptor (insAddr x.imageAt run.ip) 0 2 (run.ip * 2 ^ 12) r)
      else none
    | none => none
  | none => none

/-- ACT (R257, R258, R289). -/
def issueAct (s c : Nat) (r : Run d₀) : Run d₀ :=
  match refuseAct s c r with
  | some r => r
  | none =>
    issueIns iAct s c false (fun x y t run r => onBanks y t run (fun _ b => (b.setRow y.h (actRow x c y), noFlags)) r) r

/-- PRE. -/
def issuePre (s c : Nat) (r : Run d₀) : Run d₀ :=
  issueIns iPre s c false (fun _ y t run r => onBanks y t run (fun _ b =>
    let b := if bit y.halves 0 then b.setRow 0 none else b
    (if bit y.halves 1 then b.setRow 1 none else b, noFlags)) r) r

/-- Columns `0 … n−1` of an instruction set out on their way (R259), with what each bank sends. -/
def sendColumns (y : Ins) (w t : Nat) (feed : Nat → Nat → Feed) (run : ChanRun) : ChanRun :=
  { run with flow := (List.range y.n).foldl (fun l k =>
      insertDelivery ⟨t + columnDelay k, w, k, y.banks.foldl (fun m b => mset Feed.init m b (feed k b)) []⟩ l) run.flow }

/-- The word of the instruction that a run issues next. -/
def nextWord (x : Recipe) (run : ChanRun) : Nat := ((x.image.elim [] (·.instrs))[run.ip]?).getD 0

/-- DOT, AXPY and COPYV: the banks deliver their columns, which pass one after the other (R228, R229, R259). -/
def issueColumns (op s c : Nat) (parity : Bool) (r : Run d₀) : Run d₀ :=
  issueIns op s c parity (fun x y t run r =>
    let (z, r) := settlePort t y run r
    let (p, r) := readPort s c y (putSet z.puts) z.banks r
    match p.2 with
    | some k => (⟨z, noFlags, some k⟩, r)
    | none =>
      let n := perColumn y.fmt
      let sent := sendColumns y (nextWord x run) t (fun k b =>
        let u := bankAt z.banks b
        ⟨((mget [] p.1 b).drop (32 * k)).take 32, u.latch, u.kind, u.served + k * n, 0⟩) z
      let banks := y.banks.foldl (fun m b =>
        let u := bankAt m b
        if u.kind = 0 ∨ y.fmt = 0x1 then m else mset Bank.init m b { u with served := u.served + y.n * n }) z.banks
      (⟨{ sent with banks := banks }, noFlags, none⟩, countCols s t y.n r)) r

/-- REREAD: columns of the column buffer reach the arrays (R259). -/
def issueReread (s c : Nat) (parity : Bool) (r : Run d₀) : Run d₀ :=
  issueIns iReread s c parity (fun x y t run r =>
    let (z, r) := settle t y run r
    (⟨sendColumns y (nextWord x run) t (fun _ _ => Feed.init) z, noFlags, none⟩, r)) r

/-- SCALE (R235, R261): its column goes to the scale latch. -/
def issueScale (s c : Nat) (r : Run d₀) : Run d₀ :=
  issueIns iScale s c false (fun _ y t run r =>
    let (z, r) := settlePort t y run r
    let (p, r) := readPort s c y (putSet z.puts) z.banks r
    match p.2 with
    | some k => (⟨z, noFlags, some k⟩, r)
    | none =>
      let banks := y.banks.foldl (fun m b =>
        mset Bank.init m b { bankAt m b with latch := mget [] p.1 b, kind := y.kind, served := 0 }) z.banks
      (⟨{ z with banks := banks }, noFlags, none⟩, countCols s t y.n r)) r

/-- LOADV (R228, R268). -/
def issueLoadv (s c : Nat) (parity : Bool) (r : Run d₀) : Run d₀ :=
  issueIns iLoadv s c parity (fun x y t run r => onBanks y t run (fun _ b =>
    (b.putSlot (y.slotList.headD 0) 0 (mget [] x.loads y.load), noFlags)) r) r

/-- SYNC and IDLE. -/
def issueIdle (op s c : Nat) (r : Run d₀) : Run d₀ :=
  issueIns op s c false (fun _ y t run r => onBanks { y with b0 := 1, b1 := 0 } t run (fun _ b => (b, noFlags)) r) r

/-- SCORE (R234). -/
def issueScore (s c : Nat) (parity : Bool) (r : Run d₀) : Run d₀ :=
  issueIns iScore s c parity (fun x y t run r =>
    let (n, r) := freshMany 256 r
    let k := if y.kuse then some (paramConst x.params y.k) else none
    onBanks y t run (fun b u => onSlots y (fun u v => scoreSlot y.r (n + 8 * b + 2 * v) k u v) u) r) r

/-- SETQ (R234). -/
def issueSetq (s c : Nat) (r : Run d₀) : Run d₀ :=
  issueIns iSetq s c false (fun x y t run r =>
    onBanks y t run (fun _ u => onSlots y (setqSlot (paramConst x.params y.k)) u) r) r

/-- CHAIN (R239 to R241, R262). It takes the accumulators, and a SHIFT writes the next bank, as it issues (DESIGN CHOICE,
assumption 60). -/
def issueChain (s c : Nat) (parity : Bool) (r : Run d₀) : Run d₀ :=
  issueIns iChain s c parity (fun _ y t run r =>
    let (z, r) := settle t y run r
    let banks := z.banks
    let red := z.red
    let (n, r) := if y.chop = 1 then freshMany (4 * y.e * sumDraws 33) r
      else if y.chop = 2 then freshMany (4 * (y.e + 1) * mergeDraws 33) r else (0, r)
    let o : (Store Bank × Reducer) × Flags :=
      if y.chop = 0 then ((banks, chainPass y banks red), noFlags)
      else if y.chop = 1 then ((banks, (chainAdd y n banks red).1), (chainAdd y n banks red).2)
      else if y.chop = 2 then ((banks, (chainMerge y n banks red).1), (chainMerge y n banks red).2)
      else (chainShift y banks red, noFlags)
    (⟨{ z with banks := o.1.1, red := o.1.2 }, o.2, none⟩, countStack s 0 y.delivered r)) r

/-- STORE: each bank's columns go to its open row, one after the other; they stay with the recipe until it completes
(R176, R259, R263). -/
def issueStore (s c : Nat) (parity : Bool) (r : Run d₀) : Run d₀ :=
  issueIns iStore s c parity (fun x y t run r =>
    let (z, r) := settle t y run r
    (⟨sendColumns y (nextWord x run) t (fun k b =>
        { Feed.init with key := columnKey s c b (((bankAt z.banks b).rowOf y.h).getD 0) (y.c + k) }) z, noFlags, none⟩, r)) r

/-- END: the last columns pass, what the channel stored and flagged joins the recipe's, and the reducer goes to the stack
reducer when it is final (R241). -/
def issueEnd (s c : Nat) (r : Run d₀) : Run d₀ :=
  let r := issueIns iEnd s c false (fun _ _ _ run r => (⟨landAll run, noFlags, none⟩, r)) r
  match seated r.dev s c with
  | some (run, x, _) =>
    if run.phase = .ended ∧ !bit x.ended c then
      let ch := chanOf r.dev s c
      setRecipe s { x with finals := mset Reducer.init x.finals c run.red, ended := setBit x.ended c,
                           puts := run.puts ++ x.puts, marks := run.marks ++ x.marks }
        (setChan s c { ch with run := some { run with puts := [], marks := [] } } r)
    else r
  | none => r

/-! ## The commands -/

/-- ACT (R257, R258, R289). -/
def execAct (stack : StackId) (chan : ChanId) (s : State) : Host.Outcome State Fault Refusal :=
  s.run (issueAct stack.val chan.val)

/-- PRE (R257). -/
def execPre (stack : StackId) (chan : ChanId) (s : State) : Host.Outcome State Fault Refusal :=
  s.run (issuePre stack.val chan.val)

/-- DOT (R230, R231, R260). -/
def execDot (stack : StackId) (chan : ChanId × Bool) (s : State) : Host.Outcome State Fault Refusal :=
  s.run (issueColumns iDot stack.val chan.1.val chan.2)

/-- AXPY (R230, R232, R260). -/
def execAxpy (stack : StackId) (chan : ChanId × Bool) (s : State) : Host.Outcome State Fault Refusal :=
  s.run (issueColumns iAxpy stack.val chan.1.val chan.2)

/-- SCALE (R235, R261). -/
def execScale (stack : StackId) (chan : ChanId) (s : State) : Host.Outcome State Fault Refusal :=
  s.run (issueScale stack.val chan.val)

/-- REREAD (R230, R259, R260). -/
def execReread (stack : StackId) (chan : ChanId × Bool) (s : State) : Host.Outcome State Fault Refusal :=
  s.run (issueReread stack.val chan.1.val chan.2)

/-- LOADV (R228, R268, R273). -/
def execLoadv (stack : StackId) (chan : ChanId × Bool) (s : State) : Host.Outcome State Fault Refusal :=
  s.run (issueLoadv stack.val chan.1.val chan.2)

/-- COPYV (R228, R257, R259). -/
def execCopyv (stack : StackId) (chan : ChanId × Bool) (s : State) : Host.Outcome State Fault Refusal :=
  s.run (issueColumns iCopyv stack.val chan.1.val chan.2)

/-- SYNC (R257, R276): its wait is the boundary's. -/
def execSync (stack : StackId) (chan : ChanId) (s : State) : Host.Outcome State Fault Refusal :=
  s.run (issueIdle iSync stack.val chan.val)

/-- SCORE (R234). -/
def execScore (stack : StackId) (chan : ChanId × Bool) (s : State) : Host.Outcome State Fault Refusal :=
  s.run (issueScore stack.val chan.1.val chan.2)

/-- SETQ (R234). -/
def execSetq (stack : StackId) (chan : ChanId) (s : State) : Host.Outcome State Fault Refusal :=
  s.run (issueSetq stack.val chan.val)

/-- CHAIN (R239, R240, R262). -/
def execChain (stack : StackId) (chan : ChanId × Bool) (s : State) : Host.Outcome State Fault Refusal :=
  s.run (issueChain stack.val chan.1.val chan.2)

/-- STORE (R233, R263). -/
def execStore (stack : StackId) (chan : ChanId × Bool) (s : State) : Host.Outcome State Fault Refusal :=
  s.run (issueStore stack.val chan.1.val chan.2)

/-- IDLE (R257). -/
def execIdle (stack : StackId) (chan : ChanId) (s : State) : Host.Outcome State Fault Refusal :=
  s.run (issueIdle iIdle stack.val chan.val)

/-- END (R257, R276). -/
def execFinish (stack : StackId) (chan : ChanId) (s : State) : Host.Outcome State Fault Refusal :=
  s.run (issueEnd stack.val chan.val)

end Sys2Proof.Machine
end

