-- ==== Sys2Proof/Machine/RecipeRun.lean ====
section
/-! DEFINITION. A RECIPE on its stack: launch (R254, R255, R266 to R269, R278, R288), start (R244), reducers and results
(R241, R242, R265, R270), completion (R176, R238, R274); refresh (R226, R277) and memory-mode accesses (R223 to R225). -/
namespace Sys2Proof.Machine
variable {d₀ : Dev}

/-! ## Launch -/

/-- The stack of a RECIPE command. -/
def recipeStack (c : Cmd) : Nat := bits (wd c.words 3) 4 0

/-- A RECIPE of a ring waits for a stack's launch FIFO. -/
def waitsLaunch (d : Dev) (s n : Nat) : Bool :=
  d.hearth.cmds.any fun c =>
    c.ring == n && fOpcode c.words == opRecipe && c.runs && c.stage == 0 && recipeStack c == s && !behind d c

/-- RECIPE: the command reaches its stack and enters the launch FIFO, in the order its arbiter keeps (R118, R267). -/
def launchRecipe (uid : Nat) (r : Run d₀) : Run d₀ :=
  match cmdOf r.dev uid with
  | some c =>
    let s := recipeStack c
    if fOpcode c.words ≠ opRecipe || !c.runs || c.stage ≠ 0 || behind r.dev c ||
        (owedBefore r.dev 5 s c.ring).any (waitsLaunch r.dev s) then r
    else
      let b := mget [] c.buf 0
      let r := grantTurn 5 s c.ring
        ((r.dev.host.rings.map (·.1)).filter fun m => m != c.ring && waitsLaunch r.dev s m) r
      let x : Recipe :=
        { uid := uid, part := c.part, mask := bits (wd c.words 3) 63 32, imageAt := wd c.words 2, paramsAt := wd c.words 4,
          params := b.take 320, image := none, used := leNat (b.drop 320), bases := [], accepted := false, loads := [],
          started := 0, ended := 0, final := 0, finals := [], puts := [], marks := [], writes := [], spadOut := [],
          sent := false, taken := [], flags := noFlags, stop := none, halt := 0, note := 0 }
      let k := stackOf r.dev s
      setStack s { k with recipes := k.recipes ++ [x] } (setCmd { c with stage := 1 } r)
  | none => r

/-- The page-table entry that a paged row base resolves to in a channel (R286, R288): none when it is invalid or has
another owner. -/
def pageEntry (d : Dev) (s p c cell : Nat) : Option Nat :=
  let e := (mget 0#32 (stackOf d s).pages (c * 16384 + cell)).toNat
  if bit e 15 ∧ bits e 19 16 = p then some (bits e 14 0) else none

/-- Resolve the paged row bases of a recipe: the bases, or the first one that does not resolve. -/
def resolveBases (d : Dev) (s : Nat) (x : Recipe) : Store Nat × Option Nat :=
  ((bitsSet (usedBases x.used) 8).filter fun j => bit (paramBase x.params j) 15).foldl (fun z j =>
    (bitsSet x.mask 32).foldl (fun (z : Store Nat × Option Nat) c =>
      if z.2.isSome then z
      else
        match pageEntry d s x.part c (bits (paramBase x.params j) 13 0) with
        | some e => (mset 0 z.1 (8 * c + j) (setBit e 15), none)
        | none => (z.1, some j)) z) ([], none)

/-- The image becomes the most recently launched of a channel's store (R255). -/
def touchImage (s addr c : Nat) (r : Run d₀) : Run d₀ :=
  let ch := chanOf r.dev s c
  let a := plainAddr r.dev addr
  setChan s c { ch with store := ch.store.filter (·.addr != a) ++ ch.store.filter (·.addr == a) } r

/-- An image leaves a channel's store. -/
def dropImage (s addr c : Nat) (r : Run d₀) : Run d₀ :=
  let ch := chanOf r.dev s c
  setChan s c { ch with store := ch.store.filter (·.addr != plainAddr r.dev addr) } r

/-- RECIPE_ACCEPTED. `upset` is what the checkers of the recipe store and the page table find (R455). -/
def acceptRecipe (s : Nat) (upset : Upset) (r : Run d₀) : Run d₀ :=
  match (stackOf r.dev s).recipes.find? fun x => !x.accepted && x.stop.isNone with
  | none => r
  | some x =>
    if recipeBlocked r.dev s x.mask then r
    else
      let x := { x with accepted := true }
      let old := if paramReload x.params then none else residentImage r.dev s x.mask x.imageAt
      let (bases, bad) := resolveBases r.dev s x
      match upset, bad with
      | .uncorrectable, _ => stopRecipe s x r.dev.time stUncorrectable 0 0 0 0 (noteSram x.part r)
      | _, some j => stopRecipe s x r.dev.time stDescriptor (x.paramsAt + 8 + 2 * j) 0 4 0 r
      | _, none =>
        let x := { x with bases := bases }
        match old, upset with
        | some i, .none =>
          forEach (bitsSet x.mask 32) (touchImage s x.imageAt)
            (setRecipe s { x with image := some i, used := i.used } r)
        | some _, _ =>
          forEach (bitsSet x.mask 32) (dropImage s x.imageAt) (setRecipe s x (addReg (eccOff 0x10) 1 r))
        | none, _ => setRecipe s x r

/-- `n` granules cross the interface of stack `s` for a partition. -/
def cross (s p n : Nat) (r : Run d₀) : Run d₀ := chargeUnits 0x20 s p n r

/-- Read for a RECIPE at stack `s`: what comes from elsewhere crosses its interface too (R370). -/
def readAtStack (s p a n : Nat) (upset : Upset) (r : Run d₀) : (List Byte × Option Nat) × Run d₀ :=
  let before := r.dev
  let (b, r) := readRecipe a n upset r
  let far := (runGranules [(a, n)]).filter fun g => (memKey before (g * 64)).elim true fun k => keyStack k != s
  (b, cross s p far.length (meter p before r))

/-- The stack-injection regulators do not let a RECIPE at stack `s` read these addresses now. -/
def readShut (d : Dev) (s p : Nat) (l : List Nat) : Bool := portsShut d p (s :: stacksOf d l)

/-- LOAD_ENTRY_ARRIVAL: a load entry that the header marks as used has arrived. `upset` is what the scratchpad's checkers
find (R455). -/
def arriveLoad (s uid e : Nat) (upset : Upset) (r : Run d₀) : Run d₀ :=
  match recipeOf r.dev s uid with
  | none => r
  | some x =>
    if !x.accepted || x.stop.isSome || !bit (usedLoads x.used) e || !(mget [] x.loads e).isEmpty ||
        rangeHeld r.dev (paramLoad x.params e) 1023 ||
        readShut r.dev s x.part ((List.range 16).map fun i => paramLoad x.params e + 64 * i) then r
    else
      let (b, r) := readAtStack s x.part (paramLoad x.params e) 1024 upset r
      match b.2 with
      | some a => stopRecipe s x r.dev.time stUncorrectable a 0 4 0 r
      | none => setRecipe s { x with loads := mset [] x.loads e b.1 } r

/-- Instructions that a recipe store holds (R255). -/
def storeUsed (l : List Image) : Nat := l.foldl (fun n x => n + x.instrs.length) 0

/-- Evict the least recently launched images until `n` more instructions fit. -/
def evictImages (n : Nat) : List Image → List Image
  | [] => []
  | x :: l => if 16 ≤ (x :: l).length ∨ 8192 < storeUsed (x :: l) + n then evictImages n l else x :: l

/-- Keep a proofed image in a channel's store. -/
def keepImage (s : Nat) (i : Image) (c : Nat) (r : Run d₀) : Run d₀ :=
  let ch := chanOf r.dev s c
  setChan s c { ch with store := evictImages i.instrs.length (ch.store.filter (·.addr != i.addr)) ++ [i] } r

/-- The instructions of an image that is being fetched are at hand: proof it and keep it (R278). -/
def proofRecipe (s : Nat) (x : Recipe) (data : List Byte) (r : Run d₀) : Run d₀ :=
  let i := imageFrom (plainAddr r.dev x.imageAt) data
  match proofImage (field r.dev (seqOff s 0) 11 0) i with
  | some q =>
    stopRecipe s x r.dev.time (proofStatus q.1) (insAddr x.imageAt q.2) 0 2 (q.1 * 2 ^ 8 + q.2 * 2 ^ 12) r
  | none =>
    forEach (bitsSet x.mask 32) (keepImage s i) (setRecipe s { x with image := some i, used := i.used } r)

/-- Fetch and proof a recipe's image. An image that does not lie wholly where R254 permits fails as its header would. -/
def fetchImage (s : Nat) (x : Recipe) (upset : Upset) (r : Run d₀) : Run d₀ :=
  let (pick, r) := fresh r
  let (h, r) := readAtStack s x.part x.imageAt 64 (upsetOf pick 2 0 upset) r
  match h.2 with
  | some a => stopRecipe s x r.dev.time stUncorrectable a 0 2 0 r
  | none =>
    let w := toWords h.1
    let n := 8 * headerCount w
    if !headerOk w || !recipePlace r.dev x.part (x.imageAt + 64) n then
      stopRecipe s x r.dev.time stDescriptor x.imageAt 0 2 (2 ^ 8) r
    else
      let (b, r) := readAtStack s x.part (x.imageAt + 64) n (upsetOf pick 2 1 upset) r
      match b.2 with
      | some a => stopRecipe s x r.dev.time stUncorrectable a 0 2 0 r
      | none => proofRecipe s x (h.1 ++ b.1.take n) r

/-- RECIPE_IMAGE_ARRIVAL. `upset` is what the scratchpad's checkers find (R455). -/
def arriveImage (s uid : Nat) (upset : Upset) (r : Run d₀) : Run d₀ :=
  match recipeOf r.dev s uid with
  | none => r
  | some x =>
    if !x.accepted || x.stop.isSome || x.image.isSome || rangeHeld r.dev x.imageAt 65536 ||
        readShut r.dev s x.part [x.imageAt] then r
    else fetchImage s x upset r

/-! ## Refresh (R226, R277) -/

/-- Ticks in which one refresh comes to be owed. -/
def refreshEvery (hot : Bool) : Nat := if hot then 1950 else 3900

/-- What one tick counts towards a refresh, of 3,900. -/
def refreshUnits (hot : Bool) : Nat := 3900 / refreshEvery hot

/-- Refreshes that have come due by a tick, and the channel with them counted: what is left over counts on in the next
band. -/
def dueRefresh (t : Nat) (ch : Channel) : Nat × Channel :=
  let n := ch.units + (t - ch.counted) * refreshUnits ch.hot
  (n / 3900, { ch with units := n % 3900, counted := max ch.counted t })

/-- Tick at which the last refresh counted fell due. -/
def lastDue (ch : Channel) : Nat := ch.counted - ch.units / refreshUnits ch.hot

/-- A process-mode channel that no recipe holds pays each refresh as it falls due; the last one holds it for 160 ticks. -/
def payIdle (s c t : Nat) (r : Run d₀) : Run d₀ :=
  let o := dueRefresh t (chanOf r.dev s c)
  let n := o.1 + o.2.debt
  addReg (seqChOff s c 0x10) n
    (setChan s c { o.2 with debt := 0, busy := if n = 0 then o.2.busy else max o.2.busy (lastDue o.2 + 160) } r)

/-- A channel owes what has fallen due by a tick, at most 8. -/
def oweRefresh (s c t : Nat) (r : Run d₀) : Run d₀ :=
  let o := dueRefresh t (chanOf r.dev s c)
  setChan s c { o.2 with debt := min 8 (o.2.debt + o.1) } r

/-- REFRESH. -/
def refreshChan (s c now : Nat) (r : Run d₀) : Run d₀ :=
  let r := reach now r
  if chanMode r.dev s c ≠ 1 then r
  else if (chanOf r.dev s c).run.isSome then oweRefresh s c r.dev.time r
  else payIdle s c r.dev.time r

/-- MEMORY_MODE_REFRESH: the next bank is refreshed. -/
def refreshBank (s c now : Nat) (r : Run d₀) : Run d₀ :=
  let r := reach now r
  let ch := chanOf r.dev s c
  if chanMode r.dev s c ≠ 0 || !r.dev.board.rails then r
  else setChan s c { ch with bank := (ch.bank + 1) % 32, debt := ch.debt - 1, counted := r.dev.time, units := 0 } r

/-! ## Start (R244, R267) -/

/-- RECIPE_START: the oldest accepted recipe of a channel starts on it, in cleared bank units, once a refresh that the
channel pays is over (R277). -/
def startRecipe (s c now : Nat) (r : Run d₀) : Run d₀ :=
  let r := reach now r
  match (unstarted r.dev s c).head? with
  | none => r
  | some x =>
    if x.image.isNone || (chanOf r.dev s c).run.isSome || (chanOf r.dev s c).retrain ||
        remapping r.dev s c then r
    else
      let r := payIdle s c r.dev.time r
      let ch := chanOf r.dev s c
      let run : ChanRun :=
        { uid := x.uid, ip := 0, phase := .boundary, tick := r.dev.time, ready := max r.dev.time ch.busy, hist := [], folds := 0,
          begun := r.dev.time, served := 0, banks := [], red := Reducer.init, flow := [], puts := [], marks := [] }
      setRecipe s { x with started := setBit x.started c } (setChan s c { ch with run := some run } r)

/-! ## Reducers and results (R241, R242, R265, R270) -/

/-- A recipe joins those whose reducers are all final, after those that were before it; of those of one tick the lower
lowest channel goes first (R270). -/
def insertReady (e : Nat × Nat × Nat) : List (Nat × Nat × Nat) → List (Nat × Nat × Nat)
  | [] => [e]
  | a :: l => if a.1 = e.1 ∧ e.2.1 < a.2.1 then e :: a :: l else a :: insertReady e l

/-- CHANNEL_REDUCER_FINAL: the oldest recipe that has issued END on a channel has its reducer final there. -/
def finalReducer (s c now : Nat) (r : Run d₀) : Run d₀ :=
  let r := reach now r
  match (stackOf r.dev s).recipes.find? fun x => x.stop.isNone && bit x.ended c && !bit x.final c with
  | none => r
  | some x =>
    let x := { x with final := setBit x.final c }
    let r := setRecipe s x r
    if x.final = x.mask then
      let k := stackOf r.dev s
      setStack s { k with ready := insertReady (r.dev.time, (bitsSet x.mask 32).headD 0, x.uid) k.ready } r
    else r

/-- One value on output (R233, R241): FP32 bits as they are, else converted and saturated. -/
def outValue (fmt n : Nat) : List Byte × Flags :=
  if fmt = 0x0 then (natLE n 4, noFlags)
  else
    let o := convert fmt .saturate 0 0 (val32 n)
    (natLE o.1 (fmtBits fmt / 8), orFlags (readFlags 0x0 n) o.2)

/-- The values of one run on output, filled with zeros to a whole number of granules. -/
def outRun (fmt : Nat) (l : List Nat) : List Byte × Flags :=
  let o := l.map (outValue fmt)
  let b := o.flatMap (·.1)
  (b ++ List.replicate (cdiv b.length 64 * 64 - b.length) 0#8, o.foldl (fun f e => orFlags f e.2) noFlags)

/-- Reducer of a channel of a completing recipe. -/
def finalOf (x : Recipe) (c : Nat) : Reducer := mget Reducer.init x.finals c

/-- Free values of a stack reducer's results: for the sum of each entry and slot, then for the merge of each entry and
slot, and of the maximum and sum of each slot. The reducer combines once, so every destination of the same entries
receives the same result (R242, R291). -/
def resultDraws : Nat := 4096 * sumDraws 32 + 4 * 1025 * mergeDraws 32

/-- One slot's run of a destination over the channels `cs`: SUM, MERGE, or one channel's own entries. -/
def slotRun (x : Recipe) (y : Dest) (seed v : Nat) (cs : List Nat) : List Byte × Flags :=
  let entries := (List.range y.count).map fun i => y.first + i
  if y.combine = 1 then
    let first := fun (i : Nat) =>
      seed + 4096 * sumDraws 32 + (4 * (if i = y.count then 1024 else y.first + i) + v) * mergeDraws 32
    let p := mergeEach first y.count (cs.map fun c =>
      let d := finalOf x c
      Partial.of (statAt d.m v) (statAt d.l v) (entries.map fun e => d.at_ e v))
    let o := outRun y.fmt p.1.o
    (o.1 ++ natLE p.1.m 4 ++ natLE p.1.l 4 ++ List.replicate 56 0#8, orFlags p.2 o.2)
  else
    let s := entries.map fun e => sumBits (seed + (4 * e + v) * sumDraws 32) (cs.map fun c => (finalOf x c).at_ e v)
    let o := outRun y.fmt (s.map (·.1))
    (o.1, s.foldl (fun f e => orFlags f e.2) o.2)

/-- The runs of all slots of a destination, one after the other. -/
def destRuns (x : Recipe) (y : Dest) (seed : Nat) (cs : List Nat) : List Byte × Flags :=
  (bitsSet y.slots 4).foldl (fun z v =>
    let o := slotRun x y seed v cs
    (z.1 ++ o.1, orFlags z.2 o.2)) ([], noFlags)

/-- The writes of a destination: by data address / 64. -/
def destWrites (x : Recipe) (seed i : Nat) (z : WriteSet × Flags) : WriteSet × Flags :=
  let y := paramDest x.params i
  let cs := bitsSet x.mask 32
  if y.combine = 2 then
    (List.range cs.length).foldl (fun z j =>
      let o := destRuns x y seed [cs.getD j 0]
      (putBytes z.1 (y.addr + j * y.stride * 64) o.1, orFlags z.2 o.2)) z
  else
    let o := destRuns x y seed cs
    (putBytes z.1 y.addr o.1, orFlags z.2 o.2)

/-- Results by data address / 64 join a recipe's writes: by granule number of stack memory, and by scratchpad key / 64. -/
def placeResults (d : Dev) (l : WriteSet) (z : WriteSet × WriteSet) : WriteSet × WriteSet :=
  l.foldl (fun z e =>
    match placeOf d (e.1 * 64) with
    | .spad k => (z.1, overlay z.2 (k / 64) e.2)
    | .mem _ k => (overlay z.1 (k / 64) e.2, z.2)
    | _ => z) z

/-- What the channels of a recipe stored and flagged; of a stopped one, what R273 lets them issue. -/
def Recipe.kept {α : Type} (x : Recipe) (l : List (Nat × α)) : List (Nat × α) :=
  l.filter fun e => !barred x e.1

/-- The flags of a recipe (R58, R236). -/
def allFlags (x : Recipe) : Flags := (x.kept x.marks).foldl (fun f e => orFlags f e.2) x.flags

/-- STACK_REDUCER_SEND: the first recipe whose reducers are all final has its results formed and sent. `parity` is what
the checkers of the reducers find (R455). -/
def sendResults (s : Nat) (parity : Bool) (r : Run d₀) : Run d₀ :=
  match (stackOf r.dev s).ready with
  | [] => r
  | (_, _, uid) :: rest =>
    let k := stackOf r.dev s
    let r := setStack s { k with ready := rest } r
    match recipeOf r.dev s uid with
    | none => r
    | some x =>
      if x.stop.isSome then r
      else if parity then stopRecipe s x r.dev.time stUncorrectable 0 0 0 0 (noteSram x.part r)
      else
        let (seed, r) := freshMany resultDraws r
        let o := (bitsSet (usedDests x.used) 8).foldl (fun z i => destWrites x seed i z) ([], noFlags)
        let w := placeResults r.dev o.1 (putSet x.puts, [])
        setRecipe s { x with writes := w.1, spadOut := w.2, sent := true, flags := orFlags x.flags o.2 } r

/-! ## Completion (R176, R238, R274) -/

/-- Granules (keys / 64) that a recipe's destinations name. -/
def destGranules (d : Dev) (x : Recipe) : List Nat :=
  let n := popcount x.mask 32
  ((bitsSet (usedDests x.used) 8).flatMap fun i => runGranules ((paramDest x.params i).ranges n)).filterMap fun g =>
    match placeOf d (g * 64) with
    | .mem _ k => some (k / 64)
    | _ => none

/-- The sequencer of a channel outside the mask serves a result write as it serves a stack-link transfer: when its channel
takes one, and towards the 64 of its fold boundary (R290). -/
def serveResult (x : Recipe) (e : Nat × Nat × List Byte) (z : List Nat × Run d₀) : List Nat × Run d₀ :=
  let k := e.1 * 64
  let s := keyStack k
  let c := keyChan k
  if bit x.mask c || z.1.contains e.1 || homeHeld z.2.dev k || (linkRoom z.2.dev k).elim false (· == 0) then z
  else
    let ch := chanOf z.2.dev s c
    (z.1 ++ [e.1], match ch.run with
      | some run => setChan s c { ch with run := some { run with served := run.served + 1 } } z.2
      | none => z.2)

/-- A result goes to a memory-mode granule. -/
def toMemory (d : Dev) (e : Nat × Nat × List Byte) : Bool := chanMode d (keyStack (e.1 * 64)) (keyChan (e.1 * 64)) == 0

/-- Stacks whose interfaces a recipe's results cross (R242, R370): its own, if some leave it, and those they go to. -/
def resultPorts (d : Dev) (s : Nat) (x : Recipe) : List Nat :=
  let out := x.writes.filter (toMemory d)
  (if x.spadOut.isEmpty && out.isEmpty then [] else [s]) ++ (out.map fun e => keyStack (e.1 * 64)).eraseDups

/-- A result write is still to be served, its home is held, or a stack's interface does not let it pass. -/
def resultsBlocked (d : Dev) (s : Nat) (x : Recipe) : Bool :=
  portsShut d x.part (resultPorts d s x) ||
    x.writes.any fun e => homeHeld d (e.1 * 64) || !(bit x.mask (keyChan (e.1 * 64)) || x.taken.contains e.1)

/-- The granules of a recipe's results that leave its stack are charged there, and those that enter memory-mode channels
where they go (R370). -/
def meterResults (s : Nat) (x : Recipe) (f : Run d₀ → Run d₀) (r : Run d₀) : Run d₀ :=
  cross s x.part (x.spadOut.length + (x.writes.filter (toMemory r.dev)).length) (metered x.part f r)

/-- Perform the writes of a recipe, ascending; the key of the granule whose merge read fails, from which on none is
performed. -/
def performWrites (w : WriteSet) (r : Run d₀) : Option Nat × Run d₀ :=
  w.foldl (fun z e =>
    if z.1.isSome then z
    else
      let (ok, r) := mergeHome (e.1 * 64) e.2.1 e.2.2 z.2
      (if ok then none else some (e.1 * 64), r)) (none, r)

/-- Granules of scratchpads that a recipe writes. -/
def performSpad (w : WriteSet) (r : Run d₀) : Run d₀ := forEach w (fun e => writeSpad (e.1 * 64) e.2.1 e.2.2) r

/-- Some of the granules of a set, each free. -/
def someOf (w : WriteSet) (r : Run d₀) : WriteSet × Run d₀ :=
  w.foldl (fun z e =>
    let (n, r) := fresh z.2
    (if n % 2 = 1 then z.1 ++ [e] else z.1, r)) ([], r)

/-- R176: a stopped recipe leaves each granule it wrote, in memory and in scratchpads, with its earlier image or the
recipe's, free. -/
def performSome (w sp : WriteSet) (r : Run d₀) : Run d₀ :=
  let (w, r) := someOf w r
  let (sp, r) := someOf sp r
  performSpad sp (forEach w (fun e r => (mergeHome (e.1 * 64) e.2.1 e.2.2 r).2) r)

/-- What a stopped recipe has written or would have: its results once they are sent, else what its channels stored. -/
def stoppedWrites (x : Recipe) : WriteSet := if x.sent then x.writes else putSet (x.kept x.puts)

/-- The recipe leaves the stack and its command completes. -/
def endRecipe (s : Nat) (x : Recipe) (rep : Report) (note : Nat) (r : Run d₀) : Run d₀ :=
  let r := addReg (stkOff s 0x40) 1 r
  let r := forEach (bitsSet x.mask 32) (fun c => setReg (seqChOff s c 0x04) (rep.status + note)) r
  let k := stackOf r.dev s
  let r := setStack s { k with recipes := k.recipes.filter (·.uid != x.uid), ready := k.ready.filter (·.2.2 != x.uid) } r
  match cmdOf r.dev x.uid with
  | some c => completeCmd c rep none r
  | none => r

/-- A stopped recipe performed none of its result writes because a bank's granule was uncorrectable (R238). -/
def bankFault (st addr word : Nat) : Bool := st == stUncorrectable && word == 0 && addr != 0

/-- A stopped recipe completes (R176, R238, R274). -/
def endStopped (s : Nat) (x : Recipe) (st addr count word : Nat) (r : Run d₀) : Run d₀ :=
  let r := if bankFault st addr word then r else performSome (stoppedWrites x) x.spadOut r
  endRecipe s x ⟨st, recipeFlags (allFlags x), 0, addr, count, word⟩ x.note r

/-- The results of a recipe, all served, are performed, and it completes (R176, R238). Where a merge read finds an
uncorrectable granule the earlier writes stand, and which scratchpad granules had been written is free. -/
def endResults (s : Nat) (x : Recipe) (r : Run d₀) : Run d₀ :=
  let dests := destGranules r.dev x
  let (bad, r) := performWrites x.writes r
  match bad with
  | some k =>
    let word := if dests.contains (k / 64) then 4 else 0
    let addr := if word = 4 then granuleAddr r.dev k else directAddr k
    endRecipe s x ⟨stUncorrectable, recipeFlags (allFlags x), 0, addr, 0, word⟩ 0 (performSome [] x.spadOut r)
  | none => endRecipe s x ⟨stOk, recipeFlags (allFlags x), 0, 0, 0, 0⟩ 0 (performSpad x.spadOut r)

/-- RECIPE_COMPLETION: a stopped recipe completes, once none of its channels may yet stop it earlier (R273); else the
channels outside the mask serve what they take of its results, and once they have taken all of them it completes. -/
def completeRecipe (s uid now : Nat) (r : Run d₀) : Run d₀ :=
  let r := reach now r
  match recipeOf r.dev s uid with
  | none => r
  | some x =>
    if x.stop.isSome then
      if ((bitsSet x.mask 32).any fun c => beforeStop r.dev s c x) || portsShut r.dev x.part (resultPorts r.dev s x) then r
      else
        let r := forEach (bitsSet x.mask 32) (stopChan s uid) r
        match recipeOf r.dev s uid with
        | some x =>
          match x.stop with
          | some (st, addr, count, word) => meterResults s x (endStopped s x st addr count word) r
          | none => r
        | none => r
    else if !x.sent then r
    else
      let o := x.writes.foldl (fun z e => serveResult x e z) (x.taken, r)
      let x := { x with taken := o.1 }
      let r := setRecipe s x o.2
      if resultsBlocked r.dev s x then r else meterResults s x (endResults s x) r

/-! ## Memory-mode accesses (R223 to R225) -/

/-- Granules that leave an outbound FIFO of `n` before a step of its channel: any number, free. -/
def leaving (v n : Nat) : Nat := n - v % (n + 1)

/-- A request waits before a channel's inbound FIFO: the FIFO is full (R223), the oven door holds it (R364), or the
stack's interface does not let it pass (R370). -/
def requestWaits (d : Dev) (s c : Nat) (q : Request) : Bool :=
  decide (32 ≤ (chanOf d s c).inbound.length) || doorKey d q.granule || portsShut d (granulePart d q.granule) [s]

/-- The oldest outbound granules move on into the hearth die's network, as many as it takes (free), and a request that
arrives enters the inbound FIFO unless it waits. -/
def moveFifos (s c : Nat) (q : Option Request) (r : Run d₀) : Run d₀ :=
  let (v, r) := fresh r
  let ch := chanOf r.dev s c
  let r := setChan s c { ch with outbound := ch.outbound.drop (leaving v ch.outbound.length) } r
  match q with
  | some q =>
    if keyStack q.granule ≠ s || keyChan q.granule ≠ c || requestWaits r.dev s c q then r
    else
      let ch := chanOf r.dev s c
      cross s (granulePart r.dev q.granule) 1 (setChan s c { ch with inbound := ch.inbound ++ [q] } r)
  | none => r

/-- MEMORY_MODE_ACCESS: the sequencer takes the oldest request and performs it; a read waits while the outbound FIFO
holds its 32 granules (R223). An uncorrectable read delivers no data (R453). -/
def accessChan (s c : Nat) (q : Option Request) (dis : Option Disturb) (r : Run d₀) : Run d₀ :=
  if !r.dev.board.rails then r else
  let r := match dis with
    | some x => if keyStack x.key = s ∧ keyChan x.key = c then disturb x.key x.pattern r else r
    | none => r
  if chanMode r.dev s c ≠ 0 || (chanOf r.dev s c).retrain then r
  else
    let r := moveFifos s c q r
    let ch := chanOf r.dev s c
    match ch.inbound with
    | [] => r
    | q :: rest =>
      if rowHeld r.dev q.granule || (!q.write && decide (32 ≤ ch.outbound.length)) then r
      else
        let r := setChan s c { ch with inbound := rest } r
        if q.write then (mergeHome q.granule q.mask q.data r).2
        else
          let (data, r) := readHome q.granule r
          let ch := chanOf r.dev s c
          setChan s c { ch with outbound := ch.outbound ++ [data.getD []] } r

/-! ## The commands -/

/-- RECIPE (R266). -/
def execRecipe (uid : Nat) (s : State) : Host.Outcome State Fault Refusal := s.run (launchRecipe uid)

/-- RECIPE_ACCEPTED (R255, R267, R268, R288, R455). -/
def execRecipeAccepted (stack : StackId) (upset : Upset) (s : State) : Host.Outcome State Fault Refusal :=
  s.run (acceptRecipe stack.val upset)

/-- LOAD_ENTRY_ARRIVAL (R268, R455). -/
def execLoadEntryArrival (stack : StackId) (uid : Nat) (entry : Fin 16 × Upset) (s : State) :
    Host.Outcome State Fault Refusal :=
  s.run (arriveLoad stack.val uid entry.1.val entry.2)

/-- RECIPE_IMAGE_ARRIVAL (R254, R255, R278). -/
def execRecipeImageArrival (stack : StackId) (cmd : Nat × Upset) (s : State) :
    Host.Outcome State Fault Refusal :=
  s.run (arriveImage stack.val cmd.1 cmd.2)

/-- RECIPE_START (R244, R267). -/
def execRecipeStart (stack : StackId) (chan : ChanId) (now : Nat) (s : State) : Host.Outcome State Fault Refusal :=
  s.run (startRecipe stack.val chan.val now)

/-- REFRESH (R277). -/
def execRefresh (stack : StackId) (chan : ChanId) (now : Nat) (s : State) : Host.Outcome State Fault Refusal :=
  s.run (refreshChan stack.val chan.val now)

/-- CHANNEL_REDUCER_FINAL (R241, R243, R270). -/
def execChannelReducerFinal (stack : StackId) (final : ChanId × Nat) (s : State) :
    Host.Outcome State Fault Refusal :=
  s.run (finalReducer stack.val final.1.val final.2)

/-- STACK_REDUCER_SEND (R242, R265, R270, R455). -/
def execStackReducerSend (send : StackId × Bool) (s : State) : Host.Outcome State Fault Refusal :=
  s.run (sendResults send.1.val send.2)

/-- RECIPE_COMPLETION (R176, R238, R274, R290). -/
def execRecipeCompletion (stack : StackId) (uid now : Nat) (s : State) : Host.Outcome State Fault Refusal :=
  s.run (completeRecipe stack.val uid now)

/-- MEMORY_MODE_ACCESS (R223 to R225, R452, R453). -/
def execMemoryModeAccess (stack : StackId) (chan : ChanId) (request : Option Request) (disturb : Option Disturb)
    (s : State) : Host.Outcome State Fault Refusal :=
  s.run (accessChan stack.val chan.val request disturb)

/-- MEMORY_MODE_REFRESH (R226). -/
def execMemoryModeRefresh (stack : StackId) (chan : ChanId) (now : Nat) (s : State) :
    Host.Outcome State Fault Refusal :=
  s.run (refreshBank stack.val chan.val now)

end Sys2Proof.Machine
end

