-- ==== Sys2Proof/Machine/Regs.lean ====
section
/-! DEFINITION. Control commands and the control space: the command at the head of a control ring and its end (R440, R441,
R362), register reads and the partition windows (R79, R80, R382), register writes (R11, R361). -/
namespace Sys2Proof.Machine
variable {d₀ : Dev}

/-! ## Control commands (R440) -/

/-- A control-space command of queue pair 0 is being performed on some ring (R362). -/
def controlBusy (d : Dev) : Bool := d.host.ctrl.any fun c => c.ring / 16 == 0 && cOp c.words == ctWrite

/-- The command at the head of control ring `n`, ready to be performed: it has the op, and no command of its ring, nor for
a control-space access another one of queue pair 0, is being performed. -/
def ctrlHead (d : Dev) (n op : Nat) : Option (Ring × List Dword) :=
  match ringOf d n with
  | some x =>
    match x.head with
    | some h =>
      if x.target == 2 && h.good && x.walk.isNone && cOp h.words == op && !ctrlBusy d n &&
          !((op == ctRead || op == ctWrite) && n / 16 == 0 && controlBusy d) then some (x, h.words)
      else none
    | none => none
  | none => none

/-- The command at the head of control ring `n` completes (R440): its entry has no queue, core or cluster. -/
def endControlAs (n : Nat) (rep : Report) (r : Run d₀) : Run d₀ :=
  match ringOf r.dev n with
  | some x =>
    postCompletion (n / 16 * 16 + x.host) (completionEntry rep 0 0 0 n x.fetch r.dev.time) (leaveHead n x r)
  | none => r

/-- It completes with a status and nothing else to report. -/
def endControl (n st : Nat) (r : Run d₀) : Run d₀ := endControlAs n (plain st) r

/-- Perform the control command of op `op` at the head of ring `n`, unless R440 or R441 refuses it. -/
def onControl (n op : Nat) (f : Ring → List Dword → Run d₀ → Run d₀) (r : Run d₀) : Run d₀ :=
  match ctrlHead r.dev n op with
  | some (x, w) =>
    match ctrlFault r.dev (n / 16) w with
    | some st => endControl n st r
    | none => f x w r
  | none => r

/-- The command at the head of ring `n` leaves it and takes time (R440); its status may be known already. -/
def startControl (n : Nat) (w : List Dword) (status : Option Nat) (r : Run d₀) : Run d₀ :=
  match ringOf r.dev n with
  | some x =>
    let r := leaveHead n x r
    r.emit (.ctrl (r.dev.host.ctrl ++ [⟨n, x.fetch, n / 16 * 16 + x.host, w, status⟩]))
  | none => r

/-- The command that ring `n` is performing. -/
def runningControl (d : Dev) (n : Nat) : Option Ctrl := d.host.ctrl.find? (·.ring == n)

/-- A control command that took time completes with its status. -/
def finishControl (n : Nat) (r : Run d₀) : Run d₀ :=
  match runningControl r.dev n with
  | some c =>
    match c.status with
    | some st =>
      postCompletion c.host (completionEntry (plain st) 0 0 0 n c.seq r.dev.time)
        (r.emit (.ctrl (r.dev.host.ctrl.filter (·.ring != n))))
    | none => r
  | none => r

/-- The status of a command that takes time is known. -/
def settleControl (n st : Nat) (r : Run d₀) : Run d₀ :=
  r.emit (.ctrl (r.dev.host.ctrl.map fun c => if c.ring == n then { c with status := some st } else c))

/-! ## Registers computed from other state -/

/-- A number whose bit `i` says `p i`, for `i` below `n`. -/
def bitsWhere (n : Nat) (p : Nat → Bool) : Nat := ((List.range n).filter p).foldl setBit 0

/-- A recipe stands between its launch and event 1 of R243 on the channel. -/
def chanBusy (d : Dev) (s c : Nat) : Bool :=
  match (chanOf d s c).run with
  | some run => (run.phase == .boundary || run.phase == .fold) && (recipeOf d s run.uid).any (·.stop.isNone)
  | none => false

/-- Accepted recipes of a channel that have not ended on it. -/
def chanRecipes (d : Dev) (s c : Nat) : List Recipe :=
  (stackOf d s).recipes.filter fun x => x.stop.isNone && bit x.mask c && !bit x.ended c

/-- SEQ_STATEc.state (R280); 0, its reset value, until bring-up has trained the stack (R279; DESIGN CHOICE, assumption
60). -/
def chanState (d : Dev) (s c : Nat) : Nat :=
  if !bit (reg d (stkOff s 0x04)) 0 then 0
  else if chanMode d s c = 2 then 7
  else if chanMode d s c = 0 then 6
  else
    match (chanOf d s c).run with
    | some run =>
      match run.phase with
      | .fold => if chanBusy d s c then 2 else 3
      | .ended => 4
      | _ => 3
    | none =>
      if doorChan d s c || affects d (.budget s) then 5
      else if (chanRecipes d s c).any fun x => x.accepted && x.image.isNone then 1
      else if (stackOf d s).recipes.any fun x => x.stop.isNone && bit x.ended c && !bit x.final c then 4
      else 0

/-- A prepare that affects the stack awaits its end. -/
def bakePending (d : Dev) (s : Nat) : Bool :=
  d.parts.bake.elim false fun b => b.units.any fun u =>
    match u with
    | .mode t _ => t == s
    | .holder t _ => t == s
    | .budget t => t == s
    | _ => false

/-- STK_ and SEQ_ registers of stack `s`. -/
def stackReg (d : Dev) (s k off : Nat) : Nat :=
  if k = 0x04 then reg d off + (if bakePending d s then 4 else 0)
  else if k = 0x10 then bitsWhere 32 (chanBusy d s)
  else if 0x8020 ≤ k ∧ k < 0x8030 then
    (List.range 8).foldl (fun n j => n + (chanOf d s (8 * ((k - 0x8020) / 4) + j)).debt * 2 ^ (4 * j)) 0
  else if 0x8100 ≤ k ∧ k < 0x8500 then
    let c := (k - 0x8100) / 0x20
    let ch := chanOf d s c
    if k % 0x20 = 0 then chanState d s c + ch.store.length % 32 * 2 ^ 3 + ch.lastFold % 2 ^ 12 * 2 ^ 8
    else if k % 0x20 = 0x18 then storeUsed ch.store % 2 ^ 14
    else reg d off
  else reg d off

/-- What a register reads, but for the bench's peek registers. -/
def regCore (d : Dev) (off : Nat) : Nat :=
  if off = 0x20000 then bitsWhere 16 (partInForce d)
  else if off = partOff 0 0 then setBit (reg d off) 0
  else if off = benchOff 0x04 then reg d off + (if d.parts.fills.isEmpty then 0 else 1)
  else if off = benchOff 0x08 then d.bench.length
  else if 0x100000 ≤ off ∧ off < 0x240000 then stackReg d ((off - 0x100000) / 0x10000) (off % 0x10000) off
  else if off = ethOff 0 0 ∨ off = ethOff 1 0 then
    bits (reg d off) 0 0 + (if (portOf d ((off - 0x400000) / 0x80)).paused = 0 then 0 else 2)
  else if 0x400120 ≤ off ∧ off < 0x400140 then
    bitsWhere 32 fun i => decide ((qpOf d (32 * ((off - 0x400120) / 4) + i)).mode = .ready)
  else if off = qpPartOff 0 then 0x10
  else if off = ptpOff 0 then d.time % 2 ^ 32
  else if off = ptpOff 4 then d.time / 2 ^ 32 % 2 ^ 32
  else
    match regInfo off with
    | some i => if i.access = .wo then 0 else reg d off
    | none => 0

/-- What a read of the register at an offset returns (R11, R79). -/
def regRead (d : Dev) (off : Nat) : Nat :=
  let peekAt := reg d (benchOff 0x24)
  if off = benchOff 0x28 then
    match mget none d.bench peekAt with
    | some v => v.toNat
    | none => regCore d peekAt
  else if off = benchOff 0x2C then (if (mget none d.bench peekAt).isSome then 1 else 0)
  else regCore d off

/-- What a read through the window of partition `p` returns (R80). An entry that is not valid reads zero whatever its
owner field (DESIGN CHOICE, assumption 56: the rule does not say whether such an entry is owned). -/
def regWindow (d : Dev) (p off : Nat) : Nat :=
  let own := fun (n : Nat) => (regionAt d n).valid && (regionAt d n).owner == p
  if 0x10000 ≤ off ∧ off < 0x20000 then 0
  else if 0x20000 ≤ off ∧ off < 0x30000 then
    (if partOff p 0 ≤ off ∧ off < partOff p 0x100 then regRead d off else 0)
  else if 0x40000 ≤ off ∧ off < 0x48000 then
    (if 0x44000 ≤ off ∧ off < 0x45000 ∧ own ((off - 0x44000) / 8) then regRead d off else 0)
  else if 0x48000 ≤ off ∧ off < 0x50000 then
    (if off < 0x4A000 ∧ own ((off - 0x48000) / 16) then regRead d off else 0)
  else if 0x50000 ≤ off ∧ off < 0x60000 then 0
  else regRead d off

/-! ## Reads and writes -/

/-- R79: status of an access to these offsets. -/
def offsetFault (l : List Nat) : Option Nat :=
  if l.any fun o => o % 4 != 0 then some stAlign
  else if l.any fun o => (regInfo o).isNone then some stDescriptor
  else none

/-- REG_READ. -/
def readRegs (n : Nat) (r : Run d₀) : Run d₀ :=
  onControl n ctRead (fun _ w r =>
    let q := n / 16
    match offsetFault (cOffsets w) with
    | some st => endControl n st r
    | none =>
      let d := r.dev
      let data := (cOffsets w).flatMap fun o =>
        natLE (if q = 0 then regRead d o else regWindow d (qpOwner d q) o) 4
      endControl n stOk (sendMsg q (.write q (cHost w) (cKey w) data) r)) r

/-- R361: registers that the command would stage beyond the 4,096 of the bench. -/
def benchOverflow (d : Dev) (w : List Dword) : Bool :=
  let new := (cOffsets w).filter fun o =>
    (regInfo o).elim false (fun i => i.access == .rwb) && (mget none d.bench o).isNone
  decide (4096 < d.bench.length + new.length)

/-- Write one register: an RWB one is staged, an RW one takes its value; other writes do nothing here (R11). -/
def writeReg (off v : Nat) (r : Run d₀) : Run d₀ :=
  match regInfo off with
  | some i =>
    match i.access with
    | .rwb => r.emit (.stage off (v &&& i.mask))
    | .rw => if kindAt off v = .plain then setReg off v r else r
    | _ => r
  | none => r

/-- The plain writes of a command. -/
def writeRegs (w : List Dword) (r : Run d₀) : Run d₀ := forEach (cWrites w) (fun e => writeReg e.1 e.2) r

/-- A REG_WRITE of the kind `k` at the head of ring `n`: its offsets and the bench are checked, then `f`. -/
def onWrite (n : Nat) (k : WriteKind → Bool) (f : List Dword → Run d₀ → Run d₀) (r : Run d₀) : Run d₀ :=
  match ctrlHead r.dev n ctWrite with
  | some (_, w) =>
    if !k (writeKind w) then r
    else
      match ctrlFault r.dev (n / 16) w, offsetFault (cOffsets w), benchOverflow r.dev w with
      | some st, _, _ => endControl n st r
      | none, some st, _ => endControl n st r
      | none, none, true => endControl n stDescriptor r
      | none, none, false => f w r
  | none => r

/-! ## The commands -/

/-- REG_READ (R79, R80, R440, R446). -/
def execRegRead (ring : RingId) (s : State) : Host.Outcome State Fault Refusal := s.run (readRegs ring.val)

/-- REG_WRITE (R11, R79, R361, R440). -/
def execRegWrite (ring : RingId) (s : State) : Host.Outcome State Fault Refusal :=
  s.run (fun r => onWrite ring.val (· == .plain) (fun w r => endControl ring.val stOk (writeRegs w r)) r)

/-- DISCARD (R361, R383). -/
def execDiscard (ring : RingId) (s : State) : Host.Outcome State Fault Refusal :=
  s.run (fun r => onWrite ring.val (· == .discard) (fun w r =>
    endControl ring.val stOk ((writeRegs w r).emit .empty)) r)

end Sys2Proof.Machine
end

