-- ==== Sys2Proof/Machine/BakeCheck.lean ====
section
/-! DEFINITION. The consistency check of a bake (R77, R247, R281, R356, R363, R404, R484, R519) over the settings as they
will stand after it. -/
namespace Sys2Proof.Machine

/-- A rule that a bake breaks: its BENCH_FAIL code, the offsets of the registers involved, the status of the bake. -/
structure Broken where
  code   : Nat
  offs   : List Nat
  status : Nat
deriving DecidableEq, Repr

/-- Settings as a function from offsets, and the region entries to be looked at, ascending. -/
structure Settings where
  rd      : Nat → Nat
  entries : List Nat

/-- The settings after a bake of `staged`: a register not staged stays as in force (R363); what is fixed stays fixed
(R381, R445). -/
def settingsWith (d : Dev) (staged : Store Reg) : Settings :=
  { rd := fun off =>
      let v := (mget (mget (regReset off) d.regs off) staged off).toNat
      if off = partOff 0 0 then setBit v 0 else if off = qpPartOff 0 then 0x10 else v
    entries := ((listedEntries d.regs ++ listedEntries staged).eraseDups).mergeSort (fun a b => decide (a ≤ b)) }

/-- The settings in force. -/
def settingsNow (d : Dev) : Settings := settingsWith d []

/-- A partition is in force under settings. -/
def Settings.inForce (x : Settings) (p : Nat) : Bool := p == 0 || bit (x.rd (partOff p 0)) 0
/-- Its cluster register for cluster `k`. -/
def clusterReg (p k : Nat) : Nat := partOff p (if k < 32 then 0x08 else 0x0C)
/-- Its channel register for stack `s`. -/
def chanReg (p s : Nat) : Nat := partOff p (0x40 + s * 4)
/-- A partition's registers hold the cluster. -/
def Settings.hasCluster (x : Settings) (p k : Nat) : Bool := bit (x.rd (clusterReg p k)) (k % 32)
/-- A partition's registers hold the channel. -/
def Settings.hasChan (x : Settings) (p s c : Nat) : Bool := bit (x.rd (chanReg p s)) c
/-- Partition that holds a cluster. -/
def Settings.clusterHolder (x : Settings) (k : Nat) : Option Nat :=
  (List.range 16).find? fun p => x.inForce p && x.hasCluster p k
/-- Partition that holds a channel. -/
def Settings.chanHolder (x : Settings) (s c : Nat) : Option Nat :=
  (List.range 16).find? fun p => x.inForce p && x.hasChan p s c
/-- Mode of a channel. -/
def Settings.mode (x : Settings) (s c : Nat) : Nat :=
  bits (x.rd (stkOff s (if c < 16 then 0x08 else 0x0C))) (2 * (c % 16) + 1) (2 * (c % 16))
/-- Mode register of a channel. -/
def modeReg (s c : Nat) : Nat := stkOff s (if c < 16 then 0x08 else 0x0C)
/-- The valid region entries. -/
def Settings.regions (x : Settings) : List Region := (x.entries.map (regionVia x.rd)).filter (·.valid)
/-- The region that covers a key. -/
def Settings.regionOf (x : Settings) (k : Nat) : Option Region := x.regions.find? fun y => y.area.covers k

/-- All pairs of a stack and a channel, in the order of their registers. -/
def allChans : List (Nat × Nat) := (List.range 20).flatMap fun s => (List.range 32).map fun c => (s, c)

/-- The registers of a region entry. -/
def entryRegs (n : Nat) : List Nat := [rgnOff n 0, rgnOff n 4, rgnOff n 8]

/-- Whether the serving configuration of a partition is in force. -/
def servingOn (d : Dev) (p : Nat) : Bool := (servingOf d p).active

/-! ## R356 -/

/-- Mesh size product of a partition. -/
def Settings.meshSizes (x : Settings) (p : Nat) : List Nat :=
  let a := x.rd (partOff p 0x14)
  let b := x.rd (partOff p 0x18)
  [bits a 12 0, bits a 28 16, bits b 12 0, bits b 28 16]

/-- Rule 2: what two partitions both hold. -/
def rule356_2 (x : Settings) : Option (List Nat) :=
  ((List.range 16).flatMap fun p => ([0x08, 0x0C] ++ (List.range 20).map fun s => 0x40 + s * 4).filterMap fun o =>
    (((List.range 16).find? fun q => q != p && x.rd (partOff p o) &&& x.rd (partOff q o) != 0)).map fun q =>
      [partOff p o, partOff q o]).head?

/-- Rule 3. -/
def rule356_3 (x : Settings) : Option (List Nat) :=
  ((List.range 16).filterMap fun p =>
    if x.inForce p then none
    else
      let held := ([0x08, 0x0C] ++ (List.range 20).map fun s => 0x40 + s * 4).filterMap fun o =>
        if x.rd (partOff p o) = 0 then none else some (partOff p o)
      let owned := (x.regions.filter fun y => y.owner == p).map fun y => rgnOff y.entry 8
      if held.isEmpty && owned.isEmpty then none else some (partOff p 0 :: held ++ owned)).head?

/-- Rule 4. -/
def rule356_4 (x : Settings) : Option (List Nat) :=
  let gone := allChans.filter fun e => x.mode e.1 e.2 == 2
  ((List.range 16).filterMap fun p =>
    (gone.find? fun e => x.hasChan p e.1 e.2).map fun e => [chanReg p e.1, modeReg e.1 e.2]).head?

/-- Rules 5 to 8 for one partition: the registers of the first that it breaks. -/
def rule356_p (d : Dev) (x : Settings) (rule p : Nat) : Option (List Nat) :=
  let ctrl := partOff p 0
  let m := x.rd (partOff p 0x1C)
  let n := (x.meshSizes p).foldl (· * ·) 1
  if !x.inForce p then none
  else
    match rule with
    | 5 =>
      let base := bits m 11 0
      let dev := deviceNumber d
      if (x.meshSizes p).all (fun v => decide (1 ≤ v) && decide (v ≤ 4096)) && decide (n ≤ 4096) &&
          (n == 1 || (decide (base + n ≤ 4096) && decide (base ≤ dev) && decide (dev < base + n))) then none
      else some [ctrl, partOff p 0x14, partOff p 0x18, partOff p 0x1C]
    | 6 =>
      let n4 := bits m 28 24
      if 1 ≤ n4 ∧ n4 ≤ 20 ∧ bits m 20 16 + n4 ≤ 20 then none else some [ctrl, partOff p 0x1C]
    | 7 =>
      let v := x.rd (partOff p 0x10)
      if bits v 15 0 ≠ 0 ∧ bits v 31 16 ≠ 0 then none else some [ctrl, partOff p 0x10]
    | _ =>
      ([0x20, 0x24, 0x28, 0x2C].find? fun o =>
        let v := x.rd (partOff p o)
        bits v 22 16 == 0 || decide (64 < bits v 22 16) || decide (256 < bits v 8 0)).map fun o => [ctrl, partOff p o]

/-- Rule 9. -/
def rule356_9 (x : Settings) : Option (List Nat) :=
  let ps := (List.range 16).filter x.inForce
  ([0x20, 0x24, 0x28, 0x2C].find? fun o =>
    decide (256 < ps.foldl (fun n p => n + bits (x.rd (partOff p o)) 8 0) 0)).map fun o =>
      ps.flatMap fun p => [partOff p 0, partOff p o]

/-- Rule 10. -/
def rule356_10 (d : Dev) (x : Settings) : Option (List Nat) :=
  ((List.range 16).filterMap fun p =>
    if !servingOn d p then none
    else
      ((List.range 64).find? fun k => clusterPart d k == some p && x.clusterHolder k != some p).map fun k =>
        [partOff p 0, clusterReg p k]).head?

/-- Rule 11. -/
def rule356_11 (d : Dev) (x : Settings) : Option (List Nat) :=
  let now := settingsNow d
  (allChans.find? fun e =>
    now.mode e.1 e.2 == 1 && (now.chanHolder e.1 e.2).elim false (servingOn d) &&
      (x.mode e.1 e.2 != 1 || x.chanHolder e.1 e.2 != now.chanHolder e.1 e.2)).map fun e =>
    modeReg e.1 e.2 :: (List.range 16).flatMap fun p => [partOff p 0, chanReg p e.1]

/-- Rules 2 to 11 of R356, in order; rule 1 always holds, since partition 0 is always in force. -/
def check356 (d : Dev) (x : Settings) : List (Nat × Option (List Nat)) :=
  [(0x42, rule356_2 x), (0x43, rule356_3 x), (0x44, rule356_4 x)] ++
    ([5, 6, 7, 8].map fun k => (0x40 + k, ((List.range 16).filterMap (rule356_p d x k)).head?)) ++
    [(0x49, rule356_9 x), (0x4A, rule356_10 d x), (0x4B, rule356_11 d x)]

/-! ## R77 and R247 -/

/-- R77, rule 6. -/
def rule77_6 (x : Settings) (y : Region) : Bool :=
  x.inForce y.owner && (areaChans y.area).all fun c => x.hasChan y.owner (c / 32) (c % 32)

/-- The registers of the first entry that breaks a rule of R77. -/
def check77 (x : Settings) : List (Nat × Option (List Nat)) :=
  let l := x.regions
  let own := fun (p : Region → Bool) => (l.find? fun y => !p y).map fun y => entryRegs y.entry
  let two := fun (p : Region → Region → Bool) =>
    (l.filterMap fun y => (l.find? fun z => !p y z).map fun z => entryRegs y.entry ++ entryRegs z.entry).head?
  [(0x11, own rule77_1), (0x12, own rule77_2), (0x13, own rule77_3), (0x14, two rule77_4), (0x15, two rule77_5),
   (0x16, (l.find? fun y => !rule77_6 x y).map fun y =>
     entryRegs y.entry ++ [partOff y.owner 0] ++ (List.range 20).map (chanReg y.owner))]

/-- The channels that an area covers, as stack and channel. -/
def areaPairs (a : Area) : List (Nat × Nat) :=
  (areaChans a).map fun c => (c / 32, c % 32)

/-- The registers of the first channel that breaks a rule of R247. -/
def check247 (d : Dev) (x : Settings) : List (Nat × Option (List Nat)) :=
  let l := x.regions
  let covering := fun (e : Nat × Nat) => (l.filter fun y => (areaPairs y.area).contains e).flatMap fun y => entryRegs y.entry
  [(0x21, (allChans.find? fun e => x.mode e.1 e.2 == 3).map fun e => [modeReg e.1 e.2]),
   (0x22, (allChans.find? fun e => chanMode d e.1 e.2 == 2 && x.mode e.1 e.2 != 2).map fun e => [modeReg e.1 e.2]),
   (0x23, (allChans.find? fun e => x.mode e.1 e.2 != 0 && l.any fun y => !y.area.direct && (areaPairs y.area).contains e).map
     fun e => modeReg e.1 e.2 :: covering e),
   (0x24, (allChans.find? fun e => x.mode e.1 e.2 == 2 && l.any fun y => (areaPairs y.area).contains e).map
     fun e => modeReg e.1 e.2 :: covering e)]

/-! ## R281, R404 -/

/-- R281. -/
def check281 (x : Settings) : Option (List Nat) :=
  ((List.range 20).find? fun s =>
    let v := bits (x.rd (seqOff s 0)) 11 0
    decide (v < 200) || decide (3600 < v)).map fun s => [seqOff s 0]

/-- Link `l` is enabled under settings. -/
def Settings.enabled (x : Settings) (l : Nat) : Bool := bit (x.rd (lnkOff l 0x0C)) 4

/-- Device numbers of the route entries that a store of registers lists. -/
def listedRoutes (m : Store Reg) : List Nat :=
  m.filterMap fun e =>
    let o := e.1 - 0x300000
    if 0x300000 ≤ e.1 ∧ e.1 < 0x308000 ∧ 0x800 ≤ o % 0x1000 then some (o / 0x1000 * 512 + (o % 0x1000 - 0x800) / 4) else none

/-- R404, for a bake that stages a route entry or an LNK_CTRL. -/
def check404 (d : Dev) (x : Settings) (staged : Store Reg) : Option (List Nat) :=
  let ctrl := (List.range 20).map fun l => lnkOff l 0x0C
  let self := deviceNumber d
  if (listedRoutes staged).isEmpty && !(staged.any fun e => ctrl.contains e.1) then none
  else if x.rd (routeOff self) ≠ 0 then some [routeOff self]
  else
    let vs := ((listedRoutes d.regs ++ listedRoutes staged).eraseDups).mergeSort (fun a b => decide (a ≤ b))
    let bad := fun (v : Nat) => (bitsSet (x.rd (routeOff v)) 20).find? fun l => !bit (reg d 0x24) l || !x.enabled l
    match vs.find? fun v => (bad v).isSome with
    | some v => some (routeOff v :: ((bad v).map fun l => lnkOff l 0x0C).toList)
    | none => ((List.range 20).find? fun l => !([2, 4, 8].contains (bits (x.rd (lnkOff l 0x0C)) 3 0))).map fun l => [lnkOff l 0x0C]

/-! ## R519, R484 -/

/-- The HEARTH_CORE code of a THM_SUPPLY value: a code above 20 counts as 20. -/
def supplyCode (v : Nat) : Nat := min 20 (bits v 4 0)
/-- Its power cap, within 1,000 to 2,600 W. -/
def supplyCap (v : Nat) : Nat := max 1000 (min 2600 (bits v 27 16))

/-- R519: status of a bake of THM_SUPPLY that the thermal state refuses. -/
def check519 (d : Dev) (x : Settings) : Option Nat :=
  let old := reg d (thmOff 0x18)
  let new := x.rd (thmOff 0x18)
  let raise := decide (supplyCode old < supplyCode new)
  if (raise || decide (supplyCap old < supplyCap new)) && (d.board.steps != 0 || d.board.limited) then some stThrottle
  else if raise && bit (reg d (thmOff 0)) 0 then some stWarn
  else none

/-- R360: the bake is one for a new owner host of the partition. -/
def newOwner (d : Dev) (x : Settings) (p : Nat) : Bool :=
  p != 0 && x.inForce p &&
    (!partInForce d p || bits (x.rd (partOff p 0x04)) 15 0 != field d (partOff p 0x04) 15 0)

/-- R363: the first rule broken, in order. -/
def checkBake (d : Dev) (staged : Store Reg) : Option Broken :=
  let x := settingsWith d staged
  let rules := check356 d x ++ check77 x ++ check247 d x ++ [(0x31, check281 x), (0x61, check404 d x staged)]
  let first := rules.findSome? fun (e : Nat × Option (List Nat)) => e.2.map fun l => (⟨e.1, l, stBake⟩ : Broken)
  match first with
  | some b => some b
  | none =>
    match check519 d x with
    | some st => some ⟨0x71, [thmOff 0x18], st⟩
    | none =>
      match (List.range 16).find? fun p => d.boot.noRandom && newOwner d x p with
      | some p => some ⟨0x81, [partOff p 0, partOff p 0x04], stSig⟩
      | none => none

/-- BENCH_FAIL_OFFSET: the lowest offset of the staged registers involved, or 0. -/
def failOffset (staged : Store Reg) (l : List Nat) : Nat :=
  (staged.find? fun e => l.contains e.1).elim 0 (·.1)

end Sys2Proof.Machine
end

