-- ==== Sys2Proof/Machine/Sync.lean ====
section
/-! DEFINITION. Commands of the command processor (R85, R89, R99, R101, R103, R171, R179 to R191), the poll of a WAIT's
condition, and the events of copies. -/
namespace Sys2Proof.Machine
variable {d₀ : Dev}

/-- The command in flight `uid`, if it has the opcode `op`, work remains, and it has started or may start: earlier
commands of its queue have (R84). -/
def plainCmd (d : Dev) (uid op : Nat) : Option Cmd :=
  match cmdOf d uid with
  | some c => if fOpcode c.words == op && c.runs && (c.stage != 0 || !behind d c) then some c else none
  | none => none

/-- A command of the command processor completes with a status. -/
def completeAs (c : Cmd) (st : Nat) (addr word : Nat) (r : Run d₀) : Run d₀ :=
  completeCmd c { plain st with faultAddr := addr, faultCount := if st = stOk then 0 else 1, faultWord := word } none r

/-- It completes with OK. -/
def completeOk (c : Cmd) (r : Run d₀) : Run d₀ := completeAs c stOk 0 0 r

/-- NOP, FENCE, SIGNAL and an issued WAIT without a condition have nothing left to do but complete; SIGNAL's arrivals and
event are part of its completion (R97, R99). -/
def stepPlain (op uid : Nat) (r : Run d₀) : Run d₀ :=
  match plainCmd r.dev uid op with
  | some c => completeOk c r
  | none => r

/-! ## WAIT_CONDITION_POLL (R101) -/

/-- The poll goes to another module. -/
def pollRemote (n dev addr part : Nat) (x : Ring) (h : Head) (r : Run d₀) : Run d₀ :=
  if h.poll.isSome then r
  else if routeOf r.dev dev = 0 then setCond n none stLinkDown (dev * 2 ^ 48 + addr - addr % 64) r
  else
    let (port, r) := hearthPort r
    let (num, r) := sendRequest part (pollUid n)
      ⟨port, tRead, dev, addr - addr % 64, 1, 0, 0, true, false, []⟩ r
    setRing n (some { x with head := some { h with poll := some num } }) r

/-- Read a WAIT's condition word once, at its home (R173), when its tags have arrived: the read is one of the WAIT, which
its tags precede (R170, R171). `upset` is what the checkers find in a scratchpad (R455). -/
def pollWait (n now : Nat) (upset : Upset) (r : Run d₀) : Run d₀ :=
  let r := reach now r
  match ringOf r.dev n with
  | none => r
  | some x =>
    match x.head with
    | none => r
    | some h =>
      let a := wd h.words 2
      let p := (clusterPart r.dev (x.core / 32)).getD 0
      if x.target ≠ 0 || !h.good || fOpcode h.words != opWait || a == 0 || h.fail.isSome ||
          !tagsCover (coreOf r.dev x.core) h.words || (addrFault r.dev p 2 a 4).isSome || heldAtDoor r.dev p x.core h.words || addrHeld r.dev a then r
      else
        match placeOf r.dev a with
        | .spad _ =>
          let (s, r) := readAll x.core atHome upset [a - a % 64] r
          match s.fault with
          | some f => setCond n none stUncorrectable f r
          | none => setCond n (some (bufNat s.buf a 4)) 0 0 r
        | .mem _ k =>
          if stackShut r.dev p [a] then r
          else metered p (fun r =>
            match readHome k (settleAtomic x.core k r) with
            | (some data, r) => setCond n (some (leNat ((data.drop (k % 64)).take 4))) 0 0 r
            | (none, r) => setCond n none stUncorrectable (a - a % 64) r) r
        | .remote dev addr => pollRemote n dev addr p x h r
        | .none => r

/-! ## COUNT (R103) -/

/-- Counter that a COUNT names. -/
def cntIndex (c : Cmd) : Nat := bits (wd c.words 2) 6 3
/-- Comparator that a COUNT names. -/
def cmpIndex (c : Cmd) : Nat := bits (wd c.words 2) 8 7
/-- Value in word 3. -/
def cntValue (c : Cmd) : Nat := bits (wd c.words 3) 31 0

/-- A COUNT with operation `k`. -/
def countCmd (d : Dev) (uid k : Nat) : Option Cmd :=
  (plainCmd d uid opCount).filter fun c => bits (wd c.words 2) 2 0 == k

/-- Set a counter. -/
def setCounter (c : Cmd) (v : Nat) (r : Run d₀) : Run d₀ :=
  let k := coreOf r.dev c.core
  setCore c.core { k with counters := mset 0#32 k.counters (cntIndex c) (BitVec.ofNat 32 v) } r

/-- SET and ADD. -/
def stepCountValue (k uid : Nat) (r : Run d₀) : Run d₀ :=
  match countCmd r.dev uid k with
  | some c =>
    let old := (mget 0#32 (coreOf r.dev c.core).counters (cntIndex c)).toNat
    completeOk c (setCounter c (if k = 1 then old + cntValue c else cntValue c) r)
  | none => r

/-- SETREF. -/
def stepSetref (uid : Nat) (r : Run d₀) : Run d₀ :=
  match countCmd r.dev uid 4 with
  | some c =>
    let k := coreOf r.dev c.core
    completeOk c (setCore c.core { k with refs := mset 0#32 k.refs (cmpIndex c) (BitVec.ofNat 32 (cntValue c)) } r)
  | none => r

/-- SETREL. -/
def stepSetrel (uid : Nat) (r : Run d₀) : Run d₀ :=
  match countCmd r.dev uid 5 with
  | some c =>
    let k := coreOf r.dev c.core
    completeOk c
      (setCore c.core { k with relations := mset 0#3 k.relations (cmpIndex c) (BitVec.ofNat 3 (cntValue c)) } r)
  | none => r

/-- A command that has sent its one request waits for it, then ends: `done` when it came back with OK. -/
def afterRemote (c : Cmd) (word : Nat) (done : Run d₀ → Run d₀) (r : Run d₀) : Run d₀ :=
  if !c.txns.isEmpty then r
  else if c.remote ≠ 0 then completeAs c c.remote c.failAt word r
  else done r

/-- A command sends one request and waits. -/
def startRemote (c : Cmd) (q : Req) (r : Run d₀) : Run d₀ :=
  let (c, r) := cmdRequest c q r
  setCmd { c with stage := 1 } r

/-- LOAD. -/
def stepCountLoad (uid : Nat) (upset : Upset) (r : Run d₀) : Run d₀ :=
  match countCmd r.dev uid 2 with
  | none => r
  | some c =>
    let a := wd c.words 3
    match placeOf r.dev a with
    | .spad _ =>
      let (s, r) := readAll c.core atHome upset [a - a % 64] r
      match s.fault with
      | some f => completeAs c stUncorrectable f 3 r
      | none => completeOk c (setCounter c (bufNat s.buf a 4) r)
    | .mem _ k =>
      if stackShut r.dev c.part [a] || addrHeld r.dev a then r
      else metered c.part (fun r =>
        match readMem c.core ⟨true, true⟩ k r with
        | (some data, r) => completeOk c (setCounter c (leNat ((data.drop (k % 64)).take 4)) r)
        | (none, r) => completeAs c stUncorrectable (a - a % 64) 3 r) r
    | .remote dev addr =>
      if c.stage = 0 then
        let (port, r) := hearthPort r
        startRemote c ⟨port, tRead, dev, addr - addr % 64, 1, 0, 0, true, false, []⟩ r
      else afterRemote c 3 (fun r => completeOk c (setCounter c (bufNat c.buf a 4) r)) r
    | .none => r

/-- A command of the command processor writes: with its write performed it ends, by `done`; where an image it has formed
is still on its way, it ends with a later step (R185, R197). Where the merge read fails it completes with
ECC_UNCORRECTABLE in its word `word`. -/
def writeOrWait (c : Cmd) (word stage : Nat) (w : WriteSet) (upset : Upset) (done : Run d₀ → Run d₀) (r : Run d₀) :
    Run d₀ :=
  let ((bad, late), r) := writeIter c.core w upset r
  match bad with
  | some a => completeAs c stUncorrectable a word r
  | none => if late.isEmpty then done r else setCmd { c with stage := stage, late := late } r

/-- STORE: stage 1 waits for another module, 5 has an image on its way. -/
def stepCountStore (uid : Nat) (upset : Upset) (r : Run d₀) : Run d₀ :=
  match countCmd r.dev uid 3 with
  | none => r
  | some c =>
    let a := wd c.words 3
    let v := (mget 0#32 (coreOf r.dev c.core).counters (cntIndex c)).toNat
    let w := putBytes [] a (natLE v 4)
    match placeOf r.dev a with
    | .remote dev addr =>
      if c.stage = 0 then
        let (port, r) := hearthPort r
        let e := mget noWrite w (a / 64)
        startRemote c ⟨port, tMerge, dev, addr - addr % 64, 1, e.1, 0, true, !fabricScope c, e.2⟩ r
      else afterRemote c 3 (completeOk c) r
    | .none => r
    | _ =>
      if stackShut r.dev c.part [a] || addrHeld r.dev a then r
      else if c.stage = 5 then completeOk c (metered c.part (writeLate c) r)
      else metered c.part (writeOrWait c 3 5 w upset (completeOk c)) r

/-! ## RELEASE and ACQUIRE (R179 to R184, R189, R401) -/

/-- R179: a range covers a granule of this module's memory, under any of its data addresses; length 0 covers all. -/
def rangeCovers (d : Dev) (base len k : Nat) : Bool :=
  len == 0 ||
    [0xFFFF, deviceNumber d].any fun sp => [2 ^ 47 + k, interAddr k].any fun a =>
      decide (base ≤ sp * 2 ^ 48 + a) && decide (sp * 2 ^ 48 + a < base + len)

/-- The copies of network-attached units that a release sends home, as cluster and granule: those its range covers, of its
own cluster at MODULE and FABRIC scope (R189), and of every other cluster at every scope, since its core sees what they
hold at the home only (R178, R180; DEDUCED, assumption 13). -/
def releasedCopies (d : Dev) (c : Cmd) (base len : Nat) : List (Nat × Nat) :=
  (d.hearth.clusters.filter fun e => e.1 != coreCluster c.core || decide (2 ≤ fScope c.words)).flatMap fun e =>
    ((e.2.atomic.map (·.1)).filter fun g => rangeCovers d base len (g * 64)).map fun g => (e.1, g)

/-- The copies that a release sends home are written there. -/
def releaseCopies (c : Cmd) (base len : Nat) (r : Run d₀) : Run d₀ :=
  forEach (releasedCopies r.dev c base len) (fun e => dropAtomic e.1 e.2) r

/-- The home of a copy that the release sends there takes no access now (R464, R489). -/
def releaseHeld (d : Dev) (c : Cmd) (base len : Nat) : Bool :=
  anyHeld d && (releasedCopies d c base len).any fun e => homeHeld d (e.2 * 64)

/-- R401: the devices whose sent count the last SYNC_ACK did not confirm. -/
def unconfirmed (d : Dev) : List Nat :=
  let f := d.fabric
  ((f.sent.map (·.1) ++ f.confirmed.map (·.1)).eraseDups.mergeSort fun a b => decide (a ≤ b)).filter fun v =>
    mget 0 f.sent v != mget 0 f.confirmed v

/-- R401: at FABRIC scope a SYNC goes to each of them; none where one of them has an empty route entry (R406). -/
def sendSyncs (c : Cmd) (r : Run d₀) : Cmd × Run d₀ :=
  if !fabricScope c then (c, r)
  else
    match (unconfirmed r.dev).find? fun v => routeOf r.dev v == 0 with
    | some v => ({ c with remote := stLinkDown, failAt := v * 2 ^ 48 }, r)
    | none =>
      (unconfirmed r.dev).foldl (fun (z : Cmd × Run d₀) v =>
        let (port, r) := hearthPort z.2
        cmdRequest z.1 ⟨port, tSync, v, 0, 0, 0, 0, true, false, []⟩ r) (c, r)

/-- The release part of a command: at once, or after its SYNC_ACKs; then `done`. -/
def releasePart (c : Cmd) (base len : Nat) (done : Run d₀ → Run d₀) (r : Run d₀) : Run d₀ :=
  if c.stage = 0 then
    if releaseHeld r.dev c base len then r
    else
    let (c', r) := sendSyncs c (releaseCopies c base len r)
    if c'.txns.isEmpty && c'.remote == 0 then done r else setCmd { c' with stage := 1 } r
  else afterRemote c 0 done r

/-- RELEASE: its queue's earlier commands have completed when it issues (R180); every write is performed at its home
already, or is covered by the SYNCs (assumption 6). -/
def stepRelease (uid : Nat) (r : Run d₀) : Run d₀ :=
  match plainCmd r.dev uid opRelease with
  | some c => releasePart c (wd c.words 2) (wd c.words 3) (completeOk c) r
  | none => r

/-- R174: an ACQUIRE drops the copies in its range from its cluster's cache and the mirrors of its cluster's cores; with a
range over 1 MiB, or length 0, it drops them all (R184); so too where such a range lies wholly in scratchpad space or on
another module, which fits two rows of R184's table (DESIGN CHOICE, assumption 59). -/
def acquireCopies (cluster base len : Nat) (r : Run d₀) : Run d₀ :=
  let keep := fun (e : Nat × List Byte) => decide (len ≤ 2 ^ 20) && !rangeCovers r.dev base len (e.1 * 64)
  let c := clusterOf r.dev cluster
  let r := setCluster cluster { c with cache := c.cache.filter keep } r
  forEach (List.range 32) (fun j r =>
    setMirror (32 * cluster + j) ((mirrorOf r.dev (32 * cluster + j)).filter keep) r) r

/-- ACQUIRE. -/
def stepAcquire (uid : Nat) (r : Run d₀) : Run d₀ :=
  match plainCmd r.dev uid opAcquire with
  | some c => completeOk c (acquireCopies (coreCluster c.core) (wd c.words 2) (wd c.words 3) r)
  | none => r

/-! ## ATOMIC (R186 to R191) -/

/-- R187: the new value of an operand of `size` bytes. -/
def atomicValue (aop size old v cmp : Nat) : Nat :=
  let less := decide (signed (8 * size) v < signed (8 * size) old)
  let more := decide (signed (8 * size) old < signed (8 * size) v)
  match aop with
  | 0x0 => (old + v) % 2 ^ 32
  | 0x1 => (add32 old v).1
  | 0x2 => if less then v else old
  | 0x3 => if more then v else old
  | 0x4 => (round32 (vmin (val32 old) (val32 v))).1
  | 0x5 => (round32 (vmax (val32 old) (val32 v))).1
  | 0x6 => v
  | _ => if old = cmp then v else old

/-- Fields of the ATOMIC op word. -/
def aopOf (w : Nat) : Nat := bits w 3 0
/-- Size in bytes. -/
def aopSize (w : Nat) : Nat := if bit w 4 then 8 else 4
/-- First a release. -/
def aopRel (w : Nat) : Bool := bit w 5
/-- Then an acquire. -/
def aopAcq (w : Nat) : Bool := bit w 6

/-- An operation on bytes `o` on of a granule: the old value and the granule after it. -/
def atomicOn (w o : Nat) (data : List Byte) (v cmp : Nat) : Nat × List Byte :=
  let old := leNat ((data.drop o).take (aopSize w))
  (old, patch data o (natLE (atomicValue (aopOf w) (aopSize w) old v cmp) (aopSize w)))

/-- The base-die unit of a granule's stack performs an operation at the home; none when the granule is uncorrectable
(R453). A CAS that does not match writes back the image it has read (DESIGN CHOICE, assumption 59). -/
def atomicHome (w k v cmp : Nat) (r : Run d₀) : Option Nat × Run d₀ :=
  match readHome k (settleAll k r) with
  | (some data, r) =>
    let o := atomicOn w (k % 64) data v cmp
    (some o.1, storeHome (keyGranule k) o.2 r)
  | (none, r) => (none, r)

/-- A cluster's network-attached unit performs an operation on its copy, fetched from the home if it has none (R188,
R189). What other clusters' units hold of the granule goes home first: their atomics precede it (R177; DEDUCED, assumption
13). -/
def atomicCopy (cluster w k v cmp : Nat) (r : Run d₀) : Option Nat × Run d₀ :=
  let g := k / 64
  let r := settleOthers cluster k r
  let held := mget [] (clusterOf r.dev cluster).atomic g
  let (data, r) := if held.isEmpty then readHome k r else (some held, r)
  match data with
  | some data =>
    let o := atomicOn w (k % 64) data v cmp
    let c := clusterOf r.dev cluster
    (some o.1, setCluster cluster
      { c with atomic := mset [] c.atomic g o.2, last := mset 0 c.last g r.dev.time } r)
  | none => (none, r)

/-- The ATOMIC has written what it writes: it acquires if it shall, and completes. -/
def atomicDone (c : Cmd) (r : Run d₀) : Run d₀ :=
  completeOk c (if aopAcq (wd c.words 5) then acquireCopies (coreCluster c.core) 0 0 r else r)

/-- The ATOMIC has its old value: it writes it where word 6 says, acquires if it shall, and completes. -/
def atomicEnd (c : Cmd) (old : Nat) (upset : Upset) (r : Run d₀) : Run d₀ :=
  let dst := wd c.words 6
  if dst = 0 then atomicDone c r
  else writeOrWait c 6 5 (putBytes [] dst (natLE old (aopSize (wd c.words 5)))) upset (atomicDone c) r

/-- Partitions whose atomics wait at a base die's atomic unit: commands' and frames' (R370, R371). -/
def atomicWaiters (d : Dev) (s : Nat) : List Nat :=
  ((d.hearth.cmds.filter fun x => readyToAccess d x && fOpcode x.words == opAtomic && decide (2 ≤ fScope x.words) &&
    (stacksOf d [wd x.words 2]).contains s).map (·.part)) ++
    ((inboxOf d s).filter (·.type == tAtomic)).map (·.part)

/-- The regulator of a base die's atomic unit does not let a partition's atomic pass now. -/
def atomicShut (d : Dev) (p s : Nat) : Bool := regShut d 0x2C s p 64 (atomicWaiters d s)

/-- The ATOMIC itself, after its release. An upset strikes a scratchpad operand or the merge of its result, free (R455).
-/
def atomicPart (c : Cmd) (upset : Upset) (r : Run d₀) : Run d₀ :=
  let w := wd c.words 5
  let a := wd c.words 2
  let v := wd c.words 3
  let cmp := wd c.words 4
  match placeOf r.dev a with
  | .spad k =>
    metered c.part (fun r =>
      let (pick, r) := fresh r
      let (s, r) := readAll c.core atHome (upsetOf pick 2 0 upset) [a - a % 64] r
      match s.fault with
      | some f => completeAs c stUncorrectable f 2 r
      | none =>
        let o := atomicOn w (k % 64) (readSpad r.dev k) v cmp
        atomicEnd c o.1 (upsetOf pick 2 1 upset) (writeSpad k fullMask o.2 r)) r
  | .mem _ k =>
    let far := decide (2 ≤ fScope c.words)
    if (far && (stackShut r.dev c.part [a] || atomicShut r.dev c.part (keyStack k))) || homeHeld r.dev k then r
    else metered c.part (fun r =>
      let (old, r) := if far then atomicHome w k v cmp (charge 0x2C (keyStack k) c.part 64 r)
        else atomicCopy (coreCluster c.core) w k v cmp r
      match old with
      | some old => atomicEnd c old upset r
      | none => completeAs c stUncorrectable (a - a % 64) 2 r) r
  | .remote dev addr =>
    let (port, r) := hearthPort r
    let (c, r) := cmdRequest c ⟨port, tAtomic, dev, addr, 1, 0, w % 128, true, false,
      natLE v 8 ++ natLE cmp 8 ++ List.replicate 48 0#8⟩ r
    setCmd { c with stage := 2 } r
  | .none => r

/-- R406: the operand lies on a module whose route entry is empty. -/
def atomicUnrouted (d : Dev) (c : Cmd) : Bool :=
  match placeOf d (wd c.words 2) with
  | .remote dev _ => routeOf d dev == 0
  | _ => false

/-- ATOMIC: stage 0 begins, 1 waits for SYNC_ACKs, 2 for ATOMIC_DATA, 5 has its result's image on its way. One whose
operand lies on a module with an empty route entry completes without sending (R406). -/
def stepAtomic (uid now : Nat) (upset : Upset) (r : Run d₀) : Run d₀ :=
  let r := reach now r
  match plainCmd r.dev uid opAtomic with
  | none => r
  | some c =>
    if c.stage = 2 then
      metered c.part (afterRemote c 2 (atomicEnd c (leNat ((mget [] c.buf 0).take (aopSize (wd c.words 5)))) upset)) r
    else if addrHeld r.dev (wd c.words 6) then r
    else if c.stage = 5 then atomicDone c (metered c.part (writeLate c) r)
    else if aopRel (wd c.words 5) && !(c.stage == 0 && atomicUnrouted r.dev c) then releasePart c 0 0 (atomicPart c upset) r
    else atomicPart c upset r

/-! ## Copies (R174, R189) -/

/-- NETWORK_ATOMIC_WRITE_BACK: a unit's copy goes home, when its home takes accesses (R464, R489). -/
def atomicWriteBack (cluster g : Nat) (r : Run d₀) : Run d₀ :=
  if homeHeld r.dev (g * 64) then r else dropAtomic cluster g r

/-- COPY_EVICTION: a copy leaves a cluster's cache or a core's mirror; after a parity failure it is counted (R455). -/
def evict (cluster : Nat) (core : Option Nat) (g : Nat) (parity : Bool) (r : Run d₀) : Run d₀ :=
  let there := match core with
    | none => mget [] (clusterOf r.dev cluster).cache g
    | some j => mget [] (mirrorOf r.dev (32 * cluster + j)) g
  let r := when (parity && !there.isEmpty) (addReg (eccOff 0x10) 1) r
  match core with
  | none => dropCopies cluster g r
  | some j => dropMirror (32 * cluster + j) g r

/-! ## The commands -/

/-- NOP (R89). -/
def execNop (uid : Nat) (s : State) : Host.Outcome State Fault Refusal := s.run (stepPlain opNop uid)

/-- WAIT, once issued (R171). -/
def execWait (uid : Nat) (s : State) : Host.Outcome State Fault Refusal := s.run (stepPlain opWait uid)

/-- WAIT_CONDITION_POLL (R101). -/
def execWaitConditionPoll (ring : RingId) (met : Nat × Upset) (s : State) : Host.Outcome State Fault Refusal :=
  s.run (pollWait ring.val met.1 met.2)

/-- SIGNAL (R99). -/
def execSignal (uid : Nat) (s : State) : Host.Outcome State Fault Refusal := s.run (stepPlain opSignal uid)

/-- FENCE (R85). -/
def execFence (uid : Nat) (s : State) : Host.Outcome State Fault Refusal := s.run (stepPlain opFence uid)

/-- RELEASE (R180, R189, R401). -/
def execRelease (uid : Nat) (s : State) : Host.Outcome State Fault Refusal := s.run (stepRelease uid)

/-- ACQUIRE (R174, R181). -/
def execAcquire (uid : Nat) (s : State) : Host.Outcome State Fault Refusal := s.run (stepAcquire uid)

/-- ATOMIC (R186 to R190). -/
def execAtomic (uid : Nat) (met : Nat × Upset) (s : State) : Host.Outcome State Fault Refusal :=
  s.run (stepAtomic uid met.1 met.2)

/-- COUNT SET (R103). -/
def execCountSet (uid : Nat) (s : State) : Host.Outcome State Fault Refusal := s.run (stepCountValue 0 uid)

/-- COUNT ADD (R103). -/
def execCountAdd (uid : Nat) (s : State) : Host.Outcome State Fault Refusal := s.run (stepCountValue 1 uid)

/-- COUNT LOAD (R103, R173). -/
def execCountLoad (cmd : Nat × Upset) (s : State) : Host.Outcome State Fault Refusal :=
  s.run (stepCountLoad cmd.1 cmd.2)

/-- COUNT STORE (R103, R401). -/
def execCountStore (cmd : Nat × Upset) (s : State) : Host.Outcome State Fault Refusal :=
  s.run (stepCountStore cmd.1 cmd.2)

/-- COUNT SETREF (R103). -/
def execCountSetref (uid : Nat) (s : State) : Host.Outcome State Fault Refusal := s.run (stepSetref uid)

/-- COUNT SETREL (R103). -/
def execCountSetrel (uid : Nat) (s : State) : Host.Outcome State Fault Refusal := s.run (stepSetrel uid)

/-- NETWORK_ATOMIC_WRITE_BACK (R189). -/
def execNetworkAtomicWriteBack (cluster : ClusterId) (granule : Nat) (s : State) : Host.Outcome State Fault Refusal :=
  s.run (atomicWriteBack cluster.val granule)

/-- COPY_EVICTION (R174, R455). -/
def execCopyEviction (cluster : ClusterId) (core : Option (Fin 32)) (granule : Nat) (parity : Bool) (s : State) :
    Host.Outcome State Fault Refusal :=
  s.run (evict cluster.val (core.map (·.val)) granule parity)

end Sys2Proof.Machine
end

