-- ==== Sys2Proof/Machine/Target.lean ====
section
/-! DEFINITION. Frames delivered to a stack port (R391, R398 to R403): requests performed at their home and answered,
responses that end transactions, and the transaction timeout. -/
namespace Sys2Proof.Machine
variable {d₀ : Dev}

/-! ## The link buffer of a stack port -/

/-- Frame `n` of a stack port, if it has this type. -/
def frameOf (d : Dev) (s n type : Nat) : Option Frame := (inboxOf d s)[n]?.filter fun f => f.type == type

/-- A frame leaves the link buffer. -/
def takeFrame (s n : Nat) (r : Run d₀) : Run d₀ :=
  r.emit (.inbox s ((inboxOf r.dev s).eraseIdx n))

/-- Answer a request: a response carries its partition, transaction number and originating stack (R390, R418). -/
def respond (s : Nat) (f : Frame) (type status arg : Nat) (payload : List Byte) (r : Run d₀) : Run d₀ :=
  enterSwitch (20 + s)
    { f with type := type, vc := 2, granules := payload.length / 64, seq := 0, hops := 127, posted := false, dst := f.src,
             src := deviceNumber r.dev, status := status, arg := arg, payload := payload } r

/-! ## Checks at the target (R398 to R400) -/

/-- Module addresses of the granules that a request names. -/
def frameAddrs (f : Frame) : List Nat := (List.range (max 1 f.granules)).map fun i => f.addr - f.addr % 64 + 64 * i

/-- The checks of R75 on one module address for a partition: alignment aside, range and ownership, then the mode when the
originating extent is on the hearth side. -/
def addrStatus (d : Dev) (p : Nat) (hearth : Bool) (a : Nat) : Nat :=
  match moduleKey a with
  | none => stDescriptor
  | some k =>
    if !(available d (bit a 47) k && ownsKey d (bit a 47) p k) then stDescriptor
    else if hearth && chanMode d (keyStack k) (keyChan k) == 1 then stMode
    else stOk

/-- First of a list of statuses in the order of R75. -/
def firstStatus (l : List Nat) : Nat :=
  if l.contains stAlign then stAlign else if l.contains stDescriptor then stDescriptor
  else if l.contains stMode then stMode else stOk

/-- Status of the checks on a data frame. -/
def frameStatus (d : Dev) (f : Frame) : Nat :=
  let unit := if f.type = tAtomic then (if bit f.aop 4 then 8 else 4) else 64
  firstStatus ((if f.addr % unit ≠ 0 then stAlign else stOk) :: (frameAddrs f).map (addrStatus d f.part f.hearth))

/-- Status of a CHECK: every 2 MiB block of its envelope. -/
def checkStatus (d : Dev) (f : Frame) : Nat :=
  let lo := f.addr / 2 ^ 21
  let hi := f.arg / 2 ^ 21
  firstStatus ((if f.addr % 64 ≠ 0 ∨ f.arg % 64 ≠ 0 then stAlign else stOk) :: (if f.arg < f.addr then stDescriptor else stOk) ::
    (List.range (hi + 1 - lo)).map fun i => addrStatus d f.part f.hearth ((lo + i) * 2 ^ 21))

/-- A frame waits in the link buffer: aimed at a unit held at the oven door, or at process-mode channels that do not all
take its granules now (R245, R403). -/
def frameWaits (d : Dev) (f : Frame) : Bool :=
  let keys := (frameAddrs f).filterMap moduleKey
  keys.any (fun k => doorKey d k || homeHeld d k) || (linkFits d (keys.map some)).any (!·)

/-- R401: the count of posted writes performed or refused has reached the count that a request carries. -/
def caughtUp (d : Dev) (f : Frame) : Bool :=
  decide ((mget 0 d.fabric.done f.src + 2 ^ 32 - f.arg) % 2 ^ 32 < 2 ^ 31)

/-- Keys of the granules that a frame names. -/
def frameKeys (f : Frame) : List Nat := (frameAddrs f).filterMap moduleKey

/-- A posted write has been performed or refused (R401). -/
def countPosted (f : Frame) (st : Nat) (r : Run d₀) : Run d₀ :=
  if !f.posted then r
  else
    let r := r.emit (.performed f.src ((mget 0 r.dev.fabric.done f.src + 1) % 2 ^ 32))
    if st = stOk then r else r.emit (.refused f.src st)

/-- A frame refused by the checks is counted at its stack. -/
def countRefused (s : Nat) (r : Run d₀) : Run d₀ := addReg (lnkOff s 0x4C) 1 r

/-! ## Requests performed -/

/-- WRITE. -/
def performWrite (s n : Nat) (f : Frame) (r : Run d₀) : Run d₀ :=
  if frameWaits r.dev f then r
  else
    let st := frameStatus r.dev f
    let r := takeFrame s n r
    let r := if st ≠ stOk then countRefused s r
      else forEach (List.zip (frameKeys f) (chunks 64 4 f.payload)) (fun e r => countServed e.1 (mergeHome e.1 fullMask e.2 r).2) r
    respond s f tWriteAck st 0 [] (countPosted f st r)

/-- MERGE_WRITE: the base die merges at the home; an uncorrectable granule is not written (R199, R453). -/
def performMerge (s n : Nat) (f : Frame) (r : Run d₀) : Run d₀ :=
  if frameWaits r.dev f then r
  else
    let st := frameStatus r.dev f
    let r := takeFrame s n r
    match st, (frameKeys f).head? with
    | 0, some k =>
      let (ok, r) := mergeHome k f.arg f.payload r
      let st := if ok then stOk else stUncorrectable
      respond s f tWriteAck st 0 [] (countPosted f st (countServed k r))
    | _, _ => respond s f tWriteAck st 0 [] (countPosted f st (countRefused s r))

/-- Read the granules of a READ, until one is uncorrectable. -/
def readKeys (l : List Nat) (r : Run d₀) : Option (List Byte) × Run d₀ :=
  l.foldl (fun z k =>
    match z.1 with
    | none => z
    | some b =>
      match readHome k z.2 with
      | (some data, r) => (some (b ++ data), countServed k r)
      | (none, r) => (none, r)) (some [], r)

/-- READ. -/
def performRead (s n : Nat) (f : Frame) (r : Run d₀) : Run d₀ :=
  if frameWaits r.dev f || !caughtUp r.dev f then r
  else
    let st := frameStatus r.dev f
    let r := takeFrame s n r
    if st ≠ stOk then respond s f tReadData st 0 [] (countRefused s r)
    else
      match readKeys (frameKeys f) r with
      | (some data, r) => respond s f tReadData stOk 0 data r
      | (none, r) => respond s f tReadData stUncorrectable 0 [] r

/-- ATOMIC. -/
def performAtomic (s n : Nat) (f : Frame) (r : Run d₀) : Run d₀ :=
  if frameWaits r.dev f || !caughtUp r.dev f || atomicShut r.dev f.part s then r
  else
    let st := frameStatus r.dev f
    let r := takeFrame s n r
    match st, moduleKey f.addr with
    | 0, some k =>
      match atomicHome f.aop k (leNat (f.payload.take 8)) (leNat ((f.payload.drop 8).take 8)) (charge 0x2C s f.part 64 r) with
      | (some old, r) => respond s f tAtomicData stOk old [] (countServed k r)
      | (none, r) => respond s f tAtomicData stUncorrectable 0 [] r
    | _, _ => respond s f tAtomicData st 0 [] (countRefused s r)

/-- CHECK. -/
def performCheck (s n : Nat) (f : Frame) (r : Run d₀) : Run d₀ :=
  let st := checkStatus r.dev f
  let r := takeFrame s n r
  respond s f tCheckAck st 0 [] (if st = stOk then r else countRefused s r)

/-- SYNC: answered once every posted write it counts has been performed or refused; a refusal is reported once. -/
def performSync (s n : Nat) (f : Frame) (r : Run d₀) : Run d₀ :=
  if !caughtUp r.dev f then r
  else
    let st := mget 0 r.dev.fabric.refused f.src
    let r := r.emit (.refused f.src 0)
    respond s f tSyncAck st 0 [] (takeFrame s n r)

/-- A request of a given type at place `n` of a stack port. -/
def stepFrame (type : Nat) (g : Nat → Nat → Frame → Run d₀ → Run d₀) (s n : Nat) (r : Run d₀) : Run d₀ :=
  match frameOf r.dev s n type with
  | some f => g s n f r
  | none => r

/-- Perform any request that accesses memory. -/
def performFrame (s n : Nat) (f : Frame) (r : Run d₀) : Run d₀ :=
  if f.type = tWrite then performWrite s n f r
  else if f.type = tMerge then performMerge s n f r
  else if f.type = tRead then performRead s n f r
  else if f.type = tAtomic then performAtomic s n f r
  else r

/-! ## Responses -/

/-- WRITE_ACK and CHECK_ACK: the transaction ends with the status carried. -/
def stepAck (type s n : Nat) (r : Run d₀) : Run d₀ :=
  match frameOf r.dev s n type with
  | some f => endTxn f.txn f.status [] (takeFrame s n r)
  | none => r

/-- READ_DATA. -/
def stepReadData (s n : Nat) (r : Run d₀) : Run d₀ :=
  match frameOf r.dev s n tReadData with
  | some f => endTxn f.txn f.status f.payload (takeFrame s n r)
  | none => r

/-- ATOMIC_DATA. -/
def stepAtomicData (s n : Nat) (r : Run d₀) : Run d₀ :=
  match frameOf r.dev s n tAtomicData with
  | some f => endTxn f.txn f.status (natLE f.arg 8) (takeFrame s n r)
  | none => r

/-- SYNC_ACK: the device has confirmed the count that its SYNC carried. -/
def stepSyncAck (s n : Nat) (r : Run d₀) : Run d₀ :=
  match frameOf r.dev s n tSyncAck with
  | some f =>
    let r := takeFrame s n r
    let r := match r.dev.fabric.txns.find? (·.num == f.txn) with
      | some t => r.emit (.confirmed f.src t.addr)
      | none => r
    endTxn f.txn f.status [] r
  | none => r

/-- TRANSACTION_TIMEOUT (R402). -/
def expireTxn (num now : Nat) (r : Run d₀) : Run d₀ :=
  let r := reach now r
  match r.dev.fabric.txns.find? (·.num == num) with
  | some t =>
    if r.dev.time < t.at_ + 2000000 then r
    else endTxn num stLinkDown [] (addReg (lnkOff t.stack 0x44) 1 r)
  | none => r

/-! ## The commands -/

/-- WRITE (R391, R399 to R403). -/
def execWriteFrame (stack : StackId) (n : Nat) (s : State) : Host.Outcome State Fault Refusal :=
  s.run (stepFrame tWrite performWrite stack.val n)

/-- MERGE_WRITE (R391, R400). -/
def execMergeWrite (stack : StackId) (n : Nat) (s : State) : Host.Outcome State Fault Refusal :=
  s.run (stepFrame tMerge performMerge stack.val n)

/-- READ (R391, R401). -/
def execReadFrame (stack : StackId) (n : Nat) (s : State) : Host.Outcome State Fault Refusal :=
  s.run (stepFrame tRead performRead stack.val n)

/-- ATOMIC frame (R391, R399, R401). -/
def execAtomicRequestFrame (stack : StackId) (n : Nat) (s : State) : Host.Outcome State Fault Refusal :=
  s.run (stepFrame tAtomic performAtomic stack.val n)

/-- CHECK (R398). -/
def execCheck (stack : StackId) (n : Nat) (s : State) : Host.Outcome State Fault Refusal :=
  s.run (stepFrame tCheck performCheck stack.val n)

/-- SYNC (R401). -/
def execSyncFrame (stack : StackId) (n : Nat) (s : State) : Host.Outcome State Fault Refusal :=
  s.run (stepFrame tSync performSync stack.val n)

/-- WRITE_ACK (R401). -/
def execWriteAck (stack : StackId) (n : Nat) (s : State) : Host.Outcome State Fault Refusal :=
  s.run (stepAck tWriteAck stack.val n)

/-- READ_DATA (R391). -/
def execReadData (stack : StackId) (n : Nat) (s : State) : Host.Outcome State Fault Refusal :=
  s.run (stepReadData stack.val n)

/-- ATOMIC_DATA (R391). -/
def execAtomicData (stack : StackId) (n : Nat) (s : State) : Host.Outcome State Fault Refusal :=
  s.run (stepAtomicData stack.val n)

/-- CHECK_ACK (R398). -/
def execCheckAck (stack : StackId) (n : Nat) (s : State) : Host.Outcome State Fault Refusal :=
  s.run (stepAck tCheckAck stack.val n)

/-- SYNC_ACK (R401). -/
def execSyncAck (stack : StackId) (n : Nat) (s : State) : Host.Outcome State Fault Refusal :=
  s.run (stepSyncAck stack.val n)

/-- TRANSACTION_TIMEOUT (R402). -/
def execTransactionTimeout (txn now : Nat) (s : State) : Host.Outcome State Fault Refusal := s.run (expireTxn txn now)

end Sys2Proof.Machine
end

