-- ==== Sys2Proof/Machine/Link.lean ====
section
/-! DEFINITION. The link switch and the link protocol (R370, R371, R385 to R397, R404 to R407, R418): grants, frames sent
and received, acknowledgement, retry and credits. -/
namespace Sys2Proof.Machine
variable {d₀ : Dev}

/-! ## A link's registers (R419, R420) -/

/-- State in LNK_STATUS: 0 down, 1 full training, 2 in service, 3 retraining in place, 4 disabled. -/
def linkState (d : Dev) (l : Nat) : Nat := field d (lnkOff l 0x04) 2 0
/-- Widest width permitted. -/
def linkMax (d : Dev) (l : Nat) : Nat := field d (lnkOff l 0x0C) 3 0
/-- Enabled. -/
def linkEnabled (d : Dev) (l : Nat) : Bool := bit (reg d (lnkOff l 0x0C)) 4
/-- Dimension. -/
def linkDim (d : Dev) (l : Nat) : Nat := field d (lnkOff l 0x0C) 6 5
/-- Dateline. -/
def linkDateline (d : Dev) (l : Nat) : Bool := bit (reg d (lnkOff l 0x0C)) 7

/-! ## Frames (R390 to R394) -/

/-- Header words of a frame (R390). -/
def headerWords (f : Frame) : List Nat :=
  [f.type % 2 ^ 6 + f.vc % 4 * 2 ^ 6 + f.part % 16 * 2 ^ 8 + f.granules % 8 * 2 ^ 12 + f.seq % 2 ^ 12 * 2 ^ 16 +
      f.hops % 2 ^ 7 * 2 ^ 28 + f.posted.toNat * 2 ^ 35 + f.dst % 2 ^ 16 * 2 ^ 48,
    f.addr % 2 ^ 48 + f.src % 2 ^ 16 * 2 ^ 48,
    f.txn % 2 ^ 20 + f.srcStack % 2 ^ 5 * 2 ^ 20 + f.status % 2 ^ 8 * 2 ^ 32 + f.aop % 2 ^ 7 * 2 ^ 40 + f.hearth.toNat * 2 ^ 47,
    f.arg % 2 ^ 64]

/-- The trailer word of a frame with a CRC (R390). -/
def trailerWord (crc : Nat) (t : Trailer) : Nat :=
  crc + t.ack % 2 ^ 12 * 2 ^ 32 + t.ackValid.toNat * 2 ^ 44 + t.nak.toNat * 2 ^ 45 + t.creditVc % 4 * 2 ^ 46 +
    t.credits % 2 ^ 16 * 2 ^ 48

/-- The bytes of a frame: header, payload and trailer, all little-endian (R7, R390). -/
def frameImage (f : Frame) (t : Trailer) : List Byte :=
  let b := (headerWords f).flatMap (fun w => natLE w 8) ++ f.payload
  b ++ natLE (trailerWord (crc32c b) t) 8

/-- Bytes laid on `w` active lanes in 8-byte units, unit `i` on lane `i mod w` (R390). -/
def layLanes (w : Nat) (b : List Byte) : List (List Dword) :=
  let u := toWords b
  (List.range w).map fun j => ((List.range u.length).filter fun i => i % w == j).map fun i => u.getD i 0

/-- The bytes that `w` active lanes carry. -/
def takeLanes (w : Nat) (lanes : List (List Dword)) : List Byte :=
  (List.range (lanes.foldl (fun n l => n + l.length) 0)).flatMap fun i => natLE (wd (lanes.getD (i % w) []) (i / w)) 8

/-- A whole frame with a CRC that matches. -/
def frameWhole (b : List Byte) : Bool :=
  decide (40 ≤ b.length) && b.length % 8 == 0 && crc32c (b.take (b.length - 8)) == leNat ((b.drop (b.length - 8)).take 4)

/-- The frame that bytes hold. -/
def frameFrom (b : List Byte) : Frame :=
  let w := fun (i hi lo : Nat) => bits (wd (toWords (b.take 32)) i) hi lo
  { type := w 0 5 0, vc := w 0 7 6, part := w 0 11 8, granules := w 0 14 12, seq := w 0 27 16, hops := w 0 34 28,
    posted := w 0 35 35 == 1, dst := w 0 63 48, addr := w 1 47 0, src := w 1 63 48, txn := w 2 19 0, srcStack := w 2 24 20,
    status := w 2 39 32, aop := w 2 46 40, hearth := w 2 47 47 == 1, arg := w 3 63 0
    payload := (b.take (b.length - 8)).drop 32 }

/-- The trailer that bytes hold. -/
def trailerFrom (b : List Byte) : Trailer :=
  let w := leNat (b.drop (b.length - 8))
  ⟨bits w 43 32, bit w 44, bit w 45, bits w 47 46, bits w 63 48⟩

/-- The reserved fields of a frame are zero (R390, R391). -/
def frameClean (b : List Byte) : Bool :=
  let w := fun (i hi lo : Nat) => bits (wd (toWords (b.take 32)) i) hi lo
  w 0 15 15 == 0 && w 0 47 36 == 0 && w 2 31 25 == 0 && w 2 63 48 == 0

/-- A response class. -/
def isResponse (f : Frame) : Bool := decide (0x20 ≤ f.type)

/-- A frame type of R391. -/
def typeDefined (t : Nat) : Bool :=
  [tIdle, tWrite, tMerge, tRead, tAtomic, tCheck, tSync, tWriteAck, tReadData, tAtomicData, tCheckAck, tSyncAck].contains t

/-- Payload granules that a type carries agree with what the frame holds. -/
def payloadOk (f : Frame) : Bool :=
  let n := f.payload.length
  if f.type = tWrite then decide (1 ≤ f.granules) && decide (f.granules ≤ 4) && n == 64 * f.granules
  else if f.type = tMerge || f.type = tAtomic then f.granules == 1 && n == 64
  else if f.type = tRead then decide (1 ≤ f.granules) && decide (f.granules ≤ 4) && n == 0
  else if f.type = tReadData then decide (f.granules ≤ 4) && n == 64 * f.granules
  else n == 0

/-- Bytes of a frame: header, payload and trailer. -/
def frameBytes (f : Frame) : Nat := 40 + f.payload.length

/-- Credits of a frame, in units of 64 bytes (R392). -/
def frameUnits (f : Frame) : Nat := cdiv (frameBytes f) 64

/-- R394: the virtual channel on which a frame leaves on link `l`, having come in at `input`. -/
def leaveVc (d : Dev) (input l : Nat) (f : Frame) : Nat :=
  let cls := if isResponse f then 2 else 0
  if linkDateline d l then cls + 1
  else if input < 20 && linkDim d input != linkDim d l then cls
  else if 20 ≤ input then cls
  else f.vc

/-! ## Routing (R405) -/

/-- Stack that a module address selects. -/
def addrStack (a : Nat) : Nat := (moduleKey (a % 2 ^ 48)).elim (bits a 40 36 % 20) keyStack

/-- Links of a route entry, each once for each lane it has in service. -/
def linkShares (d : Dev) (entry : Nat) : List Nat :=
  (bitsSet entry 20).flatMap fun l => List.replicate (linkWidth d l) l

/-- The output port of a frame: a stack port of this module, or a link of the entry for its destination. -/
def outputOf (d : Dev) (f : Frame) : Option Nat :=
  if f.dst = deviceNumber d then some (20 + if isResponse f then f.srcStack else addrStack f.addr)
  else
    let e := routeOf d f.dst
    let t := addrStack f.addr
    if bit e t && linkWidth d t == 8 then some t
    else
      let l := linkShares d e
      l[Config.routeHash f.dst (bits f.addr 47 6) % l.length]?

/-! ## Egress regulation (R370, R371, R418) -/

/-- The bucket of a frame's partition at a link output holds the frame's charge. -/
def frameTokens (d : Dev) (l : Nat) (f : Frame) : Bool := hasTokens d 0x24 l f.part (frameBytes f)

/-! ## Grants (R387 to R389, R406) -/

/-- The link has what a frame needs to leave: service, replay room and credits. -/
def linkTakes (d : Dev) (l : Nat) (w : Waiting) : Bool :=
  linkState d l == 2 && decide ((linkOf d l).replay.length < 2048) &&
    decide (frameUnits w.frame ≤ mget 0 (linkOf d l).credits (leaveVc d w.input l w.frame))

/-- Frames that wait for an output, of one class, in order of arrival. -/
def waitingFor (d : Dev) (o : Nat) (resp : Bool) : List Waiting :=
  d.fabric.queue.filter fun w => isResponse w.frame == resp && outputOf d w.frame == some o

/-- The oldest frame of each partition at an input, where the output has what it needs to leave. -/
def oldest (d : Dev) (o input : Nat) (l : List Waiting) : List Waiting :=
  let mine := l.filter (·.input == input)
  (List.range 16).filterMap fun p => (mine.find? fun w => w.frame.part == p).filter fun w => decide (20 ≤ o) || linkTakes d o w

/-- A partition's frames may borrow at a link output: another's frame with tokens waits in neither class (R371). -/
def mayLend (d : Dev) (o p : Nat) : Bool :=
  mayBorrow d p 0x24 &&
    !(waitingFor d o true ++ waitingFor d o false).any fun x =>
      x.frame.part != p && linkTakes d o x && frameTokens d o x.frame

/-- The partition whose borrowing frames of one class the output serves next: the next by number after the last (R371). -/
def nextBorrower (d : Dev) (o : Nat) (l : List Waiting) : Option Nat :=
  borrowTurn d 0x24 o ((List.range 16).filter fun p =>
    mayLend d o p && (List.range 40).any fun i => (oldest d o i l).any fun w => w.frame.part == p && !frameTokens d o w.frame)

/-- The frames that may leave next at an input: of the oldest of each partition those with tokens, and that of the
partition whose turn it is to borrow. -/
def candidates (d : Dev) (o input : Nat) (l : List Waiting) : List Waiting :=
  (oldest d o input l).filter fun w =>
    decide (20 ≤ o) || frameTokens d o w.frame || nextBorrower d o l == some w.frame.part

/-- Inputs of a list, ascending, each once. -/
def inputsOf (l : List Waiting) : List Nat := (List.range 40).filter fun i => l.any fun w => w.input == i

/-- The grant of one class: the frame, and the inputs left in the round. Of an input's partitions the choice is free. -/
def pickFrame (d : Dev) (o : Nat) (resp : Bool) (choice : Nat) : Option (Waiting × List Nat) :=
  let l := waitingFor d o resp
  let left := mget [] d.fabric.rounds (2 * o + resp.toNat)
  let try_ := fun (round : List Nat) =>
    (findIdx (fun i => !(candidates d o i l).isEmpty) round 0).bind fun e =>
      let ws := candidates d o e.2 l
      (ws[choice % ws.length]?).map fun w => (w, round.eraseIdx e.1)
  match try_ left with
  | some x => some x
  | none => try_ (inputsOf l)

/-- Take the first equal entry out of the switch. -/
def leaveSwitch (w : Waiting) (r : Run d₀) : Run d₀ :=
  r.emit (.queue (r.dev.fabric.queue.erase w))

/-- A frame has left the buffer of the link on which it came: its credits are owed back (R392). -/
def oweCredits (input : Nat) (f : Frame) (r : Run d₀) : Run d₀ :=
  if 20 ≤ input then r
  else
    let x := linkOf r.dev input
    setLink input { x with owed := mset 0 x.owed f.vc (mget 0 x.owed f.vc + frameUnits f) } r

/-- The trailer of the next frame of a link: its acknowledgement, and credits of one virtual channel that are owed. -/
def trailerOf (x : Link) (nak : Bool) : Trailer :=
  let vc := ((List.range 4).find? fun v => mget 0 x.owed v != 0).getD 0
  { ack := (x.rxSeq + 4095) % 4096, ackValid := x.ackOwed || nak, nak := nak, creditVc := vc,
    credits := min 65535 (mget 0 x.owed vc) }

/-- What the trailer carries is no longer owed. -/
def settleTrailer (x : Link) (t : Trailer) : Link :=
  { x with ackOwed := false, owed := mset 0 x.owed t.creditVc (mget 0 x.owed t.creditVc - t.credits) }

/-- A frame goes onto the lanes. -/
def putOnWire (l : Nat) (f : Frame) (nak : Bool) (r : Run d₀) : Run d₀ :=
  let x := linkOf r.dev l
  let t := trailerOf x nak
  let x := settleTrailer x t
  let n := x.txFrames + 1
  let b := x.txBytes + frameBytes f
  let r := setLink l { x with wire := x.wire ++ [layLanes (linkWidth r.dev l) (frameImage f t)], txFrames := n % 1024, txBytes := b % 2 ^ 20 } r
  addReg (lnkOff l 0x30) (n / 1024) (addReg (lnkOff l 0x38) (b / 2 ^ 20) r)

/-- Send a frame on a link for the first time (R395, R401, R407). -/
def sendFrame (l : Nat) (w : Waiting) (r : Run d₀) : Run d₀ :=
  let r := charge 0x24 l w.frame.part (frameBytes w.frame) r
  let x := linkOf r.dev l
  let vc := leaveVc r.dev w.input l w.frame
  let f := { w.frame with vc := vc, seq := x.txSeq, hops := w.frame.hops - 1 }
  let r := setLink l { x with
    txSeq := (x.txSeq + 1) % 4096
    replay := x.replay ++ [⟨f, 0⟩]
    since := if x.replay.isEmpty then r.dev.time else x.since
    credits := mset 0 x.credits vc (mget 0 x.credits vc - frameUnits f) } r
  let r := putOnWire l f false r
  if f.posted && f.src == deviceNumber r.dev then postedDone f.txn r else r

/-- A frame is delivered to a stack port. -/
def deliverFrame (s : Nat) (f : Frame) (r : Run d₀) : Run d₀ :=
  r.emit (.inbox s (inboxOf r.dev s ++ [f]))

/-- SWITCH_GRANT. -/
def grantOutput (o now : Nat) (r : Run d₀) : Run d₀ :=
  let r := reach now r
  let (n, r) := fresh r
  let resp := pickFrame r.dev o true n
  match (if resp.isSome then resp else pickFrame r.dev o false n) with
  | none => r
  | some (w, left) =>
    let r := r.emit (.rounds (2 * o + (isResponse w.frame).toNat) left)
    let r := oweCredits w.input w.frame (leaveSwitch w r)
    if o < 20 then sendFrame o w r else deliverFrame (o - 20) w.frame r

/-! ## Receipt (R391, R396, R407) -/

/-- An IDLE frame. -/
def idleFrame : Frame := ⟨tIdle, 0, 0, 0, 0, 0, false, 0, 0, 0, 0, 0, 0, 0, false, 0, []⟩

/-- Send an IDLE frame. -/
def sendIdle (l : Nat) (nak : Bool) (r : Run d₀) : Run d₀ :=
  let r := putOnWire l idleFrame nak r
  setLink l { linkOf r.dev l with idleAt := r.dev.time } r

/-- The first failed or out-of-order frame brings a NAK for the next expected sequence. -/
def nakLink (l : Nat) (r : Run d₀) : Run d₀ :=
  let x := linkOf r.dev l
  if x.nakSent then r else sendIdle l true (setLink l { x with nakSent := true } r)

/-- Resend every frame that is not acknowledged, in order; each is charged again (R370). -/
def resendAll (l : Nat) (r : Run d₀) : Run d₀ :=
  let x := linkOf r.dev l
  let r := setLink l { x with replay := x.replay.map fun e => { e with resent := e.resent + 1 }, since := r.dev.time } r
  let r := addReg (lnkOff l 0x2C) x.replay.length r
  forEach x.replay (fun e r => putOnWire l e.frame false (chargeAnyway 0x24 l e.frame.part (frameBytes e.frame) r)) r

/-- A trailer's acknowledgement, credits and NAK. -/
def takeTrailer (l : Nat) (t : Trailer) (r : Run d₀) : Run d₀ :=
  let x := linkOf r.dev l
  let kept := if t.ackValid then x.replay.filter fun e => decide (2048 ≤ (t.ack + 4096 - e.frame.seq) % 4096) else x.replay
  let r := setLink l { x with
    replay := kept
    credits := mset 0 x.credits t.creditVc (mget 0 x.credits t.creditVc + t.credits)
    since := if kept.length < x.replay.length then r.dev.time else x.since } r
  if t.nak then resendAll l r else r

/-- A frame received in order is accepted; `clean` says that its reserved fields are zero. -/
def acceptFrame (l : Nat) (f : Frame) (t : Trailer) (clean : Bool) (r : Run d₀) : Run d₀ :=
  let x := linkOf r.dev l
  let n := x.rxFrames + 1
  let b := x.rxBytes + frameBytes f
  let r := setLink l { x with rxSeq := (x.rxSeq + 1) % 4096, ackOwed := true, nakSent := false, rxFrames := n % 1024,
                              rxBytes := b % 2 ^ 20 } r
  let r := addReg (lnkOff l 0x34) (n / 1024) (addReg (lnkOff l 0x3C) (b / 2 ^ 20) r)
  let r := takeTrailer l t r
  if !clean || !typeDefined f.type || !payloadOk f || (!isResponse f && f.status != 0) then
    oweCredits l f (addReg (lnkOff l 0x28) 1 r)
  else if f.dst ≠ deviceNumber r.dev ∧ f.hops = 0 then oweCredits l f (addReg (lnkOff l 0x48) 1 r)
  else enterSwitch l f r

/-- LINK_FRAME_RECEIPT: the units that the active lanes carry, the codewords corrected and those uncorrectable since the
last frame, and whether every codeword that carries its header and payload decoded and every one that carries its
trailer. -/
def receiveFrame (l : Nat) (lanes : List (List Dword)) (corrected uncorrectable : Nat) (decoded ended : Bool)
    (now : Nat) (r : Run d₀) : Run d₀ :=
  let r := reach now r
  if linkState r.dev l ≠ 2 then r
  else
    let r := addReg (lnkOff l 0x24) uncorrectable (addReg (lnkOff l 0x20) corrected r)
    let b := takeLanes (linkWidth r.dev l) lanes
    let f := frameFrom b
    let t := trailerFrom b
    if !decoded || !ended || !frameWhole b then nakLink l (addReg (lnkOff l 0x28) 1 r)
    else if f.type = tIdle then when (!frameClean b) (addReg (lnkOff l 0x28) 1) (takeTrailer l t r)
    else if f.seq ≠ (linkOf r.dev l).rxSeq then
      nakLink l (takeTrailer l t (addReg (lnkOff l 0x28) 1 r))
    else acceptFrame l f t (frameClean b) r

/-- IDLE_FRAME: a receiver that owes an acknowledgement or credits sends an IDLE frame. -/
def stepIdle (l now : Nat) (r : Run d₀) : Run d₀ :=
  let r := reach now r
  let x := linkOf r.dev l
  if linkState r.dev l = 2 && (x.ackOwed || (List.range 4).any fun v => mget 0 x.owed v != 0) then sendIdle l false r
  else r

/-- REPLAY_TIMEOUT: 10 µs without an acknowledgement of the oldest frame. -/
def replayExpired (l now : Nat) (r : Run d₀) : Run d₀ :=
  let r := reach now r
  let x := linkOf r.dev l
  if linkState r.dev l = 2 && !x.replay.isEmpty && decide (x.since + 10000 ≤ r.dev.time) then resendAll l r else r

/-! ## The commands -/

/-- LINK_FRAME_RECEIPT (R385, R390, R391, R396, R407). -/
def execLinkFrameReceipt (link : LinkId) (lanes : List (List Dword)) (corrected uncorrectable : Nat)
    (decoded ended : Bool) (now : Nat) (s : State) : Host.Outcome State Fault Refusal :=
  s.run (receiveFrame link.val lanes corrected uncorrectable decoded ended now)

/-- SWITCH_GRANT (R387 to R389, R394, R395, R405, R418). -/
def execSwitchGrant (output : SwitchPort) (now : Nat) (s : State) : Host.Outcome State Fault Refusal :=
  s.run (grantOutput output.val now)

/-- IDLE frame (R392). -/
def execIdleFrame (link : LinkId) (now : Nat) (s : State) : Host.Outcome State Fault Refusal :=
  s.run (stepIdle link.val now)

/-- REPLAY_TIMEOUT (R396). -/
def execReplayTimeout (link : LinkId) (now : Nat) (s : State) : Host.Outcome State Fault Refusal :=
  s.run (replayExpired link.val now)

end Sys2Proof.Machine
end

