-- ==== Sys2Proof/Machine/LinkTrain.lean ====
section
/-! DEFINITION. Training, widths and failure of stack links (R386, R397, R410 to R417), and the firmware's bakes of routes
(R414). -/
namespace Sys2Proof.Machine
variable {d₀ : Dev}

/-! ## Service state -/

/-- LNK_STATUS; with the lanes in service the rates of the link's buckets change (R370, R371). -/
def setLinkStatus (l state lanes reason : Nat) (r : Run d₀) : Run d₀ :=
  setReg (lnkOff l 0x04) (state + lanes * 2 ^ 4 + reason * 2 ^ 8) (settleLink l r)

/-- LNK_CAP and the lanes in service of LNK_LANES (R417, R420); the link's buckets fill at another rate from now on
(R370). -/
def setLinkWidth (l mask : Nat) (r : Run d₀) : Run d₀ :=
  setField (lnkOff l 0x18) 15 8 mask (setReg (lnkOff l 0x14) (popcount mask 8 * 50) r)

/-- An event about a link goes to the management host (R415, R437). -/
def linkEvent (code l width : Nat) (r : Run d₀) : Run d₀ := postEvent 0 code 4 0 l width r

/-- A link is in service (R121). -/
def inService (d : Dev) (l : Nat) : Bool := bit (reg d 0x24) l

/-- A link goes down: FEAT_LINKS changes, then the event; its replay buffer is discarded (R413, R415). -/
def goDown (l state reason : Nat) (r : Run d₀) : Run d₀ :=
  let was := inService r.dev l
  let x := linkOf r.dev l
  let r := setLink l { x with stage := 0, full := false, trained := 0, used := 0, relock := false, failures := 0,
                              triedAt := r.dev.time, replay := [] } r
  let r := setLinkWidth l 0 (setLinkStatus l state 0 reason (setRegBit 0x24 l false r))
  when was (linkEvent stLinkDown l 0) r

/-- Training of a link begins: full, or in place (R410). -/
def beginTraining (l : Nat) (full : Bool) (r : Run d₀) : Run d₀ :=
  let x := linkOf r.dev l
  let r := setLink l { x with stage := if full then 1 else 2, full := full, triedAt := r.dev.time, relock := false,
                              failures := if full then 0 else x.failures
                              replay := if full then [] else x.replay } r
  let r := when full (setRegBit (lnkOff l 0x08) 31 false) r
  let r := setField (lnkOff l 0x04) 2 0 (if full then 1 else 3) r
  addReg (lnkOff l 0x40) 1 r

/-- R413: a stage has failed. -/
def trainFailed (l reason : Nat) (r : Run d₀) : Run d₀ :=
  let x := linkOf r.dev l
  if x.full then goDown l 0 reason r
  else if x.failures + 1 < 3 then beginTraining l false (setLink l { x with failures := x.failures + 1 } r)
  else beginTraining l true r

/-! ## Stages (R410, R411) -/

/-- The sets of lanes of R411, widest first. -/
def laneSets : List Nat := [0xFF, 0x0F, 0xF0, 0x03, 0x0C, 0x30, 0xC0]

/-- The widest set within a limit all of whose lanes locked. -/
def chooseLanes (locked limit : Nat) : Option Nat :=
  laneSets.find? fun m => m &&& locked == m && decide (popcount m 8 ≤ limit)

/-- R386, R539: the four laser inputs are at 14.0 dBm or more. -/
def laserOk (l : List Int) : Bool := l.length == 4 && l.all fun p => decide (1400 ≤ p)

/-- Lanes of a FUSE_OPTIC field that use spare positions, ascending: the first takes spare 0, the second spare 1. -/
def spared (v : Nat) : List Nat := bitsSet v 8
/-- Transmit lanes of a FUSE_OPTIC value on spare positions. -/
def txSpared (optic : Nat) : List Nat := spared (bits optic 7 0)
/-- Receive lanes of a FUSE_OPTIC value on spare positions. -/
def rxSpared (optic : Nat) : List Nat := spared (bits optic 15 8)

/-- R540: the lane that an end sends on its position TXS`k`, from its own FUSE_OPTIC value and the other end's: its own
repaired lane, else a copy of the lane that the other end's RXS`k` receives, else none (dark). -/
def spareSends (own other k : Nat) : Option Nat :=
  match (txSpared own)[k]? with
  | some n => some n
  | none => (rxSpared other)[k]?

/-- R540: lanes that an end's receivers lock, from its own FUSE_OPTIC value, the other end's, and the receive positions
at which what the other end sends arrives. A repaired receive lane ignores its normal position; an RXS position takes
whichever lane arrives there. -/
def lockedLanes (own other positions : Nat) : Nat :=
  bitsWhere 8 fun n =>
    (bit positions n && !(txSpared other).contains n && !(rxSpared own).contains n) ||
      (List.range 2).any fun k => bit positions (8 + k) && spareSends other own k == some n

/-- Lanes used while the optical engine at either end is throttled: lanes 0 to 3 of 8 (R416). -/
def throttledLanes (x : Link) : Nat := if (x.throttle || x.peerHot) && x.trained == 0xFF then 0x0F else x.trained

/-- Reason of a width below 8: throttling, lanes that failed, or the peer's limit (R420). -/
def widthReason (own peer : Nat) (x : Link) (used : Nat) : Nat :=
  let w := popcount x.trained 8
  if popcount used 8 = 8 then 0
  else if used ≠ x.trained then 2
  else if w < min own peer then 1
  else if peer < own then 3
  else 0

/-- R415: a reduction that throttling causes sends THERMAL_THROTTLE instead of LINK_DEGRADED. The housekeeping round sends
it for the engine of this end (R517); on the peer's account this end sends it with the link and the width (DEDUCED,
assumption 27). -/
def throttleEvent (l w : Nat) (r : Run d₀) : Run d₀ := when (!(linkOf r.dev l).throttle) (linkEvent stThrottle l w) r

/-- The link enters service, or goes on in it, at the width agreed (R415). -/
def enterService (l peerMax : Nat) (r : Run d₀) : Run d₀ :=
  let was := inService r.dev l
  let old := linkWidth r.dev l
  let x := linkOf r.dev l
  let used := throttledLanes x
  let w := popcount used 8
  let reason := widthReason (linkMax r.dev l) peerMax x used
  let r := setLink l { x with stage := 0, full := false, used := used, failures := 0, relock := false,
                              since := r.dev.time, replay := x.replay.map fun e => { e with resent := 0 } } r
  let r := setLinkWidth l used (setLinkStatus l 2 w reason (setRegBit 0x24 l true r))
  let cooled := was && decide (w < old) && used != x.trained
  let r := if cooled then throttleEvent l w r else when (!was || w != old) (linkEvent stDegraded l w) r
  when (!x.replay.isEmpty) (resendAll l) r

/-- Receive buffer of a virtual channel, in units of 64 bytes: 128 KiB (R392). -/
def bufferUnits : Nat := 2048

/-- Stage 5: device numbers, link numbers and credits are exchanged and sequences start at zero. -/
def handshake (l : Nat) (o : Training) (r : Run d₀) : Run d₀ :=
  let r := setReg (lnkOff l 0x08) (o.peer % 2 ^ 16 + o.peerLink % 2 ^ 5 * 2 ^ 16 + (if o.conforms then 2 ^ 31 else 0)) r
  if !o.conforms || o.peer == deviceNumber r.dev then trainFailed l 6 r
  else
    let x := linkOf r.dev l
    let r := setLink l { x with
      txSeq := 0, rxSeq := 0, nakSent := false, ackOwed := false, owed := [], replay := []
      credits := (List.range 4).foldl (fun m v => mset 0 m v (min bufferUnits o.credits)) [] } r
    enterService l o.peerMax r

/-- Stage 11 of bring-up is completed when every link has trained or is down (R474). -/
def noteTrained (r : Run d₀) : Run d₀ :=
  when (field r.dev (bootOff 0) 3 0 == 10 && !bit (reg r.dev (bootOff 0)) 5 &&
      (List.range 20).all fun l => (linkOf r.dev l).stage == 0) (setField (bootOff 0) 3 0 11) r

/-- The stage of a link's training that runs ends as `o` says. -/
def endTraining (l : Nat) (o : Training) (r : Run d₀) : Run d₀ :=
  let x := linkOf r.dev l
  match x.stage with
  | 1 => if laserOk o.laser then setLink l { x with stage := 2, peerOptic := o.beacon } r else trainFailed l 4 r
  | 2 =>
    let optic := r.dev.boot.fuses.optics.getD l 0
    let own := lockedLanes optic x.peerOptic o.inward
    let both := own &&& lockedLanes x.peerOptic optic o.outward
    let r := setField (lnkOff l 0x18) 7 0 own r
    match chooseLanes both (min (linkMax r.dev l) o.peerMax) with
    | some m => setLink l { x with stage := 3, trained := m } r
    | none => trainFailed l 1 r
  | 3 => if o.aligned then setLink l { x with stage := 4 } r else trainFailed l 1 r
  | 4 =>
    if !o.aligned then trainFailed l 1 r
    else
      let r := setReg (lnkOff l 0x1C) (o.rtt % 2 ^ 16) r
      if x.full then setLink l { x with stage := 5 } r else enterService l o.peerMax r
  | 5 => handshake l o r
  | _ => r

/-- LINK_TRAINING_STAGE. -/
def trainStage (l : Nat) (o : Training) (now : Nat) (r : Run d₀) : Run d₀ := noteTrained (endTraining l o (reach now r))

/-- The link's base die answered when the stacks trained; else the link does not train (R488). -/
def baseAnswers (d : Dev) (l : Nat) : Bool := bit (reg d (stkOff l 0x04)) 0

/-- FULL_TRAINING_RETRY: every 1 s for a down link that is enabled. -/
def retryTraining (l now : Nat) (r : Run d₀) : Run d₀ :=
  let r := reach now r
  let x := linkOf r.dev l
  if linkState r.dev l = 0 && x.stage == 0 && linkEnabled r.dev l && baseAnswers r.dev l && decide (x.triedAt + 1000000000 ≤ r.dev.time) &&
      bit (reg r.dev (bootOff 0)) 4 then beginTraining l true r
  else r

/-- A retrain is requested: in place when in service, otherwise full training, also of a link that trains already
(R420); a disabled link does not train, nor one whose base die does not answer. -/
def requestRetrain (l : Nat) (r : Run d₀) : Run d₀ :=
  if linkState r.dev l = 2 then beginTraining l false r
  else if linkState r.dev l ≠ 4 && linkEnabled r.dev l && baseAnswers r.dev l then beginTraining l true r
  else r

/-- RESEND_LIMIT: a frame resent 16 times retrains the link in place (R397). -/
def limitResends (l : Nat) (r : Run d₀) : Run d₀ :=
  if linkState r.dev l = 2 && (linkOf r.dev l).replay.any fun e => decide (16 ≤ e.resent) then beginTraining l false r
  else r

/-! ## Throttling (R416, R516) -/

/-- THROTTLE_WIDTH_CHANGE: an 8-lane link falls to lanes 0 to 3 when the engine at either end throttles; when throttling
ends the other lanes begin to re-lock. `peer` is what the peer says of its engine in the handshake. -/
def throttleLink (l : Nat) (peer : Bool) (r : Run d₀) : Run d₀ :=
  if linkState r.dev l ≠ 2 then r
  else
    let x := { linkOf r.dev l with peerHot := peer }
    if x.throttle || x.peerHot then
      if x.used = 0xFF then
        throttleEvent l 4 (setLinkWidth l 0x0F (setLinkStatus l 2 4 2 (setLink l { x with used := 0x0F, relock := false } r)))
      else setLink l { x with relock := false } r
    else setLink l { x with relock := x.used != x.trained } r

/-- LANE_RELOCK: the link widens to its trained width. -/
def relockLanes (l : Nat) (r : Run d₀) : Run d₀ :=
  let x := linkOf r.dev l
  if linkState r.dev l = 2 && x.relock then
    let w := popcount x.trained 8
    let r := setLink l { x with used := x.trained, relock := false } r
    linkEvent stDegraded l w (setLinkWidth l x.trained (setLinkStatus l 2 w 0 r))
  else r

/-! ## Routes (R414) -/

/-- ROUTE_REMOVAL: a link out of service leaves every route entry. Firmware waits for a bake in progress. -/
def removeRoutes (l : Nat) (r : Run d₀) : Run d₀ :=
  let vs := (listedRoutes r.dev.regs).filter fun v => bit (reg r.dev (routeOff v)) l
  if inService r.dev l || r.dev.parts.bake.isSome || vs.isEmpty then r
  else addReg (benchOff 0x14) 1 (forEach vs (fun v => setRegBit (routeOff v) l false) r)

/-- ROUTE_RESTORE: a link in service and enabled returns to the entries that the management host last baked with it. -/
def restoreRoutes (l : Nat) (r : Run d₀) : Run d₀ :=
  if !inService r.dev l || !linkEnabled r.dev l || r.dev.parts.bake.isSome then r
  else
    let vs := (listedRoutes r.dev.parts.routes).filter fun v =>
      bit (mget 0#32 r.dev.parts.routes (routeOff v)).toNat l && v != deviceNumber r.dev && !bit (reg r.dev (routeOff v)) l
    if vs.isEmpty then r else addReg (benchOff 0x14) 1 (forEach vs (fun v => setRegBit (routeOff v) l true) r)

/-! ## The commands -/

/-- LINK_TRAINING_STAGE (R386, R410 to R413, R415, R417). -/
def execLinkTrainingStage (link : LinkId) (outcome : Training) (now : Nat) (s : State) :
    Host.Outcome State Fault Refusal :=
  s.run (trainStage link.val outcome now)

/-- FULL_TRAINING_RETRY (R413). -/
def execFullTrainingRetry (link : LinkId) (now : Nat) (s : State) : Host.Outcome State Fault Refusal :=
  s.run (retryTraining link.val now)

/-- RESEND_LIMIT (R397). -/
def execResendLimit (link : LinkId) (s : State) : Host.Outcome State Fault Refusal := s.run (limitResends link.val)

/-- ROUTE_REMOVAL (R414). -/
def execRouteRemoval (link : LinkId) (s : State) : Host.Outcome State Fault Refusal := s.run (removeRoutes link.val)

/-- ROUTE_RESTORE (R414). -/
def execRouteRestore (link : LinkId) (s : State) : Host.Outcome State Fault Refusal := s.run (restoreRoutes link.val)

/-- THROTTLE_WIDTH_CHANGE (R416, R516). -/
def execThrottleWidthChange (link : LinkId × Bool) (s : State) : Host.Outcome State Fault Refusal :=
  s.run (throttleLink link.1.val link.2)

/-- LANE_RELOCK (R416). -/
def execLaneRelock (link : LinkId) (s : State) : Host.Outcome State Fault Refusal := s.run (relockLanes link.val)

end Sys2Proof.Machine
end

