-- ==== Sys2Proof/Machine/Lifecycle.lean ====
section
/-! DEFINITION. The life of a command: fetch, issue, arrivals, completion, timeouts, overrun and walks (R81 to R117, R163,
R274, R376, R435, R436). -/
namespace Sys2Proof.Machine
variable {d₀ : Dev}

/-! ## The command limit (R376) -/

/-- Device time a command may stay in flight. -/
def cmdLimit (d : Dev) (p : Nat) : Nat := field d (partOff p 0x10) 31 16 * 100000

/-- What a DMA's iteration that an overrun stops has written: what it has at hand, or reads. -/
def overrunDma (c : Cmd) (a x : Desc) (r : Run d₀) : Run d₀ :=
  let l := moves a x 0 none c.iter
  let write := fun (b : Store (List Byte)) (l : List Move) => writeSome c.core (moveWrites a.fmt (fun _ p n => bufBytes b p n) l)
  if (remoteOf r.dev x.base).isSome || c.stage == 0 then r
  else if c.stage == 4 then writeSome c.core c.todo r
  else if (remoteOf r.dev a.base).isSome then
    write c.buf (l.filter fun m => m.src.elim false fun p => !(mget [] c.buf (p / 64)).isEmpty) r
  else
    let (s, r) := readAll c.core (if baseToBase r.dev a x then atHome else ⟨true, false⟩) .none (runAddrs (moveRuns l)) r
    if s.fault.isSome then r else write s.buf l r

/-- Writes of the iteration that an overrun stops, and the flags they raise: which of them are performed is free, and none
are when the iteration had not begun, or has only its images still to write (R163). -/
def overrunWrites (c : Cmd) (r : Run d₀) : Flags × Run d₀ :=
  let (n, r) := fresh (writeLate c r)
  let running := (runningOn r.dev c.core (engineOf c.words)).elim false fun x => x.uid == c.uid
  if n % 2 = 0 then (noFlags, r)
  else
    match engineOf c.words with
    | 2 =>
      if running && !(readsRack c.words && c.taken.isNone) && c.stage == 0 then
        let (o, r) := vectorIter c .none r
        (o.flags, writeSome c.core o.writes r)
      else (noFlags, r)
    | 4 =>
      if running then
        let (o, r) := copyIter c .none r
        (o.flags, writeSome c.core o.writes r)
      else (noFlags, r)
    | 3 =>
      match descOf c.descs 2, descOf c.descs 4 with
      | some a, some x => (noFlags, overrunDma c a x r)
      | _, _ => (noFlags, r)
    | _ => (noFlags, r)

/-- An overrunning command that has not reached a stack stops: a matrix tile is discarded, a taken rack entry frees. -/
def overrunCmd (c : Cmd) (r : Run d₀) : Run d₀ :=
  let (f, r) := overrunWrites c r
  let running := (runningOn r.dev c.core 1).elim false fun x => x.uid == c.uid
  let k := coreOf r.dev c.core
  let r := when (engineOf c.words == 1 && running) (setCore c.core { k with hold := none }) r
  finishCmd { c with late := [], todo := [] } { plain stOverrun with iteration := c.iter, flags := orFlags c.flags f }
    (freeTaken c r)

/-- CMD_OVERRUN: a command still in flight at the limit stops; a RECIPE on its stack stops there and completes with
RECIPE_COMPLETION. -/
def overrun (uid now : Nat) (r : Run d₀) : Run d₀ :=
  let r := reach now r
  match cmdOf r.dev uid with
  | none => r
  | some c =>
    if !c.runs || decide (r.dev.time < c.issued + cmdLimit r.dev c.part) then r
    else
      match if fOpcode c.words = opRecipe then recipeOf r.dev (recipeStack c) uid else none with
      | some x =>
        if x.stop.isSome then r
        else stopRecipe (recipeStack c) x r.dev.time stOverrun 0 0 0 0 (addReg (partOff c.part 0x38) 1 r)
      | none => metered c.part (overrunCmd c) (addReg (partOff c.part 0x38) 1 r)

/-! ## Fetch of control commands and request entries (R314, R440, R453) -/

/-- A control command that was read without its ring entry's data, or that names an op R440 does not define, completes at
fetch. -/
def rejectControl (n : Nat) (r : Run d₀) : Run d₀ :=
  match ringOf r.dev n with
  | some x =>
    match x.head with
    | some h =>
      if x.target ≠ 2 then r
      else if !h.good then endControlAs n { plain stUncorrectable with faultAddr := entryAddr x x.fetch, faultCount := 1 } r
      else if ctrlOps.contains (cOp h.words) then r
      else endControl n ((ctrlFault r.dev (n / 16) h.words).getD stDescriptor) r
    | none => r
  | none => r

/-- A request entry that was read without its data, or whose kind R314 does not define, completes at fetch. -/
def rejectRequest (n : Nat) (r : Run d₀) : Run d₀ :=
  match ringOf r.dev n with
  | some x =>
    match x.head with
    | some h =>
      let kind := fOpcode h.words
      let done := fun (st : Nat) => postCompletion (n / 16 * 16 + x.host)
        (requestEntry st 0 kind (entryId h.words) n x.fetch r.dev.time noOutcome) (leaveHead n x r)
      if x.target ≠ 1 then r
      else if !h.good then done stUncorrectable
      else if 1 ≤ kind ∧ kind ≤ 7 then r
      else done stDescriptor
    | none => r
  | none => r

/-- COMMAND_FETCH. -/
def fetchCommand (n now : Nat) (r : Run d₀) : Run d₀ := rejectRequest n (rejectControl n (fetchRing n now r))

/-! ## The commands -/

/-- COMMAND_FETCH (R82, R110, R440). -/
def execCommandFetch (ring : RingId) (now : Nat) (s : State) : Host.Outcome State Fault Refusal :=
  s.run (fetchCommand ring.val now)

/-- COMMAND_ISSUE (R83, R110). -/
def execCommandIssue (ring : RingId) (now : Nat) (upset : Upset) (s : State) : Host.Outcome State Fault Refusal :=
  s.run (issueHead ring.val now upset (recipeChecks upset))

/-- TAG_ARRIVAL (R95, R100). -/
def execTagArrival (n now : Nat) (s : State) : Host.Outcome State Fault Refusal := s.run (arriveTag n now)

/-- COMMAND_COMPLETION (R97, R111 to R113). -/
def execCommandCompletion (uid now : Nat) (s : State) : Host.Outcome State Fault Refusal := s.run (completeDone uid now)

/-- COMPLETION_ENTRY (R317, R435, R438). -/
def execCompletionEntry (hostRing : RingId) (s : State) : Host.Outcome State Fault Refusal :=
  s.run (writeWaiting hostRing.val)

/-- WAIT_TIMEOUT (R115, R136, R163). -/
def execWaitTimeout (ring : RingId) (now : Nat) (s : State) : Host.Outcome State Fault Refusal :=
  s.run (expireWait ring.val now)

/-- CMD_OVERRUN (R163, R274, R376). -/
def execCmdOverrun (uid now : Nat) (s : State) : Host.Outcome State Fault Refusal := s.run (overrun uid now)

/-- FLUSH_WALK (R114, R436). -/
def execFlushWalk (ring : RingId) (now : Nat) (s : State) : Host.Outcome State Fault Refusal :=
  s.run (walkStep ring.val now)

end Sys2Proof.Machine
end

