-- ==== Sys2Proof/Machine/Slices.lean ====
section
/-! DEFINITION. Time slices of a sliced partition (R373 to R375). -/
namespace Sys2Proof.Machine
variable {d₀ : Dev}

/-- The partition's jobs are time-sliced. -/
def isSliced (d : Dev) (p : Nat) : Bool := bit (reg d (partOff p 0)) 1

/-- Length of a slice in ns. -/
def sliceLength (d : Dev) (p : Nat) : Nat := field d (partOff p 0x10) 15 0 * 100000

/-- The partition's cores that are time-sliced: all but those of its serving loop. -/
def slicedCores (d : Dev) (p : Nat) : List Nat :=
  ((List.range (clusterCount d)).filter fun k =>
    clusterPart d k == some p && !((servingOf d p).clusters.contains k)).flatMap fun k =>
      (List.range (coresPerCluster d)).map fun j => 32 * k + j

/-- Runnable jobs: some ring of the job, whose queue is not halted, holds a command that has not issued. -/
def runnableJobs (d : Dev) (p : Nat) : List Nat :=
  (d.host.rings.filterMap fun e =>
    match e.2 with
    | some x =>
      if x.target == 0 && (slicedCores d p).contains x.core && !x.halted && x.fetch != x.prod && x.walk.isNone then
        some x.job
      else none
    | none => none).eraseDups.mergeSort (fun a b => decide (a ≤ b))

/-- The job that gets the next slice after `j`: the next runnable one in ascending order, wrapping round. -/
def nextJob (d : Dev) (p j : Nat) : Option Nat :=
  let l := runnableJobs d p
  match l.find? fun k => decide (j < k) with
  | some k => some k
  | none => l.head?

/-- Job that has the partition's slice, and its end. -/
def sliceJob (d : Dev) (p : Nat) : Nat := mget 0 d.parts.job p
/-- See `sliceJob`. -/
def sliceEndAt (d : Dev) (p : Nat) : Nat := mget 0 d.parts.sliceEnd p

/-- Give the partition's slice to a job until `t`. -/
def setSlice (p job t : Nat) (r : Run d₀) : Run d₀ :=
  (r.emit (.job p job)).emit (.sliceEnd p t)

/-- A core's slice ends: it stops fetching from the rings of its job. -/
def stopCore (core : Nat) (r : Run d₀) : Run d₀ := setCore core { coreOf r.dev core with stopped := true } r

/-- SLICE_END: the partition's slice passes to the next runnable job, and cores of another job stop fetching. With no
other job to run it is renewed. Before that, a core whose own slice an overrun has shortened stops at its end. -/
def endSlice (p now : Nat) (r : Run d₀) : Run d₀ :=
  let r := reach now r
  if !isSliced r.dev p || !partInForce r.dev p then r
  else
    let job := sliceJob r.dev p
    let t := r.dev.time
    let past := decide (sliceEndAt r.dev p ≤ t)
    let next := (nextJob r.dev p job).getD job
    if past && next == job then
      forEach (slicedCores r.dev p) (fun k r =>
        let c := coreOf r.dev k
        when (c.job == job && !c.stopped) (setCore k { c with sliceEnd := t + sliceLength r.dev p }) r)
        (setSlice p job (t + sliceLength r.dev p) r)
    else if past then
      forEach (slicedCores r.dev p) (fun k r => when (decide ((coreOf r.dev k).job ≠ next)) (stopCore k) r)
        (setSlice p next (t + sliceLength r.dev p) r)
    else
      forEach (slicedCores r.dev p) (fun k r =>
        let c := coreOf r.dev k
        when (!c.stopped && decide (c.sliceEnd ≤ t) && (nextJob r.dev p c.job).getD c.job != c.job) (stopCore k) r) r

/-- A switch point of a core: none of its commands is in flight and its rack is empty. -/
def switchPoint (d : Dev) (core : Nat) : Bool :=
  (d.hearth.cmds.all fun c => c.core != core) && (coreOf d core).rack.isEmpty

/-- The heads of a core's rings of a job are given up: they are fetched again (R374). -/
def dropHeads (core job : Nat) (r : Run d₀) : Run d₀ :=
  forEach (r.dev.host.rings.map (·.1)) (fun n r =>
    match ringOf r.dev n with
    | some x => when (x.target == 0 && x.core == core && x.job == job) (setRing n (some { x with head := none })) r
    | none => r) r

/-- JOB_SWITCH: a stopped core at a switch point takes the incoming job. The overrun is owed by the outgoing job on this
core; what the incoming job owes shortens its slice. -/
def switchJob (core now : Nat) (r : Run d₀) : Run d₀ :=
  let r := reach now r
  match clusterPart r.dev (core / 32) with
  | none => r
  | some p =>
    let c := coreOf r.dev core
    if !isSliced r.dev p || !c.stopped || !switchPoint r.dev core then r
    else
      let late := r.dev.time - c.sliceEnd
      let job := if c.job = sliceJob r.dev p then (nextJob r.dev p c.job).getD c.job else sliceJob r.dev p
      let full := if job = sliceJob r.dev p then sliceEndAt r.dev p else sliceEndAt r.dev p + sliceLength r.dev p
      let debt := mset 0 c.debt c.job (mget 0 c.debt c.job + late)
      let use := min (mget 0 debt job) (sliceLength r.dev p)
      let r := dropHeads core c.job r
      let r := setCore core { c with job := job, stopped := false, sliceEnd := full - use
                                     debt := mset 0 debt job (mget 0 debt job - use) } r
      let us := min (late / 1000) (2 ^ 32 - 1)
      setReg (partOff p 0x34) (max (reg r.dev (partOff p 0x34)) us) r

/-- Slicing begins in a partition: the lowest runnable job has the first slice, on every sliced core. -/
def beginSlicing (p : Nat) (r : Run d₀) : Run d₀ :=
  let job := ((runnableJobs r.dev p).head?).getD 0
  let t := r.dev.time + sliceLength r.dev p
  forEach (slicedCores r.dev p) (fun k =>
    fun r => setCore k { coreOf r.dev k with job := job, stopped := false, sliceEnd := t, debt := [] } r) (setSlice p job t r)

/-- R373: a slice covers all sliced cores: cores that a change since `d` makes sliced cores of a partition already sliced
take part in the slice in force. -/
def followSlices (d : Dev) (r : Run d₀) : Run d₀ :=
  forEach ((List.range 16).filter fun p => isSliced d p && isSliced r.dev p && partInForce d p && partInForce r.dev p)
    (fun p r => forEach ((slicedCores r.dev p).filter fun k => !((slicedCores d p).contains k))
      (fun k r => setCore k { coreOf r.dev k with
        job := sliceJob r.dev p, stopped := false, sliceEnd := sliceEndAt r.dev p, debt := [] } r) r) r

/-- SLICE_END (R373). -/
def execSliceEnd (part : PartId) (now : Nat) (s : State) : Host.Outcome State Fault Refusal :=
  s.run (endSlice part.val now)

/-- JOB_SWITCH (R106, R139, R374, R375). -/
def execJobSwitch (core : CoreId) (now : Nat) (s : State) : Host.Outcome State Fault Refusal :=
  s.run (switchJob core.val now)

end Sys2Proof.Machine
end

