-- ==== Sys2Proof/Machine/Bake.lean ====
section
/-! DEFINITION. The bake: check and prepare, acknowledgement, instant, abort and fills (R78, R102, R139, R174, R247 to R250,
R255, R281, R287, R356 to R369, R404, R426, R493, R513). -/
namespace Sys2Proof.Machine
variable {d₀ : Dev}

/-! ## Affected units (R364, R365) -/

/-- The change of a region entry touches nothing but scrub and zero_on_reassign. -/
def upkeepOnly (x y : Settings) (n : Nat) : Bool :=
  x.rd (rgnOff n 0) == y.rd (rgnOff n 0) && x.rd (rgnOff n 4) == y.rd (rgnOff n 4) &&
    (x.rd (rgnOff n 8) ^^^ y.rd (rgnOff n 8)) &&& (2 ^ 32 - 1 - 0xC0) == 0

/-- The units that a bake affects. -/
def bakeUnits (d : Dev) (staged : Store Reg) : List BakeUnit :=
  let x := settingsNow d
  let y := settingsWith d staged
  let offs := (staged.map (·.1)).filter fun o => x.rd o != y.rd o
  let modes := (allChans.filter fun e => x.mode e.1 e.2 != y.mode e.1 e.2).map fun e => BakeUnit.mode e.1 e.2
  let budgets := ((List.range 20).filter fun s => offs.contains (seqOff s 0)).map BakeUnit.budget
  let clusters := ((List.range 64).filter fun k => x.clusterHolder k != y.clusterHolder k).map BakeUnit.cluster
  let holders := (allChans.filter fun e => x.chanHolder e.1 e.2 != y.chanHolder e.1 e.2).map fun e => BakeUnit.holder e.1 e.2
  let regions := (y.entries.filter fun n => (entryRegs n).any offs.contains).map fun n =>
    if upkeepOnly x y n then BakeUnit.upkeep n else BakeUnit.region n
  let links := ((List.range 20).filter fun l => offs.contains (lnkOff l 0x0C)).map BakeUnit.link
  let routes := if offs.any fun o => decide (0x300000 ≤ o ∧ o < 0x308000 ∧ 0x800 ≤ o % 0x1000) then [BakeUnit.routes] else []
  let supply := if offs.contains (thmOff 0x18) then [BakeUnit.supply] else []
  let pairs := ((List.range 256).filter fun q => offs.contains (qpPartOff q)).map BakeUnit.queuePair
  let others := offs.filter fun o =>
    (decide (0x20000 ≤ o ∧ o < 0x30000) && !([0x08, 0x0C].contains (o % 0x100)) && decide (o % 0x100 < 0x40)) ||
      decide (0x400000 ≤ o ∧ o < 0x400400)
  modes ++ budgets ++ clusters ++ holders ++ regions ++ links ++ routes ++ supply ++ pairs ++ others.map BakeUnit.setting

/-- Some granule of the extent of a command in flight meets `p`, which holds on whole areas and channels that begin at
`edges`. -/
def cmdTouches (d : Dev) (edges : List Nat) (p : Nat → Bool) (c : Cmd) : Bool :=
  let at_ := fun (a : Nat) => match placeOf d a with
    | .mem _ k => p k
    | _ => false
  let n := iterations c.words
  (c.descs.any fun x => (x.extent n).any fun g => at_ (g * 64)) || (plainAddrs c.words).any at_ ||
    (cmdRanges d c).any fun e => rangeMeets at_ edges e.1 e.2

/-- Some command in flight has an extent that meets `p`. -/
def flightTouches (d : Dev) (edges : List Nat) (p : Nat → Bool) : Bool := d.hearth.cmds.any (cmdTouches d edges p)

/-- A RECIPE that has issued names the channel: it runs or waits on it, or is on its way to the stack (R267, R365). -/
def chanInUse (d : Dev) (s c : Nat) : Bool :=
  (chanOf d s c).run.isSome || !(chanRecipes d s c).isEmpty ||
    d.hearth.cmds.any fun x =>
      fOpcode x.words == opRecipe && x.runs && recipeStack x == s && bit (bits (wd x.words 3) 63 32) c

/-- Nothing is aimed at the channel: no recipe, no remap, no granule in its FIFOs, no extent of a command in flight. -/
def chanQuiet (d : Dev) (s c : Nat) : Bool :=
  !chanInUse d s c && !remapping d s c && (chanOf d s c).inbound.isEmpty && (chanOf d s c).outbound.isEmpty &&
    !flightTouches d (edgePoints [] [(s, c)] []) fun k => keyStack k == s && keyChan k == c

/-- A region before and after the bake in progress covers the key. -/
def regionTouch (d : Dev) (n k : Nat) : Bool :=
  let a := regionAt d n
  let b := regionVia (stagedReg d) n
  (a.valid && a.area.covers k) || (b.valid && b.area.covers k)

/-- The channels that a region covers before or after the bake. -/
def regionChans (d : Dev) (n : Nat) : List (Nat × Nat) :=
  let a := regionAt d n
  let b := regionVia (stagedReg d) n
  (if a.valid then areaPairs a.area else []) ++ (if b.valid then areaPairs b.area else [])

/-- A unit's condition for acknowledging its prepare (R248, R281, R365, R420, R465). -/
def ackReady (d : Dev) (u : BakeUnit) : Bool :=
  match u with
  | .mode s c => chanQuiet d s c
  | .budget s => (List.range 32).all fun c => !chanInUse d s c && !remapping d s c
  | .cluster k =>
    (d.hearth.cmds.all fun c => c.core / 32 != k) && (clusterOf d k).atomic.all fun g => !homeHeld d (g.1 * 64)
  | .holder s c => chanQuiet d s c
  | .region n =>
    !flightTouches d (edgePoints [(regionAt d n).area, (regionVia (stagedReg d) n).area] [] []) (regionTouch d n) &&
      (regionChans d n).all fun e => !chanInUse d e.1 e.2 && !remapping d e.1 e.2 &&
        ((chanOf d e.1 e.2).inbound.all fun q => !regionTouch d n q.granule) && (chanOf d e.1 e.2).outbound.isEmpty
  | .link l =>
    let off := linkEnabled d l && !bit (stagedReg d (lnkOff l 0x0C)) 4
    !off || d.fabric.queue.all fun w => outputOf d w.frame != some l
  | _ => true

/-! ## BAKE (R362, R363, R383) -/

/-- A duration in units of 100 ns, saturating at 0xFFFF. -/
def duration16 (t0 t1 : Nat) : Nat := min 0xFFFF ((t1 - t0) / 100)

/-- The result fields of a management bake. -/
def bakeResult (st asked : Nat) (r : Run d₀) : Run d₀ :=
  setReg (benchOff 0x20) (duration16 asked r.dev.time) (setReg (benchOff 0x04) (st * 2 ^ 8) r)

/-- The values on the bench. -/
def benchValues (d : Dev) : Store Reg := d.bench.filterMap fun e => e.2.map fun v => (e.1, v)

/-- The unit is channel `c` of stack `s`, or part of what that channel acknowledges for. -/
def BakeUnit.onChan (s c : Nat) : BakeUnit → Bool
  | .mode t e => t == s && e == c
  | .holder t e => t == s && e == c
  | .budget t => t == s
  | _ => false

/-- The unit lies in stack `s`. -/
def BakeUnit.onStack (s : Nat) (u : BakeUnit) : Bool := (List.range 32).any fun c => u.onChan s c

/-- A mode of the stack is staged (R253). -/
def stagesMode (staged : Store Reg) (s : Nat) : Bool := staged.any fun e => e.1 == stkOff s 0x08 || e.1 == stkOff s 0x0C

/-- Channels of a stack that the bake affects and that have acknowledged (R253). -/
def Bake.ackedChans (b : Bake) (s : Nat) : List Nat :=
  (List.range 32).filter fun c =>
    let l := b.units.filter (·.onChan s c)
    !l.isEmpty && l.all b.acked.contains

/-- STK_PREP_ACK and, when the stack's last unit `u` has acknowledged, STK_PREP_TIME (R253). -/
def showPrep (b : Bake) (u : BakeUnit) (s : Nat) (r : Run d₀) : Run d₀ :=
  if u.onStack s && stagesMode b.staged s then
    let r := setReg (stkOff s 0x14) ((b.ackedChans s).foldl (fun n c => n + 2 ^ c) 0) r
    when (b.units.all fun v => !v.onStack s || b.acked.contains v)
      (setReg (stkOff s 0x18) (duration16 b.sent r.dev.time)) r
  else r

/-- BAKE at the head of ring `n`. -/
def requestBake (n now : Nat) (r : Run d₀) : Run d₀ :=
  let asked := ((ringOf r.dev n).bind (·.head)).elim 0 (·.mark)
  let r := reach now r
  onWrite n (· == .bake) (fun w r =>
    if bit (valueAt w (benchOff 0)) 1 then endControl n stDescriptor r
    else if r.dev.parts.bake.isSome then r
    else
      let staged := benchValues r.dev
      if staged.isEmpty then endControl n stOk (setReg (benchOff 0x04) 0 r)
      else
        match checkBake r.dev staged with
        | some b =>
          let r := setReg (benchOff 0x0C) b.code (bakeResult b.status asked r)
          endControl n b.status ((setReg (benchOff 0x10) (failOffset staged b.offs) r).emit .empty)
        | none =>
          let units := bakeUnits r.dev staged
          let r := forEach ((List.range 20).filter (stagesMode staged)) (fun s r =>
            setReg (stkOff s 0x18) 0 (setReg (stkOff s 0x14) 0 r)) r
          accountHeads none (startControl n w none (r.emit (.bake (some ⟨staged, some n, asked, r.dev.time, units, []⟩))))) r

/-! ## PREPARE_ACK and BAKE_ABORT -/

/-- PREPARE_ACK, within 50 µs of the prepare (R367). -/
def acknowledge (u : BakeUnit) (now : Nat) (r : Run d₀) : Run d₀ :=
  let r := reach now r
  match r.dev.parts.bake with
  | none => r
  | some b =>
    if !b.units.contains u || b.acked.contains u || !ackReady r.dev u || decide (b.sent + 50000 < r.dev.time) then r
    else
      let b := { b with acked := b.acked ++ [u] }
      forEach (List.range 20) (showPrep b u) (r.emit (.bake (some b)))

/-- Units that have not acknowledged: a channel counts once. -/
def unacked (b : Bake) : List BakeUnit :=
  ((b.units.filter fun u => !b.acked.contains u).map fun u => match u with
    | .mode s c => BakeUnit.holder s c
    | v => v).eraseDups

/-- BAKE_ABORT: 50 µs after the prepare without every acknowledgement. -/
def abortBake (now : Nat) (r : Run d₀) : Run d₀ :=
  let r := reach now r
  match r.dev.parts.bake with
  | none => r
  | some b =>
    if (unacked b).isEmpty || decide (r.dev.time < b.sent + 50000) then r
    else
      let late := (List.range 20).filter fun s => stagesMode b.staged s && (unacked b).any (·.onStack s)
      let r := forEach late (fun s => setReg (stkOff s 0x18) (duration16 b.sent r.dev.time)) r
      let r := setReg (benchOff 0x0C) 0xF0 (bakeResult stBake b.asked r)
      let r := setReg (benchOff 0x30) (unacked b).length (setReg (benchOff 0x10) 0 r)
      let r := accountHeads none ((r.emit (.bake none)).emit .empty)
      match b.ring with
      | some n => settleControl n stBake r
      | none => r

/-! ## Parts of the instant (R366) -/

/-- Copies in caches and mirrors whose granule meets `p` are dropped; units' copies of such granules go home first
(R174). -/
def dropWhere (p : Nat → Bool) (r : Run d₀) : Run d₀ :=
  let r := forEach r.dev.hearth.clusters (fun e r =>
    forEach (e.2.atomic.filter fun g => p (g.1 * 64)) (fun g => dropAtomic e.1 g.1) r) r
  let keep := fun (m : Store (List Byte)) => mdrop (fun g => p (g * 64)) m
  let r := forEach r.dev.hearth.clusters (fun e r => setCluster e.1 { e.2 with cache := keep e.2.cache } r) r
  forEach r.dev.hearth.mirrors (fun e r => setMirror e.1 (keep e.2) r) r

/-- R358: a cluster changes holder: cleared cores and scratchpads, empty caches, its queues unbound by a walk that
completes what has not issued with QUEUE_HALTED. -/
def handOver (k : Nat) (r : Run d₀) : Run d₀ :=
  let r := forEach (clusterOf r.dev k).atomic (fun g => dropAtomic k g.1) r
  let r := setCluster k Cluster.init ((r.emit (.dropCores fun c => c / 32 == k)).emit (.dropMirrors fun c => c / 32 == k))
  let r := r.emit (.arrivals (r.dev.hearth.arrivals.filter fun a => a.core / 32 != k))
  let r := r.emit (.clear (k * 2 ^ 24) ((k + 1) * 2 ^ 24))
  forEach (r.dev.host.rings.map (·.1)) (fun n r =>
    match ringOf r.dev n with
    | some x => if x.target = 0 ∧ x.core / 32 = k then startWalk n true true r else r
    | none => r) r

/-- A channel's recipe store is cleared (R255). -/
def clearStore (s c : Nat) (r : Run d₀) : Run d₀ := setChan s c { chanOf r.dev s c with store := [] } r

/-- A channel's page-table entries are invalidated (R287, R359). -/
def clearPages (s c : Nat) (r : Run d₀) : Run d₀ :=
  let x := stackOf r.dev s
  setStack s { x with pages := mdrop (fun e => e / 16384 == c) x.pages } r

/-- Keys of the first and last byte of a page-table entry's cell in each bank (R285, R286). -/
def entryKeys (s e : Nat) (v : Reg) : List Nat :=
  let row := bits v.toNat 14 14 * 16384 + bits v.toNat 13 0
  (List.range 32).flatMap fun b =>
    [columnKey s (e / 16384) b row 0, columnKey s (e / 16384) b (row + 4) 63 + 31]

/-- Page-table entries whose cell lies in an area are invalidated (R287). -/
def clearAreaPages (a : Area) (r : Run d₀) : Run d₀ :=
  forEach (r.dev.stackSet.map (·.1)) (fun s r =>
    let x := stackOf r.dev s
    setStack s { x with pages := x.pages.filter fun e => !(entryKeys s e.1 e.2).any a.covers } r) r

/-- What follows from a channel's retirement in the registers that report it (R122, R251). -/
def reportRetired (s c : Nat) (r : Run d₀) : Run d₀ :=
  let r := setRegBit (stkOff s 0x1C) c true r
  setRegBit (0x40 + s * 4) c false (setRegBit 0x20 (c / 4) false r)

/-- R337: the index is emptied and every cached cell is free. -/
def emptyIndex (p : Nat) (r : Run d₀) : Run d₀ :=
  let v := servingOf r.dev p
  setServing p { v with
    pages := (v.pages.filter fun x => v.inUse x.uid).map fun x => { x with indexed := false } } r

/-- R337, R360: a partition's key is drawn. -/
def drawKey (p : Nat) (r : Run d₀) : Run d₀ :=
  let r := emptyIndex p r
  let b := r.dev.boot
  let r := r.emit (.boot { b with draws := b.draws + 1 })
  let r := r.emit (.key p (Config.randomBits b.draws % 2 ^ 256))
  addReg (partOff p 0x30) 1 r

/-- R426: a queue pair whose partition changes is reset, its rings and host rings unbound, and the completion entries of
its commands are discarded. -/
def releaseQp (q : Nat) (r : Run d₀) : Run d₀ :=
  let r := forEach (r.dev.serving.map (·.1)) (fun p r =>
    let v := servingOf r.dev p
    let mine := fun (n : Nat) => n / 16 == q
    setServing p { v with
      requests := v.requests.map fun x => if mine x.ring then { x with discard := true } else x
      cancels := v.cancels.map fun x => if mine x.ring then { x with discard := true } else x
      outbox := v.outbox.map fun x => if x.qp == q then { x with ending := none } else x
      streams := v.streams.map fun x =>
        { x with closing := x.closing.map fun c => if mine c.ring then { c with discard := true } else c } } r) r
  let r := (setLost q 0 r).emit (.dropRings fun n => n / 16 == q)
  let r := r.emit (.dropHostRings fun n => n / 16 == q)
  let r := r.emit (.ctrl (r.dev.host.ctrl.filter fun c => c.ring / 16 != q))
  let r := dropPackets q (setQp q Qp.init r)
  r.emit (.cmds (r.dev.hearth.cmds.map fun c => if c.ring / 16 == q then { c with discard := true } else c))

/-- A region entry that a bake changes: as it was, and as it will stand. -/
def entryBefore (x : Settings) (n : Nat) : Option Region :=
  let a := regionVia x.rd n
  if a.valid then some a else none

/-- Another owner has the entry after the bake: the owner changed, or the entry was not valid (R454). -/
def newOwnerOf (a : Option Region) (b : Region) : Bool := a.elim true fun y => y.owner != b.owner

/-- R78: the fill that a changed entry calls for: what it covers, or with its owner kept what it did not cover before. -/
def fillFor (x y : Settings) (n : Nat) : Option Fill :=
  let a := entryBefore x n
  let b := regionVia y.rd n
  let code := bit (x.rd (rgnOff n 8)) 4 != bit (y.rd (rgnOff n 8)) 4
  if !b.valid then none
  else if code || (b.zero && newOwnerOf a b) then some ⟨n, b.area, none⟩
  else
    match a with
    | some c => if b.zero && c.area != b.area then some ⟨n, b.area, some c.area⟩ else none
    | none => none

/-- Flags of R493 that a changed entry sets: released by its old owner, received by its new one. -/
def released (x y : Settings) (n : Nat) : Option Nat :=
  let b := regionVia y.rd n
  match entryBefore x n with
  | some a => if b.valid && a.owner != b.owner && !b.zero then some a.owner else none
  | none => none

/-- See `released`. -/
def received (x y : Settings) (n : Nat) : Option Nat :=
  let a := entryBefore x n
  let b := regionVia y.rd n
  let grew := a.elim false fun c => c.area != b.area && !(decide (c.area.direct = b.area.direct) &&
    decide (c.area.base ≤ b.area.base) && decide (b.area.limit ≤ c.area.limit))
  if b.valid && !b.zero && (newOwnerOf a b || grew) then some b.owner else none

/-- R469, R473: an entry changes owner: its mask is disarmed, its taint and its counters are cleared. -/
def freshEntry (n : Nat) (r : Run d₀) : Run d₀ :=
  let armed := bit (reg r.dev (eccOff 0x100)) 31 && field r.dev (eccOff 0x100) 8 0 == n
  let r := when armed (setRegBit (eccOff 0x100) 31 false) r
  let r := setRegBit (eccOff (0x1C0 + 4 * (n / 32))) (n % 32) false r
  setReg (eccOff (0x4000 + n * 8)) 0 (setReg (eccOff (0x4004 + n * 8)) 0 r)

/-- A thermal event: to every partition in force, counted (R517). -/
def thermalEvent (code id reading : Nat) (entry : Bool) (r : Run d₀) : Run d₀ :=
  addReg (thmOff 0x1C) 1 (forEach (partsInForce r.dev) (fun p =>
    postEvent p code 7 0 id (reading % 2 ^ 16 + if entry then 2 ^ 16 else 0)) r)

/-- R513, R519: a new THM_SUPPLY value at the instant. -/
def supplyInstant (old new : Nat) (r : Run d₀) : Run d₀ :=
  let b := r.dev.board
  let before := supplyCode old - b.steps
  let steps := if supplyCode new ≤ supplyCode old then supplyCode new - min before (supplyCode new) else b.steps
  let r := setReg (thmOff 0x18) (supplyCode new + supplyCap new * 2 ^ 16) r
  let r := r.emit (.board { b with steps := steps })
  let h := reg r.dev (thmOff 0x04)
  when (b.steps != 0 && steps == 0) (thermalEvent stThrottle (bits h 21 16) (bits h 15 0) false) r

/-- R420: a link's LNK_CTRL changes. -/
def linkInstant (l old new : Nat) (r : Run d₀) : Run d₀ :=
  if bit old 4 && !bit new 4 then goDown l 4 5 r
  else if !bit old 4 && bit new 4 then setField (lnkOff l 0x04) 2 0 0 r
  else r

/-! ## BAKE_INSTANT -/

/-- Zero-fills of a bake: the granules read as zeros from the instant on, and are held until the fill is complete. -/
def startFills (l : List Fill) (r : Run d₀) : Run d₀ :=
  let r := forEach l (fun f r => r.emit (.fill f.area f.before)) r
  r.emit (.fills (r.dev.parts.fills ++ l))

/-- The management host's route entries, as this bake leaves them (R414). -/
def keepRoutes (staged : Store Reg) (r : Run d₀) : Run d₀ :=
  forEach (listedRoutes staged) (fun v r => r.emit (.route (routeOff v) (mget 0#32 staged (routeOff v)))) r

/-- What a granule's copies depend on: its channel's mode, and the owner and code of its region (R174). -/
def copyKey (x : Settings) (k : Nat) : Nat × Option (Nat × Bool) :=
  (x.mode (keyStack k) (keyChan k), (x.regionOf k).map fun y => (y.owner, y.light))

/-- Only registers of access RWB are staged (R361). -/
def bakeable (off : Nat) : Bool := (regInfo off).elim false (·.access == .rwb)

/-- A changed entry changes owner (R469, R473): its owner field changes. -/
def ownerChanged (x y : Settings) (n : Nat) : Bool := (regionVia x.rd n).owner != (regionVia y.rd n).owner

/-- Every staged value takes effect (R366); what buckets hold was gained at the old rates (R371). -/
def commitBake (staged : Store Reg) (r : Run d₀) : Run d₀ :=
  let r := forEach (List.range 16) (fun p => forEach [0x20, 0x24, 0x28, 0x2C] fun o =>
    when (staged.any fun e => e.1 == partOff p o || e.1 == partOff p 0) (settleClass p o)) r
  let d := r.dev
  let x := settingsNow d
  let y := settingsWith d staged
  let offs := (staged.map (·.1)).filter fun o => x.rd o != y.rd o
  let entries := y.entries.filter fun n => (entryRegs n).any offs.contains
  let owners := (List.range 16).filter (newOwner d y)
  let slicing := (List.range 16).filter fun p =>
    y.inForce p && bit (y.rd (partOff p 0)) 1 && !(x.inForce p && bit (x.rd (partOff p 0)) 1)
  let r := dropWhere (fun k => copyKey x k != copyKey y k) r
  let r := forEach ((List.range 64).filter fun k => x.clusterHolder k != y.clusterHolder k) handOver r
  let r := forEach ((List.range 256).filter fun q => offs.contains (qpPartOff q)) releaseQp r
  let r := forEach ((staged.map (·.1)).filter bakeable) (fun o => setReg o (y.rd o)) r
  let r := keepRoutes staged r
  let r := forEach (allChans.filter fun e => x.mode e.1 e.2 != y.mode e.1 e.2) (fun e r =>
    let r := clearPages e.1 e.2 (clearStore e.1 e.2 r)
    let r := setChan e.1 e.2 { chanOf r.dev e.1 e.2 with counted := r.dev.time } r
    when (y.mode e.1 e.2 == 2) (reportRetired e.1 e.2) r) r
  let r := forEach (allChans.filter fun e => x.chanHolder e.1 e.2 != y.chanHolder e.1 e.2) (fun e r =>
    clearPages e.1 e.2 (clearStore e.1 e.2 r)) r
  let r := forEach ((List.range 20).filter fun s => offs.contains (seqOff s 0)) (fun s =>
    forEach (List.range 32) (clearStore s)) r
  let r := forEach entries (fun n r =>
    match entryBefore x n with
    | some a =>
      let b := regionVia y.rd n
      when (a.area.direct && (!b.valid || b.owner != a.owner)) (clearAreaPages a.area) r
    | none => r) r
  let r := forEach entries (fun n r => when (ownerChanged x y n) (freshEntry n) r) r
  let r := forEach (entries.filterMap (released x y)) (fun p r => r.emit (.released p true)) r
  let r := forEach owners (fun p r => (r.emit (.released p false)).emit (.received p false)) r
  let r := forEach (entries.filterMap (received x y)) (fun p r => r.emit (.received p true)) r
  let r := forEach owners drawKey r
  let r := startFills (entries.filterMap (fillFor x y)) r
  let r := forEach ((List.range 20).filter fun l => offs.contains (lnkOff l 0x0C)) (fun l =>
    linkInstant l (x.rd (lnkOff l 0x0C)) (y.rd (lnkOff l 0x0C))) r
  let r := when (offs.contains (thmOff 0x18)) (supplyInstant (x.rd (thmOff 0x18)) (y.rd (thmOff 0x18))) r
  let r := followSlices d (forEach slicing beginSlicing r)
  let r := forEach ([0, 1].filter fun p => offs.contains (ethOff p 0x20)) (fun p => forEach (List.range 8) (judgeBuffer p)) r
  addReg (benchOff 0x14) 1 (accountHeads none r)

/-- BAKE_INSTANT: every affected unit has acknowledged. -/
def instantBake (now : Nat) (r : Run d₀) : Run d₀ :=
  let r := reach now r
  match r.dev.parts.bake with
  | none => r
  | some b =>
    if !(unacked b).isEmpty then r
    else
      let r := commitBake b.staged r
      let r := accountHeads none ((r.emit (.bake none)).emit .empty)
      let r := setReg (benchOff 0x18) (r.dev.time % 2 ^ 32) (bakeResult stOk b.asked r)
      let r := setReg (benchOff 0x1C) (r.dev.time / 2 ^ 32) r
      match b.ring with
      | some n => settleControl n stOk r
      | none => r

/-- ZERO_FILL_COMPLETE: the fills of an entry are done and what is aimed at it is released. -/
def completeFill (n : Nat) (r : Run d₀) : Run d₀ :=
  accountHeads none (r.emit (.fills (r.dev.parts.fills.filter (·.entry != n))))

/-! ## The commands -/

/-- BAKE (R356, R362 to R364, R383). -/
def execBake (ring : RingId) (now : Nat) (s : State) : Host.Outcome State Fault Refusal :=
  s.run (requestBake ring.val now)

/-- PREPARE_ACK (R248, R365). -/
def execPrepareAck (unit : BakeUnit) (now : Nat) (s : State) : Host.Outcome State Fault Refusal :=
  s.run (acknowledge unit now)

/-- BAKE_INSTANT (R78, R102, R174, R249, R255, R358 to R360, R366, R426, R493). -/
def execBakeInstant (now : Nat) (s : State) : Host.Outcome State Fault Refusal := s.run (instantBake now)

/-- BAKE_ABORT (R250, R367). -/
def execBakeAbort (now : Nat) (s : State) : Host.Outcome State Fault Refusal := s.run (abortBake now)

/-- ZERO_FILL_COMPLETE (R368). -/
def execZeroFillComplete (entry : Fin 512) (s : State) : Host.Outcome State Fault Refusal := s.run (completeFill entry.val)

end Sys2Proof.Machine
end

