-- ==== Sys2Proof/Machine/HostAccess.lean ====
section
/-! DEFINITION. Accesses that do not come from a core: a host's reads and writes of module memory (R174, R192, R429,
R453), and those of the firmware. -/
namespace Sys2Proof.Machine
variable {d₀ : Dev}

/-- Addresses that stand for a range: its ends and every 4 KiB boundary within, where the channel may change (R63). -/
def samples (a n : Nat) : List Nat :=
  if n = 0 then []
  else [a, a + n - 1] ++ ((List.range (n / 4096 + 1)).map fun i => (a / 4096 + i + 1) * 4096).filter (· < a + n)

/-- A byte lies in a memory-mode granule of this module, named in space 0xFFFF, that a valid region entry of the
partition covers (R66, R76). -/
def ownedMem (d : Dev) (p a : Nat) : Bool :=
  decide (a / 2 ^ 48 = 0xFFFF) && placeOwned d p (placeOf d a) && !placeProcess d (placeOf d a) &&
    (match placeOf d a with
     | .mem _ k => chanMode d (keyStack k) (keyChan k) == 0
     | _ => false)

/-- Every byte of a range does. -/
def ownedRange (d : Dev) (p a n : Nat) : Bool := (samples a n).all (ownedMem d p)

/-- Every byte of a range that a request names does, in either spelling of its address (R61). -/
def namedRange (d : Dev) (p a n : Nat) : Bool := ownedRange d p (plainAddr d a) n

/-- The range is held: by a bake or fill (R364, R368), a row copy or a retrain (R464, R489). -/
def rangeWaits (d : Dev) (a n : Nat) : Bool :=
  (List.range (cdiv n 64 + 1)).any fun i => doorAddr d (a - a % 64 + 64 * i) || addrHeld d (a - a % 64 + 64 * i)

/-- Data addresses of the granules of a range. -/
def granulesOf (a n : Nat) : List Nat :=
  if n = 0 then [] else (List.range ((a + n - 1) / 64 - a / 64 + 1)).map fun i => (a / 64 + i) * 64

/-- Read granules at their homes, each once (R453): whether any is uncorrectable. -/
def readHomes (l : List Nat) (r : Run d₀) : Bool × Run d₀ :=
  l.foldl (fun (x : Bool × Run d₀) a =>
    match placeOf x.2.dev a with
    | .mem _ k =>
      match readHome k x.2 with
      | (some _, r) => (x.1, r)
      | (none, r) => (true, r)
    | _ => x) (false, r)

/-- Read `n` bytes at their homes: none when a granule is uncorrectable. -/
def readRange (a n : Nat) (r : Run d₀) : Option (List Byte) × Run d₀ :=
  let data := peek r.dev a n
  match readHomes (granulesOf a n) r with
  | (true, r) => (none, r)
  | (false, r) => (some data, r)

/-- The first uncorrectable granule of a range, for the fault report (R453). -/
def firstBad (d : Dev) (a n : Nat) : Option Nat :=
  (granulesOf a n).find? fun g => match placeOf d g with
    | .mem _ k => (granuleCheck d k).uncorrectable
    | _ => false

/-- Granules of a write in part whose merge read would meet an uncorrectable error (R199, R453). -/
def badMerges (d : Dev) (w : WriteSet) : List Nat :=
  (w.filter fun e =>
    match placeOf d (e.1 * 64) with
    | .mem _ k => decide (e.2.1 ≠ fullMask) && (granuleCheck d k).uncorrectable
    | _ => false).map fun e => e.1 * 64

/-- Write bytes at their homes: false when a merge read meets an uncorrectable error, and then nothing is performed
(R453). Copies stay (R174). -/
def writeRange (a : Nat) (data : List Byte) (r : Run d₀) : Bool × Run d₀ :=
  let w := putBytes [] a data
  match badMerges r.dev w with
  | [] =>
    (true, forEach w (fun e r =>
      match placeOf r.dev (e.1 * 64) with
      | .mem _ k => (mergeHome k e.2.1 e.2.2 r).2
      | _ => r) r)
  | l => (false, (readHomes l r).2)

/-- What the read of a descriptor gives. -/
inductive Fetched where
  /-- It lies nowhere that a descriptor may. -/
  | absent
  /-- Its granule is uncorrectable (R453). -/
  | bad
  | good (words : List Dword)
deriving DecidableEq, Repr

/-- A 64-byte descriptor in a memory-mode granule of the partition (R433, R434), in either spelling of its address
(R61). -/
def readDescriptor (p a : Nat) (r : Run d₀) : Fetched × Run d₀ :=
  let a := plainAddr r.dev a
  if a % 64 = 0 && ownedMem r.dev p a then
    match readRange a 64 r with
    | (some b, r) => (.good (toWords b), r)
    | (none, r) => (.bad, r)
  else (.absent, r)

end Sys2Proof.Machine
end

