-- ==== Sys2Proof/Machine/Transport.lean ====
section
/-! DEFINITION. Reliable-connected transport (R425, R428) as what the module receives needs it: the error state of a queue
pair, NAKs, whole messages and their answers; and what a queue pair carries for serving requests (R333, R343, R344). -/
namespace Sys2Proof.Machine
variable {d₀ : Dev}

/-! ## Slice rings -/

/-- Replace the request of the same id. -/
def Serving.put (v : Serving) (x : Gen) : Serving :=
  { v with requests := v.requests.map fun y => if y.id == x.id then x else y }

/-- The active request of an id. -/
def Serving.gen (v : Serving) (id : Nat) : Option Gen := v.requests.find? (·.id == id)

/-- The slice ring has room for the width (R343). -/
def Gen.room (x : Gen) : Bool := decide ((x.prod + x.width + 2 ^ 32 - x.cons) % 2 ^ 32 ≤ 256)

/-- The slice ring lacks room for a request's next step, or its queue pair is in error (R343, R344). -/
def Gen.shut (d : Dev) (x : Gen) : Bool := !x.room || decide ((qpOf d (x.ring / 16)).mode ≠ .ready)

/-- A decoding request is blocked on its slice ring or its queue pair (R333, R344). -/
def Gen.stuck (d : Dev) (x : Gen) : Bool := x.state == .decode && x.shut d

/-- Up to now: the time that a request stood blocked since this was last seen does not count as starved (R333, R344). -/
def Gen.accrue (d : Dev) (x : Gen) : Gen :=
  { x with
    hungry := x.hungry.map (· + x.blocked.elim 0 fun t => d.time - t)
    blocked := if x.stuck d then some d.time else none }

/-- A queue pair has changed its mode: the requests whose slice rings it carries are, or are no longer, blocked on it. -/
def noteBlocked (q : Nat) (r : Run d₀) : Run d₀ :=
  forEach (r.dev.serving.map (·.1)) (fun p r =>
    let v := servingOf r.dev p
    if !v.requests.any (·.ring / 16 == q) then r
    else setServing p { v with requests := v.requests.map fun x => if x.ring / 16 == q then x.accrue r.dev else x } r) r

/-- Read the consumer index of a request's slice ring, if no read is outstanding (R343); one that cannot leave, the queue
pair being in error or having its 8 READs outstanding (R428), is still to be sent. -/
def askConsumer (p : Nat) (x : Gen) (r : Run d₀) : Run d₀ :=
  let q := x.ring / 16
  if x.asked then r
  else if !qpReady r.dev q || decide (8 ≤ ((qpOf r.dev q).unacked.filter isRead).length) then
    setServing p ((servingOf r.dev p).put { x with asks := true }) r
  else
    let r := setServing p ((servingOf r.dev p).put { x with asked := true, asks := false }) r
    sendMsg q (.read q (x.addr + 4100) x.rkey 4 1) r

/-- The reads of consumer indices that are still to be sent on a queue pair, as many as may leave now. -/
def sendAsks (q : Nat) (r : Run d₀) : Run d₀ :=
  forEach (r.dev.serving.map (·.1)) (fun p r =>
    forEach (((servingOf r.dev p).requests.filter fun x => x.asks && x.ring / 16 == q).map (·.id)) (fun id r =>
      ((servingOf r.dev p).gen id).elim r fun x => askConsumer p x r) r) r

/-- A request whose slice ring lacks room for its next step has the consumer index read, before the boundary (R343). -/
def seekRoom (p id : Nat) (r : Run d₀) : Run d₀ :=
  match (servingOf r.dev p).gen id with
  | some x => if x.room then r else askConsumer p x r
  | none => r

/-- The RDMA read of a slice ring's consumer index returns (R343). -/
def consumerRead (p : Nat) (x : Gen) (index : Nat) (r : Run d₀) : Run d₀ :=
  let x := { x with cons := index % 2 ^ 32, asked := false }
  sendAsks (x.ring / 16) (setServing p ((servingOf r.dev p).put (x.accrue r.dev)) r)

/-! ## Queue pairs in error, NAKs (R428) -/

/-- Reasons of NAKs: invalid request, remote access error, remote operational error. -/
def nakInvalid : Nat := 1
/-- See `nakInvalid`. -/
def nakAccess : Nat := 2
/-- See `nakInvalid`. -/
def nakOperational : Nat := 3

/-- Queue pair 0 leaves the ready state: authentication ends (R441). -/
def dropAuth (q : Nat) (r : Run d₀) : Run d₀ := when (q == 0) (setReg 0x400100 0) r

/-- Status codes that R123 delivers as events. -/
def eventCodes : List Nat :=
  [stWait, stOverrun, stCorrected, stUncorrectable, stRemapFull, stStarved, stDropped, stDegraded, stLinkDown, stSig,
    stWarn, stThrottle]

/-- A queue pair enters the error state; the management host receives an event, whose code the manual does not give: any
of those that R123 delivers as events, free (assumption 35). -/
def qpError (q : Nat) (r : Run d₀) : Run d₀ :=
  let x := qpOf r.dev q
  let r := dropBulk q (setQp q { x with mode := .error, inOpen := false, inData := [] } r)
  let (code, r) := fresh (dropAuth q (noteBlocked q r))
  postEvent 0 (eventCodes.getD (code % eventCodes.length) 0) 8 0 q 0 r

/-- Send a NAK; other than for a sequence error it puts the queue pair in error (R428). -/
def sendNak (q code : Nat) (r : Run d₀) : Run d₀ :=
  let x := qpOf r.dev q
  let r := egress (qpPort x) (.nak q x.recvPsn code) r
  if code = 0 then setQp q { x with nakSent := true } r else qpError q r

/-! ## Messages of a host -/

/-- How a host's message ends: it is held, it is done with this data, or it is refused. -/
inductive Reply where
  | hold
  | good (data : List Byte)
  | refuse (code : Nat)
deriving DecidableEq, Repr

/-- The expected PSN moves on by `k` packets. -/
def advancePsn (q k : Nat) (r : Run d₀) : Run d₀ :=
  let x := qpOf r.dev q
  setQp q { x with recvPsn := (x.recvPsn + k) % 2 ^ 24, nakSent := false } r

/-- Answer a message that took `k` further packets: an ACK of the last, or for a READ its response; or a NAK. -/
def answer (q k : Nat) (read : Bool) (z : Reply × Run d₀) (r : Run d₀) : Run d₀ :=
  match z with
  | (.hold, _) => r
  | (.good data, r) =>
    let x := qpOf r.dev q
    let r := if read then egress (qpPort x) (.readData q x.recvPsn data) r
      else egress (qpPort x) (.ack q ((x.recvPsn + k + 2 ^ 24 - 1) % 2 ^ 24)) r
    advancePsn q k r
  | (.refuse code, r) => sendNak q code r

/-- A whole message of `n` packets arrives for a queue pair, its end taking `k`; one that is held has not arrived yet. -/
def takeWhole (q n k : Nat) (read : Bool) (f : Run d₀ → Reply × Run d₀) (r : Run d₀) : Run d₀ :=
  when (!(qpReady r.dev q && (f r).1 == .hold)) (arrive q n fun r => answer q k read (f r) r) r

end Sys2Proof.Machine
end

