-- ==== Sys2Proof/Machine/Doorbell.lean ====
section
/-! DEFINITION. Doorbell records, submission rings and host rings (R114, R429 to R436, R441). -/
namespace Sys2Proof.Machine
variable {d₀ : Dev}

/-! ## Records (R431) -/
/-- action -/ def bAction (w : Dword) : Nat := bits w.toNat 3 0
/-- ring -/ def bRing (w : Dword) : Nat := bits w.toNat 7 4
/-- index -/ def bIndex (w : Dword) : Nat := bits w.toNat 63 32

/-! ## Binding (R432, R433) -/

/-- Some ring other than those whose queue a bake has taken serves queue `queue` of a core. -/
def boundTo (d : Dev) (core queue : Nat) (p : Ring → Bool) : Bool :=
  d.host.rings.any fun e =>
    match e.2 with
    | some x => x.target == 0 && x.core == core && x.queue == queue && !(x.walk.elim false (·.freed)) && p x
    | none => false

/-- The target of a ring descriptor may be bound: the queue exists, belongs to the partition and not to its serving loop
(R310, R433), and is free, for the job in a sliced partition (R432). -/
def targetFree (d : Dev) (p : Nat) (x : Ring) : Bool :=
  x.target != 0 ||
    (clusterPart d (x.core / 32) == some p && decide (x.core % 32 < coresPerCluster d) &&
      decide (x.core / 32 < clusterCount d) && !((servingOf d p).clusters.contains (x.core / 32)) &&
      !boundTo d x.core x.queue fun y => !bit (reg d (partOff p 0)) 1 || y.job == x.job)

/-- BIND: true when the record is valid. -/
def bindRing (p n a : Nat) (r : Run d₀) : Bool × Run d₀ :=
  if (ringOf r.dev n).isSome then (false, r)
  else
    match readDescriptor p a r with
    | (.good w, r) =>
      let x := ringFrom w
      if ringDescOk w && ownedRange r.dev p (0xFFFF * 2 ^ 48 + x.base) (64 * 2 ^ x.log2) && targetFree r.dev p x then
        (true, setRing n (some x) r)
      else (false, r)
    | (_, r) => (false, r)

/-- HOSTRING: true when the record is valid. -/
def bindHostRing (p q n a : Nat) (r : Run d₀) : Bool × Run d₀ :=
  let open_ := (hostRingOf r.dev n).elim false fun h => h.prod != h.cons || !h.wait.isEmpty
  if open_ then (false, r)
  else
    match readDescriptor p a r with
    | (.good w, r) =>
      match hostRingFrom w with
      | none => (false, r)
      | some h => if h.event && q != ownerQp r.dev p then (false, r) else (true, setHostRing n (some h) r)
    | (_, r) => (false, r)

/-- A request or stream of the ring is active (R432). -/
def ringServes (d : Dev) (n : Nat) : Bool :=
  d.serving.any fun e => (e.2.requests.any (·.ring == n)) || (e.2.streams.any (·.ring == n))

/-! ## The actions (R432): true when the record is valid -/

/-- PRODUCE. -/
def bellProduce (n i : Nat) (r : Run d₀) : Bool × Run d₀ :=
  match ringOf r.dev n with
  | some x =>
    if (i + 2 ^ 32 - x.fetch) % 2 ^ 32 ≤ 2 ^ x.log2 then (true, setRing n (some { x with prod := i }) r) else (false, r)
  | none => (false, r)

/-- UNBIND: the walk waits for the commands in flight. -/
def bellUnbind (n : Nat) (r : Run d₀) : Bool × Run d₀ :=
  match ringOf r.dev n with
  | some x =>
    if x.target = 1 ∧ ringServes r.dev n then (false, r)
    else (true, startWalk n true (x.walk.elim false (·.freed)) r)
  | none => (false, r)

/-- RESUME (R114). -/
def bellResume (n : Nat) (r : Run d₀) : Bool × Run d₀ :=
  match ringOf r.dev n with
  | some x => (true, accountHeads (some x.core) (setRing n (some { x with halted := false }) r))
  | none => (false, r)

/-- FLUSH (R114): a ring that is being unbound goes on being unbound. -/
def bellFlush (n : Nat) (r : Run d₀) : Bool × Run d₀ :=
  match ringOf r.dev n with
  | some x => (true, startWalk n (x.walk.elim false (·.unbind)) (x.walk.elim false (·.freed)) r)
  | none => (false, r)

/-- CONSUME. -/
def bellConsume (n i : Nat) (r : Run d₀) : Bool × Run d₀ :=
  match hostRingOf r.dev n with
  | some h =>
    if (i + 2 ^ 32 - h.cons) % 2 ^ 32 ≤ (h.prod + 2 ^ 32 - h.cons) % 2 ^ 32 then
      (true, setHostRing n (some { h with cons := i }) r)
    else (false, r)
  | none => (false, r)

/-- The action of a record from queue pair `q` of partition `p`. -/
def bellAct (p q : Nat) (w0 w1 : Dword) (r : Run d₀) : Bool × Run d₀ :=
  let n := 16 * q + bRing w0
  if bits w0.toNat 31 8 ≠ 0 ∨ (bAction w0 ≠ 1 ∧ bAction w0 ≠ 5 ∧ w1.toNat ≠ 0) then (false, r)
  else
    match bAction w0 with
    | 0 => bellProduce n (bIndex w0) r
    | 1 => bindRing p n w1.toNat r
    | 2 => bellUnbind n r
    | 3 => bellResume n r
    | 4 => bellFlush n r
    | 5 => bindHostRing p q n w1.toNat r
    | 6 => bellConsume n (bIndex w0) r
    | _ => (false, r)

/-- What queue pair 0 may ring before it has authenticated (R441). -/
def bellOpen (w0 : Dword) : Bool :=
  ([0, 3, 4].contains (bAction w0) && bRing w0 == 0) || (bAction w0 == 6 && decide (bRing w0 < 2))

/-- Perform a doorbell record of queue pair `q`; an invalid one has no effect, counts and sends an event (R432). -/
def doorbell (q : Nat) (w0 w1 : Dword) (r : Run d₀) : Run d₀ :=
  match qpPart r.dev q with
  | none => r
  | some p =>
    let event := fun (st : Nat) (r : Run d₀) => postEvent p st 9 0 (16 * q + bRing w0) w0.toNat r
    if q = 0 ∧ !authenticated r.dev ∧ !bellOpen w0 then event stSig r
    else
      match bellAct p q w0 w1 r with
      | (true, r) => r
      | (false, r) => event stDescriptor (addReg 0x400104 1 r)

/-- A record reads a descriptor that is held. -/
def bellHeld (d : Dev) (w0 w1 : Dword) : Bool :=
  (bAction w0 == 1 || bAction w0 == 5) && rangeWaits d w1.toNat 64

/-- The records of a doorbell write or SEND. -/
def bellRecords (data : List Byte) : List (Dword × Dword) :=
  (chunks 2 data.length (toWords data)).map fun l => (l.getD 0 0, l.getD 1 0)

/-- Perform a write or SEND of several records, in order, each in full before the next. -/
def doorbells (q : Nat) (data : List Byte) (r : Run d₀) : Run d₀ :=
  forEach (bellRecords data) (fun e => doorbell q e.1 e.2) r

/-- Some record of the write waits. -/
def bellsHeld (d : Dev) (data : List Byte) : Bool := (bellRecords data).any fun e => bellHeld d e.1 e.2

/-- A doorbell message of one record. -/
def takeBell (q : Nat) (w0 w1 : Dword) (r : Run d₀) : Reply × Run d₀ :=
  if bellHeld r.dev w0 w1 then (.hold, r) else (.good [], doorbell q w0 w1 r)

/-- A message of one record of action `a` arrives on a queue pair, in order, and is acknowledged (R428, R429). -/
def ring (a q : Nat) (w0 w1 : Dword) (r : Run d₀) : Run d₀ :=
  when (bAction w0 == a) (takeWhole q 1 1 false (takeBell q w0 w1)) r

/-! ## The commands -/

/-- PRODUCE (R431, R432). -/
def execProduce (qp : QpId) (w0 w1 : Dword) (s : State) : Host.Outcome State Fault Refusal := s.run (ring 0 qp.val w0 w1)

/-- BIND (R431 to R433). -/
def execBind (qp : QpId) (w0 w1 : Dword) (s : State) : Host.Outcome State Fault Refusal := s.run (ring 1 qp.val w0 w1)

/-- UNBIND (R431, R432, R436). -/
def execUnbind (qp : QpId) (w0 w1 : Dword) (s : State) : Host.Outcome State Fault Refusal := s.run (ring 2 qp.val w0 w1)

/-- RESUME (R114, R432). -/
def execResume (qp : QpId) (w0 w1 : Dword) (s : State) : Host.Outcome State Fault Refusal := s.run (ring 3 qp.val w0 w1)

/-- FLUSH (R114, R432, R436). -/
def execFlush (qp : QpId) (w0 w1 : Dword) (s : State) : Host.Outcome State Fault Refusal := s.run (ring 4 qp.val w0 w1)

/-- HOSTRING (R432, R434). -/
def execHostring (qp : QpId) (w0 w1 : Dword) (s : State) : Host.Outcome State Fault Refusal := s.run (ring 5 qp.val w0 w1)

/-- CONSUME (R432, R436). -/
def execConsume (qp : QpId) (w0 w1 : Dword) (s : State) : Host.Outcome State Fault Refusal := s.run (ring 6 qp.val w0 w1)

end Sys2Proof.Machine
end

