-- ==== Sys2Proof/Machine/Crypto.lean ====
section
/-! DEFINITION. SHA-256, HMAC and the ECDSA P-256 verification of R483, by the published standards R8 and R483 name. -/
namespace Sys2Proof.Machine

/-- The round constants of SHA-256 as one number, the first in its highest 32 bits: the fractions of the cube roots of the
first 64 primes (`roots_are_constants` in the tests). -/
def shaK : Nat :=
  ((0x428a2f9871374491b5c0fbcfe9b5dba53956c25b59f111f1923f82a4ab1c5ed5d807aa9812835b01243185be550c7dc372be5d7480deb1fe9bdc06a7c19bf174 * 2 ^ 512 +
    0xe49b69c1efbe47860fc19dc6240ca1cc2de92c6f4a7484aa5cb0a9dc76f988da983e5152a831c66db00327c8bf597fc7c6e00bf3d5a7914706ca635114292967) * 2 ^ 512 +
    0x27b70a852e1b21384d2c6dfc53380d13650a7354766a0abb81c2c92e92722c85a2bfe8a1a81a664bc24b8b70c76c51a3d192e819d6990624f40e3585106aa070) * 2 ^ 512 +
    0x19a4c1161e376c082748774c34b0bcb5391c0cb34ed8aa4a5b9cca4f682e6ff3748f82ee78a5636f84c878148cc7020890befffaa4506cebbef9a3f7c67178f2

/-- The initial hash value of SHA-256 in the same form: the fractions of the square roots of the first eight primes. -/
def shaInit : Nat := 0x6a09e667bb67ae853c6ef372a54ff53a510e527f9b05688c1f83d9ab5be0cd19

/-- Word `i` of `n` words that are held in one number, the first in its highest 32 bits. -/
def wordAt (n x i : Nat) : Nat := x / 2 ^ (32 * (n - 1 - i)) % 2 ^ 32

/-- The exclusive or of a 32-bit word turned right by each of these amounts. -/
def spin (x : Nat) (l : List Nat) : Nat := l.foldl (fun y n => y ^^^ (x / 2 ^ n + x * 2 ^ (32 - n) % 2 ^ 32)) 0

/-- The word that comes after sixteen words of the message schedule, the oldest first. -/
def shaNext (w : List Nat) : Nat :=
  let x := w.getD 1 0
  let y := w.getD 14 0
  (w.headD 0 + w.getD 9 0 + (spin x [7, 18] ^^^ x / 8) + (spin y [17, 19] ^^^ y / 1024)) % 2 ^ 32

/-- The working variables of the compression: a, b, c, d and e, f, g, h. -/
structure ShaVars where
  left  : Nat × Nat × Nat × Nat
  right : Nat × Nat × Nat × Nat

/-- One round, with the sum of its schedule word and its constant. -/
def shaRound (v : ShaVars) (add : Nat) : ShaVars :=
  let (p, q, s, t) := v.left
  let (x, y, z, u) := v.right
  let choice := z ^^^ (x &&& (y ^^^ z))
  let most := (p &&& q) ||| (s &&& (p ||| q))
  let sum := u + spin x [6, 11, 25] + choice + add
  ⟨((sum + spin p [2, 13, 22] + most) % 2 ^ 32, p, q, s), ((t + sum) % 2 ^ 32, x, y, z)⟩

/-- The last `n` of 64 rounds, with the next sixteen words of the schedule. -/
def shaRounds : Nat → List Nat → ShaVars → ShaVars
  | 0, _, v => v
  | n + 1, w, v => shaRounds n (w.drop 1 ++ [shaNext w]) (shaRound v (w.headD 0 + wordAt 64 shaK (63 - n)))

/-- One 64-byte block put on a hash value. -/
def shaBlock (h : Nat) (block : List Byte) : Nat :=
  let i := wordAt 8 h
  let v := shaRounds 64 ((chunks 4 16 block).map beNat) ⟨(i 0, i 1, i 2, i 3), (i 4, i 5, i 6, i 7)⟩
  let (a, b, c, d) := v.left
  let (e, f, g, k) := v.right
  [a, b, c, d, e, f, g, k].zipIdx.foldl (fun x y => x * 2 ^ 32 + (y.1 + i y.2) % 2 ^ 32) 0

/-- SHA-256 of a byte string, 32 bytes in the standard's order. -/
def sha256 (m : List Byte) : List Byte :=
  let z := (119 - m.length % 64) % 64
  let p := m ++ (0x80 : Byte) :: (List.replicate z 0 ++ natBE (8 * m.length) 8)
  natBE ((chunks 64 p.length p).foldl shaBlock shaInit) 32

/-- HMAC-SHA-256 with a key of at most 64 bytes (R490). -/
def hmacSha256 (key msg : List Byte) : List Byte :=
  let k := key ++ List.replicate (64 - key.length) 0
  sha256 (k.map (· ^^^ 0x5c) ++ sha256 (k.map (· ^^^ 0x36) ++ msg))

/-- The P-256 field prime. -/
def p256P : Nat := 0xffffffff00000001000000000000000000000000ffffffffffffffffffffffff
/-- The order of the P-256 group. -/
def p256N : Nat := 0xffffffff00000000ffffffffffffffffbce6faada7179e84f3b9cac2fc632551
/-- The curve constant b. -/
def p256B : Nat := 0x5ac635d8aa3a93e7b3ebbd55769886bc651d06b0cc53b0f63bce3c3e27d2604b
/-- The base point. -/
def p256G : Nat × Nat :=
  (0x6b17d1f2e12c4247f8bce6e563a440f277037d812deb33a0f4a13945d898c296,
   0x4fe342e2fe1a7f9b8ee7eb4a7c0f9e162bce33576b315ececbb6406837bf51f5)

/-- x^e mod m by squaring, `fuel` bits. -/
def powMod (m : Nat) : Nat → Nat → Nat → Nat
  | 0, _, _ => 1 % m
  | fuel + 1, x, e =>
    let r := powMod m fuel (x * x % m) (e / 2)
    if e % 2 = 1 then x * r % m else r

/-- The inverse modulo a prime. -/
def invMod (m x : Nat) : Nat := powMod m 256 (x % m) (m - 2)

/-- a − b modulo p. -/
def subMod (a b : Nat) : Nat := (a + p256P - b % p256P) % p256P

/-- A point of the curve, or none for the point at infinity. -/
def ecAdd (p q : Option (Nat × Nat)) : Option (Nat × Nat) :=
  match p, q with
  | none, q => q
  | p, none => p
  | some (x1, y1), some (x2, y2) =>
    if x1 = x2 && (y1 + y2) % p256P = 0 then none
    else
      let l := if x1 = x2 then (3 * x1 * x1 + p256P - 3) * invMod p256P (2 * y1) % p256P
               else subMod y2 y1 * invMod p256P (subMod x2 x1) % p256P
      let x := subMod (l * l) (x1 + x2)
      some (x, subMod (l * subMod x1 x) y1)

/-- n × p, `fuel` bits. -/
def ecMul : Nat → Nat → Option (Nat × Nat) → Option (Nat × Nat)
  | 0, _, _ => none
  | fuel + 1, n, p =>
    let r := ecMul fuel (n / 2) (ecAdd p p)
    if n % 2 = 1 then ecAdd p r else r

/-- R481, R483: the key is a point of P-256. -/
def onCurve (k : Nat × Nat) : Bool :=
  decide (k.1 < p256P) && decide (k.2 < p256P) &&
    decide ((k.2 * k.2) % p256P = (k.1 * k.1 * k.1 + (p256P - 3) * k.1 + p256B) % p256P)

/-- R483: verify a signature of digest `e` under key `q`. -/
def ecdsaVerify (q : Nat × Nat) (e r s : Nat) : Bool :=
  if !onCurve q then false
  else if r < 1 || p256N - 1 < r || s < 1 || p256N - 1 < s then false
  else
    let w := invMod p256N s
    match ecAdd (ecMul 256 (e * w % p256N) (some p256G)) (ecMul 256 (r * w % p256N) (some q)) with
    | none => false
    | some (x, _) => decide (x % p256N = r)

/-- A 64-byte key as a point (R483). -/
def keyPoint (k : List Byte) : Nat × Nat := (beNat (k.take 32), beNat ((k.drop 32).take 32))

/-- R483 on byte strings: key, digest and signature. -/
def verifyBytes (key digest sig : List Byte) : Bool :=
  ecdsaVerify (keyPoint key) (beNat digest) (beNat (sig.take 32)) (beNat ((sig.drop 32).take 32))

/-- A signature of digest `e` under private key `d` with the per-signature secret `k` (R484), as 64 bytes. -/
def ecdsaSign (d e k : Nat) : List Byte :=
  match ecMul 256 k (some p256G) with
  | none => List.replicate 64 0
  | some (x, _) =>
    let r := x % p256N
    natBE r 32 ++ natBE (invMod p256N k * (e + r * d) % p256N) 32

/-- R490: the first HMAC value in 1 to n − 1, `fuel` trials from `i`. -/
def identityKey (seed : List Byte) : Nat → Nat → Nat
  | 0, _ => 1
  | fuel + 1, i =>
    let name : List Byte := [0x4B, 0x58, 0x32, 0x30, 0x2D, 0x49, 0x44, 0x45, 0x4E, 0x54, 0x49, 0x54, 0x59]
    let d := beNat (hmacSha256 seed (name ++ [BitVec.ofNat 8 i]))
    if 1 ≤ d && d ≤ p256N - 1 then d else identityKey seed fuel (i + 1)

/-- The public key of a private key, 64 bytes (R483, R490). -/
def publicKey (d : Nat) : List Byte :=
  match ecMul 256 d (some p256G) with
  | none => List.replicate 64 0
  | some (x, y) => natBE x 32 ++ natBE y 32

end Sys2Proof.Machine
end

