-- ==== Sys2Proof/Machine/ServingOps.lean ====
section
/-! DEFINITION. Serving: requests, their pages and endings (R317, R321, R330, R334, R336, R346), and what the host side
does to them (R343, R344). -/
namespace Sys2Proof.Machine
variable {d₀ : Dev}

/-- Bytes of fixed working-area data, and of one index entry (R320). -/
def workBase : Nat := 256 * 2 ^ 20

/-- The page of a number. -/
def Serving.page (v : Serving) (uid : Nat) : Option Page := v.pages.find? (·.uid == uid)

/-- R334, R346: an ended request gives up its pages: what no other request references becomes cached when it is indexed,
and free otherwise. -/
def Serving.release (v : Serving) (x : Gen) : Serving :=
  let v := { v with requests := v.requests.filter (·.id != x.id) }
  { v with
    refs := v.refs + 1
    pages := (v.pages.filter fun y => !x.pages.contains y.uid || y.indexed || v.inUse y.uid).map fun y =>
      if x.pages.contains y.uid then { y with used := v.refs + 1 } else y }

/-- What the completion of a request reports. -/
def Gen.outcome (x : Gen) : Outcome :=
  { tokens := x.published, steps := x.steps, length := x.n, reused := x.reused, starved := x.starved, first := x.first,
    encoded := 0, dropped := 0 }

/-- The completion entry of a request that has ended (R317). -/
def Ending.entry (e : Ending) : List Byte :=
  requestEntry e.status e.reason 1 e.gen.id e.gen.ring e.gen.seq e.time e.gen.outcome

/-- The last batch of a request carries its ending. -/
def carryEnding (e : Ending) : List Batch → List Batch
  | [] => []
  | b :: l =>
    if b.gen == e.gen.uid && !(l.any (·.gen == e.gen.uid)) then { b with ending := if e.gen.discard then none else some e } :: l
    else b :: carryEnding e l

/-- A request ends (R317, R321): its completion entry goes to its host ring, after the batch that still waits for it. -/
def endGen (p : Nat) (x : Gen) (status reason : Nat) (r : Run d₀) : Run d₀ :=
  let e : Ending := ⟨status, reason, r.dev.time, x⟩
  let v := servingOf r.dev p
  if v.outbox.any (·.gen == x.uid) then setServing p { (v.release x) with outbox := carryEnding e v.outbox } r
  else when (!x.discard) (postCompletion x.host e.entry) (setServing p (v.release x) r)

/-- The host refused a slice-ring access of a request (R344): it ends with DESCRIPTOR_INVALID and loses what it has not
published, at the end of its step when one runs. -/
def refuseSlice (p : Nat) (x : Gen) (r : Run d₀) : Run d₀ :=
  let v := servingOf r.dev p
  let lost := ((v.outbox.filter (·.gen == x.uid)).map (·.entries.length)).sum
  let x := { x with published := x.published - lost }
  let r := setServing p { (v.put x) with outbox := v.outbox.filter (·.gen != x.uid) } r
  if x.state = .step then setServing p ((servingOf r.dev p).put { x with refused := true }) r
  else endGen p x stDescriptor 0 r

/-- The request of a queue pair whose slice ring holds a host address: partition and request. -/
def sliceAt (d : Dev) (q a : Nat) : Option (Nat × Gen) :=
  (d.serving.filterMap fun e =>
    (e.2.requests.find? fun x => x.ring / 16 == q && decide (x.addr ≤ a) && decide (a < x.addr + 4160)).map fun x =>
      (e.1, x)).head?

/-- The first token of a request is published (R317). -/
def Gen.shown (now : Nat) (x : Gen) : Gen := { x with first := some (x.first.getD ((now - x.accepted) / 1000)) }

/-- The same of its ending. -/
def Ending.shown (now : Nat) (e : Ending) : Ending := { e with gen := e.gen.shown now }

/-- A batch of request number `uid` is published: the request knows it, or its ending in a later batch. -/
def noteShown (p uid : Nat) (r : Run d₀) : Run d₀ :=
  let v := servingOf r.dev p
  setServing p { v with
    requests := v.requests.map fun x => if x.uid == uid then x.shown r.dev.time else x
    outbox := v.outbox.map fun b => if b.gen == uid then { b with ending := b.ending.map (·.shown r.dev.time) } else b } r

/-- Write one formed batch: its entries, then the producer index that publishes them, then the completion that follows
(R342, R344). -/
def writeBatch (p : Nat) (b : Batch) (r : Run d₀) : Run d₀ :=
  let r := noteShown p b.gen r
  let r := (b.entries.foldl (fun (z : Nat × Run d₀) e =>
    (z.1 + 1, sendMsg b.qp (.write b.qp (b.addr + 16 * ((b.first + z.1) % 256)) b.rkey e) z.2)) (0, r)).2
  let r := sendMsg b.qp (.write b.qp (b.addr + 4096) b.rkey (natLE (b.first + b.entries.length) 4)) r
  match b.ending with
  | some e => postCompletion e.gen.host (e.shown r.dev.time).entry r
  | none => r

/-- R344: the batches that wait for a queue pair are written, in the order they were formed. -/
def writeBatches (q : Nat) (r : Run d₀) : Run d₀ :=
  forEach (r.dev.serving.map (·.1)) (fun p r =>
    let v := servingOf r.dev p
    let r := setServing p { v with outbox := v.outbox.filter (·.qp != q) } r
    forEach (v.outbox.filter (·.qp == q)) (writeBatch p) r) r

end Sys2Proof.Machine
end

