-- ==== Sys2Proof/Machine/HostPort.lean ====
section
/-! DEFINITION. Host ports: reads and writes of hosts, reliable-connected transport, congestion and PFC, discovery (R421 to
R430, R476). -/
namespace Sys2Proof.Machine
variable {d₀ : Dev}

/-- Full send rate C of a queue pair, in kB/s (R423). -/
def fullRate : Nat := 100000000

/-! ## Queue pairs (R428) -/

/-- Send every unacknowledged message again. -/
def resendUnacked (q : Nat) (r : Run d₀) : Run d₀ :=
  let x := qpOf r.dev q
  let r := setQp q { x with since := r.dev.time } r
  forEach x.unacked (fun m => egress (qpPort x) m.msg) r

/-- A retransmission: within the retries of the descriptor, else the queue pair is in error (R427, R428). -/
def retransmit (q : Nat) (r : Run d₀) : Run d₀ :=
  let x := qpOf r.dev q
  if x.retries < bits (wd x.desc 1) 49 47 then resendUnacked q (setQp q { x with retries := x.retries + 1 } r)
  else qpError q r

/-- `a` lies at or before `b` among PSNs. -/
def psnLe (a b : Nat) : Bool := decide ((b + 2 ^ 24 - a % 2 ^ 24) % 2 ^ 24 < 2 ^ 23)

/-- Last PSN of a sent message. -/
def lastPsn (m : Sent) : Nat := (m.psn + m.packets - 1) % 2 ^ 24

/-- Acknowledgement up to a PSN: the messages it covers, up to the first READ, are done. -/
def ackUpTo (q psn : Nat) (r : Run d₀) : Run d₀ :=
  let x := qpOf r.dev q
  let rest := x.unacked.dropWhile fun m => !isRead m && psnLe (lastPsn m) psn
  if rest.length < x.unacked.length then
    setQp q { x with unacked := rest, retries := 0, since := r.dev.time } r
  else r

/-! ## Messages of a host (R429, R430) -/

/-- Lengths of a doorbell write or SEND. -/
def bellLength (n : Nat) : Bool := [16, 32, 48, 64].contains n

/-- Doorbell records arrive. -/
def takeBells (q : Nat) (data : List Byte) (r : Run d₀) : Reply × Run d₀ :=
  if bellsHeld r.dev data then (.hold, r) else (.good [], doorbells q data r)

/-- The first packet of an RDMA WRITE is admitted (R429). -/
def writeOk (d : Dev) (q rkey va len : Nat) : Bool :=
  match qpPart d q with
  | some p =>
    if rkey = 0x4B440000 + p then va == 0 && bellLength len
    else rkey == 0x4B4D0000 + p && ownedRange d p va len
  | none => false

/-- A whole RDMA WRITE (R192, R429, R453). -/
def takeWrite (q rkey va : Nat) (data : List Byte) (r : Run d₀) : Reply × Run d₀ :=
  if !writeOk r.dev q rkey va data.length then (.refuse nakAccess, r)
  else if rkey / 2 ^ 16 = 0x4B44 then takeBells q data r
  else if rangeWaits r.dev va data.length then (.hold, r)
  else
    match writeRange va data r with
    | (true, r) => (.good [], r)
    | (false, r) => (.refuse nakOperational, r)

/-- A whole SEND (R430). -/
def takeSend (q : Nat) (data : List Byte) (r : Run d₀) : Reply × Run d₀ :=
  if bellLength data.length then takeBells q data r else (.refuse nakInvalid, r)

/-- Incoming RDMA READs of a queue pair whose responses have not wholly left. -/
def openReads (d : Dev) (q : Nat) : Nat :=
  ((portOf d (qpPort (qpOf d q))).egress.filter fun m => match m with
    | .readData n _ _ => n == q
    | _ => false).length

/-- An RDMA READ (R429, R453): of the module key only, and at most 16 outstanding (R428). -/
def takeRead (q rkey va len : Nat) (r : Run d₀) : Reply × Run d₀ :=
  match qpPart r.dev q with
  | some p =>
    if rkey ≠ 0x4B4D0000 + p ∨ !ownedRange r.dev p va len then (.refuse nakAccess, r)
    else if rangeWaits r.dev va len || decide (16 ≤ openReads r.dev q) then (.hold, r)
    else
      match readRange va len r with
      | (some data, r) => (.good data, r)
      | (none, r) => (.refuse nakOperational, r)
  | none => (.refuse nakAccess, r)

/-- HOST_RDMA_WRITE: a whole RDMA WRITE that arrives in order. -/
def hostWrite (q rkey va : Nat) (data : List Byte) (r : Run d₀) : Run d₀ :=
  let n := packetsOf (qpOf r.dev q) data.length
  takeWhole q n n false (takeWrite q rkey va data) r

/-- HOST_RDMA_READ. -/
def hostRead (q rkey va len : Nat) (r : Run d₀) : Run d₀ :=
  takeWhole q 1 (packetsOf (qpOf r.dev q) len) true (takeRead q rkey va len) r

/-! ## Packets (R425, R428) -/

/-- Part of a message: `first` opens it, `last` ends it and performs it; its packets are acknowledged at its end. -/
def takePart (q : Nat) (first last : Bool) (rkey va len : Nat) (data : List Byte) (send : Bool) (r : Run d₀) :
    Run d₀ :=
  let x := qpOf r.dev q
  let key := if send then 0 else rkey
  let open_ := if first then some (key, va, len, ([] : List Byte))
    else if x.inOpen && ((x.inKey == 0) == send) then some (x.inKey, x.inAddr, x.inLeft, x.inData) else none
  match open_ with
  | none => sendNak q nakInvalid r
  | some (key, va, left, got) =>
    let all := got ++ data
    if (first && x.inOpen) || decide (qpMtu x < data.length) || (!last && decide (data.length ≠ qpMtu x)) ||
        (!send && (decide (left < data.length) || (last && decide (left ≠ data.length)))) then sendNak q nakInvalid r
    else if !send && first && !writeOk r.dev q key va len then sendNak q nakAccess r
    else if !last then
      advancePsn q 1 (setQp q { x with inKey := key, inAddr := va, inLeft := left - data.length, inData := all,
                                       inOpen := true } r)
    else
      let z := if send then takeSend q all r else takeWrite q key va all r
      match z with
      | (.hold, _) => r
      | (y, r') =>
        answer q 1 false (y, setQp q { qpOf r'.dev q with inOpen := false, inData := [] } r') r

/-- The response to the oldest READ of the module's own (R428): what came before it is acknowledged with it. -/
def takeResponse (q psn : Nat) (data : List Byte) (r : Run d₀) : Run d₀ :=
  let x := qpOf r.dev q
  match x.unacked.find? isRead with
  | some m =>
    if m.psn ≠ psn then r
    else
      let rest := (x.unacked.dropWhile fun y => !isRead y).drop 1
      let r := setQp q { x with unacked := rest, retries := 0, since := r.dev.time } r
      match m.msg with
      | .read _ a _ _ _ =>
        match sliceAt r.dev q a with
        | some (p, g) => consumerRead p g (leNat (data.take 4)) r
        | none => r
      | _ => r
  | none => r

/-- The host refuses the message of a PSN: a slice-ring access ends its request (R344). -/
def hostRefuses (q psn : Nat) (r : Run d₀) : Run d₀ :=
  let m := (qpOf r.dev q).unacked.find? fun m => psnLe m.psn psn && psnLe psn (lastPsn m)
  let a := m.bind fun m => match m.msg with
    | .write _ a _ _ => some a
    | .read _ a _ _ _ => some a
    | _ => none
  match a.bind (sliceAt r.dev q) with
  | some (p, g) =>
    -- its messages are not sent again
    let x := qpOf r.dev q
    let mine := fun (m : Sent) => match m.msg with
      | .write _ b _ _ => decide (g.addr ≤ b) && decide (b < g.addr + 4160)
      | .read _ b _ _ _ => decide (g.addr ≤ b) && decide (b < g.addr + 4160)
      | _ => false
    refuseSlice p g (setQp q { x with unacked := x.unacked.filter fun m => !mine m } r)
  | none => r

/-- A NAK arrives: a sequence error has the messages from its PSN on sent again; any other puts the queue pair in error.
-/
def takeNak (q psn code : Nat) (r : Run d₀) : Run d₀ :=
  if code = 0 then retransmit q (ackUpTo q ((psn + 2 ^ 24 - 1) % 2 ^ 24) r)
  else
    let r := qpError q r
    if code = nakAccess then hostRefuses q psn r else r

/-- A request packet: in order, before what is expected (a duplicate), or beyond it (a sequence error). -/
def takeRequest (q : Nat) (pk : Packet) (r : Run d₀) : Run d₀ :=
  let x := qpOf r.dev q
  let psn := pk.psn % 2 ^ 24
  if psn = x.recvPsn then
    match pk.op with
    | .write first last va rkey len data => takePart q first last rkey va len data false r
    | .send first last data => takePart q first last 0 0 0 data true r
    | .read va rkey len =>
      if x.inOpen then sendNak q nakInvalid r
      else answer q (packetsOf x len) true (takeRead q rkey va len r) r
    | _ => r
  else if psnLe psn x.recvPsn then
    match pk.op with
    | .read va rkey len =>
      match takeRead q rkey va len r with
      | (.good data, r) => egress (qpPort x) (.readData q psn data) r
      | (.refuse code, r) => sendNak q code r
      | (.hold, _) => r
    | _ => egress (qpPort x) (.ack q ((x.recvPsn + 2 ^ 24 - 1) % 2 ^ 24)) r
  else when (!x.nakSent) (sendNak q 0) r

/-- R423: a CE mark calls for a CNP, at most one per 50 µs and queue pair. -/
def answerMark (q : Nat) (r : Run d₀) : Run d₀ :=
  let x := qpOf r.dev q
  if x.cnpSent.elim false fun t => decide (r.dev.time < t + 50000) then r
  else addReg (ethOff (qpPort x) 0x44) 1 (egress (qpPort x) (.cnp q) (setQp q { x with cnpSent := some r.dev.time } r))

/-- The codewords that the port's FEC corrected, or could not, are counted (R444). -/
def countCodewords (p : Nat) (pk : Packet) (r : Run d₀) : Run d₀ :=
  addReg (ethOff p 0x34) pk.uncorrectable (addReg (ethOff p 0x30) pk.corrected r)

/-- ROCE_PACKET. -/
def takePacket (p : Nat) (pk : Packet) (now : Nat) (r : Run d₀) : Run d₀ :=
  let r := reach now r
  if !portUp r.dev p then r
  else
    let r := holdBuffer p (pk.priority % 8) pk.held (countRx p (countCodewords p pk r))
    let q := pk.qpn - 0x100000
    if !pk.supported || decide (pk.qpn < 0x100000) || decide (256 ≤ q) || !qpReady r.dev q then dropFrame p r
    else
      let r := when pk.ce (answerMark q) r
      match pk.op with
      | .response _ data => takeResponse q (pk.psn % 2 ^ 24) data r
      | .ack => ackUpTo q (pk.psn % 2 ^ 24) r
      | .nak code => takeNak q (pk.psn % 2 ^ 24) code r
      | _ => takeRequest q pk r

/-- ACK_TIMEOUT (R427, R428): 4.096 µs × 2^ack_t without progress. -/
def ackTimeout (q now : Nat) (r : Run d₀) : Run d₀ :=
  let r := reach now r
  let x := qpOf r.dev q
  when (qpReady r.dev q && !x.unacked.isEmpty && decide (x.since + 4096 * 2 ^ bits (wd x.desc 1) 46 43 ≤ r.dev.time))
    (retransmit q) r

/-! ## PFC, congestion, discovery (R421 to R423) -/

/-- PFC_FRAME. -/
def takePfc (p priorities xoff : Nat) (r : Run d₀) : Run d₀ :=
  when (portUp r.dev p) (fun r =>
    let x := portOf r.dev p
    let held := (bitsSet (priorities % 256) 8).foldl (fun m i => if bit xoff i then setBit m i else clearBit m i) x.paused
    addReg (ethOff p 0x38) 1 (countRx p (setPort p { x with paused := held } r))) r

/-- CNP_RECEIVED: the rate becomes the larger of half and C/256, at most once per 50 µs. -/
def takeCnp (q now : Nat) (r : Run d₀) : Run d₀ :=
  let r := reach now r
  arrive q 1 (fun r =>
    let x := qpOf r.dev q
    let cut := x.cutAt.elim true fun t => decide (t + 50000 ≤ r.dev.time)
    let x := { x with cnpAt := some r.dev.time }
    let x := if cut then { x with rate := max (x.rate / 2) (fullRate / 256), cutAt := some r.dev.time } else x
    addReg (ethOff (qpPort x) 0x40) 1 (setQp q x r)) r

/-- RATE_RECOVERY: 55 µs without a CNP. -/
def raiseRate (q now : Nat) (r : Run d₀) : Run d₀ :=
  let r := reach now r
  let x := qpOf r.dev q
  when (x.cnpAt.elim false fun t => decide (max t x.riseAt + 55000 ≤ r.dev.time))
    (setQp q { x with rate := min fullRate (x.rate + fullRate / 64), riseAt := r.dev.time }) r

/-- A port's MAC address (R444). -/
def portMac (d : Dev) (p : Nat) : Nat := reg d (ethOff p 0x04) + field d (ethOff p 0x08) 15 0 * 2 ^ 32

/-- LLDP_TRANSMIT: every 30 s. -/
def sendLldp (p now : Nat) (r : Run d₀) : Run d₀ :=
  let r := reach now r
  let x := portOf r.dev p
  when (portUp r.dev p && decide (x.lldpAt + 30000000000 ≤ r.dev.time))
    (fun r =>
      let mac := portMac r.dev p
      egress p (.lldp mac mac 120 "KX-20") (setPort p { x with lldpAt := r.dev.time } r)) r

/-- LLDP_RECEIVED: discarded and counted. -/
def takeLldp (p : Nat) (r : Run d₀) : Run d₀ :=
  when (portUp r.dev p) (fun r => addReg (ethOff p 0x48) 1 (countRx p r)) r

/-- A port's IPv6 address, byte 0 lowest. -/
def ipv6Of (d : Dev) (p : Nat) : Nat :=
  (List.range 4).foldl (fun n i => n + reg d (ethOff p (0x10 + 4 * i)) * 2 ^ (32 * i)) 0

/-- ARP_REPLY: only for the port's own address, 0 being none (R445). -/
def replyArp (p target sender : Nat) (r : Run d₀) : Run d₀ :=
  when (portUp r.dev p) (fun r =>
    let own := reg r.dev (ethOff p 0x0C)
    when (own != 0 && target == own) (egress p (.arpReply target sender)) (countRx p r)) r

/-- NEIGHBOUR_ADVERTISEMENT. -/
def advertise (p target sender : Nat) (r : Run d₀) : Run d₀ :=
  when (portUp r.dev p) (fun r =>
    let own := ipv6Of r.dev p
    when (own != 0 && target == own) (egress p (.neighbourAdvertisement target sender)) (countRx p r)) r

/-! ## The commands -/

/-- HOST_RDMA_WRITE (R192, R429, R453). -/
def execHostRdmaWrite (qp : QpId) (rkey va : Nat) (data : List Byte) (s : State) : Host.Outcome State Fault Refusal :=
  s.run (hostWrite qp.val rkey va data)

/-- HOST_RDMA_READ (R429, R453). -/
def execHostRdmaRead (qp : QpId) (rkey va len : Nat) (s : State) : Host.Outcome State Fault Refusal :=
  s.run (hostRead qp.val rkey va len)

/-- ROCE_PACKET (R421, R423, R425, R428 to R430, R344). -/
def execRocePacket (port : PortId) (packet : Packet) (now : Nat) (s : State) : Host.Outcome State Fault Refusal :=
  s.run (takePacket port.val packet now)

/-- ACK_TIMEOUT (R428). -/
def execAckTimeout (qp : QpId) (now : Nat) (s : State) : Host.Outcome State Fault Refusal := s.run (ackTimeout qp.val now)

/-- PFC_FRAME (R421, R423). -/
def execPfcFrame (port : PortId) (priorities xoff : Nat) (s : State) : Host.Outcome State Fault Refusal :=
  s.run (takePfc port.val priorities xoff)

/-- CNP_RECEIVED (R423). -/
def execCnpReceived (qp : QpId) (now : Nat) (s : State) : Host.Outcome State Fault Refusal := s.run (takeCnp qp.val now)

/-- RATE_RECOVERY (R423). -/
def execRateRecovery (qp : QpId) (now : Nat) (s : State) : Host.Outcome State Fault Refusal :=
  s.run (raiseRate qp.val now)

/-- LLDP_TRANSMIT (R422). -/
def execLldpTransmit (port : PortId) (now : Nat) (s : State) : Host.Outcome State Fault Refusal :=
  s.run (sendLldp port.val now)

/-- LLDP_RECEIVED (R422). -/
def execLldpReceived (port : PortId) (s : State) : Host.Outcome State Fault Refusal := s.run (takeLldp port.val)

/-- ARP_REPLY (R421). -/
def execArpReply (port : PortId) (target sender : Nat) (s : State) : Host.Outcome State Fault Refusal :=
  s.run (replyArp port.val target sender)

/-- NEIGHBOUR_ADVERTISEMENT (R421). -/
def execNeighbourAdvertisement (port : PortId) (target sender : Nat) (s : State) : Host.Outcome State Fault Refusal :=
  s.run (advertise port.val target sender)

end Sys2Proof.Machine
end

