-- ==== Sys2Proof/Machine/Image.lean ====
section
/-! DEFINITION. Images, their checks, the configuration block and slot records (R479 to R483). -/
namespace Sys2Proof.Machine

/-- A little-endian number of `n` bytes at an offset. -/
def numAt (b : List Byte) (o n : Nat) : Nat := leNat ((b.drop o).take n)

/-- Bytes at an offset. -/
def sliceOf (b : List Byte) (o n : Nat) : List Byte := (b.drop o).take n

/-- Bytes `o` to `o + n - 1` are zero. -/
def zeroAt (b : List Byte) (o n : Nat) : Bool := (sliceOf b o n).all (· == 0#8)

/-- A section entry of an image's header (R480). -/
structure Section where
  type   : Nat
  offset : Nat
  length : Nat
  clean  : Bool
  digest : List Byte
deriving DecidableEq, Repr

/-- Section entry `i`. -/
def sectionAt (img : List Byte) (i : Nat) : Section :=
  let o := 32 + 48 * i
  ⟨numAt img o 4, numAt img (o + 4) 4, numAt img (o + 8) 4, zeroAt img (o + 12) 4, sliceOf img (o + 16) 32⟩

/-- The sections of an image. -/
def sectionsOf (img : List Byte) : List Section := (List.range (numAt img 6 2)).map (sectionAt img)

/-- signed_len -/ def signedLen (img : List Byte) : Nat := numAt img 20 4
/-- Firmware version. -/ def imageVersion (img : List Byte) : Nat := numAt img 8 8

/-- FEAT_ID of the KX-20 (R120). -/
def featId : Nat := 0x4B002001

/-- Two sections share a byte. -/
def sectionsMeet (a b : Section) : Bool :=
  decide (a.offset < b.offset + b.length) && decide (b.offset < a.offset + a.length)

/-- No section overlaps a later one. -/
def sectionsApart : List Section → Bool
  | [] => true
  | a :: r => (r.all fun b => !sectionsMeet a b) && sectionsApart r

/-- The hearth-core section (R480). -/
def hearthSection (img : List Byte) : Option Section := (sectionsOf img).find? (·.type == 2)

/-- R482, check 1: the header is well formed under R480 and its part matches. -/
def imageHeaderOk (img : List Byte) : Bool :=
  let n := numAt img 6 2
  let part := numAt img 16 4
  let l := sectionsOf img
  decide (512 ≤ img.length) && numAt img 0 4 == 0x4D49584B && numAt img 4 2 == 1 && decide (3 ≤ n) && decide (n ≤ 8) &&
    part / 256 == featId / 256 && decide (part % 256 ≤ featId % 256) && img.length == signedLen img + 640 &&
    zeroAt img 24 8 && zeroAt img 416 96 &&
    ([1, 2, 3].all fun t => (l.filter (·.type == t)).length == 1) &&
    (l.all fun s => s.clean && s.offset % 4096 == 0 && decide (4096 ≤ s.offset) &&
      decide (s.offset + s.length ≤ signedLen img)) &&
    sectionsApart l && (hearthSection img).elim false fun s => decide (s.length ≤ 262144)

/-- The Limoft firmware key of the boot ROM, as R483 encodes it. -/
def limoftKey : List Byte := natBE Config.limoftKeyX 32 ++ natBE Config.limoftKeyY 32

/-- The firmware digest: SHA-256 of the signed bytes. -/
def firmwareDigest (img : List Byte) : List Byte := sha256 (img.take (signedLen img))

/-- R482, check 2. -/
def firmwareSigned (img : List Byte) : Bool :=
  verifyBytes limoftKey (firmwareDigest img) (sliceOf img (signedLen img) 64)

/-- R482, check 3. -/
def sectionsIntact (img : List Byte) : Bool :=
  (sectionsOf img).all fun s => sha256 (sliceOf img s.offset s.length) == s.digest

/-- The configuration block of an image (R480). -/
def configOf (img : List Byte) : List Byte := sliceOf img (signedLen img + 64) 512

/-- Owner key of a configuration block. -/
def ownerKey (cfg : List Byte) : List Byte := sliceOf cfg 0x20 64

/-- R482, check 4. -/
def ownerSigned (img : List Byte) : Bool :=
  verifyBytes (ownerKey (configOf img)) (sha256 (configOf img)) (sliceOf img (signedLen img + 576) 64)

/-- R482: every check, in order. -/
def imageOk (img : List Byte) : Bool := imageHeaderOk img && firmwareSigned img && sectionsIntact img && ownerSigned img

/-! ## The configuration block (R481) -/

/-- The eight words of a descriptor in the block. -/
def cfgWords (cfg : List Byte) (o : Nat) : List Dword := toWords (sliceOf cfg o 64)

/-- Region entry `i` of the block: base, limit and attributes. -/
def cfgRegion (cfg : List Byte) (i : Nat) : Region :=
  regionFrom i (numAt cfg (0x160 + 16 * i) 4) (numAt cfg (0x164 + 16 * i) 4) (numAt cfg (0x168 + 16 * i) 4)

/-- The valid region entries of the block. -/
def cfgRegions (cfg : List Byte) : List Region := ((List.range 4).map (cfgRegion cfg)).filter (·.valid)

/-- A key in a view lies in a valid region of the block. -/
def cfgCovers (cfg : List Byte) (direct : Bool) (k : Nat) : Bool :=
  (cfgRegions cfg).any fun x => x.area.direct == direct && x.area.covers k

/-- Entry `i` of the control ring lies in the block's regions. -/
def cfgRingOk (cfg : List Byte) (x : Ring) : Bool :=
  (List.range (2 ^ x.log2)).all fun i =>
    let a := x.base + 64 * i
    decide (a < 2 ^ 48) && (moduleKey a).elim false fun k => cfgCovers cfg (bit a 47) k

/-- Reserved bits of a region entry are zero. -/
def cfgRegionClean (cfg : List Byte) (i : Nat) : Bool :=
  let at_ := fun (o : Nat) => numAt cfg (0x160 + 16 * i + o) 4
  decide (at_ 0 < 2 ^ 26) && decide (at_ 4 < 2 ^ 26) && bits (at_ 8) 30 8 == 0 && at_ 12 == 0

/-- R77 for the block's regions. -/
def cfgRegionsOk (cfg : List Byte) : Bool :=
  let l := cfgRegions cfg
  !l.isEmpty && (l.all fun x => x.owner == 0 && rule77_1 x && rule77_2 x && rule77_3 x) &&
    (l.all fun x => l.all fun y => rule77_4 x y && rule77_5 x y) && (List.range 4).all (cfgRegionClean cfg)

/-- R481: the configuration block is valid. -/
def configOk (cfg : List Byte) : Bool :=
  let ring := cfgWords cfg 0xA0
  let x := ringFrom ring
  decide (cfg.length = 512) && numAt cfg 0 4 == 0x46474E43 && numAt cfg 4 2 == 1 && decide (numAt cfg 6 2 < 2) &&
    decide (numAt cfg 8 2 < 4096) && zeroAt cfg 0x0A 6 && numAt cfg 0x10 1 % 2 == 0 && numAt cfg 0x16 1 % 2 == 0 &&
    decide (numAt cfg 0x1C 1 < 128) && zeroAt cfg 0x1D 3 && onCurve (keyPoint (ownerKey cfg)) &&
    qpDescOk (cfgWords cfg 0x60) && ringDescOk ring && x.target == 2 && x.host == 0 && cfgRingOk cfg x &&
    ((hostRingFrom (cfgWords cfg 0xE0)).elim false fun h => !h.event) &&
    ((hostRingFrom (cfgWords cfg 0x120)).elim false fun h => h.event) && cfgRegionsOk cfg &&
    bits (numAt cfg 0x1C8 4) 10 9 != 3 && decide (numAt cfg 0x1C8 4 < 2 ^ 12) && zeroAt cfg 0x1CC 0x34

/-! ## Slot records (R479) -/

/-- Flash offset of a slot, and of its image. -/
def slotOffset (s : Nat) : Nat := s * 0x800000

/-- A slot record: sequence and image length, if it is valid. -/
def slotRecord (b : List Byte) : Option (Nat × Nat) :=
  let n := numAt b 8 4
  if decide (b.length = 32) && numAt b 0 4 == 0x544F4C53 && decide (1152 ≤ n) && decide (n ≤ 8384512) &&
      zeroAt b 12 16 && numAt b 28 4 == crc32c (b.take 28) then some (numAt b 4 4, n)
  else none

/-- The bytes of a slot record. -/
def slotRecordBytes (seq len : Nat) : List Byte :=
  let b := natLE 0x544F4C53 4 ++ natLE seq 4 ++ natLE len 4 ++ List.replicate 16 0#8
  b ++ natLE (crc32c b) 4

end Sys2Proof.Machine
end

