-- ==== Sys2Proof/Machine/Control.lean ====
section
/-! DEFINITION. Control commands of the management host and attestation: AUTH_NONCE, AUTH, QP_CONNECT, QP_RESET, ATTEST,
UPDATE, their completion, and LNK_RETRAIN (R420, R427, R440, R441, R484, R491 to R495). -/
namespace Sys2Proof.Machine
variable {d₀ : Dev}

/-- Replace the bring-up state. -/
def setBoot (b : Boot) (r : Run d₀) : Run d₀ := r.emit (.boot b)

/-- 256 bits of the random source (R484). -/
def drawRandom (r : Run d₀) : Nat × Run d₀ :=
  let b := r.dev.boot
  (Config.randomBits b.draws % 2 ^ 256, setBoot { b with draws := b.draws + 1 } r)

/-! ## Authentication (R441) -/

/-- AUTH_NONCE. -/
def drawNonce (n : Nat) (r : Run d₀) : Run d₀ :=
  onControl n ctNonce (fun _ w r =>
    if r.dev.boot.noRandom then endControl n stSig r
    else
      let (v, r) := drawRandom r
      let nonce := natLE v 32
      let r := r.emit (.nonce (some nonce))
      endControl n stOk (sendMsg (n / 16) (.write (n / 16) (cHost w) (cKey w) nonce) r)) r

/-- What an AUTH signature covers. -/
def authDigest (d : Dev) (nonce : List Byte) : List Byte :=
  sha256 (nonce ++ natLE (reg d 0) 4 ++ natLE (deviceNumber d) 2)

/-- AUTH: the signature that the READ of the host address returns is verified; each nonce serves once. The READ and its
response are one step, which waits while an earlier READ of the queue pair is outstanding, since responses come in order;
the response acknowledges what was sent before it (R428; DESIGN CHOICE, assumption 35). -/
def authenticate (n : Nat) (sig : List Byte) (r : Run d₀) : Run d₀ :=
  onControl n ctAuth (fun _ w r =>
    let q := qpOf r.dev (n / 16)
    if !qpReady r.dev (n / 16) || q.unacked.any isRead then r
    else
    let m := Msg.read (n / 16) (cHost w) (cKey w) 64 0
    let k := msgPackets q m
    let r := egress (qpPort q) m (setQp (n / 16)
      { q with sendPsn := (q.sendPsn + k) % 2 ^ 24, unacked := [], retries := 0, since := r.dev.time } r)
    let h := r.dev.host
    let good := h.nonce.elim false fun c =>
      decide (sig.length = 64) && verifyBytes (ownerKey r.dev.boot.config) (authDigest r.dev c) sig
    let r := r.emit (.nonce none)
    if good then endControl n stOk (setReg 0x400100 1 r) else endControl n stSig r) r

/-! ## Queue pairs (R427) -/

/-- The queue pair that a command names. -/
def cQp (w : List Dword) : Nat := cOffset w

/-- Messages that were not acknowledged take new PSNs. -/
def renumber (psn : Nat) : List Sent → List Sent
  | [] => []
  | m :: l => { m with psn := psn % 2 ^ 24 } :: renumber (psn + m.packets) l

/-- A queue pair takes a descriptor and is ready; what its peer had not acknowledged is sent again (R435, R438), and the
batches that waited for it are written (R344). -/
def connect (q : Nat) (w : List Dword) (r : Run d₀) : Run d₀ :=
  let old := qpOf r.dev q
  let x := connectedQp w
  let rest := old.unacked.map fun m => { m with packets := msgPackets x m.msg }
  let rest := renumber x.sendPsn rest
  let total := rest.foldl (fun n m => n + m.packets) 0
  let r := setQp q { x with unacked := rest, sendPsn := (x.sendPsn + total) % 2 ^ 24 } r
  sendAsks q (writeBatches q (resendUnacked q (noteBlocked q r)))

/-- QP_CONNECT: from reset, or from error (R428), with a valid descriptor. -/
def qpConnect (n : Nat) (r : Run d₀) : Run d₀ :=
  onControl n ctConnect (fun _ w r =>
    let q := cQp w
    if rangeWaits r.dev (cHost w) 64 then r
    else if decide (256 ≤ q) || (qpPart r.dev q).isNone || decide ((qpOf r.dev q).mode = .ready) then
      endControl n stDescriptor r
    else
      match readDescriptor 0 (cHost w) r with
      | (.good d, r) => if qpDescOk d then endControl n stOk (connect q d r) else endControl n stDescriptor r
      | (.bad, r) => endControlAs n { plain stUncorrectable with faultAddr := cHost w, faultCount := 1 } r
      | (.absent, r) => endControl n stDescriptor r) r

/-- QP_RESET. -/
def qpReset (n : Nat) (r : Run d₀) : Run d₀ :=
  onControl n ctReset (fun _ w r =>
    let q := cQp w
    if 256 ≤ q then endControl n stDescriptor r
    else
      let x := qpOf r.dev q
      endControl n stOk (dropAuth q (dropPackets q (noteBlocked q
        (setQp q { x with mode := .reset, inOpen := false, inData := [] } r))))) r

/-! ## Attestation (R491 to R493) -/

/-- Valid entries of a partition, ascending. -/
def ownedEntries (d : Dev) (p : Nat) : List Nat := ((validRegions d).filter (·.owner == p)).map (·.entry)

/-- ECC_FLIP_TAINT of an entry (R469). -/
def tainted (d : Dev) (n : Nat) : Bool := bit (reg d (eccOff (0x1C0 + 4 * (n / 32)))) (n % 32)

/-- Sum of a rate field over the partitions in force. -/
def rateSum (d : Dev) (o : Nat) : Nat := ((partsInForce d).map fun p => field d (partOff p o) 8 0).sum

/-- Offsets of part_regs. -/
def partRegs (p : Nat) : List Nat :=
  [0x00, 0x04, 0x08, 0x0C, 0x10, 0x14, 0x18, 0x1C, 0x20, 0x24, 0x28, 0x2C].map (partOff p) ++
    (List.range 20).map fun s => partOff p (0x40 + 4 * s)

/-- Bytes 0x000 to 0x1FF of the report on partition `p` (R492). -/
def reportBody (d : Dev) (p : Nat) (nonce : List Byte) : List Byte :=
  let own := ownedEntries d p
  let bad := own.filter (tainted d)
  let flags := flagBit (bit (reg d (fuseOff 0)) 0) 0 + flagBit (mget false d.parts.released p) 1 +
    flagBit (mget false d.parts.received p) 2 + flagBit (!bad.isEmpty) 3 + flagBit (field d (ptpOff 8) 1 0 == 2) 4
  let regs := fun (l : List Nat) => l.flatMap fun o => natLE (regRead d o) 4
  let digests := fun (o n : Nat) => regs ((List.range n).map fun i => bootOff (o + 4 * i))
  natLE 0x54535441 4 ++ natLE 1 2 ++ natLE p 1 ++ natLE flags 1 ++ natLE (reg d 0) 4 ++ natLE (deviceNumber d) 2 ++
    natLE 0 2 ++ regs [fuseOff 4, fuseOff 8] ++ natLE d.time 8 ++ nonce ++ regs [bootOff 8, bootOff 0xC] ++
    regs [benchOff 0x14] ++ (([0x20, 0x24, 0x28, 0x2C].map (rateSum d)).flatMap fun v => natLE v 2) ++
    regs [partOff p 0x30] ++ natLE own.length 2 ++ natLE bad.length 2 ++ natLE 0 4 ++ digests 0x10 8 ++ digests 0x30 8 ++
    digests 0x50 8 ++
    sha256 (own.flatMap fun n => natLE n 2 ++ regs [rgnOff n 0, rgnOff n 4, rgnOff n 8]) ++ regs (partRegs p) ++
    (List.range 32).flatMap (fun i => natLE (bitsWhere 8 fun j =>
      let v := regRead d (qpPartOff (8 * i + j))
      bit v 4 && bits v 3 0 == p) 1) ++
    publicKey d.boot.key ++ d.boot.fuses.cert

/-- ATTEST: held while a bake is in progress; the report describes the settings now, and the command completes later. -/
def attestCmd (n now : Nat) (r : Run d₀) : Run d₀ :=
  let r := reach now r
  onControl n ctAttest (fun _ w r =>
    let q := n / 16
    let p := cOffset w
    if r.dev.parts.bake.isSome then r
    else if (if q = 0 then decide (16 ≤ p) || !partInForce r.dev p else qpPart r.dev q != some p) then
      endControl n stDescriptor r
    else if r.dev.boot.noRandom then endControl n stSig r
    else
      let nonce := (wordBytes (w.drop 4)).take 32
      let body := reportBody r.dev p nonce
      let (k, r) := drawRandom r
      let report := body ++ ecdsaSign r.dev.boot.key (beNat (sha256 body)) (k % (p256N - 1) + 1)
      startControl n w (some stOk) (sendMsg q (.write q (cHost w) (cKey w) report) r)) r

/-! ## Updates (R494, R495) -/

/-- BOOT_UPDATE: state, slot, status and reason. -/
def noteUpdate (state status reason : Nat) (r : Run d₀) : Run d₀ :=
  setReg (bootOff 0x7C) (state + (1 - r.dev.boot.slot) * 4 + status * 2 ^ 8 + reason * 2 ^ 16) r

/-- Running firmware version. -/
def runningVersion (d : Dev) : Nat := reg d (bootOff 8) + reg d (bootOff 0xC) * 2 ^ 32

/-- The first check of R494 after the address that an image of `len` bytes fails: reason and status. -/
def updateFault (d : Dev) (img : List Byte) (len : Nat) : Option (Nat × Nat) :=
  if len ≠ signedLen img + 640 ∨ 8384512 < len then some (1, stDescriptor)
  else if !imageHeaderOk img then some (2, stDescriptor)
  else if !firmwareSigned img || !sectionsIntact img then some (3, stSig)
  else if imageVersion img < runningVersion d then some (4, stDescriptor)
  else if !configOk (configOf img) then some (5, stDescriptor)
  else if !ownerSigned img then some (6, stSig)
  else none

/-- What an update first tells the flash (R495): the other slot's record is erased, its image erased and programmed. -/
def updateCommands (slot : Nat) (img : List Byte) : List FlashCmd :=
  let o := slotOffset slot
  [.erase o 32, .status, .erase (o + 0x1000) img.length, .status, .program (o + 0x1000) img, .status]

/-- What it tells the flash last: the slot record is programmed. -/
def recordCommands (slot seq len : Nat) : List FlashCmd := [.program (slotOffset slot) (slotRecordBytes seq len), .status]

/-- Slot sequence of the booted slot. -/
def bootedSequence (b : Boot) : Nat := ((if b.slot = 0 then b.record0 else b.record1).map (·.1)).getD 0

/-- An UPDATE ends with no change to the flash. -/
def failUpdate (n status reason : Nat) (r : Run d₀) : Run d₀ := endControl n status (noteUpdate 3 status reason r)

/-- UPDATE. -/
def updateCmd (n : Nat) (r : Run d₀) : Run d₀ :=
  onControl n ctUpdate (fun _ w r =>
    let a := cHost w
    let len := cOffset w
    if a % 64 ≠ 0 ∨ 8384512 < len ∨ !namedRange r.dev 0 a len then failUpdate n stDescriptor 1 r
    else if rangeWaits r.dev a len then r
    else
      match readRange a len r with
      | (none, r') =>
        endControlAs n { plain stUncorrectable with faultAddr := (firstBad r.dev a len).getD 0, faultCount := 1 }
          (noteUpdate 3 stUncorrectable 2 r')
      | (some img, r) =>
        match updateFault r.dev img len with
        | some (reason, status) => failUpdate n status reason r
        | none =>
          let b := r.dev.boot
          let cmds := updateCommands (1 - b.slot) img
          startControl n w none (noteUpdate 1 0 0 (setBoot { b with flash := b.flash ++ cmds } r))) r

/-- The flash reports the end of an update: the slot record is programmed last, then version registers and BOOT_UPDATE
(R494, R495, R498). The version lies in the last image handed to the flash. -/
def settleUpdate (n : Nat) (good : Bool) (r : Run d₀) : Run d₀ :=
  if good then
    let b := r.dev.boot
    let img := (b.flash.reverse.findSome? fun c => match c with
      | .program o l => if o % 0x800000 = 0x1000 then some l else none
      | _ => none).getD []
    let v := imageVersion img
    let r := setBoot { b with
      flash := b.flash ++ recordCommands (1 - b.slot) ((bootedSequence b + 1) % 2 ^ 32) img.length } r
    settleControl n stOk (noteUpdate 2 stOk 0 (setReg (bootOff 0x84) (v / 2 ^ 32) (setReg (bootOff 0x80) (v % 2 ^ 32) r)))
  else settleControl n stDescriptor (noteUpdate 3 stDescriptor 7 r)

/-- CONTROL_COMMAND_COMPLETION: a command that took time ends. -/
def completeControl (n : Nat) (flashOk : Bool) (now : Nat) (r : Run d₀) : Run d₀ :=
  let r := reach now r
  match runningControl r.dev n with
  | none => r
  | some c =>
    let r := if cOp c.words = ctUpdate ∧ c.status.isNone then settleUpdate n flashOk r else r
    let r := when (cOp c.words == ctAttest) (addReg (bootOff 0x88) 1) r
    finishControl n r

/-- LNK_RETRAIN (R420). -/
def retrainLink (n now : Nat) (r : Run d₀) : Run d₀ :=
  let r := reach now r
  onWrite n (fun k => match k with | .retrain _ => true | _ => false) (fun w r =>
    let r := writeRegs w r
    let r := match writeKind w with
      | .retrain l => requestRetrain l r
      | _ => r
    endControl n stOk r) r

/-! ## The commands -/

/-- AUTH_NONCE (R440, R441, R484). -/
def execAuthNonce (ring : RingId) (s : State) : Host.Outcome State Fault Refusal := s.run (drawNonce ring.val)

/-- AUTH (R440, R441, R483). -/
def execAuth (ring : RingId) (signature : List Byte) (s : State) : Host.Outcome State Fault Refusal :=
  s.run (authenticate ring.val signature)

/-- QP_CONNECT (R344, R427, R440). -/
def execQpConnect (ring : RingId) (s : State) : Host.Outcome State Fault Refusal := s.run (qpConnect ring.val)

/-- QP_RESET (R427, R440). -/
def execQpReset (ring : RingId) (s : State) : Host.Outcome State Fault Refusal := s.run (qpReset ring.val)

/-- ATTEST (R491 to R493). -/
def execAttest (ring : RingId) (now : Nat) (s : State) : Host.Outcome State Fault Refusal :=
  s.run (attestCmd ring.val now)

/-- UPDATE (R494, R495). -/
def execUpdate (ring : RingId) (s : State) : Host.Outcome State Fault Refusal := s.run (updateCmd ring.val)

/-- CONTROL_COMMAND_COMPLETION (R440, R491, R494). -/
def execControlCommandCompletion (ring : RingId) (flashOk : Bool) (now : Nat) (s : State) :
    Host.Outcome State Fault Refusal :=
  s.run (completeControl ring.val flashOk now)

/-- LNK_RETRAIN (R410, R420). -/
def execLnkRetrain (ring : RingId) (now : Nat) (s : State) : Host.Outcome State Fault Refusal :=
  s.run (retrainLink ring.val now)

end Sys2Proof.Machine
end

