-- ==== Sys2Proof/Machine/Ptp.lean ====
section
/-! DEFINITION. Device time from PTP (R442, R443, R446, R447). -/
namespace Sys2Proof.Machine
variable {d₀ : Dev}

/-- Replace the servo. -/
def setPtp (x : Ptp) (r : Run d₀) : Run d₀ :=
  r.emit (.ptp x)

/-- State of the servo: 0 free-running, 1 acquiring, 2 locked, 3 holdover. -/
def ptpState (d : Dev) : Nat := field d (ptpOff 8) 1 0

/-- The servo changes state; a departure from locked counts. -/
def setPtpState (st : Nat) (r : Run d₀) : Run d₀ :=
  let old := ptpState r.dev
  let r := setField (ptpOff 8) 1 0 st r
  when (old == 2 && st != 2) (addReg (ptpOff 0x28) 1) r

/-- PTP is enabled. -/
def ptpOn (d : Dev) : Bool := bit (reg d (ptpOff 0xC)) 11

/-- A message on a port, in a domain, on a transport, is for the clock (R443). -/
def ptpFor (d : Dev) (port domain transport : Nat) : Bool :=
  let c := reg d (ptpOff 0xC)
  ptpOn d && portUp d port && bits c 8 8 == port && bits c 7 0 == domain && bits c 10 9 == transport

/-- The message comes from the port that announces the best master: the same source port identity. -/
def fromMaster (d : Dev) (m : PtpMessage) : Bool := d.host.ptp.best[7]? == some (beNat m.master)

/-- A signed number saturated to 32 bits. -/
def saturate32 (i : Int) : Nat := unsigned 32 (max (-(2 ^ 31 : Int)) (min (2 ^ 31 - 1) i))

/-- The master's clock identity in its registers, byte 0 lowest. -/
def showMaster (n : Nat) (r : Run d₀) : Run d₀ :=
  setReg (ptpOff 0x20) (leNat ((natBE n 8).drop 4)) (setReg (ptpOff 0x1C) (leNat ((natBE n 8).take 4)) r)

/-- First lock: device time steps to PTP time, if that is later (R442). -/
def firstLock (offset : Int) (r : Run d₀) : Run d₀ :=
  let x := r.dev.host.ptp
  if x.locked then r
  else
    let step := x.ahead - offset
    let by_ := step.toNat
    -- stamps taken before the step move with it
    let r := setPtp { x with locked := true, ahead := 0, t2 := x.t2 + by_,
                             pending := x.pending.map fun e => (e.1, e.2 + by_),
                             delay := x.delay.map fun e => (e.1, e.2 + by_) } r
    if 0 < step then setRegBit (ptpOff 8) 2 true (reach (r.dev.time + by_) r) else r

/-- A Sync whose time stamp is known: `sent` by the master, `got` here. Until the first lock the servo follows PTP time
beside device time, which does not step before it: the offset is that of the servo's own time, which a Sync that is 100 ns
off or more sets anew (DESIGN CHOICE, assumption 54). -/
def useSync (sent got : Nat) (r : Run d₀) : Run d₀ :=
  let x := r.dev.host.ptp
  let offset : Int := (got : Int) + x.ahead - (sent : Int) - (reg r.dev (ptpOff 0x14) : Int)
  let near := decide (-100 < offset) && decide (offset < 100)
  let good := if near then x.good + 1 else 0
  let r := setPtp { x with
    good := good, t1 := sent, t2 := got, pending := none
    ahead := if near || x.locked then x.ahead else x.ahead - offset } r
  let r := setReg (ptpOff 0x10) (saturate32 offset) (addReg (ptpOff 0x24) 1 r)
  -- the rate correction in force is the servo's own, at most 500 ppm
  let (n, r) := fresh r
  let r := setReg (ptpOff 0x18) (unsigned 32 ((n % 1000001 : Int) - 500000)) r
  let r :=
    if 8 ≤ good then firstLock offset (setPtpState 2 r)
    else if ptpState r.dev = 2 then r
    else setPtpState 1 r
  setPtp { r.dev.host.ptp with lastSync := some r.dev.time } r

/-- SYNC_MESSAGE. -/
def takeSync (port : Nat) (m : PtpMessage) (now : Nat) (r : Run d₀) : Run d₀ :=
  let r := reach now r
  when (portUp r.dev port) (fun r =>
    let r := countRx port r
    if !ptpFor r.dev port m.domain m.transport || !fromMaster r.dev m then r
    else if m.twoStep then setPtp { r.dev.host.ptp with pending := some (m.seq, r.dev.time) } r
    else useSync m.stamp r.dev.time r) r

/-- FOLLOW_UP_MESSAGE. -/
def takeFollowUp (port : Nat) (m : PtpMessage) (now : Nat) (r : Run d₀) : Run d₀ :=
  let r := reach now r
  when (portUp r.dev port) (fun r =>
    let r := countRx port r
    if !ptpFor r.dev port m.domain m.transport || !fromMaster r.dev m then r
    else
      match r.dev.host.ptp.pending with
      | some (seq, got) => if seq = m.seq then useSync m.stamp got r else r
      | none => r) r

/-- PTP_HOLDOVER: 2 s without Sync. -/
def holdOver (now : Nat) (r : Run d₀) : Run d₀ :=
  let r := reach now r
  match r.dev.host.ptp.lastSync with
  | some t =>
    when (ptpOn r.dev && (ptpState r.dev == 1 || ptpState r.dev == 2) && decide (t + 2000000000 ≤ r.dev.time))
      (fun r => setPtpState 3 (setPtp { r.dev.host.ptp with good := 0 } r)) r
  | none => r

/-- PTP_CTRL is written: the state returns to acquiring, or with PTP off to free-running. -/
def writePtpCtrl (v : Nat) (r : Run d₀) : Run d₀ :=
  let r := setReg (ptpOff 0xC) v r
  let r := setPtp { Ptp.init with locked := r.dev.host.ptp.locked } r
  setPtpState (if bit v 11 then 1 else 0) r

/-- PTP_CTRL_WRITE (R447). -/
def requestPtp (n : Nat) (r : Run d₀) : Run d₀ :=
  onWrite n (· == .ptp) (fun w r =>
    let v := valueAt w (ptpOff 0xC)
    if bits v 10 9 = 3 then endControl n stDescriptor r
    else endControl n stOk (writePtpCtrl v (writeRegs w r))) r

/-- Data sets in the order of the default algorithm. -/
def listLt : List Nat → List Nat → Bool
  | [], [] => false
  | [], _ => true
  | _, [] => false
  | a :: x, b :: y => decide (a < b) || (a == b && listLt x y)

/-- How long a master stays chosen without an Announce (PRESUMED: three intervals of 2 s). -/
def announceTimeout : Nat := 6000000000

/-- ANNOUNCE_MESSAGE: of another sender than the best master its data set must be the better. -/
def takeAnnounce (port : Nat) (ds : List Nat) (domain transport now : Nat) (r : Run d₀) : Run d₀ :=
  let r := reach now r
  when (portUp r.dev port) (fun r =>
    let r := countRx port r
    let x := r.dev.host.ptp
    let stale := decide (x.bestAt + announceTimeout ≤ r.dev.time)
    if !ptpFor r.dev port domain transport || ds.length != 8 then r
    else if x.best.isEmpty || stale || ds[7]? == x.best[7]? || listLt ds x.best then
      let r := if ds[7]? == x.best[7]? then r else setPtp { x with pending := none, delay := none, good := 0 } r
      showMaster (ds.getD 5 0) (setPtp { r.dev.host.ptp with best := ds, bestAt := r.dev.time } r)
    else r) r

/-- DELAY_REQUEST. -/
def sendDelay (now : Nat) (r : Run d₀) : Run d₀ :=
  let r := reach now r
  let port := field r.dev (ptpOff 0xC) 8 8
  let x := r.dev.host.ptp
  when (ptpOn r.dev && portUp r.dev port && !x.best.isEmpty) (fun r =>
    let seq := (x.seq + 1) % 2 ^ 16
    egress port (.delayReq seq) (setPtp { x with seq := seq, delay := some (seq, r.dev.time) } r)) r

/-- DELAY_RESPONSE: the mean of both directions is the path delay. -/
def takeDelay (port : Nat) (m : PtpMessage) (now : Nat) (r : Run d₀) : Run d₀ :=
  let r := reach now r
  when (portUp r.dev port) (fun r =>
    let r := countRx port r
    let x := r.dev.host.ptp
    match x.delay with
    | some (seq, left) =>
      if !ptpFor r.dev port m.domain m.transport || !fromMaster r.dev m || seq ≠ m.seq || x.lastSync.isNone then r
      else
        let both : Int := ((x.t2 : Int) - x.t1) + ((m.stamp : Int) - left)
        setReg (ptpOff 0x14) (min (max 0 (both / 2)).toNat (2 ^ 32 - 1)) (setPtp { x with delay := none } r)
    | none => r) r

/-! ## The commands -/

/-- SYNC_MESSAGE (R442, R443, R447). -/
def execSyncMessage (port : PortId) (msg : PtpMessage) (now : Nat) (s : State) : Host.Outcome State Fault Refusal :=
  s.run (takeSync port.val msg now)

/-- FOLLOW_UP_MESSAGE (R443). -/
def execFollowUpMessage (port : PortId) (msg : PtpMessage) (now : Nat) (s : State) : Host.Outcome State Fault Refusal :=
  s.run (takeFollowUp port.val msg now)

/-- PTP_HOLDOVER (R443, R447). -/
def execPtpHoldover (now : Nat) (s : State) : Host.Outcome State Fault Refusal := s.run (holdOver now)

/-- PTP_CTRL_WRITE (R443, R447). -/
def execPtpCtrlWrite (ring : RingId) (s : State) : Host.Outcome State Fault Refusal := s.run (requestPtp ring.val)

/-- ANNOUNCE_MESSAGE (R443, R447). -/
def execAnnounceMessage (port : PortId) (dataset : List Nat) (domain transport now : Nat) (s : State) :
    Host.Outcome State Fault Refusal :=
  s.run (takeAnnounce port.val dataset domain transport now)

/-- DELAY_REQUEST (R443). -/
def execDelayRequest (now : Nat) (s : State) : Host.Outcome State Fault Refusal := s.run (sendDelay now)

/-- DELAY_RESPONSE (R443, R447). -/
def execDelayResponse (port : PortId) (msg : PtpMessage) (now : Nat) (s : State) : Host.Outcome State Fault Refusal :=
  s.run (takeDelay port.val msg now)

end Sys2Proof.Machine
end

