-- ==== Sys2Proof/Machine/Boot.lean ====
section
/-! DEFINITION. Bring-up: the stages of R474, their halts (R477), fuses, flash, image, cores, stacks and the management bake
(R475, R478 to R490, R496). -/
namespace Sys2Proof.Machine
variable {d₀ : Dev}

/-! ## Stages (R474, R498) -/

/-- Last stage completed. -/
def stageOf (d : Dev) : Nat := field d (bootOff 0) 3 0

/-- A stage is completed. -/
def setStage (n : Nat) (r : Run d₀) : Run d₀ := setField (bootOff 0) 3 0 n r

/-- Bring-up has halted. -/
def isHalted (d : Dev) : Bool := bit (reg d (bootOff 0)) 5

/-- Replace the board's state. -/
def setBoard (b : Board) (r : Run d₀) : Run d₀ := r.emit (.board b)

/-- ETH_PORT_DOWN. -/
def dropPort (p : Nat) (r : Run d₀) : Run d₀ := setRegBit (ethOff p 0) 0 false r

/-- R477: bring-up halts with a reason, FAULT_N is asserted, and a port that has come up goes down. No link has begun to
train, and no core has begun to run. -/
def halt (reason : Nat) (r : Run d₀) : Run d₀ :=
  let r := setField (bootOff 0) 15 8 reason (setRegBit (bootOff 0) 5 true (dropPort 1 (dropPort 0 r)))
  setBoard { r.dev.board with faultN := true } r

/-- Do what follows stage `n`, unless bring-up has halted or the rails are off. -/
def atStage (n now : Nat) (f : Run d₀ → Run d₀) (r : Run d₀) : Run d₀ :=
  if r.dev.board.rails && stageOf r.dev == n && !isHalted r.dev then f (reach now r) else r

/-- Set consecutive registers from bytes, byte 4i in bits [7:0] (R498). -/
def setBytes (off : Nat) (data : List Byte) (r : Run d₀) : Run d₀ :=
  forEach (List.range (cdiv data.length 4)) (fun i => setReg (off + 4 * i) (numAt data (4 * i) 4)) r

/-! ## Events 1 to 3 -/

/-- POWER_ON: the input passes 40 V. A latched shutdown stands until the input has failed (R518). -/
def powerUp (r : Run d₀) : Run d₀ :=
  let b := r.dev.board
  if b.input || b.shut then r else setStage 1 (setBoard { b with input := true } r)

/-- RAILS_IN_REGULATION: bring-up begins, and with it device time at 0 (R442); FLASH_VCC is driven from here on (R533). -/
def railsUp (r : Run d₀) : Run d₀ :=
  let b := r.dev.board
  if b.input && !b.rails && !b.shut then setStage 2 (setBoard { b with rails := true, flashVcc := true } r) else r

/-- FUSE_OPTIC values are admitted: at most two spares each way (R485, R500). -/
def opticsOk (l : List Nat) : Bool :=
  (List.range 20).all fun i =>
    decide (popcount (bits (l.getD i 0) 7 0) 8 ≤ 2) && decide (popcount (bits (l.getD i 0) 15 8) 8 ≤ 2)

/-- Row and interface lane repairs of a stack, as FUSE_STACK and STK_REPAIR count them. -/
def repairsOf (f : Fuses) (s : Nat) : Nat := (f.rows.getD s []).length % 2 ^ 13 + (f.lanes.getD s []).length % 2 ^ 8 * 2 ^ 16

/-- What the fuses hold: after the field lock no fuse can be programmed (R485, R496), so they hold what they held. -/
def fusesNow (b : Boot) (f : Fuses) : Fuses := if b.fuses.locked then b.fuses else f

/-- Fuses in their registers (R499, R500). -/
def showFuses (f : Fuses) (good : Bool) (r : Run d₀) : Run d₀ :=
  let cal := (List.range 428).all fun n => (f.points.getD n none).isSome
  let r := setReg (fuseOff 0) (flagBit f.locked 0 + flagBit good 1 + flagBit cal 2) r
  let r := setReg (fuseOff 8) (f.serial / 2 ^ 32) (setReg (fuseOff 4) (f.serial % 2 ^ 32) r)
  let r := setReg (fuseOff 0xC) f.idcode r
  let r := forEach (List.range 68) (fun i => setReg (fuseOff (0x100 + 4 * i)) (f.coreMap / 2 ^ (32 * i) % 2 ^ 32)) r
  let r := forEach (List.range 20) (fun s r =>
    setReg (fuseOff (0x400 + 4 * s)) (f.optics.getD s 0 &&& 0xFFFF)
      (setReg (fuseOff (0x300 + 4 * s)) (repairsOf f s) r)) r
  setBytes (fuseOff 0x500) f.cert r

/-- FUSE_SENSE: fuses checked, the identity derived (R490), the random source tested; the housekeeping round starts. -/
def senseFuses (f : Fuses) (checkOk randomOk : Bool) (now : Nat) (r : Run d₀) : Run d₀ :=
  atStage 2 now (fun r =>
    let f := fusesNow r.dev.boot f
    let good := checkOk && opticsOk f.optics
    let key := identityKey f.seed 256 0
    let r := setBoot { r.dev.boot with fuses := f, key := key, noRandom := !randomOk } r
    let r := setBytes (bootOff 0x100) (publicKey key) (showFuses f good r)
    if !good then halt 0x01 r
    else if !randomOk then halt 0x09 r
    else setStage 3 r) r

/-! ## Events 4 to 7: flash, image, field lock -/

/-- The slot tried first: the valid one with the higher sequence, slot 0 on a tie (R479). -/
def firstSlot (x y : Option (Nat × Nat)) : Option Nat :=
  match x, y with
  | some a, some b => if a.1 < b.1 then some 1 else some 0
  | some _, none => some 0
  | none, some _ => some 1
  | none, none => none

/-- Commands go to the flash. -/
def tellFlash (l : List FlashCmd) (r : Run d₀) : Run d₀ := setBoot { r.dev.boot with flash := r.dev.boot.flash ++ l } r

/-- Clock of the fast reads in MHz, as BOOT_FLASH shows it. -/
def flashClock (d : Dev) : Nat := field d (bootOff 0x78) 23 16

/-- FLASH_DISCOVERY: the SFDP tables are read, and from a flash that is admitted the two slot records. -/
def findFlash (found : Bool) (mbit mhz : Nat) (slot0 slot1 : List Byte) (now : Nat) (r : Run d₀) : Run d₀ :=
  atStage 3 now (fun r =>
    let r := tellFlash [.fourByte, .sfdp 25] r
    if !found || decide (mbit < 128) || decide (512 < mbit) then halt 0x02 r
    else
      let x := slotRecord slot0
      let y := slotRecord slot1
      let r := setReg (bootOff 0x78) (mbit + min mhz 100 * 2 ^ 16) r
      let r := tellFlash ([0, 1].map fun s => .fastRead (slotOffset s) 32 (min mhz 100)) r
      match firstSlot x y with
      | none => halt 0x03 r
      | some s => setStage 4 (setBoot { r.dev.boot with record0 := x, record1 := y, slot := s, image := [] } r)) r

/-- Slot record of a slot. -/
def recordOf (b : Boot) (s : Nat) : Option (Nat × Nat) := if s = 0 then b.record0 else b.record1

/-- IMAGE_READ: the chosen slot's image, again for the other slot when the first has failed. -/
def readImage (image : List Byte) (now : Nat) (r : Run d₀) : Run d₀ :=
  let b := r.dev.boot
  let due := r.dev.board.rails && !isHalted r.dev && b.image.isEmpty && (stageOf r.dev == 4 || stageOf r.dev == 5)
  if due && ((recordOf b b.slot).map (·.2)) == some image.length then
    let r := tellFlash [.fastRead (slotOffset b.slot + 0x1000) image.length (flashClock r.dev)] (reach now r)
    setStage 5 (setBoot { r.dev.boot with image := image } r)
  else r

/-- What the image that passes puts in force (R475, R497, R521). -/
def acceptImage (img : List Byte) (r : Run d₀) : Run d₀ :=
  let cfg := configOf img
  let r := setBoot { r.dev.boot with config := cfg } r
  let r := setReg (bootOff 0xC) (imageVersion img / 2 ^ 32) (setReg (bootOff 8) (imageVersion img % 2 ^ 32) r)
  let r := setBytes (bootOff 0x10) (firmwareDigest img) r
  let r := setBytes (bootOff 0x30) (sha256 cfg) r
  let r := setBytes (bootOff 0x50) (sha256 (ownerKey cfg)) r
  let r := forEach (List.range 20) (fun l => setReg (lnkOff l 0) (numAt cfg 8 2)) r
  let r := forEach (List.range 2) (fun p r =>
    setReg (ethOff p 8) (numAt cfg (0x14 + 6 * p) 2) (setReg (ethOff p 4) (numAt cfg (0x10 + 6 * p) 4) r)) r
  setBoard { r.dev.board with static := numAt cfg 0x1C 1 } r

/-- IMAGE_VERIFY: the other slot is tried when the first fails R482, which BOOT_STATUS.fallback reports; a configuration
that fails halts (R477). -/
def verifyImage (now : Nat) (r : Run d₀) : Run d₀ :=
  atStage 5 now (fun r =>
    let b := r.dev.boot
    if b.image.isEmpty then r
    else if imageOk b.image then
      if !configOk (configOf b.image) then halt 0x05 r
      else setStage 6 (setRegBit (bootOff 0) 6 (b.slot == 1) (acceptImage b.image r))
    else
      let other := 1 - b.slot
      let failed := b.failed ++ [b.slot]
      let r := setRegBit (bootOff 0) 7 true (setBoot { b with image := [], failed := failed } r)
      if (recordOf b other).isSome && !failed.contains other then setBoot { r.dev.boot with slot := other } r
      else halt 0x04 r) r

/-- FIELD_LOCK_BLOW (R496): `blown` is how the fuse reads after blowing. -/
def blowLock (blown : Bool) (now : Nat) (r : Run d₀) : Run d₀ :=
  atStage 6 now (fun r =>
    let b := r.dev.boot
    if bit (numAt b.config 6 2) 0 && !b.fuses.locked then
      if blown then
        setStage 7 (setRegBit (fuseOff 0) 0 true (setBoot { b with fuses := { b.fuses with locked := true } } r))
      else halt 0x06 r
    else setStage 7 r) r

/-! ## Events 8 and 9: the cores (R486, R487) -/

/-- Good physical cores of a physical cluster. -/
def goodCores (bad k : Nat) : List Nat := ((List.range 34).map fun j => 34 * k + j).filter fun i => !bit bad i

/-- R486: the physical cores of logical cores 0 to 31 of each enabled cluster. -/
def buildMap (bad : Nat) : List (List Nat) :=
  ((List.range 64).map (goodCores bad)).filterMap fun l => if 32 ≤ l.length then some (l.take 32) else none

/-- Physical cores of the map. -/
def mapped (b : Boot) : List Nat := b.map.flatten

/-- The map as FEAT_CORES and BOOT_CORES report it. -/
def showMap (r : Run d₀) : Run d₀ :=
  let n := r.dev.boot.map.length
  setField (bootOff 0x70) 21 16 (64 - n) (setReg 0x4 (32 * n + n * 2 ^ 16 + 32 * 2 ^ 24) r)

/-- Scratchpads, mirrors and racks are cleared with correct ECC. -/
def clearStores (r : Run d₀) : Run d₀ :=
  (((r.emit (.dropCores fun _ => true)).emit (.dropMirrors fun _ => true)).emit (.dropClusters fun _ => true)).emit (.clear 0 (2 ^ 30))

/-- SERVICE_CORE_LOAD. -/
def loadService (ok : Bool) (now : Nat) (r : Run d₀) : Run d₀ :=
  atStage 7 now (fun r =>
    let bad := r.dev.boot.fuses.coreMap
    let map := buildMap bad
    if !ok then halt 0x07 r
    else
      let r := showMap (setBoot { r.dev.boot with bad := bad, map := map } (clearStores r))
      if map.isEmpty then halt 0x07 r else setStage 8 r) r

/-- Blocks of the hearth-core section. -/
def blockCount (b : Boot) : Nat := cdiv ((hearthSection b.image).elim 0 (·.length)) 4096

/-- Every block, as bits. -/
def allBlocks (b : Boot) : Nat := 2 ^ blockCount b - 1

/-- CRC-32C of a block: over the first 12 bytes of its header and its payload. -/
def blockCrc (bytes : List Byte) : Nat := crc32c (bytes.take 12 ++ (bytes.drop 16).take 4096)

/-- Block `k` of `n` as it is sent: the header and the payload, padded with zeros. -/
def blockBytes (n k : Nat) (body : List Byte) : List Byte :=
  let data := sliceOf body (4096 * k) 4096
  let head := natLE k 4 ++ natLE n 4 ++ List.replicate 4 0#8
  let data := data ++ List.replicate (4096 - data.length) 0#8
  head ++ natLE (crc32c (head ++ data)) 4 ++ data

/-- A core of which `have_` has arrived takes a block, as it reaches the core, if its CRC is correct. -/
def takeBlock (n have_ : Nat) (bytes : List Byte) : Nat :=
  if decide (bytes.length = 4112) && decide (numAt bytes 0 4 < n) && numAt bytes 12 4 == blockCrc bytes then
    setBit have_ (numAt bytes 0 4)
  else have_

/-- Blocks a core has when those of `sent` are sent to it, and those of `garbled` reach it as the bytes given (none:
not at all) and not as they were sent. -/
def arrivals (n have_ : Nat) (sent : List Nat) (garbled : List (Nat × List Byte)) : Nat :=
  let whole := (sent.filter fun k => !garbled.any (·.1 == k)).foldl setBit have_
  (garbled.filter fun e => sent.contains e.1).foldl (fun m e => takeBlock n m e.2) whole

/-- HEARTH_CORE_LOAD: the broadcast; `garbled` names the core, the block and the bytes where a block does not reach a
core as it was sent. -/
def broadcast (garbled : List (Nat × Nat × List Byte)) (now : Nat) (r : Run d₀) : Run d₀ :=
  atStage 8 now (fun r =>
    let b := r.dev.boot
    if b.sent then r
    else
      let n := blockCount b
      let got := fun (c : Nat) => arrivals n 0 (List.range n) ((garbled.filter (·.1 == c)).map (·.2))
      setBoot { b with sent := true, blocks := (mapped b).foldl (fun m c => mset 0 m c (got c)) [] } r) r

/-- Every core of the map has reported the correct digest: the firmware moves into the command processors and the
scratchpads are cleared again. -/
def endLoading (r : Run d₀) : Run d₀ :=
  let b := r.dev.boot
  if (mapped b).all fun c => mget false b.reported c then
    let body := (hearthSection b.image).elim [] fun s => sliceOf b.image s.offset s.length
    setStage 9 (clearStores (setBoot { b with firmware := body } r))
  else r

/-- A core fails: it is bad, the map of its cluster is rebuilt, a spare that comes in is to be loaded. -/
def failCore (c : Nat) (r : Run d₀) : Run d₀ :=
  let b := r.dev.boot
  let bad := setBit b.bad c
  let map := buildMap bad
  let spare := (map.flatten).any fun x => !(mapped b).contains x
  let r := setBoot { b with bad := bad, map := map } r
  let n := field r.dev (bootOff 0x70) 7 0
  let r := setField (bootOff 0x70) 7 0 (n + 1) r
  let r := when spare (setField (bootOff 0x70) 15 8 (field r.dev (bootOff 0x70) 15 8 + 1)) r
  let r := showMap r
  if map.isEmpty then halt 0x07 r else endLoading r

/-- MISSING_LIST: a core of the map lists the blocks it lacks and is sent them; those of `garbled` reach it as the bytes
given. Eight rounds without all of them fail the core. -/
def sendMissing (c : Nat) (garbled : List (Nat × List Byte)) (now : Nat) (r : Run d₀) : Run d₀ :=
  atStage 8 now (fun r =>
    let b := r.dev.boot
    let have_ := mget 0 b.blocks c
    let lack := (List.range (blockCount b)).filter fun i => !bit have_ i
    if !b.sent || !(mapped b).contains c || lack.isEmpty then r
    else
      let n := mget 0 b.rounds c + 1
      let got := arrivals (blockCount b) have_ lack garbled
      let r := setBoot { b with blocks := mset 0 b.blocks c got, rounds := mset 0 b.rounds c n } r
      let v := r.dev
      let r := setField (bootOff 0x74) 7 0 (max (field v (bootOff 0x74) 7 0) n) r
      let r := setField (bootOff 0x74) 23 8 (field v (bootOff 0x74) 23 8 + lack.length) r
      if got ≠ allBlocks b ∧ 8 * (1 + mget 0 b.fails c) ≤ n then failCore c r else r) r

/-- Digest of the section in the image's header (R480). -/
def sectionDigest (b : Boot) : List Byte := (hearthSection b.image).elim [] (·.digest)

/-- DIGEST_REPORT: a complete core reports its digest of the section; a second mismatch fails it. -/
def reportDigest (c : Nat) (digest : List Byte) (now : Nat) (r : Run d₀) : Run d₀ :=
  atStage 8 now (fun r =>
    let b := r.dev.boot
    if !b.sent || !(mapped b).contains c || mget 0 b.blocks c != allBlocks b || mget false b.reported c then r
    else if digest == sectionDigest b then endLoading (setBoot { b with reported := mset false b.reported c true } r)
    else
      let n := mget 0 b.fails c + 1
      let r := setBoot { b with fails := mset 0 b.fails c n, blocks := mset 0 b.blocks c 0 } r
      if n < 2 then r else failCore c r) r

/-! ## Event 10: the stacks (R488) -/

/-- A channel fields 64 working lanes: `bad` are its lanes that fail training, data lanes 0 to 63 and spares 64 to 67,
as bits. A repaired data lane runs on its spare; a lane that fails takes a spare not in use that works. -/
def chanTrains (repairs : List (Nat × Nat)) (bad : Nat) : Bool :=
  let broken := (bitsSet bad 68).filter fun p =>
    if p < 64 then !repairs.any (·.1 == p) else repairs.any (64 + ·.2 == p)
  let free := (List.range 4).filter fun k => !bit bad (64 + k) && !repairs.any (·.2 == k)
  decide (broken.length ≤ free.length)

/-- Fused lane repairs of channel `c` of stack `s`: data lane and spare lane. -/
def laneRepairs (f : Fuses) (s c : Nat) : List (Nat × Nat) := ((f.lanes.getD s []).filter (·.1 == c)).map (·.2)

/-- Channels of a stack that do not train, from the lanes that fail in each; all of them when its base die does not
respond. -/
def deadMask (f : Fuses) (failed : List (Option (List Nat))) (s : Nat) : Nat :=
  match failed[s]? with
  | some (some l) => bitsWhere 32 fun c => (l[c]?).elim false fun bad => !chanTrains (laneRepairs f s c) bad
  | some none => 2 ^ 32 - 1
  | none => 0

/-- A channel is retired (R251). -/
def retireMode (s c : Nat) (r : Run d₀) : Run d₀ :=
  let off := stkOff s (if c < 16 then 0x08 else 0x0C)
  reportRetired s c (setField off (2 * (c % 16) + 1) (2 * (c % 16)) 2 r)

/-- STACK_TRAINING. -/
def trainStacks (failed : List (Option (List Nat))) (now : Nat) (r : Run d₀) : Run d₀ :=
  atStage 9 now (fun r =>
    let f := r.dev.boot.fuses
    let r := forEach (List.range 20) (fun s r =>
      let silent := failed[s]? == some none
      let r := setReg (stkOff s 0x20) (repairsOf f s) r
      let r := when (!silent) (setRegBit (stkOff s 0x04) 0 true) r
      forEach (bitsSet (deadMask f failed s) 32) (retireMode s) r) r
    if (List.range 20).all fun s => deadMask f failed s == 2 ^ 32 - 1 then halt 0x08 r
    else
      let r := setReg 0x24 0 r
      noteTrained (setStage 10 (forEach ((List.range 20).filter fun l => linkEnabled r.dev l && !(failed[l]? == some none))
        (fun l => beginTraining l true) r))) r

/-! ## Events 11 and 12 (R475) -/

/-- The settings of the management bake: the clusters and channels there are, the block's regions and addresses. -/
def managementSettings (d : Dev) : Store Reg :=
  let cfg := d.boot.config
  let n := d.boot.map.length
  let v := fun (x : Nat) => BitVec.ofNat 32 x
  [(partOff 0 0x08, v (2 ^ min n 32 - 1)), (partOff 0 0x0C, v (2 ^ (n - 32) - 1))] ++
    ((List.range 20).map fun s => (partOff 0 (0x40 + 4 * s), v (2 ^ 32 - 1 - reg d (stkOff s 0x1C)))) ++
    (((List.range 4).filter fun i => (cfgRegion cfg i).valid).flatMap fun i => (List.range 3).map fun j =>
      (rgnOff i (4 * j), v (numAt cfg (0x160 + 16 * i + 4 * j) 4))) ++
    ((List.range 2).flatMap fun p =>
      [(ethOff p 0x0C, v (numAt cfg (0x1A0 + 4 * p) 4))] ++
        (List.range 4).map fun i => (ethOff p (0x10 + 4 * i), v (numAt cfg (0x1A8 + 16 * p + 4 * i) 4)))

/-- Queue pair 0 and its rings (R441). -/
def connectManagement (r : Run d₀) : Run d₀ :=
  let cfg := r.dev.boot.config
  let r := setQp 0 (connectedQp (cfgWords cfg 0x60)) r
  let r := setRing 0 (some (ringFrom (cfgWords cfg 0xA0))) r
  setHostRing 1 (hostRingFrom (cfgWords cfg 0x120)) (setHostRing 0 (hostRingFrom (cfgWords cfg 0xE0)) r)

/-- MANAGEMENT_BAKE: when every link has trained or is down. -/
def bakeManagement (now : Nat) (r : Run d₀) : Run d₀ :=
  atStage 11 now (fun r =>
    let r := writePtpCtrl (numAt r.dev.boot.config 0x1C8 4) r
    let r := drawKey 0 (commitBake (managementSettings r.dev) r)
    let r := connectManagement r
    let r := setReg (bootOff 4) (r.dev.time / 1000000 % 2 ^ 16) r
    setRegBit (bootOff 0) 4 true (setStage 12 r)) r

/-- RANDOM_SOURCE_FAILURE (R484): after bring-up has tested the source. -/
def failRandom (r : Run d₀) : Run d₀ :=
  when (r.dev.board.rails && decide (3 ≤ stageOf r.dev)) (setBoot { r.dev.boot with noRandom := true }) r

/-! ## Ethernet link-up (R476, R477) -/

/-- ETH_PORT_UP: whenever the partner is there, unless bring-up has halted. -/
def raisePort (p : Nat) (r : Run d₀) : Run d₀ :=
  when (r.dev.board.rails && !isHalted r.dev) (setRegBit (ethOff p 0) 0 true) r

/-! ## The commands -/

/-- POWER_ON (R474, R507). -/
def execPowerOn (s : State) : Host.Outcome State Fault Refusal := s.run powerUp

/-- RAILS_IN_REGULATION (R442, R474). -/
def execRailsInRegulation (s : State) : Host.Outcome State Fault Refusal := s.run railsUp

/-- FUSE_SENSE (R474, R477, R485, R490, R500). -/
def execFuseSense (fuses : Fuses) (checkOk randomOk : Bool) (now : Nat) (s : State) : Host.Outcome State Fault Refusal :=
  s.run (senseFuses fuses checkOk randomOk now)

/-- FLASH_DISCOVERY (R474, R477 to R479). -/
def execFlashDiscovery (found : Bool) (mbit mhz : Nat) (slot0 slot1 : List Byte) (now : Nat) (s : State) :
    Host.Outcome State Fault Refusal :=
  s.run (findFlash found mbit mhz slot0 slot1 now)

/-- IMAGE_READ (R474, R478, R479). -/
def execImageRead (image : List Byte) (now : Nat) (s : State) : Host.Outcome State Fault Refusal :=
  s.run (readImage image now)

/-- IMAGE_VERIFY (R474, R475, R477, R480 to R483). -/
def execImageVerify (now : Nat) (s : State) : Host.Outcome State Fault Refusal := s.run (verifyImage now)

/-- FIELD_LOCK_BLOW (R474, R477, R496). -/
def execFieldLockBlow (blown : Bool) (now : Nat) (s : State) : Host.Outcome State Fault Refusal :=
  s.run (blowLock blown now)

/-- SERVICE_CORE_LOAD (R474, R477, R486). -/
def execServiceCoreLoad (ok : Bool) (now : Nat) (s : State) : Host.Outcome State Fault Refusal :=
  s.run (loadService ok now)

/-- HEARTH_CORE_LOAD (R474, R487). -/
def execHearthCoreLoad (garbled : List (Nat × Nat × List Byte)) (now : Nat) (s : State) :
    Host.Outcome State Fault Refusal :=
  s.run (broadcast garbled now)

/-- MISSING_LIST (R487). -/
def execMissingList (physical : Nat) (garbled : List (Nat × List Byte)) (now : Nat) (s : State) :
    Host.Outcome State Fault Refusal :=
  s.run (sendMissing physical garbled now)

/-- DIGEST_REPORT (R477, R486, R487). -/
def execDigestReport (physical : Nat) (digest : List Byte) (now : Nat) (s : State) : Host.Outcome State Fault Refusal :=
  s.run (reportDigest physical digest now)

/-- STACK_TRAINING (R221, R251, R474, R477, R488). -/
def execStackTraining (failed : List (Option (List Nat))) (now : Nat) (s : State) : Host.Outcome State Fault Refusal :=
  s.run (trainStacks failed now)

/-- MANAGEMENT_BAKE (R337, R441, R474, R475). -/
def execManagementBake (now : Nat) (s : State) : Host.Outcome State Fault Refusal := s.run (bakeManagement now)

/-- RANDOM_SOURCE_FAILURE (R484). -/
def execRandomSourceFailure (s : State) : Host.Outcome State Fault Refusal := s.run failRandom

/-- ETH_PORT_UP (R445, R476). -/
def execEthPortUp (port : PortId) (s : State) : Host.Outcome State Fault Refusal := s.run (raisePort port.val)

/-- ETH_PORT_DOWN (R445, R476). -/
def execEthPortDown (port : PortId) (s : State) : Host.Outcome State Fault Refusal := s.run (dropPort port.val)

end Sys2Proof.Machine
end

