-- ==== Sys2Proof/Machine/Boundary.lean ====
section
/-! DEFINITION. The work of a fold boundary and of a recipe's end (R245, R275 to R277). -/
namespace Sys2Proof.Machine
variable {d₀ : Dev}

/-- Place of the first frame of a stack port that accesses the channel, can be performed now, and is not past `from`. -/
def nextTransfer (d : Dev) (s c : Nat) : Option (Nat × Frame) :=
  findIdx (fun f =>
    (f.type == tWrite || f.type == tMerge || ((f.type == tRead || f.type == tAtomic) && caughtUp d f)) &&
      !frameWaits d f && (f.type != tAtomic || !atomicShut d f.part s) &&
      (frameKeys f).any fun k => keyStack k == s && keyChan k == c) (inboxOf d s) 0

/-- Serve one waiting transfer of a channel, if there is one and the boundary still serves (R245). -/
def serveTransfer (s c : Nat) (r : Run d₀) : Run d₀ :=
  match nextTransfer r.dev s c with
  | some e => performFrame s e.1 e.2 r
  | none => r

/-- Step 2 of R276: at most 64 granules of waiting transfers. -/
def serveTransfers (s c : Nat) (r : Run d₀) : Run d₀ := forEach (List.range 64) (fun _ => serveTransfer s c) r

/-- Step 1 of R276: the tick at which every half has met tRP since its last PRE. -/
def closedAt (hot : Bool) (run : ChanRun) (i : Image) : Nat :=
  (issuedBefore run i).foldl (fun t e => if e.1.op = iPre then max t (e.2 + if hot then 16 else 14) else t) 0

/-- Step 4 of R276: pay refreshes, 160 ticks each, until at most `keep` are owed: how many it pays, and the tick after. -/
def payDown (keep : Nat) : Nat → Nat → Channel → Channel × Nat × Nat
  | 0, t, ch => (ch, 0, t)
  | fuel + 1, t, ch =>
    let o := dueRefresh t ch
    let ch := { o.2 with debt := min 8 (o.2.debt + o.1) }
    if keep < ch.debt then
      let z := payDown keep fuel (t + 160) { ch with debt := ch.debt - 1 }
      (z.1, z.2.1 + 1, z.2.2)
    else (ch, 0, t)

/-- Steps 5 and 6: a wait until tick `until_` pays every refresh that falls due in it. -/
def payWaiting (until_ t : Nat) (ch : Channel) : Channel × Nat × Nat :=
  let o := dueRefresh until_ ch
  (o.2, o.1, if o.1 = 0 then max t until_ else max (max t until_) (lastDue o.2 + 160))

/-- Whether a core die is above 85 °C, as the housekeeping round last found it (R276, R280). -/
def dieHot (d : Dev) (s c : Nat) : Bool := bit (reg d (seqOff s 0x04)) (c / 2)

/-- The load entries that a SYNC waits for have arrived. -/
def loadsHere (x : Recipe) (e : Nat) : Bool := (List.range (e + 1)).all fun i => !(mget [] x.loads i).isEmpty

/-- Every bank unit drops its scale kind at a fold boundary: a SCALE serves its own fold (R261). -/
def clearKinds (m : Store Bank) : Store Bank :=
  m.foldl (fun m e => mset Bank.init m e.1 { e.2 with kind := 0, served := 0 }) m

/-- Steps 2 to 5 of R276, from tick `t`: the channel, and the tick at which they are done. Transfers are served before the
refreshes are paid, as R276 orders them, where R245 has them after the refresh owed (DESIGN CHOICE, assumption 60). -/
def boundaryWork (s c keep t fold : Nat) (r : Run d₀) : Nat × Run d₀ :=
  let r := serveTransfers s c r
  let ch := chanOf r.dev s c
  let o := dueRefresh t ch
  let ch := { o.2 with debt := min 8 (o.2.debt + o.1), hot := dieHot r.dev s c }
  let p := payDown keep 16 t ch
  let idle := bit (reg r.dev (stkOff s 0x04)) 1
  let w := if idle then payWaiting (p.2.2 + fold) p.2.2 p.1 else (p.1, 0, p.2.2)
  (w.2.2, addReg (seqChOff s c 0x10) (p.2.1 + w.2.1) (setChan s c w.1 r))

/-- The boundary before the next instruction of a running recipe. -/
def midBoundary (s c : Nat) (run : ChanRun) (x : Recipe) (i : Image) (r : Run d₀) : Run d₀ :=
  let y := decodeIns ((i.instrs[run.ip]?).getD 0)
  if (y.op = iSync && !loadsHere x y.load) || remapping r.dev s c || remapDue r.dev s c then r
  else
    let hot := (chanOf r.dev s c).hot
    let start := boundaryTick run y
    let t := max start (closedAt hot run i)
    let fold := if run.folds = 0 then 0 else start - run.begun
    let (t, r) := boundaryWork s c 6 t fold r
    let ch := chanOf r.dev s c
    match ch.run with
    | none => r
    | some now =>
      let late := decide (0 < now.served) || y.op == iSync
      let w := if late && decide (t < r.dev.time) then payWaiting r.dev.time t ch else (ch, 0, t)
      let z := landColumns w.2.2 now
      let run := { z with phase := .fold, ready := w.2.2, banks := clearKinds z.banks }
      addReg (seqChOff s c 0x10) w.2.1 (setChan s c { w.1 with run := some run, lastFold := run.folds } r)

/-- The run issues no more: its recipe has completed, or has stopped, with nothing left that issues before the stop
(R273). -/
def runOver (d : Dev) (s c : Nat) (run : ChanRun) : Bool :=
  (recipeOf d s run.uid).elim true fun x => x.stop.isSome && !beforeStop d s c x

/-- The end of a recipe on a channel: every refresh owed is paid, and once that is done the channel is free (R267, R276);
what a channel of a stopped recipe stored and flagged stays with the recipe (R273). -/
def endBoundary (s c : Nat) (run : ChanRun) (r : Run d₀) : Run d₀ :=
  let r := stopChan s run.uid c r
  let t := match recipeOf r.dev s run.uid with
    | some x => x.image.elim 0 (closedAt (chanOf r.dev s c).hot run)
    | none => 0
  let (t, r) := boundaryWork s c 0 (max run.tick t) (run.tick - run.begun) r
  let ch := chanOf r.dev s c
  setChan s c { ch with run := none, lastFold := run.folds - 1, busy := max ch.busy t } r

/-- FOLD_BOUNDARY. -/
def passBoundary (s c now : Nat) (r : Run d₀) : Run d₀ :=
  let r := reach now r
  match (chanOf r.dev s c).run with
  | none => r
  | some run =>
    if run.phase = .ended || run.phase = .stopped || runOver r.dev s c run then
      if remapping r.dev s c || remapDue r.dev s c then r else endBoundary s c run r
    else if run.phase = .boundary then
      match seated r.dev s c with
      | some (run, x, i) => midBoundary s c run x i r
      | none => r
    else r

/-- FOLD_BOUNDARY (R276). -/
def execFoldBoundary (stack : StackId) (chan : ChanId) (now : Nat) (s : State) : Host.Outcome State Fault Refusal :=
  s.run (passBoundary stack.val chan.val now)

end Sys2Proof.Machine
end

