-- ==== Sys2Proof/Machine/Integrity.lean ====
section
/-! DEFINITION. The sifter (R458 to R462), field remapping (R463 to R467), the flip mask (R468, R469) and the retraining of a
channel's interface (R489). -/
namespace Sys2Proof.Machine
variable {d₀ : Dev}

/-! ## The sifter's walk -/

/-- A valid entry with scrub = 1 covers the key. -/
def scrubbed (d : Dev) (k : Nat) : Bool := (regionOf d k).elim false (·.scrub)

/-- Key of an offset in a channel. -/
def chanKey (s c o : Nat) : Nat := s * 2 ^ 36 + c * 2 ^ 31 + o

/-- Some entry with scrub = 1 covers part of the channel. -/
def hasScrub (d : Dev) (s c : Nat) : Bool := (validRegions d).any fun x => x.scrub && (areaPairs x.area).contains (s, c)

/-- The first scrubbed granule of a channel at or after an offset. -/
def scrubFrom (d : Dev) (s c : Nat) : Nat → Nat → Option Nat
  | 0, _ => none
  | fuel + 1, o =>
    if 2 ^ 31 ≤ o then none
    else if scrubbed d (chanKey s c o) then some o
    else scrubFrom d s c fuel ((o / 4096 + 1) * 4096)

/-- The next scrubbed granule of a channel in the walk, which wraps round. -/
def nextScrub (d : Dev) (s c o : Nat) : Option Nat :=
  if hasScrub d s c then
    match scrubFrom d s c (2 ^ 19 + 1) o with
    | some k => some k
    | none => scrubFrom d s c (2 ^ 19 + 1) 0
  else none

/-- Pages of 4 KiB of an interleaved area that lie in stack `s`: four of every 80. -/
def stackPages (s : Nat) (a : Area) : Nat :=
  let lo := a.base * 512
  let hi := a.limit * 512 + 512
  let count := fun (p q : Nat) => ((List.range (q - p)).filter fun i => keyStack (interKey ((p + i) * 4096)) == s).length
  if hi < lo + 160 then count lo hi
  else count lo (cdiv lo 80 * 80) + 4 * (hi / 80 - cdiv lo 80) + count (hi / 80 * 80) hi

/-- Scrubbed granules of a stack. -/
def scrubTotal (d : Dev) (s : Nat) : Nat :=
  (validRegions d).foldl (fun n x =>
    if !x.scrub then n
    else if x.area.direct then (if x.area.base / 2 ^ 15 = s then n + (x.area.limit + 1 - x.area.base) * 2 ^ 15 else n)
    else n + 64 * stackPages s x.area) 0

/-- A link transfer waits for the channel: a frame in a stack port's link buffer, or granules of a DMA from base die to
base die that its iteration has still to read or to write (R245, R459). -/
def linkWaits (d : Dev) (s c : Nat) : Bool :=
  let here := fun (k : Nat) => keyStack k == s && keyChan k == c
  ((inboxOf d s).any fun f => (frameKeys f).any here) ||
    d.hearth.cmds.any fun x =>
      match descOf x.descs 2, descOf x.descs 4 with
      | some a, some y => fOpcode x.words == opDma && x.runs && (dmaWants d x a y).any fun l => l.any fun p => (memKey d p).any here
      | _, _ => false

/-- The engine of a channel may use this tick (R459, R462). -/
def siftIdle (d : Dev) (s c : Nat) : Bool :=
  let ch := chanOf d s c
  d.board.rails && bit (reg d (eccStk s 0)) 0 && !ch.retrain && !remapping d s c && !doorChan d s c &&
    !(d.parts.fills.any fun f => (areaPairs f.area).contains (s, c)) &&
    (match chanMode d s c with
     | 0 => ch.inbound.isEmpty
     | 1 => ch.run.isNone && decide (ch.busy ≤ d.time) && !linkWaits d s c
     | _ => false)

/-- A visit of one granule (R460, R466). -/
def visitGranule (k : Nat) (r : Run d₀) : Run d₀ :=
  let s := keyStack k
  let x := granuleCheck r.dev k
  let before := (upkeepOf r.dev s).again.contains k
  let mark := fun (on : Bool) (r : Run d₀) =>
    let t := upkeepOf r.dev s
    setUpkeep s { t with again := (t.again.filter (· != k)) ++ (if on then [k] else []) } r
  if x.uncorrectable then mark false (noteUncorrectable k r)
  else if x.corrected then
    let r := when before (askRemap k) (noteCorrected false k r)
    mark true (writeBack k r)
  else mark false r

/-- The end of a stack's lap (R461, R473). The share of ticks that were idle is free. -/
def endLap (s : Nat) (r : Run d₀) : Run d₀ :=
  let t := upkeepOf r.dev s
  let (n, r) := fresh r
  let r := setReg (eccStk s 0x04) (min ((r.dev.time - t.lapStart) / 1000000) (2 ^ 32 - 1)) r
  let r := setReg (eccStk s 0x08) ((field r.dev (eccStk s 0x08) 31 8 + 1) % 2 ^ 24 * 2 ^ 8) r
  let r := setReg (eccStk s 0x0C) (n % 1001) r
  setUpkeep s { t with lapFrom := t.walk, visited := 0, lapDone := 0, lapStart := r.dev.time } r

/-- The walk of a channel's engine has visited the granule at offset `o`. -/
def walkOn (s c o : Nat) (r : Run d₀) : Run d₀ :=
  let t := upkeepOf r.dev s
  let from_ := mget 0 t.lapFrom c
  let dist := fun (a : Nat) => (a + 2 ^ 31 - from_) % 2 ^ 31
  let ended := (nextScrub r.dev s c ((o + 64) % 2 ^ 31)).elim true fun a => decide (dist a ≤ dist o)
  let new := !bit t.lapDone c
  let visited := if new then t.visited + 1 else t.visited
  let done := if ended then setBit t.lapDone c else t.lapDone
  let r := setUpkeep s { t with walk := mset 0 t.walk c ((o + 64) % 2 ^ 31), visited := visited, lapDone := done } r
  let r := setField (eccStk s 0x08) 6 0 (min 100 (visited * 100 / max 1 (scrubTotal r.dev s))) r
  when ((List.range 32).all fun i => bit done i || chanMode r.dev s i == 2 || !hasScrub r.dev s i) (endLap s) r

/-- SIFTER_VISIT: the hints for the channel come before its walk; a hint to a granule that is not scrubbed is not visited
(R458). -/
def siftVisit (s c now : Nat) (dis : Option Disturb) (r : Run d₀) : Run d₀ :=
  let r := reach now r
  let r := match dis with
    | some x => if keyStack x.key = s ∧ keyChan x.key = c then disturb x.key x.pattern r else r
    | none => r
  if !siftIdle r.dev s c then r
  else
    let t := upkeepOf r.dev s
    let mine := t.hints.filter fun k => keyChan k == c && scrubbed r.dev k && !doorKey r.dev k
    let first := mine.head?
    let r := setUpkeep s { t with hints := t.hints.filter fun k => keyChan k != c || (scrubbed r.dev k && some k != first) } r
    match first with
    | some k => visitGranule k r
    | none =>
      match nextScrub r.dev s c (mget 0 t.walk c) with
      | some o => if doorKey r.dev (chanKey s c o) then r else walkOn s c o (visitGranule (chanKey s c o) r)
      | none => r

/-! ## Field remapping -/

/-- Entry `i` of a stack's remap table. -/
def remapReg (s i : Nat) : Nat := eccOff (0x1000 + s * 0x80 + i * 4)

/-- A valid entry maps the row of the bank of the channel. -/
def mapsRow (v c b row : Nat) : Bool :=
  bit v 31 && bits v 4 0 == c && bits v 9 5 == b && bits v 24 10 == row

/-- The spares of a bank that entries other than `i`, or remaps in progress, use. -/
def sparesUsed (d : Dev) (s c b i : Nat) : List Nat :=
  ((List.range 32).filterMap fun j =>
    let v := reg d (remapReg s j)
    if j ≠ i ∧ bit v 31 ∧ bits v 4 0 = c ∧ bits v 9 5 = b then some (bits v 26 25) else none) ++
    (((upkeepOf d s).remaps.filter fun m => m.channel == c && m.bank == b && m.entry != i).map (·.spare))

/-- R463, R467: the entries and the spares that a remap of a row may take. -/
def remapChoice (d : Dev) (s c b row : Nat) : List Nat × List Nat :=
  match (List.range 32).find? fun i => mapsRow (reg d (remapReg s i)) c b row with
  | some i =>
    let old := bits (reg d (remapReg s i)) 26 25
    ([i], [0, 1].filter fun x => x != old && !(sparesUsed d s c b i).contains x)
  | none =>
    ((List.range 32).filter fun i => !bit (reg d (remapReg s i)) 31 && !((upkeepOf d s).remaps.any (·.entry == i)),
      [0, 1].filter fun x => !(sparesUsed d s c b 32).contains x)

/-- The first granule of a row. -/
def rowKey (s c b row : Nat) : Nat := columnKey s c b row 0

/-- The 32 granules of a remap count towards the 64 of the fold boundary that serves it (R465). -/
def serveRemap (s c : Nat) (r : Run d₀) : Run d₀ :=
  let ch := chanOf r.dev s c
  match ch.run with
  | some x => setChan s c { ch with run := some { x with served := x.served + 32 } } r
  | none => r

/-- Begin the remap of a row, with a free choice among the entries and spares; false when it cannot be performed (R467).
-/
def beginRemap (s c b row : Nat) (ring : Option Nat) (r : Run d₀) : Bool × Run d₀ :=
  let o := remapChoice r.dev s c b row
  if o.1.isEmpty || o.2.isEmpty then (false, r)
  else
    let (n, r) := fresh r
    let (m, r) := fresh r
    let t := upkeepOf r.dev s
    let x : Remap := ⟨c, b, row, o.2.getD (m % o.2.length) 0, o.1.getD (n % o.1.length) 0, ring⟩
    (true, serveRemap s c (setUpkeep s { t with remaps := t.remaps ++ [x] } r))

/-- FIELD_REMAP: the firmware remaps the row of a granule found uncorrectable, or in error again. -/
def fieldRemap (k : Nat) (r : Run d₀) : Run d₀ :=
  let s := keyStack k
  let c := keyChan k
  let t := upkeepOf r.dev s
  if !t.due.contains k then r
  else
    let drop := { t with due := t.due.filter fun g => rowKey s (keyChan g) (keyBank g) (keyRow g) != rowKey s c (keyBank k) (keyRow k) }
    if chanMode r.dev s c = 2 || mget false r.dev.hits (k / 64) then setUpkeep s { t with due := t.due.filter (· != k) } r
    else if !remapFree r.dev s c || rowHeld r.dev k then r
    else
      match beginRemap s c (keyBank k) (keyRow k) none (setUpkeep s drop r) with
      | (true, r) => r
      | (false, r) => postEvent 0 stRemapFull 6 0 s (granuleAddr r.dev (rowKey s c (keyBank k) (keyRow k))) r

/-- R464: a row's granules are copied: corrected ones as their corrected image, the others unchanged. Both are counted and
reported like any other (R456, R457); an uncorrectable one asks for no further remap, being remapped (DEDUCED, assumption
57). -/
def copyRow (s c b row : Nat) (r : Run d₀) : Run d₀ :=
  forEach (List.range 32) (fun i r =>
    let k := rowKey s c b row + 64 * i
    let x := granuleCheck r.dev k
    if x.uncorrectable then countUncorrectable k r
    else when x.corrected (fun r => writeBack k (noteCorrected false k r)) r) r

/-- REMAP_COMPLETE: the oldest remap of the channel takes effect. -/
def completeRemap (s c : Nat) (r : Run d₀) : Run d₀ :=
  let t := upkeepOf r.dev s
  match findIdx (fun (m : Remap) => m.channel == c) t.remaps 0 with
  | none => r
  | some (i, m) =>
    let r := copyRow s c m.bank m.row r
    let r := setReg (remapReg s m.entry) (c + m.bank * 2 ^ 5 + m.row * 2 ^ 10 + m.spare * 2 ^ 25 + 2 ^ 31) r
    let r := setReg (eccStk s 0x1C) ((List.range 32).filter fun j => bit (reg r.dev (remapReg s j)) 31).length r
    let t := upkeepOf r.dev s
    let r := setUpkeep s { t with remaps := t.remaps.eraseIdx i } r
    match m.ring with
    | some n => settleControl n stOk (setReg (eccOff 0x804) (s * 2 ^ 8) r)
    | none => r

/-- ECC_REMAP_REQ at the head of ring `n`. -/
def requestRemap (n : Nat) (r : Run d₀) : Run d₀ :=
  onWrite n (· == .remap) (fun w r =>
    let v := valueAt w (eccOff 0x800)
    let s := bits v 4 0
    let c := bits v 9 5
    let last := fun (st : Nat) => setReg (eccOff 0x804) (st + s * 2 ^ 8)
    if 19 < s || chanMode r.dev s c == 2 then endControl n stDescriptor (last stDescriptor r)
    else if !remapFree r.dev s c || rowHeld r.dev (rowKey s c (bits v 14 10) (bits v 29 15)) then r
    else
      match beginRemap s c (bits v 14 10) (bits v 29 15) (some n) r with
      | (true, r) => startControl n w none (writeRegs w r)
      | (false, r) => endControl n stRemapFull (last stRemapFull r)) r

/-! ## The flip mask -/

/-- FLIP_ARM at the head of ring `n`. -/
def armFlip (n : Nat) (r : Run d₀) : Run d₀ :=
  onWrite n (· == .arm) (fun w r =>
    let v := valueAt w (eccOff 0x100)
    let e := bits v 8 0
    if !(regionAt r.dev e).valid then endControl n stDescriptor r
    else
      let r := setReg (eccOff 0x100) (e + 2 ^ 31) (writeRegs w r)
      endControl n stOk (setRegBit (eccOff (0x1C0 + 4 * (e / 32))) (e % 32) true r)) r

/-- FLIP_DISARM at the head of ring `n`. -/
def disarmFlip (n : Nat) (r : Run d₀) : Run d₀ :=
  onWrite n (· == .disarm) (fun w r =>
    endControl n stOk (setReg (eccOff 0x100) (bits (valueAt w (eccOff 0x100)) 8 0) (writeRegs w r))) r

/-! ## Interface retraining -/

/-- Some channel of the module is being retrained. -/
def retraining (d : Dev) : Bool := d.chans.any (·.2.retrain)

/-- CHANNEL_RETRAIN: `resends` is how often the channel has resent within the last second. -/
def retrainChan (s c resends now : Nat) (r : Run d₀) : Run d₀ :=
  let r := reach now r
  let ch := chanOf r.dev s c
  if resends ≤ 1024 || !isReady r.dev || retraining r.dev || chanMode r.dev s c == 2 || chanInUse r.dev s c then r
  else setField (bootOff 0x8C) 15 0 (field r.dev (bootOff 0x8C) 15 0 + 1) (setChan s c { ch with retrain := true } r)

/-- CHANNEL_RETRAIN_COMPLETE. -/
def retrainDone (s c : Nat) (r : Run d₀) : Run d₀ := setChan s c { chanOf r.dev s c with retrain := false } r

/-! ## The commands -/

/-- SIFTER_VISIT (R458 to R462). -/
def execSifterVisit (stack : StackId) (chan : ChanId) (now : Nat) (disturb : Option Disturb) (s : State) :
    Host.Outcome State Fault Refusal :=
  s.run (siftVisit stack.val chan.val now disturb)

/-- FIELD_REMAP (R463 to R467). -/
def execFieldRemap (key : Nat) (s : State) : Host.Outcome State Fault Refusal := s.run (fieldRemap key)

/-- REMAP_COMPLETE (R464). -/
def execRemapComplete (stack : StackId) (chan : ChanId) (s : State) : Host.Outcome State Fault Refusal :=
  s.run (completeRemap stack.val chan.val)

/-- ECC_REMAP_REQ (R466, R467, R473). -/
def execEccRemapReq (ring : RingId) (s : State) : Host.Outcome State Fault Refusal := s.run (requestRemap ring.val)

/-- FLIP_ARM (R468, R469). -/
def execFlipArm (ring : RingId) (s : State) : Host.Outcome State Fault Refusal := s.run (armFlip ring.val)

/-- FLIP_DISARM (R469). -/
def execFlipDisarm (ring : RingId) (s : State) : Host.Outcome State Fault Refusal := s.run (disarmFlip ring.val)

/-- CHANNEL_RETRAIN (R489). -/
def execChannelRetrain (stack : StackId) (chan : ChanId) (resends now : Nat) (s : State) :
    Host.Outcome State Fault Refusal :=
  s.run (retrainChan stack.val chan.val resends now)

/-- CHANNEL_RETRAIN_COMPLETE (R489). -/
def execChannelRetrainComplete (stack : StackId) (chan : ChanId) (s : State) : Host.Outcome State Fault Refusal :=
  s.run (retrainDone stack.val chan.val)

end Sys2Proof.Machine
end

