-- ==== Sys2Proof/Machine/Matrix.lean ====
section
/-! DEFINITION. The matrix engine and the rack (R129 to R139), and the commands of the core's two engines. -/
namespace Sys2Proof.Machine
variable {d₀ : Dev}

/-- R130: the products of one k-group of two operand rows, summed exactly and scaled; with its flags. -/
def groupSum (w x : Desc) (b : Store (List Byte)) (t m n g : Nat) : Val × Flags :=
  let ks := (List.range 8).filterMap fun j => if 8 * g + j < w.size 0 then some (8 * g + j) else none
  let s := ks.foldl (fun (acc : Val × Flags) k =>
    let p := vmul (w.raw b t [m] k) (x.raw b t [n] k)
    let q := vadd acc.1 p.1
    let f := orFlags (readFlags w.fmt (w.code b t [m] k)) (readFlags x.fmt (x.code b t [n] k))
    (q.1, orFlags acc.2 (orFlags f (invalidIf (p.2 || q.2))))) (vzero, noFlags)
  let cw := w.scaleCode b t [m] (8 * g)
  let cx := x.scaleCode b t [n] (8 * g)
  let p := vmul s.1 (decodeScale w.kind cw)
  let q := vmul p.1 (decodeScale x.kind cx)
  (q.1, orFlags s.2 (orFlags (invalidIf (p.2 || q.2)) (orFlags (scaleFlags w.kind cw) (scaleFlags x.kind cx))))

/-- R130: one element of a tile, in FP32. -/
def tileElem (w x : Desc) (b : Store (List Byte)) (t alpha m n : Nat) : Reg × Flags :=
  let acc := (List.range (cdiv (w.size 0) 8)).foldl (fun (acc : Nat × Flags) g =>
    let s := groupSum w x b t m n g
    let o := finish32 (vadd (val32 acc.1) s.1)
    (o.1, orFlags acc.2 (orFlags s.2 o.2))) (0, noFlags)
  let o := mul32 acc.1 alpha
  (BitVec.ofNat 32 o.1, orFlags acc.2 o.2)

/-- R131: alpha, with the all-zero encoding as 1.0. -/
def alphaOf (w : List Dword) : Nat := if bits (wd w 5) 31 0 = 0 then 0x3F800000 else bits (wd w 5) 31 0

/-- R130: the tile of one iteration; elements beyond the operands' rows are +0. -/
def tileOf (w x : Desc) (b : Store (List Byte)) (t alpha : Nat) : List (Reg × Flags) :=
  (List.range 1024).map fun i =>
    if i / 32 < w.size 1 ∧ i % 32 < x.size 1 then tileElem w x b t alpha (i / 32) (i % 32) else (0, noFlags)

/-- The next tile of a MATMUL goes to the engine's hold. -/
def formTile (c : Cmd) (w x : Desc) (upset : Upset) (r : Run d₀) : Run d₀ :=
  let (s, r) := readAll c.core atHome upset (runAddrs (w.runs c.iter ++ x.runs c.iter)) r
  match s.fault with
  | some a => stopUncorrectable c c.flags a r
  | none =>
    let l := tileOf w x s.buf c.iter (alphaOf c.words)
    let f := l.foldl (fun f e => orFlags f e.2) c.flags
    let k := coreOf r.dev c.core
    setCmd { c with flags := f } (setCore c.core { k with hold := some (.tile (l.map (·.1))) } r)

/-- MATMUL: the running command computes its next tile, and the engine holds it until it enters the rack (R134). -/
def stepMatmul (uid : Nat) (upset : Upset) (r : Run d₀) : Run d₀ :=
  match runningCmd r.dev uid opMatmul with
  | some c =>
    match descOf c.descs 2, descOf c.descs 3, (coreOf r.dev c.core).hold, c.skipped with
    | some w, some x, none, false =>
      if stkBlocked r.dev c then r
      else metered c.part (formTile c w x upset) r
    | _, _, _, _ => r
  | none => r

/-- An entry enters the rack with one arrival of the MATMUL's signal tag (R97, R134, R135). -/
def enterRack (c : Cmd) (e : RackEntry) (r : Run d₀) : Run d₀ :=
  let k := coreOf r.dev c.core
  let k := { k with rack := k.rack ++ [e], hold := none }
  let t := fSignal c.words
  let r := setCore c.core (if t = 0 then k else countTag t k) r
  nextIter c c.flags (accountHeads (some c.core) r)

/-- The rack has a free entry (R133). -/
def rackFree (d : Dev) (core : Nat) : Bool := decide ((coreOf d core).rack.length < 8)

/-- TILE_ENTERS_RACK. -/
def tileEnters (core : Nat) (r : Run d₀) : Run d₀ :=
  match runningOn r.dev core 1, (coreOf r.dev core).hold with
  | some c, some e => if rackFree r.dev core then enterRack c e r else r
  | _, _ => r

/-- VOID_ENTRY_ENTERS_RACK. -/
def voidEnters (core : Nat) (r : Run d₀) : Run d₀ :=
  match runningOn r.dev core 1 with
  | some c => if c.skipped && rackFree r.dev core then enterRack c .void r else r
  | none => r

/-! ## The commands -/

/-- MATMUL (R129 to R132). -/
def execMatmul (uid : Nat) (upset : Upset) (s : State) : Host.Outcome State Fault Refusal := s.run (stepMatmul uid upset)

/-- TILE_ENTERS_RACK (R134). -/
def execTileEntersRack (core : CoreId) (s : State) : Host.Outcome State Fault Refusal := s.run (tileEnters core.val)

/-- VOID_ENTRY_ENTERS_RACK (R135). -/
def execVoidEntryEntersRack (core : CoreId) (s : State) : Host.Outcome State Fault Refusal := s.run (voidEnters core.val)

/-- VECOP (R141 to R152). -/
def execVecop (uid : Nat) (upset : Upset) (s : State) : Host.Outcome State Fault Refusal :=
  s.run (stepVector opVecop uid upset)

/-- RACK_ENTRY_TAKEN (R136, R137). -/
def execRackEntryTaken (core : CoreId) (now : Nat) (upset : Upset) (s : State) : Host.Outcome State Fault Refusal :=
  s.run (takeEntry core.val now upset)

/-- REDUCE (R153 to R155). -/
def execReduce (uid : Nat) (upset : Upset) (s : State) : Host.Outcome State Fault Refusal :=
  s.run (stepVector opReduce uid upset)

/-- GATHER (R156 to R159). -/
def execGather (uid : Nat) (upset : Upset) (s : State) : Host.Outcome State Fault Refusal :=
  s.run (stepVector opGather uid upset)

/-- SCATTER (R160 to R162). -/
def execScatter (uid : Nat) (upset : Upset) (s : State) : Host.Outcome State Fault Refusal :=
  s.run (stepVector opScatter uid upset)

end Sys2Proof.Machine
end

