-- ==== Sys2Proof/Machine/ServingPages.lean ====
section
/-! DEFINITION. Serving: the pool of cells, pages and their entries, sealing and the prefix index (R285 to R287, R330 to R339). -/
namespace Sys2Proof.Machine
variable {d₀ : Dev}

/-! ## The pool (R330) -/

/-- Process-mode channels that a partition holds. -/
def poolChans (d : Dev) (p : Nat) : List (Nat × Nat) :=
  allChans.filter fun e => chanMode d e.1 e.2 == 1 && holdsChan d p e.1 e.2

/-- Cells per half of a channel. -/
def Serving.perHalf (v : Serving) : Nat := (v.rowHi + 1 - v.rowLo) / 5

/-- Cell numbers of a channel, ascending. -/
def Serving.numbers (v : Serving) : List Nat := List.range v.perHalf ++ (List.range v.perHalf).map (8192 + ·)

/-- Cells of pages. -/
def Serving.cells (v : Serving) : List PageCell := v.pages.flatMap (·.cells)

/-- Cells of the pool that held pages have. -/
def heldCells (d : Dev) (p : Nat) (v : Serving) : Nat :=
  ((v.pages.filter fun x => v.inUse x.uid).flatMap (·.cells)).countP fun y => (poolChans d p).contains (y.stack, y.chan)

/-- Cells that may be taken: free ones, and those of cached pages (R330, R332). -/
def takable (d : Dev) (p : Nat) (v : Serving) : Nat := (poolChans d p).length * (2 * v.perHalf) - heldCells d p v

/-- The lowest free cell number of a channel. -/
def Serving.lowest (v : Serving) (more : List PageCell) (s c : Nat) : Option Nat :=
  let used := (v.cells ++ more).filter fun x => x.stack == s && x.chan == c
  v.numbers.find? fun x => !used.any (·.num == x)

/-- Order of channels: stack, then channel. -/
def chanOrder (s c : Nat) : Nat := 32 * s + c

/-- Cells of layer group `g` that a request holds, page 0 first. -/
def Serving.groupCells (v : Serving) (x : Gen) (g : Nat) : List PageCell :=
  x.pages.filterMap fun u => (v.page u).bind fun y => y.cells[g]?

/-- R331: where the next cell of a group goes, among channels with a free cell: fewest cells of the request and group,
then the first after the previous cell's channel. -/
def chooseChan (cands : List (Nat × Nat)) (own : List PageCell) : Option (Nat × Nat) :=
  let last := (own.getLast?).elim 639 fun x => chanOrder x.stack x.chan
  let cost := fun (e : Nat × Nat) =>
    (own.countP fun x => x.stack == e.1 && x.chan == e.2) * 640 + (chanOrder e.1 e.2 + 1279 - last) % 640
  match cands with
  | [] => none
  | a :: r => some (r.foldl (fun m e => if cost e < cost m then e else m) a)

/-- R330: the least recently referenced cached page gives up its cells. -/
def Serving.evict (v : Serving) : Option Serving :=
  match v.pages.filter fun x => !v.inUse x.uid with
  | [] => none
  | a :: r =>
    let x := r.foldl (fun m y => if y.used < m.used then y else m) a
    some { v with pages := v.pages.filter (·.uid != x.uid) }

/-- A cell for group `g`, taking cached pages' cells when no appender's channel has a free one. -/
def takeCell (d : Dev) (p app : Nat) (x : Gen) (g : Nat) (more : List PageCell) :
    Nat → Serving → Option (PageCell × Serving)
  | 0, _ => none
  | fuel + 1, v =>
    let cands := (poolChans d p).filter fun e => bit app e.1 && (v.lowest more e.1 e.2).isSome
    match chooseChan cands (v.groupCells x g) with
    | some (s, c) => (v.lowest more s c).map fun n => (⟨s, c, n⟩, v)
    | none => (v.evict).bind (takeCell d p app x g more fuel)

/-- The cells of a new page: one for each layer group, or none at all. -/
def takeCells (d : Dev) (p app : Nat) (x : Gen) (v : Serving) : Nat → Option (List PageCell × Serving)
  | 0 => some ([], v)
  | g + 1 =>
    match takeCells d p app x v g with
    | some (l, w) => (takeCell d p app x g l (w.pages.length + 1) w).map fun e => (l ++ [e.1], e.2)
    | none => none

/-- Layer groups of a model (R318). -/
def Model.groups (m : Model) : Nat := cdiv m.layers 8

/-- Row r0 within the half, and the half, of a cell number (R286, R330). -/
def cellRow (v : Serving) (num : Nat) : Nat := v.rowLo + 5 * (num % 8192)

/-- R287: the firmware may write a valid entry for the cell. -/
def entryAllowed (d : Dev) (p s e value : Nat) : Bool :=
  let keys := entryKeys s e (BitVec.ofNat 32 value)
  chanMode d s (e / 16384) == 1 && holdsChan d p s (e / 16384) &&
    (validRegions d).any fun x => x.owner == p && x.area.direct && keys.all x.area.covers

/-- Write the page-table entry of a cell (R286, R331). -/
def writeEntry (p : Nat) (v : Serving) (x : PageCell) (r : Run d₀) : Run d₀ :=
  let e := x.chan * 16384 + x.num
  let value := cellRow v x.num + x.num / 8192 * 2 ^ 14 + 2 ^ 15 + p * 2 ^ 16
  let k := stackOf r.dev x.stack
  when (entryAllowed r.dev p x.stack e value)
    (setStack x.stack { k with pages := mset 0#32 k.pages e (BitVec.ofNat 32 value) }) r

/-- A request takes one new page: its cells, or none when it cannot have them. `reserve` is what must stay free (R332). -/
def newPage (p : Nat) (m : Model) (reserve id : Nat) (r : Run d₀) : Option (Run d₀) :=
  let v := servingOf r.dev p
  match v.gen id with
  | none => none
  | some x =>
    if takable r.dev p v < m.groups + reserve then none
    else
      match takeCells r.dev p m.appenders x v m.groups with
      | none => none
      | some (l, w) =>
        let page : Page := ⟨w.nextPage, l, [], [], [], false, false, w.refs + 1, false⟩
        let w := { w with pages := w.pages ++ [page], nextPage := w.nextPage + 1, refs := w.refs + 1 }
        let r := setServing p (w.put { x with pages := x.pages ++ [page.uid] }) r
        some (forEach l (writeEntry p w) r)

/-- A request takes `k` new pages, or none of them. -/
def newPages (p : Nat) (m : Model) (reserve id : Nat) : Nat → Run d₀ → Option (Run d₀)
  | 0, r => some r
  | k + 1, r =>
    match newPage p m (reserve + k * m.groups) id r with
    | some r => newPages p m reserve id k r
    | none => none

/-! ## Entries (R282, R285) -/

/-- Free bytes. -/
def freeBytes (n : Nat) (r : Run d₀) : List Byte × Run d₀ :=
  let (k, r) := freshMany n r
  ((List.range n).map fun i => BitVec.ofNat 8 (Config.freeNat (k + i)), r)

/-- Ten granules somewhere, free, in a scratchpad of the loop's clusters take the bytes of an entry: its tail copy (R294).
-/
def tailCopy (v : Serving) (data : List Byte) (r : Run d₀) : Run d₀ :=
  let (k, r) := fresh r
  let (c, r) := fresh r
  let (o, r) := fresh r
  match v.clusters[k % v.clusters.length]? with
  | some k =>
    let at_ := 2 ^ 19 * (32 * k + c % coresPerCluster r.dev) + 64 * (o % 0x17F7)
    forEach (List.range 10) (fun i r => r.emit (.spad (at_ + 64 * i) ((data.drop (64 * i)).take 64))) r
  | none => r

/-- Write one entry, whose content is the model's: 512 bytes of latent and 128 of positional key; and its tail copy, from
the same bytes (R294). -/
def writeCacheEntry (v : Serving) (x : PageCell) (j k : Nat) (r : Run d₀) : Run d₀ :=
  let row := x.num / 8192 * 16384 + cellRow v x.num
  let (n, r) := freshMany 640 r
  let byte := fun (i : Nat) => BitVec.ofNat 8 (Config.freeNat (n + i))
  let r := tailCopy v ((List.range 640).map byte) r
  let latent := columnKey x.stack x.chan (j / 2) (row + k / 2) (32 * (k % 2) + 16 * (j % 2))
  let key := columnKey x.stack x.chan (j / 2) (row + 4) (8 * k + 4 * (j % 2))
  let r := forEach (List.range 8) (fun i =>
    encodeGranule (latent + 64 * i) ((List.range 64).map fun b => byte (64 * i + b)) true true) r
  forEach (List.range 2) (fun i =>
    encodeGranule (key + 64 * i) ((List.range 64).map fun b => byte (512 + 64 * i + b)) true true) r

/-- The entries of one position of a request, in every layer (R323). Cells of a channel that is gone take none. -/
def appendPosition (p : Nat) (m : Model) (x : Gen) (pos : Nat) (r : Run d₀) : Run d₀ :=
  let v := servingOf r.dev p
  match (x.pages[pos / 64]?).bind v.page with
  | none => r
  | some y =>
    forEach (List.range m.layers) (fun l r =>
      match y.cells[l / 8]? with
      | some c =>
        when (chanMode r.dev c.stack c.chan == 1) (writeCacheEntry v c (pos % 64) (l % 8)) r
      | none => r) r

/-- The entries of `count` positions from `first` on. -/
def appendEntries (p : Nat) (m : Model) (x : Gen) (first count : Nat) (r : Run d₀) : Run d₀ :=
  forEach ((List.range count).map (first + ·)) (appendPosition p m x) r

/-! ## Sealing and the index (R294, R336 to R338) -/

/-- R336: the digest of a page. -/
def pageDigest (key : Nat) (parent : List Byte) (ids : List Nat) : List Byte :=
  (sha256 (natLE key 32 ++ parent ++ ids.flatMap fun t => natLE t 4)).take 16

/-- Root digest of a model (R319). -/
def Model.root (m : Model) : List Byte := m.digest.take 16

/-- Pages that the index holds at most (R320). -/
def Serving.indexSize (v : Serving) : Nat := (v.workLen - workBase) / 384

/-- Seal page `i` of a request when it is not sealed, nor lost (R335): with reuse it is digested and, if its digest is
new, indexed. -/
def sealPage (key : Nat) (m : Model) (x : Gen) (v : Serving) (i : Nat) : Serving :=
  match (x.pages[i]?).bind v.page with
  | none => v
  | some y =>
    if y.sealed || y.lost then v
    else
      let ids := (x.tokens.drop (64 * i)).take 64
      let parent := if i = 0 then m.root else ((x.pages[i - 1]?).bind v.page).elim [] (·.digest)
      let digest := if x.noReuse then [] else pageDigest key parent ids
      let room := decide ((v.pages.filter (·.indexed)).length < v.indexSize)
      let new := !x.noReuse && room && !(v.pages.any fun z => z.indexed && z.digest == digest)
      let y := { y with ids := ids, parent := parent, digest := digest, sealed := true, indexed := new }
      { v with pages := v.pages.map fun z => if z.uid == y.uid then y else z }

/-- Seal every page that the committed length has passed. -/
def sealPages (p : Nat) (m : Model) (id : Nat) (r : Run d₀) : Run d₀ :=
  let v := servingOf r.dev p
  match v.gen id with
  | some x => setServing p ((List.range (x.n / 64)).foldl (sealPage (mget 0 r.dev.parts.keys p) m x) v) r
  | none => r

/-- R338: the pages of the index that serve the leading prompt pages, up to `left` of them. -/
def matchPages (key : Nat) (v : Serving) (prompt : List Nat) : Nat → List Byte → Nat → List Page
  | 0, _, _ => []
  | left + 1, parent, i =>
    let ids := (prompt.drop (64 * i)).take 64
    let digest := pageDigest key parent ids
    match v.pages.find? fun y => y.indexed && y.digest == digest with
    | some y => if y.ids = ids ∧ y.parent = parent then y :: matchPages key v prompt left digest (i + 1) else []
    | none => []

end Sys2Proof.Machine
end

