-- ==== Sys2Proof/Machine/Retire.lean ====
section
/-! DEFINITION. The retirement of a channel whose retrain failed: a bake of the firmware's own (R67, R122, R251, R335, R355, R489). -/
namespace Sys2Proof.Machine
variable {d₀ : Dev}

/-- Register of a stack that holds a channel's mode (R246). -/
def modeOff (s c : Nat) : Nat := stkOff s (if c < 16 then 0x08 else 0x0C)

/-- Entries of valid regions that cover some of the channel. -/
def chanEntries (d : Dev) (s c : Nat) : List Nat :=
  ((validRegions d).filter fun x => (areaPairs x.area).contains (s, c)).map (·.entry)

/-- The values that the retirement bakes: the mode, the holder's PART_CHAN, and the entries, no longer valid. -/
def retireValues (d : Dev) (s c : Nat) : Store Reg :=
  let v := fun (n : Nat) => BitVec.ofNat 32 n
  let mode := (modeOff s c, v (withBits (reg d (modeOff s c)) (2 * (c % 16) + 1) (2 * (c % 16)) 2))
  let holders := ((List.range 16).filter fun p => bit (reg d (chanReg p s)) c).map fun p =>
    (chanReg p s, v (clearBit (reg d (chanReg p s)) c))
  let entries := (chanEntries d s c).map fun n => (rgnOff n 8, v (clearBit (reg d (rgnOff n 8)) 31))
  mode :: holders ++ entries

/-- Partitions that the retirement affects. -/
def retireParts (d : Dev) (s c : Nat) : List Nat :=
  (List.range 16).filter fun p =>
    holdsChan d p s c ||
      (validRegions d).any fun x => x.owner == p && (areaPairs x.area).contains (s, c)

/-- What else in the channel's regions must end first: what is aimed at the channel itself cannot. -/
def retireReady (d : Dev) (s c : Nat) : Bool :=
  let here := fun (k : Nat) => keyStack k == s && keyChan k == c
  (validRegions d).all fun x =>
    !(areaPairs x.area).contains (s, c) ||
      (!flightTouches d (edgePoints [x.area] (areaPairs x.area) []) (fun k => x.area.covers k && !here k) &&
        (areaPairs x.area).all fun e => e == (s, c) || (!chanInUse d e.1 e.2 && !remapping d e.1 e.2))

/-- R335: pages with a cell in the channel are lost to a serving configuration. -/
def losePages (s c p : Nat) (r : Run d₀) : Run d₀ :=
  let v := servingOf r.dev p
  let lost := fun (x : Page) => x.cells.any fun y => y.stack == s && y.chan == c
  let gone := (v.pages.filter lost).map (·.uid)
  setServing p { v with
    pages := (v.pages.filter fun x => !lost x || v.inUse x.uid).map fun x =>
      if lost x then { x with indexed := false, lost := true } else x
    requests := v.requests.map fun x => if x.pages.any gone.contains then { x with lost := true } else x } r

/-- CHANNEL_RETIREMENT: the channel's retrain has failed. The retirement is one step, in which its stack acknowledges the
change of the one mode at once; what stands in the channel's FIFOs stays there (DESIGN CHOICE, assumption 31). -/
def retireChannel (s c : Nat) (r : Run d₀) : Run d₀ :=
  let ch := chanOf r.dev s c
  if !ch.retrain || r.dev.parts.bake.isSome || !retireReady r.dev s c then r
  else
    let parts := retireParts r.dev s c
    let serving := r.dev.serving.map (·.1)
    let r := setChan s c { ch with retrain := false } r
    let r := setReg (stkOff s 0x14) (2 ^ c) (setReg (stkOff s 0x18) 0 r)
    let r := commitBake (retireValues r.dev s c) r
    let r := setField (bootOff 0x8C) 31 16 (field r.dev (bootOff 0x8C) 31 16 + 1) r
    let r := forEach serving (losePages s c) r
    forEach parts (fun p => postEvent p stUncorrectable 6 0 s (directAddr (s * 2 ^ 36 + c * 2 ^ 31))) r

/-- CHANNEL_RETIREMENT (R335, R489). -/
def execChannelRetirement (stack : StackId) (chan : ChanId) (s : State) : Host.Outcome State Fault Refusal :=
  s.run (retireChannel stack.val chan.val)

end Sys2Proof.Machine
end

