-- ==== Sys2Proof/Machine/ServingEntries.lean ====
section
/-! DEFINITION. Serving: the entries of request rings (R310 to R321, R348 to R352). -/
namespace Sys2Proof.Machine
variable {d₀ : Dev}

/-! ## Entries (R314) -/
/-- kind -/ def sKind (w : List Dword) : Nat := bits (wd w 0) 7 0
/-- request id -/ def sId (w : List Dword) : Nat := bits (wd w 0) 63 32
/-- model handle -/ def sModel (w : List Dword) : Nat := bits (wd w 0) 11 8
/-- stream -/ def sStream (w : List Dword) : Nat := bits (wd w 0) 15 12

/-- Partition of a request ring. -/
def ringPart (d : Dev) (n : Nat) : Nat := (qpPart d (n / 16)).getD 0

/-- The entry of a kind at the head of request ring `n`. -/
def serveHead (d : Dev) (n kind : Nat) : Option (Ring × List Dword) :=
  match ringOf d n with
  | some x =>
    match x.head with
    | some h => if x.target == 1 && h.good && x.walk.isNone && sKind h.words == kind then some (x, h.words) else none
    | none => none
  | none => none

/-- The entry at the head leaves its ring with a completion entry (R317). -/
def endEntryAs (n : Nat) (x : Ring) (kind id status reason : Nat) (r : Run d₀) : Run d₀ :=
  let r := leaveHead n x r
  postCompletion (n / 16 * 16 + x.host) (requestEntry status reason kind id n x.fetch r.dev.time noOutcome) r

/-- Perform the entry of a kind at the head of ring `n`: `f` gives its end, or what it does. -/
def onEntry (n kind : Nat) (f : Nat → Ring → List Dword → Run d₀ → Run d₀) (r : Run d₀) : Run d₀ :=
  match serveHead r.dev n kind with
  | some (x, w) => f (ringPart r.dev n) x w r
  | none => r

/-- It is accepted: OK, reason 4. -/
def acceptEntry (n : Nat) (x : Ring) (kind id : Nat) (r : Run d₀) : Run d₀ := endEntryAs n x kind id stOk 4 r

/-- The model of a handle. -/
def Serving.model (v : Serving) (h : Nat) : Option Model := mget none v.models h

/-- The stream of a number. -/
def Serving.stream (v : Serving) (n : Nat) : Option Stream := v.streams.find? (·.num == n)

/-- Replace a stream. -/
def Serving.putStream (v : Serving) (x : Stream) : Serving :=
  { v with streams := v.streams.map fun y => if y.num == x.num then x else y }

/-! ## GENERATE (R315, R316) -/

/-- An FP16 number is negative, NaN, infinite. -/
def halfNegative (h : Nat) : Bool := bit h 15 && h % 2 ^ 15 != 0
/-- See `halfNegative`. -/
def halfNaN (h : Nat) : Bool := bits h 14 10 == 31 && bits h 9 0 != 0
/-- See `halfNegative`. -/
def halfInf (h : Nat) : Bool := bits h 14 10 == 31 && bits h 9 0 == 0

/-- The request that an entry describes. -/
def genFrom (n : Nat) (x : Ring) (w : List Dword) (now : Nat) : Gen :=
  { id := sId w, uid := 0, ring := n, seq := x.fetch, host := n / 16 * 16 + x.host, discard := false, model := sModel w,
    priority := bits (wd w 0) 13 12, width := bits (wd w 0) 16 14, noReuse := bit (wd w 0) 17, prompt := wd w 1,
    len := bits (wd w 2) 21 0, maxTokens := bits (wd w 2) 63 32, addr := wd w 3, rkey := bits (wd w 4) 31 0,
    seed := bits (wd w 4) 63 32, deadline := wd w 5, temperature := bits (wd w 6) 15 0, topP := bits (wd w 6) 31 16,
    topK := bits (wd w 6) 47 32, stop0 := bits (wd w 7) 31 0, stop1 := bits (wd w 7) 63 32, accepted := now,
    state := .queued, n := 0, tokens := [], pages := [], drafts := [], published := 0, steps := 0, reused := 0,
    starved := 0, first := none, hungry := none, blocked := none, held := none, prod := 0, cons := 0, asked := false, asks := false, lost := false,
    refused := false, frames := [] }

/-- A stop token is none or below vocab. -/
def stopOk (t vocab : Nat) : Bool := t == 0xFFFFFFFF || decide (t < vocab)

/-- R316: status of a GENERATE that is rejected. -/
def generateFault (d : Dev) (p : Nat) (x : Gen) (w : List Dword) : Option Nat :=
  let v := servingOf d p
  let fields := bits (wd w 0) 31 18 == 0 && decide (1 ≤ x.width) && decide (x.width ≤ 4) && x.id != 0 &&
    decide (1 ≤ x.len) && bits (wd w 2) 31 22 == 0 && bits (wd w 6) 63 48 == 0 && namedRange d p x.prompt (4 * x.len)
  if x.prompt % 64 ≠ 0 ∨ x.addr % 64 ≠ 0 then some stAlign
  else if !fields || (v.gen x.id).isSome || decide (4096 ≤ v.requests.length) || !v.active then some stDescriptor
  else
    match v.model x.model with
    | none => some stDescriptor
    | some m =>
      if m.type ≠ 1 ∨ !stopOk x.stop0 m.vocab ∨ !stopOk x.stop1 m.vocab ∨ halfNegative x.temperature ∨
          halfNaN x.temperature ∨ halfInf x.temperature ∨ halfNegative x.topP ∨ halfNaN x.topP then some stDescriptor
      else none

/-- GENERATE: the request is QUEUED (R321). -/
def generateEntry (n now : Nat) (r : Run d₀) : Run d₀ :=
  let r := reach now r
  onEntry n 1 (fun p x w r =>
    let g := genFrom n x w r.dev.time
    match generateFault r.dev p g w with
    | some st => endEntryAs n x 1 g.id st 0 r
    | none =>
      let v := servingOf r.dev p
      leaveHead n x (setServing p { v with
        requests := v.requests ++ [{ g with uid := v.nextGen }], nextGen := v.nextGen + 1 } r)) r

/-! ## CANCEL (R348) -/

/-- CANCEL: refused at once when its id is not active, else it waits for the next boundary. -/
def cancelEntry (n : Nat) (r : Run d₀) : Run d₀ :=
  onEntry n 2 (fun p x w r =>
    let v := servingOf r.dev p
    let clean := bits (wd w 0) 31 8 == 0 && wordsZero w [1, 2, 3, 4, 5, 6, 7]
    match if clean then v.gen (sId w) else none with
    | none => endEntryAs n x 2 (sId w) stDescriptor 0 r
    | some g =>
      let c : Cancel := ⟨n, x.fetch, n / 16 * 16 + x.host, sId w, g.uid, false⟩
      leaveHead n x (setServing p { v with cancels := v.cancels ++ [c] } r)) r

/-! ## MODEL (R318, R319) -/

/-- The model a plan's header describes, if it keeps R318. -/
def modelFrom (plan : List Byte) : Option Model :=
  let w := toWords (plan.take 64)
  let m : Model := ⟨bits (wd w 0) 39 32, bits (wd w 0) 47 40, bits (wd w 0) 51 48, bits (wd w 1) 31 0, bits (wd w 2) 19 0,
    bits (wd w 3) 31 0, bits (wd w 3) 63 32, sha256 plan⟩
  if 64 ≤ plan.length ∧ bits (wd w 0) 31 0 = 0x4E414C50 ∧ (m.type = 1 ∨ m.type = 2) ∧ 1 ≤ m.layers ∧ m.heads ≤ 3 ∧
      bits (wd w 0) 63 52 = 0 ∧ bits (wd w 1) 63 32 = 0 ∧ bits (wd w 2) 63 20 = 0 ∧ wordsZero w [4, 5, 6, 7] then some m
  else none

/-- The handle is in use by an active request or stream. -/
def Serving.handleUsed (v : Serving) (h : Nat) : Bool :=
  (v.requests.any (·.model == h)) || (v.streams.any (·.model == h))

/-- MODEL: the plan is read and checked. -/
def modelEntry (n : Nat) (r : Run d₀) : Run d₀ :=
  onEntry n 6 (fun p x w r =>
    let a := wd w 1
    let len := bits (wd w 2) 31 0
    let fail := fun (st : Nat) (r : Run d₀) => endEntryAs n x 6 (sId w) st 0 r
    let clean := bits (wd w 0) 31 12 == 0 && bits (wd w 2) 63 32 == 0 && wd w 3 == 0
    if !clean || !namedRange r.dev p a len then fail stDescriptor r
    else if rangeWaits r.dev a len then r
    else
      match readRange a len r with
      | (none, r) => fail stUncorrectable r
      | (some plan, r) =>
        if sha256 plan ≠ wordBytes ((w.drop 4).take 4) then fail stSig r
        else
          let (q, r) := fresh r
          match modelFrom plan with
          | none => fail stDescriptor r
          | some m =>
            let v := servingOf r.dev p
            if !Config.planInside (leNat m.digest) q || v.handleUsed (sModel w) then fail stDescriptor r
            else acceptEntry n x 6 (sId w) (setServing p { v with models := mset none v.models (sModel w) (some m) } r)) r

/-! ## CONFIG (R310, R320) -/

/-- Blocks of a bank's rows `lo` to `hi` of a half that the direct-view entries of a partition cover. -/
def rowsCovered (d : Dev) (p s c lo hi : Nat) : Bool :=
  (List.range 32).all fun b => (List.range 2).all fun h =>
    (samples (columnKey s c b (16384 * h + lo) 0) ((hi + 1 - lo) * 2048)).all fun k =>
      (validRegions d).any fun x => x.area.direct && x.owner == p && x.area.covers k

/-- R320: a CONFIG that is refused. -/
def configBad (d : Dev) (p : Nat) (w : List Dword) : Bool :=
  let v := servingOf d p
  let dec := bits (wd w 1) 5 0
  let pre := bits (wd w 1) 13 8
  let frm := bits (wd w 1) 21 16
  let lo := bits (wd w 2) 13 0
  let hi := bits (wd w 2) 29 16
  let held := ((List.range 64).filter fun k => clusterPart d k == some p).length
  let clean := bits (wd w 0) 31 8 == 0 && bits (wd w 1) 7 6 == 0 && bits (wd w 1) 15 14 == 0 && bits (wd w 1) 63 22 == 0 &&
    bits (wd w 2) 15 14 == 0 && bits (wd w 2) 63 30 == 0 && wordsZero w [6, 7]
  !clean || !v.requests.isEmpty || !v.streams.isEmpty || decide (held < dec + pre + frm) ||
    (dec == 0 && (pre != 0 || frm != 0)) ||
    decide (hi < lo + 4) || !((poolChans d p).all fun e => rowsCovered d p e.1 e.2 lo hi) ||
    decide (wd w 5 < workBase) || !namedRange d p (wd w 4) (wd w 5)

/-- CONFIG: it takes the clusters, frees every cell and empties the index; three counts of 0 remove the configuration. -/
def configEntry (n : Nat) (r : Run d₀) : Run d₀ :=
  onEntry n 7 (fun p x w r =>
    if configBad r.dev p w then endEntryAs n x 7 (sId w) stDescriptor 0 r
    else
      let v := servingOf r.dev p
      let dec := bits (wd w 1) 5 0
      let pre := bits (wd w 1) 13 8
      let frm := bits (wd w 1) 21 16
      let own := (List.range 64).filter fun k => clusterPart r.dev k == some p
      let us := if bits (wd w 3) 63 32 = 0 then 100000 else bits (wd w 3) 63 32
      let v := { v with
        active := dec != 0, clusters := own.take (dec + pre + frm), decode := dec, prefill := pre, frame := frm,
        rowLo := bits (wd w 2) 13 0, rowHi := bits (wd w 2) 29 16, reserve := bits (wd w 3) 31 0, limit := us * 1000,
        work := wd w 4, workLen := wd w 5, pages := [], step := none, chunk := none }
      acceptEntry n x 7 (sId w) (followSlices r.dev (setServing p v r))) r

/-! ## Streams (R349 to R352) -/

/-- A length rounded up to 64 bytes. -/
def roundUp64 (n : Nat) : Nat := cdiv n 64 * 64

/-- Output size of a frame encoder's plan. -/
def outputSize (m : Model) : Nat := Config.planOutput (leNat m.digest)

/-- The stream that an entry describes. -/
def streamFrom (n : Nat) (w : List Dword) : Stream :=
  { num := sStream w, model := sModel w, attach := sId w, input := wd w 1, bytes := bits (wd w 2) 31 0,
    period := bits (wd w 2) 63 32, t0 := wd w 3, offset := bits (wd w 4) 31 0, output := wd w 5, ring := n,
    last := none, waiting := none, running := none, encoded := 0, dropped := 0, closing := none }

/-- R349: a STREAM_OPEN that is refused. -/
def streamBad (d : Dev) (p : Nat) (x : Stream) (w : List Dword) : Bool :=
  let v := servingOf d p
  let clean := bits (wd w 0) 31 16 == 0 && bits (wd w 4) 63 32 == 0 && wordsZero w [6, 7]
  !clean || (v.stream x.num).isSome || v.frame == 0 || (x.attach != 0 && (v.gen x.attach).isNone) ||
    match v.model x.model with
    | none => true
    | some m =>
      m.type != 2 || decide (x.period < x.offset) || decide (x.offset < m.cNom) || decide (x.period < 2 * m.mNom) ||
        !namedRange d p x.input (3 * roundUp64 x.bytes) || !namedRange d p x.output (3 * (outputSize m + 64))

/-- STREAM_OPEN. -/
def openEntry (n now : Nat) (r : Run d₀) : Run d₀ :=
  let r := reach now r
  onEntry n 3 (fun p x w r =>
    let st := streamFrom n w
    if streamBad r.dev p st w then endEntryAs n x 3 st.num stDescriptor 0 r
    else
      let v := servingOf r.dev p
      acceptEntry n x 3 st.num (setServing p { v with streams := v.streams ++ [st] } r)) r

/-- Deadline of frame `k` (R350). -/
def frameDeadline (x : Stream) (k : Nat) : Nat := x.t0 + (k * x.period + x.offset) * 1000

/-- A frame is dropped: counted, and FRAME_DROPPED sent (R317, R352). -/
def dropStreamFrame (p num k : Nat) (r : Run d₀) : Run d₀ :=
  let v := servingOf r.dev p
  match v.stream num with
  | some x => postEvent p stDropped 2 0 k num (setServing p (v.putStream { x with dropped := x.dropped + 1 }) r)
  | none => r

/-- The frame that waits gives way. -/
def dropWaiting (p num : Nat) (r : Run d₀) : Run d₀ :=
  let v := servingOf r.dev p
  match v.stream num with
  | some x =>
    match x.waiting with
    | some k => dropStreamFrame p num k (setServing p (v.putStream { x with waiting := none }) r)
    | none => r
  | none => r

/-- The full number of a frame whose low 32 bits are `k`, read after `last`; none when it does not come after it. -/
def frameNumber (last : Option Nat) (k : Nat) : Option Nat :=
  match last with
  | none => some k
  | some l =>
    let step := (k + 2 ^ 32 - l % 2 ^ 32) % 2 ^ 32
    if step = 0 ∨ 2 ^ 31 ≤ step then none else some (l + step)

/-- FRAME. -/
def frameEntry (n now : Nat) (r : Run d₀) : Run d₀ :=
  let r := reach now r
  onEntry n 4 (fun p x w r =>
    let v := servingOf r.dev p
    let reject := endEntryAs n x 4 (sStream w) stDescriptor 0
    let clean := bits (wd w 0) 11 8 == 0 && bits (wd w 0) 31 16 == 0 && wordsZero w [1, 2, 3, 4, 5, 6, 7]
    match v.stream (sStream w) with
    | none => reject r
    | some st =>
      match frameNumber st.last (sId w) with
      | none => reject r
      | some k =>
        if !clean || st.closing.isSome then reject r
        else
          let skipped := st.last.elim [] fun l => (List.range (k - l - 1)).map fun i => l + 1 + i
          let r := leaveHead n x (setServing p (v.putStream { st with last := some k }) r)
          let r := forEach skipped (dropStreamFrame p st.num) r
          let r := dropWaiting p st.num r
          if frameDeadline st k ≤ r.dev.time then dropStreamFrame p st.num k r
          else
            let v := servingOf r.dev p
            match v.stream st.num with
            | some y => setServing p (v.putStream { y with waiting := some k }) r
            | none => r) r

/-- A closing stream whose frame has ended completes and is gone (R353). -/
def settleStream (p num : Nat) (r : Run d₀) : Run d₀ :=
  let v := servingOf r.dev p
  match v.stream num with
  | some x =>
    match x.closing with
    | some c =>
      if x.running.isSome then r
      else
        let e := requestEntry stOk 4 5 num c.ring c.seq r.dev.time
          { noOutcome with encoded := x.encoded, dropped := x.dropped }
        let r := setServing p { v with streams := v.streams.filter (·.num != num) } r
        when (!c.discard) (postCompletion c.host e) r
    | none => r
  | none => r

/-- STREAM_CLOSE. -/
def closeEntry (n : Nat) (r : Run d₀) : Run d₀ :=
  onEntry n 5 (fun p x w r =>
    let v := servingOf r.dev p
    let clean := bits (wd w 0) 11 8 == 0 && bits (wd w 0) 31 16 == 0 && wordsZero w [1, 2, 3, 4, 5, 6, 7]
    match v.stream (sStream w) with
    | some st =>
      if !clean || st.closing.isSome then endEntryAs n x 5 (sStream w) stDescriptor 0 r
      else
        let c : Cancel := ⟨n, x.fetch, n / 16 * 16 + x.host, st.num, 0, false⟩
        let r := leaveHead n x (setServing p (v.putStream { st with closing := some c }) r)
        settleStream p st.num (dropWaiting p st.num r)
    | none => endEntryAs n x 5 (sStream w) stDescriptor 0 r) r

/-! ## The commands -/

/-- GENERATE (R314 to R317, R321). -/
def execGenerate (ring : RingId) (now : Nat) (s : State) : Host.Outcome State Fault Refusal :=
  s.run (generateEntry ring.val now)

/-- CANCEL (R314, R348). -/
def execCancel (ring : RingId) (s : State) : Host.Outcome State Fault Refusal := s.run (cancelEntry ring.val)

/-- STREAM_OPEN (R314, R349). -/
def execStreamOpen (ring : RingId) (now : Nat) (s : State) : Host.Outcome State Fault Refusal :=
  s.run (openEntry ring.val now)

/-- FRAME (R314, R350 to R352). -/
def execFrame (ring : RingId) (now : Nat) (s : State) : Host.Outcome State Fault Refusal :=
  s.run (frameEntry ring.val now)

/-- STREAM_CLOSE (R314, R353). -/
def execStreamClose (ring : RingId) (s : State) : Host.Outcome State Fault Refusal := s.run (closeEntry ring.val)

/-- MODEL (R314, R318, R319). -/
def execModel (ring : RingId) (s : State) : Host.Outcome State Fault Refusal := s.run (modelEntry ring.val)

/-- CONFIG (R310, R314, R320). -/
def execConfig (ring : RingId) (s : State) : Host.Outcome State Fault Refusal := s.run (configEntry ring.val)

end Sys2Proof.Machine
end

