-- ==== Sys2Proof/Machine/ServingFrames.lean ====
section
/-! DEFINITION. Serving: frames of the streams (R350, R352, R353). -/
namespace Sys2Proof.Machine
variable {d₀ : Dev}

/-- A frame of a stream: stream number, frame number, deadline, and whether it is being encoded. -/
structure Encoding where
  stream   : Nat
  num      : Nat
  deadline : Nat
  runs     : Bool
deriving DecidableEq, Repr

/-- Frames being encoded. -/
def runningFrames (v : Serving) : List Encoding :=
  v.streams.filterMap fun x => x.running.map fun k => ⟨x.num, k, frameDeadline x k, true⟩

/-- Frames that wait and may start: their stream encodes none. -/
def startableFrames (v : Serving) : List Encoding :=
  (v.streams.filter (·.running.isNone)).filterMap fun x => x.waiting.map fun k => ⟨x.num, k, frameDeadline x k, false⟩

/-- `a` comes before `b`: the earlier deadline, then the lower stream number (R352). -/
def frameBefore (a b : Encoding) : Bool :=
  decide (a.deadline < b.deadline) || (a.deadline == b.deadline && decide (a.stream < b.stream))

/-- First of a list of frames in that order. -/
def firstFrame : List Encoding → Option Encoding
  | [] => none
  | a :: l => some (l.foldl (fun m b => if frameBefore b m then b else m) a)

/-- The beat rate that housekeeping last reported, in M beats/s; nominal before the first round. -/
def beatRate (d : Dev) : Nat := if reg d (hkOff 0x10) = 0 then 1800 else reg d (hkOff 0x10)

/-- A frame that would start now ends, at the nominal encoding time of its stream and the beat rate last reported, after
its deadline (R352): time + c_nom × 1800 / rate > deadline, exactly. -/
def startsLate (d : Dev) (v : Serving) (x : Stream) (deadline : Nat) : Bool :=
  let work := (v.model x.model).elim 0 fun m => m.cNom * 1000 * 1800
  decide (deadline * beatRate d < d.time * beatRate d + work)

/-- A frame starts, or comes too late and is dropped (R352). -/
def beginFrame (p : Nat) (f : Encoding) (r : Run d₀) : Run d₀ :=
  let v := servingOf r.dev p
  match v.stream f.stream with
  | none => r
  | some x =>
    if startsLate r.dev v x f.deadline then
      settleStream p f.stream (dropStreamFrame p f.stream f.num (setServing p (v.putStream { x with waiting := none }) r))
    else setServing p (v.putStream { x with waiting := none, running := some f.num }) r

/-- The frame with the earliest deadline goes on; frames that come too late on the way are dropped. -/
def chooseFrame (p : Nat) : Nat → Run d₀ → Run d₀
  | 0, r => r
  | fuel + 1, r =>
    let v := servingOf r.dev p
    match firstFrame (runningFrames v ++ startableFrames v) with
    | none => r
    | some f => if f.runs then r else chooseFrame p fuel (beginFrame p f r)

/-- FRAME_START. Every stream can have one frame that waits, so sixteen drops are the most there can be. -/
def frameBoundary (p now : Nat) (r : Run d₀) : Run d₀ :=
  let r := reach now r
  when (servingOf r.dev p).active (chooseFrame p 17) r

/-- Address of an output slot, and bytes of output before its final 64 (R349, R353). -/
def slotAddr (x : Stream) (size k : Nat) : Nat := x.output + k % 3 * (size + 64)

/-- Write a slot: output of the model's own content, then the final 64 bytes, of which sixteen are given (R353). -/
def writeSlot (x : Stream) (size k : Nat) (r : Run d₀) : Run d₀ :=
  let (out, r) := freeBytes size r
  let (rest, r) := freeBytes 48 r
  let r := (writeRange (slotAddr x size k) out r).2
  (writeRange (slotAddr x size k + size) (natLE k 8 ++ natLE r.dev.time 8 ++ rest) r).2

/-- An attached request receives the frame's positions (R353). -/
def appendFrame (p : Nat) (m : Model) (x : Stream) (r : Run d₀) : Run d₀ :=
  let v := servingOf r.dev p
  match v.gen x.attach with
  | some y =>
    when (x.attach != 0) (setServing p
      (v.put { y with frames := y.frames ++ [Config.planPositions (leNat m.digest)] })) r
  | none => r

/-- A frame finishes encoding. -/
def endFrame (p : Nat) (f : Encoding) (r : Run d₀) : Run d₀ :=
  let v := servingOf r.dev p
  match v.stream f.stream with
  | none => r
  | some x =>
    match v.model x.model with
    | none => r
    | some m =>
      let size := outputSize m
      if f.deadline ≤ r.dev.time ∨ rangeWaits r.dev (slotAddr x size f.num) (size + 64) then r
      else
        let r := when (namedRange r.dev p (slotAddr x size f.num) (size + 64)) (writeSlot x size f.num) r
        let v := servingOf r.dev p
        let r := setServing p (v.putStream { x with running := none, encoded := x.encoded + 1 }) r
        settleStream p f.stream (appendFrame p m x r)

/-- FRAME_ENCODED. -/
def frameEnds (p now : Nat) (r : Run d₀) : Run d₀ :=
  let r := reach now r
  match firstFrame (runningFrames (servingOf r.dev p)) with
  | some f => endFrame p f r
  | none => r

/-- A frame is abandoned: what its slot holds is unspecified (R352). -/
def abandonFrame (p : Nat) (f : Encoding) (r : Run d₀) : Run d₀ :=
  let v := servingOf r.dev p
  match v.stream f.stream with
  | none => r
  | some x =>
    let size := (v.model x.model).elim 0 outputSize
    let a := slotAddr x size f.num
    let r :=
      if namedRange r.dev p a (size + 64) ∧ !rangeWaits r.dev a (size + 64) then
        let (b, r) := freeBytes (size + 64) r
        (writeRange a b r).2
      else r
    let r := setServing p ((servingOf r.dev p).putStream { x with running := none }) r
    settleStream p f.stream (dropStreamFrame p f.stream f.num r)

/-- FRAME_DEADLINE. -/
def frameLate (p now : Nat) (r : Run d₀) : Run d₀ :=
  let r := reach now r
  forEach ((runningFrames (servingOf r.dev p)).filter fun f => decide (f.deadline ≤ r.dev.time)) (abandonFrame p) r

/-! ## The commands -/

/-- FRAME_START (R352). -/
def execFrameStart (part : PartId) (now : Nat) (s : State) : Host.Outcome State Fault Refusal :=
  s.run (frameBoundary part.val now)

/-- FRAME_ENCODED (R353). -/
def execFrameEncoded (part : PartId) (now : Nat) (s : State) : Host.Outcome State Fault Refusal :=
  s.run (frameEnds part.val now)

/-- FRAME_DEADLINE (R350, R352). -/
def execFrameDeadline (part : PartId) (now : Nat) (s : State) : Host.Outcome State Fault Refusal :=
  s.run (frameLate part.val now)

end Sys2Proof.Machine
end

