-- ==== Sys2Proof/Machine/ServingSteps.lean ====
section
/-! DEFINITION. Serving: step boundaries, commit, publication and prefill chunks (R312, R321 to R348). -/
namespace Sys2Proof.Machine
variable {d₀ : Dev}

/-- Highest position of a token (R326, R329). -/
def lastPosition : Nat := 4194303

/-! ## Endings at a check (R321, R335, R345 to R348) -/

/-- Deadline reached (R345). -/
def Gen.expired (x : Gen) (now : Nat) : Bool := x.deadline != 0 && decide (x.deadline ≤ now)

/-- A CANCEL completes (R317, R348). -/
def endCancel (c : Cancel) (status reason : Nat) (r : Run d₀) : Run d₀ :=
  when (!c.discard) (postCompletion c.host (requestEntry status reason 2 c.id c.ring c.seq r.dev.time noOutcome)) r

/-- A request may end now: it is in no step, and no chunk of it runs. -/
def Serving.endable (v : Serving) (x : Gen) : Bool :=
  x.state != .step && v.chunk.elim true fun c => c.gen != x.uid

/-- One request at a boundary: the first ending of R347 that applies. -/
def checkGen (p id : Nat) (r : Run d₀) : Run d₀ :=
  let v := servingOf r.dev p
  match v.gen id with
  | none => r
  | some x =>
    if !v.endable x then r
    else if x.expired r.dev.time then endGen p x stDeadline 0 r
    else
      match v.cancels.find? (·.target == x.uid) with
      | some c =>
        let r := setServing p { v with cancels := v.cancels.erase c } r
        endGen p x stOk 3 (endCancel c stOk 4 r)
      | none =>
        let y := x.accrue r.dev
        if x.lost then endGen p x stUncorrectable 0 r
        else if y.hungry.elim false (fun t => decide (t + v.limit < r.dev.time)) then endGen p x stExhausted 0 r
        else setServing p (v.put y) r

/-- The request that a CANCEL names is active. -/
def Serving.named (v : Serving) (c : Cancel) : Bool := v.requests.any fun x => x.uid == c.target

/-- CANCELs of requests that have ended complete with DESCRIPTOR_INVALID. -/
def staleCancels (p : Nat) (r : Run d₀) : Run d₀ :=
  let v := servingOf r.dev p
  let gone := v.cancels.filter fun c => !v.named c
  let r := setServing p { v with cancels := v.cancels.filter v.named } r
  forEach gone (fun c => endCancel c stDescriptor 0) r

/-- Every request at a boundary. -/
def checkAll (p : Nat) (r : Run d₀) : Run d₀ :=
  staleCancels p (forEach ((servingOf r.dev p).requests.map (·.id)) (checkGen p) r)

/-! ## Slots (R325, R326, R331, R333, R343, R344) -/

/-- Model of a request, a decoder since it was accepted (R316). -/
def genModel (v : Serving) (x : Gen) : Model := (v.model x.model).getD ⟨1, 1, 0, 0, 0, 0, 0, []⟩

/-- `x` comes before `y` among slot candidates. -/
def slotBefore (x y : Gen) : Bool :=
  let h := fun (g : Gen) => g.held.elim 0 (· + 1)
  decide (y.priority < x.priority) ||
    (x.priority == y.priority && (decide (h x < h y) || (h x == h y && decide (x.id < y.id))))

/-- Insert a request in an order. -/
def insertGen (before : Gen → Gen → Bool) (x : Gen) : List Gen → List Gen
  | [] => [x]
  | y :: r => if before x y then x :: y :: r else y :: insertGen before x r

/-- Requests in an order. -/
def sortGens (before : Gen → Gen → Bool) (l : List Gen) : List Gen := l.foldl (fun m x => insertGen before x m) []

/-- A request is starved: the skipped step counts, and the first skip of the spell sends CACHE_STARVED (R333). -/
def starve (p : Nat) (x : Gen) (count : Bool) (r : Run d₀) : Run d₀ :=
  let v := servingOf r.dev p
  let y := { x with
    starved := x.starved + if count then 1 else 0
    hungry := some (x.hungry.getD r.dev.time) }
  let r := setServing p (v.put y) r
  when x.hungry.isNone (postEvent p stStarved 1 0 x.id 0) r

/-- The slots that are given, and those that are left. -/
structure Grant (d₀ : Dev) where
  left  : Nat
  slots : List Slot
  run   : Run d₀

/-- One candidate of R326. -/
def grantSlots (p : Nat) (z : Grant d₀) (id : Nat) : Grant d₀ :=
  let v := servingOf z.run.dev p
  match v.gen id with
  | none => z
  | some x =>
    let m := genModel v x
    let w := min (min x.width z.left) (min (m.heads + 1) (lastPosition - x.n))
    if !v.endable x ∨ x.shut z.run.dev then { z with run := seekRoom p id z.run }
    else if w = 0 ∨ !x.frames.isEmpty then z
    else
      let need := (x.n + w - 1) / 64 + 1 - x.pages.length
      match newPages p m 0 id need z.run with
      | none => { z with run := starve p x true z.run }
      | some r =>
        let v := servingOf r.dev p
        match v.gen id with
        | none => z
        | some y =>
          let y := { y with state := .step, steps := y.steps + 1, held := some v.stepNum, hungry := none }
          { left := z.left - w, slots := z.slots ++ [⟨id, w⟩], run := setServing p (v.put y) r }

/-- STEP_BOUNDARY. -/
def stepBoundary (p now : Nat) (r : Run d₀) : Run d₀ :=
  let r := reach now r
  let v := servingOf r.dev p
  if !v.active || v.step.isSome then r
  else
    let r := checkAll p r
    let v := servingOf r.dev p
    let l := sortGens slotBefore (v.requests.filter (·.state == .decode))
    let z := (l.map (·.id)).foldl (grantSlots p) ⟨4, [], r⟩
    let v := servingOf z.run.dev p
    setServing p { v with
      boundary := z.run.dev.time
      step := if z.slots.isEmpty then none else some z.slots
      stepNum := if z.slots.isEmpty then v.stepNum else v.stepNum + 1 } z.run

/-! ## Sampling and publication (R324, R327 to R329, R341, R342) -/

/-- A free token below vocab. -/
def drawToken (vocab : Nat) (r : Run d₀) : Nat × Run d₀ :=
  let (n, r) := fresh r
  (n % vocab, r)

/-- A free token below vocab other than `t`. -/
def drawOther (vocab t : Nat) (r : Run d₀) : Nat × Run d₀ :=
  let (n, r) := fresh r
  let k := n % (vocab - 1)
  (if t ≤ k then k + 1 else k, r)

/-- Free tokens. -/
def drawTokens (vocab : Nat) : Nat → Run d₀ → List Nat × Run d₀
  | 0, r => ([], r)
  | k + 1, r =>
    let (t, r) := drawToken vocab r
    let (l, r) := drawTokens vocab k r
    (t :: l, r)

/-- R328: the tokens of a step of width `w`: accepted drafts, then the token drawn after them, which on a rejection is not
the draft. How many drafts are accepted is the model's. -/
def stepTokens (vocab w : Nat) (drafts : List Nat) (r : Run d₀) : List Nat × Run d₀ :=
  let (n, r) := fresh r
  let a := if vocab ≤ 1 then w - 1 else n % w
  let (y, r) := if a < w - 1 then drawOther vocab (drafts.getD a 0) r else drawToken vocab r
  (drafts.take a ++ [y], r)

/-- R329: reason with which a token ends its request, if it does: `count` is the published count with it. -/
def tokenEnds (x : Gen) (t count position : Nat) : Option Nat :=
  if t = x.stop0 ∨ t = x.stop1 then some 0
  else if x.maxTokens ≠ 0 ∧ count = x.maxTokens then some 1
  else if position = lastPosition then some 2
  else none

/-- The tokens that are published, and the reason with which the last one ends the request. -/
def publishable (x : Gen) : List Nat → Nat → List Nat × Option Nat
  | [], _ => ([], none)
  | t :: l, i =>
    match tokenEnds x t (x.published + i + 1) (x.n + i + 1) with
    | some reason => ([t], some reason)
    | none =>
      let z := publishable x l (i + 1)
      (t :: z.1, z.2)

/-- R341: a slice-ring entry. -/
def sliceEntry (token position accepted : Nat) (final : Bool) (logprob step : Nat) : List Byte :=
  natLE token 4 ++ natLE (position + accepted * 2 ^ 22 + flagBit final 24) 4 ++ natLE logprob 2 ++ natLE 0 2 ++
    natLE step 4

/-- A request samples greedily (R327). -/
def Gen.greedy (x : Gen) : Bool := bits x.temperature 14 0 == 0

/-- top_p is at most 1/vocab: the most probable token alone reaches it (R327). -/
def narrowP (x : Gen) (vocab : Nat) : Bool :=
  let v := decodeFloat fp16 x.topP
  !vIsZero v && !vIsNan v && !vlt (vint 1) (vmul v (vint vocab)).1

/-- A request's distributions give probability 1 to one token, and publish ln 1: a vocabulary of one, or sampling among
the first one (R327). A greedy request publishes the logarithm of another distribution. -/
def certain (x : Gen) (vocab : Nat) : Bool :=
  decide (vocab ≤ 1) || (!x.greedy && (x.topK == 1 || narrowP x vocab))

/-- R327: how many log-probabilities in FP16 are possible: 0, and the negative ones up to the largest magnitude. One only
for a certain token; for a greedy choice, whose probability is 1/vocab or more, down to -ln vocab. -/
def probCodes (x : Gen) (vocab : Nat) : Nat :=
  if certain x vocab then 1
  else if x.greedy then (roundFloat fp16 .given 0 0 (lnVal (vint vocab))).1 + 2
  else 0x7C01

/-- R327: a log-probability in FP16 among `codes` possible ones: the model's. -/
def logProb (codes n : Nat) : Nat := if n % codes = 0 then 0 else 0x8000 + (n % codes - 1)

/-- Entries of a batch. -/
def sliceEntries (first accepted step codes : Nat) (ends : Bool) : List Nat → Nat → Run d₀ → List (List Byte) × Run d₀
  | [], _, r => ([], r)
  | t :: l, i, r =>
    let (n, r) := fresh r
    let e := sliceEntry t (first + i) accepted (ends && l.isEmpty) (logProb codes n) step
    let (z, r) := sliceEntries first accepted step codes ends l (i + 1) r
    (e :: z, r)

/-- A granule of the loop's working area takes free contents. -/
def workGranule (p : Nat) (r : Run d₀) : Run d₀ :=
  let v := servingOf r.dev p
  let (n, r) := fresh r
  let (b, r) := freeBytes 64 r
  let a := v.work + 64 * (n % (v.workLen / 64))
  if v.workLen / 64 = 0 ∨ !namedRange r.dev p a 64 ∨ rangeWaits r.dev a 64 then r else (writeRange a b r).2

/-- A granule of a scratchpad of the loop's clusters takes free contents. -/
def padGranule (p : Nat) (r : Run d₀) : Run d₀ :=
  let v := servingOf r.dev p
  let (k, r) := fresh r
  let (c, r) := fresh r
  let (o, r) := fresh r
  let (b, r) := freeBytes 64 r
  match v.clusters[k % v.clusters.length]? with
  | some k => r.emit (.spad (2 ^ 19 * (32 * k + c % coresPerCluster r.dev) + 64 * (o % 0x1800)) b)
  | none => r

/-- The counters of a stack that the loop's recipes move (R253): columns, flits, recipes. -/
def loopCounters (s : Nat) (r : Run d₀) : Run d₀ :=
  forEach [0x38, 0x3C, 0x40] (fun o r =>
    let (n, r) := fresh r
    addReg (stkOff s o) n r) r

/-- What the loop's own commands and recipes leave beside the entries of positions (R312, R313, R320, R322): in its
working area, in the scratchpads of its clusters, in the counters of its stacks. The plan is Morril's own (R318), so how
much is written, where and what is free (assumption 44). -/
def loopWork (p : Nat) (r : Run d₀) : Run d₀ :=
  let (n, r) := fresh r
  let r := forEach (List.range n) (fun _ => workGranule p) r
  let (m, r) := fresh r
  let r := forEach (List.range m) (fun _ => padGranule p) r
  forEach ((poolChans r.dev p).map (·.1)).eraseDups loopCounters r

/-- The tokens of a step are published (R328, R329): a batch is formed (R342), counts move on, drafts are drawn (R324),
pages seal, and the request ends where a token ends it. -/
def commitStep (p : Nat) (x : Gen) (w : Nat) (r : Run d₀) : Run d₀ :=
  let v := servingOf r.dev p
  let m := genModel v x
  let (ys, r) := stepTokens m.vocab w x.drafts r
  let z := publishable x ys 0
  let (entries, r) := sliceEntries (x.n + 1) (ys.length - 1) x.steps (probCodes x m.vocab) z.2.isSome z.1 0 r
  let (drafts, r) := drawTokens m.vocab m.heads r
  let b : Batch := ⟨x.id, x.uid, x.ring / 16, x.addr, x.rkey, x.prod, entries, none⟩
  let k := z.1.length
  let x := { x with
    state := .decode, n := x.n + k, tokens := x.tokens ++ z.1, drafts := drafts, published := x.published + k,
    prod := (x.prod + k) % 2 ^ 32 }
  let v := servingOf r.dev p
  let r := sealPages p m x.id (setServing p { (v.put x) with outbox := v.outbox ++ [b] } r)
  match z.2 with
  | some reason => endGen p x stOk reason r
  | none => seekRoom p x.id r

/-- The first token, from prefill: step 0, at position L (R321, R322). -/
def commitFirst (p : Nat) (x : Gen) (r : Run d₀) : Run d₀ :=
  let v := servingOf r.dev p
  let m := genModel v x
  let (t, r) := drawToken m.vocab r
  let reason := tokenEnds x t 1 x.len
  let (entries, r) := sliceEntries x.len 0 0 (probCodes x m.vocab) reason.isSome [t] 0 r
  let (drafts, r) := drawTokens m.vocab m.heads r
  let b : Batch := ⟨x.id, x.uid, x.ring / 16, x.addr, x.rkey, x.prod, entries, none⟩
  let x := { x with
    state := .decode, n := x.len, tokens := x.tokens ++ [t], drafts := drafts, published := 1,
    prod := (x.prod + 1) % 2 ^ 32 }
  let v := servingOf r.dev p
  let r := setServing p { (v.put x) with outbox := v.outbox ++ [b] } r
  match reason with
  | some k => endGen p x stOk k r
  | none => seekRoom p x.id r

/-- One slot holder at commit: its entries are written; then it ends, or publishes (R321, R335, R344, R345). -/
def commitSlot (p : Nat) (e : Slot) (r : Run d₀) : Run d₀ :=
  let v := servingOf r.dev p
  match v.gen e.request with
  | none => r
  | some x =>
    let r := appendEntries p (genModel v x) x x.n e.width r
    if x.expired r.dev.time then endGen p x stDeadline 0 r
    else if x.refused then endGen p x stDescriptor 0 r
    else if x.lost then
      let (met, r) := fresh r
      if met % 2 = 1 then setServing p ((servingOf r.dev p).put { x with state := .decode }) r
      else commitStep p x e.width r
    else commitStep p x e.width r

/-- STEP_COMMIT. -/
def stepCommit (p now : Nat) (r : Run d₀) : Run d₀ :=
  let r := reach now r
  match (servingOf r.dev p).step with
  | none => r
  | some slots =>
    let r := forEach slots (commitSlot p) (loopWork p r)
    setServing p { servingOf r.dev p with step := none } r

/-- PUBLISH: the oldest batch of a request, which is the oldest of its queue pair, while that is ready. -/
def publishBatch (p id : Nat) (r : Run d₀) : Run d₀ :=
  let v := servingOf r.dev p
  match v.outbox.find? (·.request == id) with
  | none => r
  | some b =>
    if v.outbox.find? (·.qp == b.qp) ≠ some b ∨ (qpOf r.dev b.qp).mode ≠ .ready then r
    else writeBatch p b (setServing p { v with outbox := v.outbox.erase b } r)

/-- CONSUMER_INDEX_READ. -/
def readConsumer (p id index : Nat) (r : Run d₀) : Run d₀ :=
  match (servingOf r.dev p).gen id with
  | none => r
  | some x =>
    let q := x.ring / 16
    let y := qpOf r.dev q
    let mine := fun (m : Sent) => match m.msg with
      | .read _ a _ _ _ => a == x.addr + 4100
      | _ => false
    if !x.asked || !qpReady r.dev q then r
    else consumerRead p x index (setQp q { y with unacked := y.unacked.filter fun m => !mine m } r)

/-! ## Prefill (R313, R316, R322, R332, R338, R353) -/

/-- `x` comes before `y` among chunk candidates (R322). -/
def chunkBefore (x y : Gen) : Bool :=
  decide (y.priority < x.priority) ||
    (x.priority == y.priority &&
      (decide (x.accepted < y.accepted) || (x.accepted == y.accepted && decide (x.id < y.id))))

/-- The request wants a chunk: prompt left, or a frame to append. -/
def wantsChunk (x : Gen) (now : Nat) : Bool :=
  !x.lost && !x.expired now &&
    (x.state == .queued || x.state == .prefill || (x.state == .decode && !x.frames.isEmpty))

/-- Token ids of `n` prompt positions from `first` on, as bytes hold them. -/
def promptIds (b : List Byte) : List Nat := (chunks 4 b.length b).map leNat

/-- Bytes of a prompt that are looked up in the index (R338). -/
def lookupBytes (x : Gen) : Nat := if x.noReuse then 0 else 256 * ((x.len - 1) / 64)

/-- R338: a QUEUED request enters PREFILL, with the prompt pages looked up at hand, and references those that the index
holds. -/
def enterWith (p : Nat) (x : Gen) (b : List Byte) (r : Run d₀) : Run d₀ :=
  let v := servingOf r.dev p
  let m := genModel v x
  let pages := (x.len - 1) / 64
  let prompt := promptIds b
  let l : List Page := if x.noReuse then [] else matchPages (mget 0 r.dev.parts.keys p) v prompt pages m.root 0
  let x := { x with
    state := .prefill, pages := l.map (fun (y : Page) => y.uid), reused := l.length, n := 64 * l.length,
    tokens := l.flatMap fun (y : Page) => y.ids }
  let v := { v with
    refs := v.refs + 1
    pages := v.pages.map fun (y : Page) => if x.pages.contains y.uid then { y with used := v.refs + 1 } else y }
  setServing p (v.put x) r

/-- A QUEUED request has its prompt pages looked up; where one is uncorrectable it ends (R453). -/
def enterPrefill (p : Nat) (x : Gen) (r : Run d₀) : Run d₀ :=
  match readRange x.prompt (lookupBytes x) r with
  | (some b, r) => enterWith p x b r
  | (none, r) => endGen p x stUncorrectable 0 r

/-- The largest number of pages up to `k` that the request can have, with them (R332). -/
def takePages (p : Nat) (m : Model) (id : Nat) : Nat → Run d₀ → Option (Nat × Run d₀)
  | 0, _ => none
  | k + 1, r =>
    match newPages p m (servingOf r.dev p).reserve id (k + 1) r with
    | some r => some (k + 1, r)
    | none => takePages p m id k r

/-- How trying a candidate for a chunk ended. -/
inductive Try (d₀ : Dev) where
  /-- It took none: the next candidate is tried. -/
  | next (r : Run d₀)
  /-- Its chunk runs, or its prompt is held. -/
  | stop (r : Run d₀)

/-- Start a chunk. -/
def runChunk (p : Nat) (c : Chunk) (r : Run d₀) : Run d₀ := setServing p { servingOf r.dev p with chunk := some c } r

/-- A prompt chunk of a request in PREFILL: one to eight pages, as many as it can have of the number chosen. -/
def promptChunk (p : Nat) (x : Gen) (r : Run d₀) : Try d₀ :=
  let v := servingOf r.dev p
  let m := genModel v x
  let page := x.n / 64
  let most := min 8 ((x.len - 1) / 64 + 1 - page)
  let (n, r) := fresh r
  match takePages p m x.id (n % most + 1) r with
  | none => .next (starve p x false r)
  | some (k, r') =>
    let stop := min (64 * (page + k)) x.len
    let a := x.prompt + 4 * x.n
    if rangeWaits r.dev a (4 * (stop - x.n)) then .stop r
    else
      match readRange a (4 * (stop - x.n)) r' with
      | (none, r) => .next (endGen p ((servingOf r.dev p).gen x.id |>.getD x) stUncorrectable 0 r)
      | (some b, r) =>
        let ids := promptIds b
        let v := servingOf r.dev p
        let y := (v.gen x.id).getD x
        if ids.any fun t => decide (m.vocab ≤ t) then .next (endGen p y stDescriptor 0 r)
        else
          let r := setServing p (v.put { y with tokens := y.tokens ++ ids, hungry := none }) r
          .stop (runChunk p ⟨x.id, x.uid, x.n, stop, false⟩ r)

/-- A chunk that appends the oldest frame of an attached stream. -/
def frameChunk (p : Nat) (x : Gen) (r : Run d₀) : Try d₀ :=
  let v := servingOf r.dev p
  let m := genModel v x
  let k := x.frames.headD 0
  let stop := x.n + k
  if k = 0 ∨ lastPosition ≤ stop then .next (setServing p (v.put { x with frames := x.frames.drop 1 }) r)
  else
    match newPages p m v.reserve x.id (cdiv stop 64 - x.pages.length) r with
    | none => .next (starve p x false r)
    | some r =>
      let v := servingOf r.dev p
      let y := (v.gen x.id).getD x
      .stop (runChunk p ⟨x.id, x.uid, x.n, stop, true⟩ (setServing p (v.put { y with hungry := none }) r))

/-- Try one candidate. -/
def tryChunk (p id : Nat) (r : Run d₀) : Try d₀ :=
  match (servingOf r.dev p).gen id with
  | none => .next r
  | some x =>
    if x.state = .decode then frameChunk p x r
    else if x.state = .queued ∧ rangeWaits r.dev x.prompt (lookupBytes x) then .stop r
    else
      let r := if x.state = .queued then enterPrefill p x r else r
      match (servingOf r.dev p).gen id with
      | some y => promptChunk p y r
      | none => .next r

/-- Try candidates in order until one's chunk runs. -/
def tryChunks (p : Nat) : List Nat → Run d₀ → Run d₀
  | [], r => r
  | id :: l, r =>
    match tryChunk p id r with
    | .next r => tryChunks p l r
    | .stop r => r

/-- PREFILL_CHUNK_START. -/
def chunkStart (p now : Nat) (r : Run d₀) : Run d₀ :=
  let r := reach now r
  let v := servingOf r.dev p
  if !v.active || v.prefill == 0 || v.chunk.isSome then r
  else
    let r := checkAll p r
    let l := sortGens chunkBefore ((servingOf r.dev p).requests.filter fun x => wantsChunk x r.dev.time)
    tryChunks p (l.map (·.id)) r

/-- What a chunk leaves: entries, the length, token ids of a frame's positions, sealed pages. -/
def finishChunk (p : Nat) (c : Chunk) (x : Gen) (r : Run d₀) : Run d₀ :=
  let v := servingOf r.dev p
  let m := genModel v x
  let r := appendEntries p m x c.first (c.stop - c.first) r
  let (ids, r) := if c.frame then drawTokens m.vocab (c.stop - c.first) r else ([], r)
  let x := { x with
    n := c.stop
    tokens := if c.frame then x.tokens.take c.first ++ ids ++ x.tokens.drop c.first else x.tokens
    frames := if c.frame then x.frames.drop 1 else x.frames }
  sealPages p m x.id (setServing p ((servingOf r.dev p).put x) r)

/-- PREFILL_CHUNK_END: a chunk boundary (R345, R348); after the last chunk of a prompt comes the first token. -/
def chunkEnd (p now : Nat) (r : Run d₀) : Run d₀ :=
  let r := reach now r
  let v := servingOf r.dev p
  match v.chunk with
  | none => r
  | some c =>
    let r := loopWork p r
    let r := match v.requests.find? (·.uid == c.gen) with
      | some x => finishChunk p c x r
      | none => r
    let r := setServing p { servingOf r.dev p with chunk := none } r
    let r := checkAll p r
    match (servingOf r.dev p).requests.find? (·.uid == c.gen) with
    | some x => if x.state = .prefill ∧ x.n = x.len then commitFirst p x r else r
    | none => r

/-- DEADLINE_CHECK. -/
def checkDeadlines (p now : Nat) (r : Run d₀) : Run d₀ :=
  let r := reach now r
  let v := servingOf r.dev p
  forEach ((v.requests.filter fun x => v.endable x && x.expired r.dev.time).map (·.id)) (fun id r =>
    match (servingOf r.dev p).gen id with
    | some x => endGen p x stDeadline 0 r
    | none => r) r

/-! ## The commands -/

/-- STEP_BOUNDARY (R312, R325, R326, R330 to R335, R343 to R348). -/
def execStepBoundary (part : PartId) (now : Nat) (s : State) : Host.Outcome State Fault Refusal :=
  s.run (stepBoundary part.val now)

/-- STEP_COMMIT (R312, R321, R323, R324, R327 to R329, R334, R336). -/
def execStepCommit (part : PartId) (now : Nat) (s : State) : Host.Outcome State Fault Refusal :=
  s.run (stepCommit part.val now)

/-- PUBLISH (R312, R334, R342, R344). -/
def execPublish (part : PartId) (request : Nat) (s : State) : Host.Outcome State Fault Refusal :=
  s.run (publishBatch part.val request)

/-- CONSUMER_INDEX_READ (R343). -/
def execConsumerIndexRead (part : PartId) (request index : Nat) (s : State) : Host.Outcome State Fault Refusal :=
  s.run (readConsumer part.val request index)

/-- PREFILL_CHUNK_START (R313, R316, R322, R332, R333, R338, R353). -/
def execPrefillChunkStart (part : PartId) (now : Nat) (s : State) : Host.Outcome State Fault Refusal :=
  s.run (chunkStart part.val now)

/-- PREFILL_CHUNK_END (R321, R322, R336, R345, R348). -/
def execPrefillChunkEnd (part : PartId) (now : Nat) (s : State) : Host.Outcome State Fault Refusal :=
  s.run (chunkEnd part.val now)

/-- DEADLINE_CHECK (R345 to R347). -/
def execDeadlineCheck (part : PartId) (now : Nat) (s : State) : Host.Outcome State Fault Refusal :=
  s.run (checkDeadlines part.val now)

end Sys2Proof.Machine
end

