-- ==== Sys2Proof/Machine/Thermal.lean ====
section
/-! DEFINITION. The housekeeping round, throttling and shutdown (R501 to R525), the management bus (R520, R521) and the test
access port (R496, R529). -/
namespace Sys2Proof.Machine
variable {d₀ : Dev}

/-! ## Sensors (R508 to R510) -/

/-- Temperature of a sensor in 1/16 °C by its two-point conversion; none when it lacks calibration coefficients. -/
def sensorValue (f : Fuses) (x : Sample) (n : Nat) : Option Int :=
  match f.points.getD n none with
  | some (f1, t1, f2, t2) =>
    if f1 = f2 then none else some (t1 + Int.fdiv ((x.freqs.getD n 0 - f1) * (t2 - t1)) (f2 - f1))
  | none => none

/-- The temperature lies within -40 °C to 150 °C. -/
def inRange (t : Int) : Bool := decide (-640 ≤ t) && decide (t ≤ 2400)

/-- Reading of a sensor; none when it is invalid. -/
def sensorReading (f : Fuses) (x : Sample) (n : Nat) : Option Int := (sensorValue f x n).filter inRange

/-- The valid readings of a unit, with their sensors. -/
def unitReadings (readings : List (Option Int)) (sensors : List Nat) : List (Int × Nat) :=
  sensors.filterMap fun n => (readings.getD n none).map fun t => (t, n)

/-- A unit's temperature: the highest valid reading and its sensor, the lowest-numbered on a tie. A unit without one, now
or at an earlier round since power-on (`blind`), counts as at its throttle threshold, in °C. -/
def unitTemp (readings : List (Option Int)) (sensors : List Nat) (throttle : Int) (blind : Bool) : Int × Nat :=
  match if blind then [] else unitReadings readings sensors with
  | [] => (throttle * 16, sensors.headD 0)
  | a :: r => r.foldl (fun m e => if m.1 < e.1 then e else m) a

/-- A unit enters a state at its threshold and leaves it below the threshold less 4 °C (R512). -/
def enters (t threshold : Int) (was : Bool) : Bool :=
  if threshold * 16 ≤ t then true else if t < (threshold - 4) * 16 then false else was

/-- Sensors of the hearth die. -/
def hearthSensors : List Nat := List.range 48
/-- Sensors of a stack. -/
def stackSensors (s : Nat) : List Nat := (List.range 18).map fun k => 48 + 18 * s + k
/-- Sensor of an optical engine. -/
def opticSensors (l : Nat) : List Nat := [408 + l]

/-- Sensors of every unit: the hearth die, stacks 0 to 19, optical engines 0 to 19. -/
def unitSensors : List (List Nat) :=
  hearthSensors :: (List.range 20).map stackSensors ++ (List.range 20).map opticSensors

/-- Units without a valid sensor, now or since power-on, as bits in the order of `unitSensors` (R510). -/
def nowBlind (readings : List (Option Int)) (before : Nat) : Nat :=
  bitsWhere 41 fun i => bit before i || (unitReadings readings (unitSensors.getD i [])).isEmpty

/-- What one unit does in a round: its temperature and sensor, and whether it warns and throttles, before and after. -/
structure Unit_ where
  temp    : Int
  sensor  : Nat
  warned  : Bool
  warns   : Bool
  hot     : Bool
  heats   : Bool

/-- One unit's round. -/
def unitRound (readings : List (Option Int)) (sensors : List Nat) (warn throttle : Int) (blind warned hot : Bool) : Unit_ :=
  let t := unitTemp readings sensors throttle blind
  ⟨t.1, t.2, warned, enters t.1 warn warned, hot, enters t.1 throttle hot⟩

/-- Temperature events to send: sensor, code, whether on entry, reading (R517). -/
def unitEvents (u : Unit_) (throttles : Bool) : List (Nat × Nat × Bool × Int) :=
  (if u.warned != u.warns then [(u.sensor, stWarn, u.warns, u.temp)] else []) ++
    (if throttles && u.hot != u.heats then [(u.sensor, stThrottle, u.heats, u.temp)] else [])

/-! ## Throttling (R503, R513, R514) -/

/-- Baked HEARTH_CORE code and power cap. -/
def bakedCode (d : Dev) : Nat := supplyCode (reg d (thmOff 0x18))
/-- See `bakedCode`. -/
def powerCap (d : Dev) : Nat := supplyCap (reg d (thmOff 0x18))

/-- Code of the setpoint in force (R503). -/
def codeInForce (d : Dev) : Nat := bakedCode d - d.board.steps

/-- The throttle counter after a round (R513). -/
def nextSteps (d : Dev) (temp : Int) (power : Nat) : Nat :=
  let n := d.board.steps
  if d.parts.bake.elim false fun b => b.staged.any (·.1 == thmOff 0x18) then n
  else if 105 * 16 ≤ temp ∨ powerCap d < power then min (n + 1) (bakedCode d)
  else if temp < 101 * 16 ∧ power + 50 < powerCap d then n - 1
  else n

/-- Power limiting of the stacks after a round (R514). -/
def nextLimited (d : Dev) (steps power : Nat) : Bool :=
  if d.board.limited then decide (powerCap d ≤ power + 50)
  else steps == bakedCode d && decide (powerCap d < power)

/-! ## Shutdown (R518) -/

/-- Nominal value of a rail in 0.1 mV (R502). -/
def railNominal (d : Dev) (rail : Nat) : Nat :=
  match rail with
  | 0 => 6500 + 125 * codeInForce d
  | 3 => 10500
  | 4 => 9000
  | _ => 7500

/-- A rail lies outside ±5 %. -/
def railOut (d : Dev) (rail mv : Nat) : Bool :=
  let n := railNominal d rail
  decide (mv * 1000 < n * 95) || decide (n * 105 < mv * 1000)

/-- The module shuts down: every rail but the housekeeping supply is off, and only HK_SHUTDOWN, the I3C target and the
contacts keep their state; FLASH_VCC, no rail of R502, is driven until power-off (R533). -/
def shutDown (cause source reading : Nat) (r : Run d₀) : Run d₀ :=
  let b := r.dev.board
  let r := r.emit .off
  let r := setBoard { Board.init with
    input := true, shut := true, flashVcc := b.flashVcc, alertN := b.alertN, thermTripN := true, faultN := true, static := b.static,
    dynamic := b.dynamic, offset := b.offset, trstN := b.trstN } r
  setReg (hkOff 0x18) (reading % 2 ^ 16 + source * 2 ^ 16 + cause * 2 ^ 25) r

/-- The first unit at its shutdown threshold: its sensor and temperature. -/
def overheated (l : List (Unit_ × Int)) : Option (Nat × Int) :=
  (l.find? fun e => decide (e.2 * 16 ≤ e.1.temp)).map fun e => (e.1.sensor, e.1.temp)

/-! ## The registers of a round (R522 to R525) -/

/-- HK_TEMP of a sensor: its temperature, within 16 bits, and whether it is valid; 0 for one without coefficients. -/
def tempField (v : Option Int) : Nat :=
  v.elim 0 fun t => unsigned 16 (max (-32768) (min 32767 t)) + flagBit (inRange t) 31

/-- The lowest of some readings; 0 where there is none. -/
def lowest : List Int → Int
  | [] => 0
  | a :: l => l.foldl min a

/-- The samples in HK_. -/
def showSample (f : Fuses) (x : Sample) (r : Run d₀) : Run d₀ :=
  let set := fun (o v : Nat) (r : Run d₀) => setReg (hkOff o) v r
  let r := set 0x10 (x.beats % 2 ^ 16) (set 0x0C (x.power % 2 ^ 16) (set 0x08 (x.inputI % 2 ^ 16) (set 0x04 (x.inputV % 2 ^ 16) r)))
  let r := forEach (List.range 6) (fun i r =>
    set (0x24 + 8 * i) (x.railI.getD i 0 % 2 ^ 16) (set (0x20 + 8 * i) (x.railV.getD i 0 % 2 ^ 16) r)) r
  let r := forEach (List.range 428) (fun n =>
    set (0x100 + 4 * n) (tempField (sensorValue f x n))) r
  forEach (List.range 20) (fun l r =>
    set (0x804 + 8 * l) (unsigned 16 (lowest (x.received.getD l [])))
      (set (0x800 + 8 * l) (unsigned 16 (lowest (x.laser.getD l []))) r)) r

/-- Band of each core die (R226, R277): hot above 85 °C; one without a valid sensor counts as hot. -/
def showBands (readings : List (Option Int)) (r : Run d₀) : Run d₀ :=
  forEach (List.range 20) (fun s =>
    setReg (seqOff s 0x04) (bitsWhere 16 fun k => (readings.getD (48 + 18 * s + k) none).elim true fun t => decide (85 * 16 < t))) r

/-- Insert an event in ascending sensor order, after those of the same sensor. -/
def insertEvent (e : Nat × Nat × Bool × Int) : List (Nat × Nat × Bool × Int) → List (Nat × Nat × Bool × Int)
  | [] => [e]
  | a :: r => if a.1 ≤ e.1 then a :: insertEvent e r else e :: a :: r

/-- Send the events of a round in ascending sensor order. -/
def sendEvents (l : List (Nat × Nat × Bool × Int)) (r : Run d₀) : Run d₀ :=
  forEach (l.foldl (fun m e => insertEvent e m) []) (fun e => thermalEvent e.2.1 e.1 (unsigned 16 e.2.2.2) e.2.2.1) r

/-- Which units of a list meet `p`, as bits. -/
def unitBits (l : List Unit_) (p : Unit_ → Bool) : Nat :=
  bitsWhere l.length fun i => (l[i]?).elim false p

/-- HOUSEKEEPING_ROUND. -/
def housekeep (x : Sample) (now : Nat) (r : Run d₀) : Run d₀ :=
  if !r.dev.board.rails || decide (stageOf r.dev < 3) then r
  else
    let r := addReg (hkOff 0) 1 (reach now r)
    let d := r.dev
    let readings := (List.range 428).map (sensorReading d.boot.fuses x)
    let stackBit := fun (o s : Nat) => bit (reg d (thmOff o)) s
    let blind := nowBlind readings d.board.blind
    let hearth := unitRound readings hearthSensors 95 105 (bit blind 0) (bit (reg d (thmOff 0)) 0) (d.board.steps != 0)
    let stackSet := (List.range 20).map fun s =>
      unitRound readings (stackSensors s) 85 95 (bit blind (1 + s)) (stackBit 0x08 s) (bit d.board.hotStacks s)
    let optics := (List.range 20).map fun l =>
      unitRound readings (opticSensors l) 70 80 (bit blind (21 + l)) (stackBit 0x10 l) (stackBit 0x14 l)
    let steps := nextSteps d hearth.temp x.power
    let limited := nextLimited d steps x.power
    let hot := unitBits stackSet (·.heats)
    let throttled := if limited then 2 ^ 20 - 1 else hot
    let any := steps != 0 || throttled != 0 || unitBits optics (·.heats) != 0
    let alert := any || hearth.warns || stackSet.any (·.warns) || optics.any (·.warns)
    let rails := (List.range 6).filter fun i => railOut d i (x.railV.getD i 0)
    let twice := rails.find? fun i => decide (0 < mget 0 d.board.outRail i)
    match overheated ((hearth, (120 : Int)) :: (stackSet.map fun u => (u, (105 : Int))) ++ optics.map fun u => (u, (90 : Int))),
      twice with
    | some (n, t), _ => shutDown 1 n (unsigned 16 t) (setBoard { d.board with alertN := alert } r)
    | none, some i => shutDown 2 i (x.railV.getD i 0) (setBoard { d.board with alertN := alert } r)
    | none, none =>
      let count := d.board.throttled + if any then 1 else 0
      let r := setBoard { d.board with
        steps := steps, limited := limited, hotStacks := hot, throttled := count, alertN := alert, blind := blind,
        outRail := rails.foldl (fun m i => mset 0 m i 1) [] } r
      let r := showBands readings (showSample d.boot.fuses x r)
      let r := setReg (hkOff 0x14) (codeInForce r.dev + x.hearthV % 2 ^ 16 * 2 ^ 16) r
      let r := setReg (thmOff 0) (flagBit hearth.warns 0 + flagBit (steps != 0) 1 + flagBit limited 2 + steps * 2 ^ 8) r
      let r := setReg (thmOff 4) (unsigned 16 hearth.temp + hearth.sensor * 2 ^ 16) r
      let r := setReg (thmOff 0x0C) throttled (setReg (thmOff 0x08) (unitBits stackSet (·.warns)) r)
      let r := setReg (thmOff 0x14) (unitBits optics (·.heats)) (setReg (thmOff 0x10) (unitBits optics (·.warns)) r)
      let r := setReg (thmOff 0x20) (count * 1024 / 1000) r
      let r := forEach (List.range 20) (fun s => setRegBit (stkOff s 0x04) 1 (bit throttled s)) r
      let r := forEach (List.range 20) (fun l r =>
        setLink l { linkOf r.dev l with throttle := (optics[l]?).elim false (·.heats) } r) r
      let edge := (d.board.steps != 0) != (steps != 0)
      let events := unitEvents hearth false ++
        (if edge then [(hearth.sensor, stThrottle, steps != 0, hearth.temp)] else []) ++
        (stackSet ++ optics).flatMap (unitEvents · true) ++
        (if limited != d.board.limited then [(0xFFFFFFFE, stThrottle, limited, (x.power : Int))] else [])
      sendEvents events r

/-- INPUT_UNDERVOLTAGE (R507): the module stops as at power-off, and every latch clears. -/
def inputLow (r : Run d₀) : Run d₀ := r.emit .off

/-- INPUT_OVERVOLTAGE (R507, R518). -/
def inputHigh (mv : Nat) (r : Run d₀) : Run d₀ :=
  when (r.dev.board.input && !r.dev.board.shut) (shutDown 3 0 mv) r

/-! ## The I3C target (R521) -/

/-- What the management bus reads at an offset: HK_, THM_, BOOT_STATUS and FEAT_ID only. -/
def busRead (d : Dev) (o : Nat) : Nat :=
  if o % 4 = 0 ∧ (0x30000 ≤ o ∧ o < 0x40000 ∨ o = bootOff 0 ∨ o = 0) then
    if d.board.shut ∧ o ≠ hkOff 0x18 then 0 else regRead d o
  else 0

/-- The target answers: the input is on. -/
def busOn (d : Dev) : Bool := d.board.input

/-- I3C_PRIVATE_WRITE. -/
def busWrite (bytes : List Byte) (r : Run d₀) : Run d₀ :=
  let b := r.dev.board
  when (busOn r.dev)
    (if bytes.length = 4 then setBoard { b with offset := leNat bytes, nack := false } else setBoard { b with nack := true }) r

/-- I3C_PRIVATE_READ: from event 3 on, during a halt and during a shutdown. -/
def busReads (count : Nat) (r : Run d₀) : Run d₀ :=
  let b := r.dev.board
  when (busOn r.dev && (b.shut || decide (3 ≤ stageOf r.dev) || isHalted r.dev))
    (setBoard { b with
      readOut := (List.range count).flatMap fun i => natLE (busRead r.dev (b.offset + 4 * i)) 4
      offset := (b.offset + 4 * count) % 2 ^ 32 }) r

/-- SETDASA: the target with this static address takes a dynamic one. -/
def assignStatic (static dynamic : Nat) (r : Run d₀) : Run d₀ :=
  let b := r.dev.board
  when (busOn r.dev && b.dynamic.isNone && static == b.static) (setBoard { b with dynamic := some (dynamic % 128) }) r

/-- ENTDAA: a target without a dynamic address takes the one assigned. -/
def assignDynamic (dynamic : Nat) (r : Run d₀) : Run d₀ :=
  let b := r.dev.board
  when (busOn r.dev && b.dynamic.isNone) (setBoard { b with dynamic := some (dynamic % 128) }) r

/-! ## The test access port (R496, R529) -/

/-- The port answers: the rails are on and TRST_N does not hold it in reset. -/
def tapOn (d : Dev) : Bool := d.board.rails && d.board.trstN

/-- IDCODE: FUSE_IDCODE is shifted out. -/
def tapIdcode (r : Run d₀) : Run d₀ :=
  when (tapOn r.dev) (setBoard { r.dev.board with idcode := true, tdo := reg r.dev (fuseOff 0xC) }) r

/-- BYPASS: data passes through the one-bit bypass register. -/
def passThrough (tdi : Bool) (r : Run d₀) : Run d₀ :=
  let b := r.dev.board
  setBoard { b with idcode := false, bypass := tdi, tdo := if b.bypass then 1 else 0 } r

/-- An instruction other than IDCODE: with the field-lock fuse blown every code acts as BYPASS; with it whole another
code than BYPASS reaches the scan and debug functions of manufacturing test, of which the manual gives only that they
never show the identity: what they shift out is free (assumption 43). -/
def tapBypass (scan : TapCode × Bool) (r : Run d₀) : Run d₀ :=
  when (tapOn r.dev) (fun r =>
    if scan.1 == .bypass || r.dev.boot.fuses.locked then passThrough scan.2 r
    else
      let (v, r) := fresh r
      setBoard { r.dev.board with idcode := false, tdo := v } r) r

/-- TEST_ACCESS_PORT_RESET: TRST_N is asserted (`false`) or released; in reset IDCODE is in force. -/
def tapReset (trst : Bool) (r : Run d₀) : Run d₀ :=
  let b := r.dev.board
  if trst then setBoard { b with trstN := true } r
  else setBoard { b with trstN := false, idcode := true, bypass := false } r

/-! ## The commands -/

/-- HOUSEKEEPING_ROUND (R503, R509 to R518, R520, R522 to R525). -/
def execHousekeepingRound (sample : Sample) (now : Nat) (s : State) : Host.Outcome State Fault Refusal :=
  s.run (housekeep sample now)

/-- INPUT_UNDERVOLTAGE (R506, R507). -/
def execInputUndervoltage (s : State) : Host.Outcome State Fault Refusal := s.run inputLow

/-- INPUT_OVERVOLTAGE (R507, R518). -/
def execInputOvervoltage (mv : Nat) (s : State) : Host.Outcome State Fault Refusal := s.run (inputHigh mv)

/-- I3C_PRIVATE_WRITE (R521). -/
def execI3cPrivateWrite (bytes : List Byte) (s : State) : Host.Outcome State Fault Refusal := s.run (busWrite bytes)

/-- I3C_PRIVATE_READ (R521). -/
def execI3cPrivateRead (count : Nat) (s : State) : Host.Outcome State Fault Refusal := s.run (busReads count)

/-- SETDASA (R521). -/
def execSetdasa (static dynamic : Nat) (s : State) : Host.Outcome State Fault Refusal :=
  s.run (assignStatic static dynamic)

/-- ENTDAA (R521). -/
def execEntdaa (dynamic : Nat) (s : State) : Host.Outcome State Fault Refusal := s.run (assignDynamic dynamic)

/-- IDCODE (R496). -/
def execIdcode (s : State) : Host.Outcome State Fault Refusal := s.run tapIdcode

/-- BYPASS (R496). -/
def execBypass (scan : TapCode × Bool) (s : State) : Host.Outcome State Fault Refusal := s.run (tapBypass scan)

/-- TEST_ACCESS_PORT_RESET (R529). -/
def execTestAccessPortReset (trst : Bool) (s : State) : Host.Outcome State Fault Refusal := s.run (tapReset trst)

end Sys2Proof.Machine
end

