-- ==== Sys2Proof/Machine/Dispatch.lean ====
section
/-! DEFINITION. The meaning of every command, one arm each. -/
namespace Sys2Proof.Machine
open Sys2Proof

/-- The effect of a command on everything but the queue. -/
def exec (i : Instr) (s : State) : Host.Outcome State Fault Refusal :=
  match i with
  | .nop uid => Sys2Proof.Machine.execNop uid s
  | .matmul uid upset => Sys2Proof.Machine.execMatmul uid upset s
  | .tileEntersRack core => Sys2Proof.Machine.execTileEntersRack core s
  | .voidEntryEntersRack core => Sys2Proof.Machine.execVoidEntryEntersRack core s
  | .vecop uid upset => Sys2Proof.Machine.execVecop uid upset s
  | .rackEntryTaken core now upset => Sys2Proof.Machine.execRackEntryTaken core now upset s
  | .reduce uid upset => Sys2Proof.Machine.execReduce uid upset s
  | .gather uid upset => Sys2Proof.Machine.execGather uid upset s
  | .scatter uid upset => Sys2Proof.Machine.execScatter uid upset s
  | .copy uid upset => Sys2Proof.Machine.execCopy uid upset s
  | .dma uid upset => Sys2Proof.Machine.execDma uid upset s
  | .recipe uid => Sys2Proof.Machine.execRecipe uid s
  | .wait uid => Sys2Proof.Machine.execWait uid s
  | .waitConditionPoll ring met => Sys2Proof.Machine.execWaitConditionPoll ring met s
  | .signal uid => Sys2Proof.Machine.execSignal uid s
  | .release uid => Sys2Proof.Machine.execRelease uid s
  | .acquire uid => Sys2Proof.Machine.execAcquire uid s
  | .atomic uid met => Sys2Proof.Machine.execAtomic uid met s
  | .countSet uid => Sys2Proof.Machine.execCountSet uid s
  | .countAdd uid => Sys2Proof.Machine.execCountAdd uid s
  | .countLoad cmd => Sys2Proof.Machine.execCountLoad cmd s
  | .countStore cmd => Sys2Proof.Machine.execCountStore cmd s
  | .countSetref uid => Sys2Proof.Machine.execCountSetref uid s
  | .countSetrel uid => Sys2Proof.Machine.execCountSetrel uid s
  | .fence uid => Sys2Proof.Machine.execFence uid s
  | .commandFetch ring now => Sys2Proof.Machine.execCommandFetch ring now s
  | .commandIssue ring now upset => Sys2Proof.Machine.execCommandIssue ring now upset s
  | .tagArrival n now => Sys2Proof.Machine.execTagArrival n now s
  | .commandCompletion uid now => Sys2Proof.Machine.execCommandCompletion uid now s
  | .completionEntry hostRing => Sys2Proof.Machine.execCompletionEntry hostRing s
  | .waitTimeout ring now => Sys2Proof.Machine.execWaitTimeout ring now s
  | .cmdOverrun uid now => Sys2Proof.Machine.execCmdOverrun uid now s
  | .flushWalk ring now => Sys2Proof.Machine.execFlushWalk ring now s
  | .networkAtomicWriteBack cluster granule => Sys2Proof.Machine.execNetworkAtomicWriteBack cluster granule s
  | .copyEviction cluster core granule parity => Sys2Proof.Machine.execCopyEviction cluster core granule parity s
  | .memoryModeAccess stack chan request disturb => Sys2Proof.Machine.execMemoryModeAccess stack chan request disturb s
  | .memoryModeRefresh stack chan now => Sys2Proof.Machine.execMemoryModeRefresh stack chan now s
  | .recipeAccepted stack upset => Sys2Proof.Machine.execRecipeAccepted stack upset s
  | .loadEntryArrival stack uid entry => Sys2Proof.Machine.execLoadEntryArrival stack uid entry s
  | .recipeImageArrival stack cmd => Sys2Proof.Machine.execRecipeImageArrival stack cmd s
  | .recipeStart stack chan now => Sys2Proof.Machine.execRecipeStart stack chan now s
  | .act stack chan => Sys2Proof.Machine.execAct stack chan s
  | .pre stack chan => Sys2Proof.Machine.execPre stack chan s
  | .dot stack chan => Sys2Proof.Machine.execDot stack chan s
  | .axpy stack chan => Sys2Proof.Machine.execAxpy stack chan s
  | .scale stack chan => Sys2Proof.Machine.execScale stack chan s
  | .reread stack chan => Sys2Proof.Machine.execReread stack chan s
  | .loadv stack chan => Sys2Proof.Machine.execLoadv stack chan s
  | .copyv stack chan => Sys2Proof.Machine.execCopyv stack chan s
  | .sync stack chan => Sys2Proof.Machine.execSync stack chan s
  | .score stack chan => Sys2Proof.Machine.execScore stack chan s
  | .setq stack chan => Sys2Proof.Machine.execSetq stack chan s
  | .chain stack chan => Sys2Proof.Machine.execChain stack chan s
  | .store stack chan => Sys2Proof.Machine.execStore stack chan s
  | .idle stack chan => Sys2Proof.Machine.execIdle stack chan s
  | .finish stack chan => Sys2Proof.Machine.execFinish stack chan s
  | .foldBoundary stack chan now => Sys2Proof.Machine.execFoldBoundary stack chan now s
  | .refresh stack chan now => Sys2Proof.Machine.execRefresh stack chan now s
  | .channelReducerFinal stack final => Sys2Proof.Machine.execChannelReducerFinal stack final s
  | .stackReducerSend send => Sys2Proof.Machine.execStackReducerSend send s
  | .recipeCompletion stack uid now => Sys2Proof.Machine.execRecipeCompletion stack uid now s
  | .regWrite ring => Sys2Proof.Machine.execRegWrite ring s
  | .regRead ring => Sys2Proof.Machine.execRegRead ring s
  | .bake ring now => Sys2Proof.Machine.execBake ring now s
  | .discard ring => Sys2Proof.Machine.execDiscard ring s
  | .prepareAck unit now => Sys2Proof.Machine.execPrepareAck unit now s
  | .bakeInstant now => Sys2Proof.Machine.execBakeInstant now s
  | .bakeAbort now => Sys2Proof.Machine.execBakeAbort now s
  | .zeroFillComplete entry => Sys2Proof.Machine.execZeroFillComplete entry s
  | .sliceEnd part now => Sys2Proof.Machine.execSliceEnd part now s
  | .jobSwitch core now => Sys2Proof.Machine.execJobSwitch core now s
  | .sifterVisit stack chan now disturb => Sys2Proof.Machine.execSifterVisit stack chan now disturb s
  | .fieldRemap key => Sys2Proof.Machine.execFieldRemap key s
  | .remapComplete stack chan => Sys2Proof.Machine.execRemapComplete stack chan s
  | .eccRemapReq ring => Sys2Proof.Machine.execEccRemapReq ring s
  | .flipArm ring => Sys2Proof.Machine.execFlipArm ring s
  | .flipDisarm ring => Sys2Proof.Machine.execFlipDisarm ring s
  | .channelRetrain stack chan resends now => Sys2Proof.Machine.execChannelRetrain stack chan resends now s
  | .channelRetirement stack chan => Sys2Proof.Machine.execChannelRetirement stack chan s
  | .linkFrameReceipt link lanes corrected uncorrectable decoded ended now => Sys2Proof.Machine.execLinkFrameReceipt link lanes corrected uncorrectable decoded ended now s
  | .switchGrant output now => Sys2Proof.Machine.execSwitchGrant output now s
  | .idleFrame link now => Sys2Proof.Machine.execIdleFrame link now s
  | .replayTimeout link now => Sys2Proof.Machine.execReplayTimeout link now s
  | .resendLimit link => Sys2Proof.Machine.execResendLimit link s
  | .writeFrame stack n => Sys2Proof.Machine.execWriteFrame stack n s
  | .mergeWrite stack n => Sys2Proof.Machine.execMergeWrite stack n s
  | .readFrame stack n => Sys2Proof.Machine.execReadFrame stack n s
  | .atomicRequestFrame stack n => Sys2Proof.Machine.execAtomicRequestFrame stack n s
  | .check stack n => Sys2Proof.Machine.execCheck stack n s
  | .syncFrame stack n => Sys2Proof.Machine.execSyncFrame stack n s
  | .writeAck stack n => Sys2Proof.Machine.execWriteAck stack n s
  | .readData stack n => Sys2Proof.Machine.execReadData stack n s
  | .atomicData stack n => Sys2Proof.Machine.execAtomicData stack n s
  | .checkAck stack n => Sys2Proof.Machine.execCheckAck stack n s
  | .syncAck stack n => Sys2Proof.Machine.execSyncAck stack n s
  | .transactionTimeout txn now => Sys2Proof.Machine.execTransactionTimeout txn now s
  | .linkTrainingStage link outcome now => Sys2Proof.Machine.execLinkTrainingStage link outcome now s
  | .fullTrainingRetry link now => Sys2Proof.Machine.execFullTrainingRetry link now s
  | .lnkRetrain ring now => Sys2Proof.Machine.execLnkRetrain ring now s
  | .routeRemoval link => Sys2Proof.Machine.execRouteRemoval link s
  | .routeRestore link => Sys2Proof.Machine.execRouteRestore link s
  | .throttleWidthChange link => Sys2Proof.Machine.execThrottleWidthChange link s
  | .laneRelock link => Sys2Proof.Machine.execLaneRelock link s
  | .produce qp w0 w1 => Sys2Proof.Machine.execProduce qp w0 w1 s
  | .bind qp w0 w1 => Sys2Proof.Machine.execBind qp w0 w1 s
  | .unbind qp w0 w1 => Sys2Proof.Machine.execUnbind qp w0 w1 s
  | .resume qp w0 w1 => Sys2Proof.Machine.execResume qp w0 w1 s
  | .flush qp w0 w1 => Sys2Proof.Machine.execFlush qp w0 w1 s
  | .hostring qp w0 w1 => Sys2Proof.Machine.execHostring qp w0 w1 s
  | .consume qp w0 w1 => Sys2Proof.Machine.execConsume qp w0 w1 s
  | .hostRdmaWrite qp rkey va data => Sys2Proof.Machine.execHostRdmaWrite qp rkey va data s
  | .hostRdmaRead qp rkey va len => Sys2Proof.Machine.execHostRdmaRead qp rkey va len s
  | .rocePacket port packet now => Sys2Proof.Machine.execRocePacket port packet now s
  | .ackTimeout qp now => Sys2Proof.Machine.execAckTimeout qp now s
  | .pfcFrame port priorities xoff => Sys2Proof.Machine.execPfcFrame port priorities xoff s
  | .cnpReceived qp now => Sys2Proof.Machine.execCnpReceived qp now s
  | .rateRecovery qp now => Sys2Proof.Machine.execRateRecovery qp now s
  | .lldpTransmit port now => Sys2Proof.Machine.execLldpTransmit port now s
  | .lldpReceived port => Sys2Proof.Machine.execLldpReceived port s
  | .arpReply port target sender => Sys2Proof.Machine.execArpReply port target sender s
  | .neighbourAdvertisement port target sender => Sys2Proof.Machine.execNeighbourAdvertisement port target sender s
  | .ethPortUp port => Sys2Proof.Machine.execEthPortUp port s
  | .authNonce ring => Sys2Proof.Machine.execAuthNonce ring s
  | .auth ring signature => Sys2Proof.Machine.execAuth ring signature s
  | .qpConnect ring => Sys2Proof.Machine.execQpConnect ring s
  | .qpReset ring => Sys2Proof.Machine.execQpReset ring s
  | .attest ring now => Sys2Proof.Machine.execAttest ring now s
  | .update ring => Sys2Proof.Machine.execUpdate ring s
  | .controlCommandCompletion ring flashOk now => Sys2Proof.Machine.execControlCommandCompletion ring flashOk now s
  | .syncMessage port msg now => Sys2Proof.Machine.execSyncMessage port msg now s
  | .ptpHoldover now => Sys2Proof.Machine.execPtpHoldover now s
  | .ptpCtrlWrite ring => Sys2Proof.Machine.execPtpCtrlWrite ring s
  | .generate ring now => Sys2Proof.Machine.execGenerate ring now s
  | .cancel ring => Sys2Proof.Machine.execCancel ring s
  | .streamOpen ring now => Sys2Proof.Machine.execStreamOpen ring now s
  | .frame ring now => Sys2Proof.Machine.execFrame ring now s
  | .streamClose ring => Sys2Proof.Machine.execStreamClose ring s
  | .model ring => Sys2Proof.Machine.execModel ring s
  | .config ring => Sys2Proof.Machine.execConfig ring s
  | .stepBoundary part now => Sys2Proof.Machine.execStepBoundary part now s
  | .stepCommit part now => Sys2Proof.Machine.execStepCommit part now s
  | .publish part request => Sys2Proof.Machine.execPublish part request s
  | .consumerIndexRead part request index => Sys2Proof.Machine.execConsumerIndexRead part request index s
  | .prefillChunkStart part now => Sys2Proof.Machine.execPrefillChunkStart part now s
  | .prefillChunkEnd part now => Sys2Proof.Machine.execPrefillChunkEnd part now s
  | .deadlineCheck part now => Sys2Proof.Machine.execDeadlineCheck part now s
  | .frameStart part now => Sys2Proof.Machine.execFrameStart part now s
  | .frameEncoded part now => Sys2Proof.Machine.execFrameEncoded part now s
  | .frameDeadline part now => Sys2Proof.Machine.execFrameDeadline part now s
  | .powerOn => Sys2Proof.Machine.execPowerOn s
  | .railsInRegulation => Sys2Proof.Machine.execRailsInRegulation s
  | .fuseSense fuses checkOk randomOk now => Sys2Proof.Machine.execFuseSense fuses checkOk randomOk now s
  | .flashDiscovery found mbit mhz slot0 slot1 now => Sys2Proof.Machine.execFlashDiscovery found mbit mhz slot0 slot1 now s
  | .imageRead image now => Sys2Proof.Machine.execImageRead image now s
  | .imageVerify now => Sys2Proof.Machine.execImageVerify now s
  | .fieldLockBlow blown now => Sys2Proof.Machine.execFieldLockBlow blown now s
  | .serviceCoreLoad ok now => Sys2Proof.Machine.execServiceCoreLoad ok now s
  | .hearthCoreLoad lost now => Sys2Proof.Machine.execHearthCoreLoad lost now s
  | .missingList physical delivered now => Sys2Proof.Machine.execMissingList physical delivered now s
  | .digestReport physical good now => Sys2Proof.Machine.execDigestReport physical good now s
  | .stackTraining failed now => Sys2Proof.Machine.execStackTraining failed now s
  | .managementBake now => Sys2Proof.Machine.execManagementBake now s
  | .randomSourceFailure => Sys2Proof.Machine.execRandomSourceFailure s
  | .housekeepingRound sample now => Sys2Proof.Machine.execHousekeepingRound sample now s
  | .inputUndervoltage => Sys2Proof.Machine.execInputUndervoltage s
  | .inputOvervoltage mv => Sys2Proof.Machine.execInputOvervoltage mv s
  | .i3cPrivateWrite bytes => Sys2Proof.Machine.execI3cPrivateWrite bytes s
  | .i3cPrivateRead count => Sys2Proof.Machine.execI3cPrivateRead count s
  | .setdasa static dynamic => Sys2Proof.Machine.execSetdasa static dynamic s
  | .entdaa dynamic => Sys2Proof.Machine.execEntdaa dynamic s
  | .idcode => Sys2Proof.Machine.execIdcode s
  | .bypass tdi => Sys2Proof.Machine.execBypass tdi s
  | .ethPortDown port => Sys2Proof.Machine.execEthPortDown port s
  | .channelRetrainComplete stack chan => Sys2Proof.Machine.execChannelRetrainComplete stack chan s
  | .testAccessPortReset trst => Sys2Proof.Machine.execTestAccessPortReset trst s
  | .announceMessage port dataset domain transport now => Sys2Proof.Machine.execAnnounceMessage port dataset domain transport now s
  | .delayRequest now => Sys2Proof.Machine.execDelayRequest now s
  | .delayResponse port msg now => Sys2Proof.Machine.execDelayResponse port msg now s
  | .followUpMessage port msg now => Sys2Proof.Machine.execFollowUpMessage port msg now s

end Sys2Proof.Machine
end

