-- ==== Sys2Proof/Machine/Step.lean ====
section
/-! DEFINITION. One step: the command at the front of the queue is taken and performed. -/
namespace Sys2Proof.Machine

/-- Take the command at the front and perform it; on an empty queue the host ports send (assumption 10). -/
def step (s : State) : Host.Outcome State Fault Refusal :=
  match s.pending with
  | [] => s.run idle
  | c :: rest => exec c { s with pending := rest }

/-- `s` with the command that a table word spells in front; no row of the table has bits, so none does
(assumption 11). -/
def State.withFetchWord (s : State) (nbits w : Nat) : State :=
  match decodeTableWord nbits w with
  | some c => { s with pending := c :: s.pending }
  | none => s

end Sys2Proof.Machine
end

