-- ==== Sys2Proof/Safety.lean ====
section
/-! DEFINITION. What every state a run reaches keeps, and what a command leaves as it was. -/
namespace Sys2Proof.Machine

/-- Every register in force holds only bits that exist (R9), and every keyed store of the module is in canonical form, so
that equal modules are equal data: those that the module itself, its hearth, its host side, its partitions and its fabric
hold. The stores inside one core, cluster, command, channel, link or stack, and those of bring-up and of the board, belong
to the entry that holds them. -/
structure Dev.Wf (d : Dev) : Prop where
  mem  : mwf 0#8 d.mem = true
  errs : mwf [] d.errs = true
  hits : mwf false d.hits = true
  lights : mwf false d.lights = true
  spad : mwf 0#8 d.spad = true
  bench : mwf none d.bench = true
  cores : mwf Core.init d.hearth.cores = true
  mirrors : mwf [] d.hearth.mirrors = true
  clusters : mwf Cluster.init d.hearth.clusters = true
  rings : mwf none d.host.rings = true
  hostRings : mwf none d.host.hostRings = true
  qps : mwf Qp.init d.host.qps = true
  stackSet : mwf Stack.init d.stackSet = true
  chans : mwf Channel.init d.chans = true
  upkeep : mwf Upkeep.init d.upkeep = true
  links : mwf Link.init d.fabric.links = true
  serving : mwf Serving.init d.serving = true
  lost : mwf 0 d.host.lost = true
  keys : mwf 0 d.parts.keys = true
  released : mwf false d.parts.released = true
  received : mwf false d.parts.received = true
  job : mwf 0 d.parts.job = true
  sliceEnd : mwf 0 d.parts.sliceEnd = true
  tokens : mwf 0 d.parts.tokens = true
  counted : mwf 0 d.parts.counted = true
  lent : mwf 0 d.parts.lent = true
  routes : mwf 0#32 d.parts.routes = true
  rounds : mwf [] d.fabric.rounds = true
  inbox : mwf [] d.fabric.inbox = true
  sent : mwf 0 d.fabric.sent = true
  confirmed : mwf 0 d.fabric.confirmed = true
  performed : mwf 0 d.fabric.done = true
  refused : mwf 0 d.fabric.refused = true
  regKeys : (d.regs.map (·.1)).Pairwise (· < ·)
  regs : ∀ e ∈ d.regs, e.2 ≠ regReset e.1 ∧ e.2.toNat &&& regMask e.1 = e.2.toNat

/-- The pieces of the module of which a command leaves some as they were. -/
inductive Piece where
  | time
  /-- Stack memory with its stored images, their codes and the marks of the flip mask. -/
  | memory
  | spads
  /-- The registers in force at offsets `0x8000 n` to `0x8000 n + 0x7FFF` (R79). -/
  | block (n : Nat)
  | bench
  | cores
  /-- Copies in the cores' mirrors, and those in the clusters' caches and network-attached atomic units. -/
  | mirrors
  | clusters
  /-- Commands in flight. -/
  | flight
  | arrivals
  /-- What arbiters owe (R118). -/
  | turns
  | rings
  | hostRings
  | qps
  /-- Events discarded since the last one written. -/
  | lost
  | ports
  | ctrl
  | nonce
  | ptp
  /-- Partition keys and the flags of R493. -/
  | keys
  | bake
  | fills
  | slices
  | buckets
  | routes
  /-- Recipes and page tables of the stacks; their channels; their sifters, hints and remaps. -/
  | stackSet
  | chans
  | upkeep
  | links
  | switch
  | inbox
  | txns
  /-- Posted writes sent, confirmed, performed and refused (R401). -/
  | counts
  | serving
  | boot
  | board
deriving DecidableEq, Repr

/-- The piece is the same in two modules. -/
def Piece.same (a b : Dev) : Piece → Prop
  | .time => b.time = a.time
  | .memory => b.mem = a.mem ∧ b.errs = a.errs ∧ b.hits = a.hits ∧ b.lights = a.lights
  | .spads => b.spad = a.spad
  | .block n => ∀ off, off / 0x8000 = n → reg b off = reg a off
  | .bench => b.bench = a.bench
  | .cores => b.hearth.cores = a.hearth.cores
  | .mirrors => b.hearth.mirrors = a.hearth.mirrors
  | .clusters => b.hearth.clusters = a.hearth.clusters
  | .flight => b.hearth.cmds = a.hearth.cmds
  | .arrivals => b.hearth.arrivals = a.hearth.arrivals
  | .turns => b.hearth.turns = a.hearth.turns
  | .rings => b.host.rings = a.host.rings
  | .hostRings => b.host.hostRings = a.host.hostRings
  | .qps => b.host.qps = a.host.qps
  | .lost => b.host.lost = a.host.lost
  | .ports => b.host.port0 = a.host.port0 ∧ b.host.port1 = a.host.port1
  | .ctrl => b.host.ctrl = a.host.ctrl
  | .nonce => b.host.nonce = a.host.nonce
  | .ptp => b.host.ptp = a.host.ptp
  | .keys => b.parts.keys = a.parts.keys ∧ b.parts.released = a.parts.released ∧ b.parts.received = a.parts.received
  | .bake => b.parts.bake = a.parts.bake
  | .fills => b.parts.fills = a.parts.fills
  | .slices => b.parts.job = a.parts.job ∧ b.parts.sliceEnd = a.parts.sliceEnd
  | .buckets => b.parts.tokens = a.parts.tokens ∧ b.parts.counted = a.parts.counted ∧ b.parts.lent = a.parts.lent
  | .routes => b.parts.routes = a.parts.routes
  | .stackSet => b.stackSet = a.stackSet
  | .chans => b.chans = a.chans
  | .upkeep => b.upkeep = a.upkeep
  | .links => b.fabric.links = a.fabric.links
  | .switch => b.fabric.queue = a.fabric.queue ∧ b.fabric.rounds = a.fabric.rounds
  | .inbox => b.fabric.inbox = a.fabric.inbox
  | .txns => b.fabric.txns = a.fabric.txns ∧ b.fabric.nextTxn = a.fabric.nextTxn
  | .counts => b.fabric.sent = a.fabric.sent ∧ b.fabric.confirmed = a.fabric.confirmed ∧
      b.fabric.done = a.fabric.done ∧ b.fabric.refused = a.fabric.refused
  | .serving => b.serving = a.serving
  | .boot => b.boot = a.boot
  | .board => b.board = a.board

/-- Of `a`, at most the pieces `l` differ in `b`. The numbers of free values and of commands, which the manual does not
know, may differ. -/
def Only (l : List Piece) (a b : Dev) : Prop := ∀ p, p ∉ l → p.same a b

/-- The pieces that a message to a host changes: its host ring, queue pair and port, the events lost, and the counters of
the ETH_ block. -/
abbrev hostPieces : List Piece := [.hostRings, .qps, .lost, .ports, .block 128]

/-- The pieces that a completing command changes besides. -/
abbrev endPieces : List Piece := .flight :: .arrivals :: .rings :: hostPieces

/-- The STK_ registers of the stacks. -/
abbrev stackBlocks : List Piece := (List.range 32).map fun s => .block (32 + 2 * s)

/-- The pieces that accesses to granules at their home change: memory, the copies of network-attached units that a write
settles, the hint queues and due remaps of R460 and R466, the counters of R472, STK_MEM_READS and STK_MEM_WRITES, and
what an event changes. -/
abbrev homePieces : List Piece := .memory :: .clusters :: .upkeep :: .block 8 :: (stackBlocks ++ hostPieces)

/-- The pieces that accesses of a core change besides: scratchpads, and copies in mirrors. -/
abbrev accessPieces : List Piece := .spads :: .mirrors :: homePieces

/-- The command is performed and answers a next state: the queue as it was, and a module that meets `P`. -/
def Answers (i : Instr) (s : State) (P : Dev → Prop) : Prop :=
  ∃ t, exec i s = .next t ∧ t.pending = s.pending ∧ P t.toDev

/-- The command is performed and answers a next state: the queue as it was, and the module `d`. -/
def Gives (i : Instr) (s : State) (d : Dev) : Prop := Answers i s fun b => b = d

/-- A command begins on this module. -/
def Dev.start (d : Dev) : Run d := ⟨d, .refl⟩

/-- The module with one core replaced. -/
def Dev.withCore (d : Dev) (k : Nat) (c : Core) : Dev := d.apply (.core k c)

/-- The module with device time at `now` at least, once the rails are up (R442). -/
def Dev.at (d : Dev) (now : Nat) : Dev := d.apply (.tick now)

/-- R84: the command `c` is in flight under the number `uid`, has the opcode `op`, work remains for it, and it has started
or no earlier command of its queue still has to start. -/
def InFlight (d : Dev) (uid op : Nat) (c : Cmd) : Prop :=
  cmdOf d uid = some c ∧ fOpcode c.words = op ∧ c.runs = true ∧ (c.stage = 0 → behind d c = false)

/-- R370: `P` holds of a module from which `d` differs only in what the regulators' buckets hold. -/
def Metered (P : Dev → Prop) (d : Dev) : Prop := ∃ e, P e ∧ Only [.buckets] e d

/-- R97, R99: the arrivals that a completing command sends. -/
def arrivalsDue (d : Dev) (c : Cmd) (rep : Report) (dest : Option Nat) : List Arrival :=
  if fSignal c.words = 0 ∨ (rep.status ≠ stOk ∧ rep.status ≠ stSkipped) ∨ fOpcode c.words = 0x01 then []
  else if fOpcode c.words = 0x11 then (signalCores d c.part (wd c.words 2)).map fun k => ⟨k, fSignal c.words⟩
  else [⟨dest.getD c.core, fSignal c.words⟩]

/-- R434, R435: an entry has been handed to a bound host ring: its write has gone to the egress of the ring's queue
pair, or the entry waits behind those that wait. -/
def Handed (n : Nat) (e : List Byte) (a b : Dev) : Prop :=
  ∀ h, hostRingOf a n = some h →
    (hostOpen a n = true →
      .write (n / 16) (h.addr + 64 * (h.prod % hostEntries h)) h.rkey e ∈ (portOf b (qpPort (qpOf a (n / 16)))).egress) ∧
    (hostOpen a n = false → ∃ x, hostRingOf b n = some x ∧ x.wait = h.wait ++ [e])

/-- R435, R437: an event has been sent to the owner of partition `part`: its entry is on its way into the owner's event
host ring, with the number of events lost before it; or it is discarded and counted. -/
def EventSent (part code source tag id detail : Nat) (a b : Dev) : Prop :=
  let q := ownerQp a part
  let lost := mget 0 a.host.lost q
  let gone := mget 0 b.host.lost q = lost + 1 ∧ reg b 0x400108 = (reg a 0x400108 + 1) % 2 ^ 32
  match eventRing a part with
  | some (n, h) =>
    if hostRoom h = true ∧ (qpOf a (n / 16)).mode = .ready then
      .write (n / 16) (h.addr + 64 * (h.prod % hostEntries h)) h.rkey
          (eventEntry code source part tag id detail a.time lost) ∈ (portOf b (qpPort (qpOf a (n / 16)))).egress ∧
        mget 0 b.host.lost q = 0
    else gone
  | none => gone

/-- The command is a SIGNAL to the owner host (R99). -/
def signalsHost (c : Cmd) : Prop := fOpcode c.words = 0x11 ∧ bits (wd c.words 2) 1 0 = 3

/-- Word 1 of an event that names a command: queue, core, cluster and sequence (R437). -/
def cmdDetail (c : Cmd) : Nat := c.queue + c.core % 32 * 2 ^ 2 + c.core / 32 * 2 ^ 7 + c.seq % 2 ^ 32 * 2 ^ 32

/-- R97, R99, R111, R113: `b` is `a` with the command completed: it has left flight, its arrivals are on their way, and a
SIGNAL to the owner host has sent its event; a completion entry has been handed over if one is due and none otherwise;
its queue is halted if its status says so, the unmet time of its head standing still from then on (R114), and the owner
has been sent an event of that. That a skipped SIGNAL sends its event is the model's choice (assumption 51). -/
structure Completed (c : Cmd) (rep : Report) (dest : Option Nat) (a b : Dev) : Prop where
  hearth : b.hearth = { a.hearth with
    cmds := a.hearth.cmds.filter fun x => x.uid != c.uid
    arrivals := a.hearth.arrivals ++ arrivalsDue a c rep dest }
  rings : b.host.rings =
    if 0x10 ≤ rep.status then
      (match ringOf a c.ring with
       | some x => mset none a.host.rings c.ring (some { x with halted := true, head := x.head.map (Head.pause a.time) })
       | none => a.host.rings)
    else a.host.rings
  entry : (stSkipped < rep.status ∨ fNotify c.words = true) → c.discard = false → (signalsHost c → stSkipped < rep.status) →
    Handed c.host (completionEntry rep (fSignal c.words) c.queue c.core c.ring c.seq a.time) a b
  silent : rep.status ≤ stSkipped → fNotify c.words = false → ¬ signalsHost c → b.host = a.host
  event : rep.status ≤ stSkipped → signalsHost c → EventSent c.part stOk 3 (fSignal c.words) c.ring (cmdDetail c) a b
  after : rep.status ≤ stSkipped → signalsHost c → fNotify c.words = true → c.discard = false → ∃ e, Only endPieces a e ∧
    Handed c.host (completionEntry rep (fSignal c.words) c.queue c.core c.ring c.seq a.time) e b
  halt : 0x10 ≤ rep.status → ∃ e, Only endPieces a e ∧ e.host.lost = a.host.lost ∧ reg e 0x400108 = reg a 0x400108 ∧
    EventSent c.part rep.status 0 0 c.ring (cmdDetail c) e b
  frame : Only endPieces a b

/-- R185, R197, R199: the command `c` of the command processor writes `w` in `r`, `u` striking a scratchpad's merge
read: `ends` holds of the run in which its write is performed and of `b`; or an image it has formed is on its way and `c`
goes on at the stage given, or the merge read has failed and it completes with ECC_UNCORRECTABLE in its word `word`
(fault_count 1 is the model's choice, assumption 14). -/
def Writes {d₀ : Dev} (c : Cmd) (word stage : Nat) (w : WriteSet) (u : Upset) (ends : Run d₀ → Prop) (r : Run d₀)
    (b : Dev) : Prop :=
  let z := writeIter c.core w u r
  (z.1 = (none, []) → ends z.2) ∧
    (z.1.1 = none → z.1.2 ≠ [] → b = (setCmd { c with stage := stage, late := z.1.2 } z.2).dev) ∧
    (∀ a, z.1.1 = some a → Completed c ⟨stUncorrectable, noFlags, 0, a, 1, word⟩ none z.2.dev b)

/-- R187: the ATOMIC's result is written: it acquires if it shall, and completes; `b` results. -/
def AtomicDone {d₀ : Dev} (c : Cmd) (r : Run d₀) (b : Dev) : Prop :=
  Completed c (plain stOk) none (if aopAcq (wd c.words 5) then acquireCopies (coreCluster c.core) 0 0 r else r).dev b

/-- R187, R455: the ATOMIC has read `old`: it writes that where word 6 says, acquires if it shall, and completes; `b`
results. -/
def AtomicEnds {d₀ : Dev} (c : Cmd) (old : Nat) (u : Upset) (r : Run d₀) (b : Dev) : Prop :=
  let dst := wd c.words 6
  (dst = 0 → AtomicDone c r b) ∧
    (dst ≠ 0 → Writes c 6 5 (putBytes [] dst (natLE old (aopSize (wd c.words 5)))) u (AtomicDone c · b) r b)

/-- R180, R187, R406: `r'` is the run in which an ATOMIC that is begun in `r` acts on its operand: at once, also where its
operand's device has no route, or after its release, for which no home of a copy may be held. -/
def AtomicBegins {d₀ : Dev} (c : Cmd) (r r' : Run d₀) : Prop :=
  let rel := aopRel (wd c.words 5)
  let frees := atomicUnrouted r.dev c = false ∧ releaseHeld r.dev c 0 0 = false
  let z := sendSyncs c (releaseCopies c 0 0 r)
  (c.stage = 0 ∧ (rel = false ∨ atomicUnrouted r.dev c = true) ∧ r' = r) ∨
    (c.stage = 0 ∧ rel = true ∧ frees ∧ fScope c.words ≠ 3 ∧ c.txns = [] ∧ c.remote = 0 ∧ r' = releaseCopies c 0 0 r) ∨
    (c.stage = 0 ∧ rel = true ∧ frees ∧ fScope c.words = 3 ∧ z.1.txns = [] ∧ z.1.remote = 0 ∧ r' = z.2) ∨
    (c.stage = 1 ∧ rel = true ∧ c.txns = [] ∧ c.remote = 0 ∧ r' = r)

/-! ## Recipe instructions -/

/-- R258, R271, R273: on channel `c` of stack `s` the recipe `x` runs as `run` says, its image is `i`, its next
instruction is the word `w` with the opcode `op`, no fold boundary stands before it, no minimum timing forbids its
issue, and the recipe has not stopped before it. -/
structure Issuing (d : Dev) (s c op : Nat) (run : ChanRun) (x : Recipe) (i : Image) (w : Nat) : Prop where
  runs : seated d s c = some (run, x, i)
  word : i.instrs[run.ip]? = some w
  phase : run.phase = .fold
  op : (decodeIns w).op = op
  clear : guardTrip (chanOf d s c).hot (issuedBefore run i) (decodeIns w) (issueTick run (decodeIns w)) = none
  going : waitsIssue d s c x (issueTick run (decodeIns w)) = false

/-- R271: `b` is `a` after the instruction `y` has issued on channel `c` of stack `s`, its work having left the run `k`
and the flags `f`: the run has moved on past it, a late issue has been counted, every recipe, and every other channel
and stack, is as before, and of the rest of the module only `l` may differ. -/
structure Issued (s c : Nat) (i : Image) (y : Ins) (run k : ChanRun) (f : Flags) (l : List Piece) (a b : Dev) : Prop where
  chan : let late := if run.ip = 0 then 0 else issueTick run y - (run.tick + y.delta)
    let n := (chanOf a s c).lateSum + late
    chanOf b s c = { chanOf a s c with run := some (moveOn y (issueTick run y) i f k), lateSum := n % 1024 } ∧
      reg b (seqChOff s c 0x14) = (reg a (seqChOff s c 0x14) + n / 1024) % 2 ^ 32
  chans : ∀ m n, 32 * m + n ≠ 32 * s + c → chanOf b m n = chanOf a m n
  recipes : (stackOf b s).recipes = (stackOf a s).recipes
  stackSet : ∀ n, n ≠ s → stackOf b n = stackOf a n
  frame : Only (.chans :: .stackSet :: .block (33 + 2 * s) :: l) a b

/-- R257: the commands that issue the next instruction of a channel, with the opcode each of them issues; `parity` is what
the checkers of the buffers it uses find (R455). -/
def insCommands (stack : StackId) (chan : ChanId) (parity : Bool) : List (Nat × Instr) :=
  [(iAct, .act stack chan), (iPre, .pre stack chan), (iDot, .dot stack (chan, parity)), (iAxpy, .axpy stack (chan, parity)),
    (iScale, .scale stack chan), (iReread, .reread stack (chan, parity)), (iLoadv, .loadv stack (chan, parity)),
    (iCopyv, .copyv stack (chan, parity)), (iSync, .sync stack chan), (iScore, .score stack (chan, parity)), (iSetq, .setq stack chan),
    (iChain, .chain stack (chan, parity)), (iStore, .store stack (chan, parity)), (iIdle, .idle stack chan), (iEnd, .finish stack chan)]

/-! ## Frames and links -/

/-- The LNK_ registers of the links. -/
abbrev linkBlocks : List Piece := [.block 96, .block 97, .block 98]

/-- R390, R394, R418: the response to the request `f` of another module. -/
def responseTo (d : Dev) (f : Frame) (type status arg : Nat) (payload : List Byte) : Frame :=
  ⟨type, 2, f.part, payload.length / 64, 0, 127, false, f.src, f.addr, deviceNumber d, f.txn, f.srcStack, status, f.aop,
    f.hearth, arg, payload⟩

/-- Frame `n` has left the link buffer of stack port `t`. -/
def Taken (t n : Nat) (a b : Dev) : Prop :=
  inboxOf b t = (inboxOf a t).eraseIdx n ∧ ∀ u, u ≠ t → inboxOf b u = inboxOf a u

/-- `b` is `a` with the request `f`, frame `n` of stack port `t`, answered: it has left the link buffer, and its response
waits at the stack port's input of the switch; besides, only `l` may differ. -/
structure Answered (t n : Nat) (f : Frame) (type status arg : Nat) (payload : List Byte) (l : List Piece) (a b : Dev) :
    Prop where
  taken : Taken t n a b
  reply : b.fabric.queue = a.fabric.queue ++ [⟨20 + t, responseTo a f type status arg payload⟩]
  rounds : b.fabric.rounds = a.fabric.rounds
  frame : Only (.inbox :: .switch :: l) a b

/-- R401: the posted write `f` has been performed or refused with `status`, and is counted so for its originator; a write
that is not posted is not. -/
def PostedCounted (f : Frame) (status : Nat) (a b : Dev) : Prop :=
  if f.posted then
    b.fabric.done = mset 0 a.fabric.done f.src ((mget 0 a.fabric.done f.src + 1) % 2 ^ 32) ∧
      b.fabric.refused = if status = stOk then a.fabric.refused else mset 0 a.fabric.refused f.src status
  else b.fabric.done = a.fabric.done ∧ b.fabric.refused = a.fabric.refused

/-- R399, R401: the command of the transaction `x` when it has ended with `status` and the granules `data`. -/
def Cmd.answered (c : Cmd) (x : Txn) (status : Nat) (data : List Byte) : Cmd :=
  let a := x.dst * 2 ^ 48 + x.addr
  { c with
    txns := c.txns.filter (· != x.num)
    remote := if c.remote = 0 then status else c.remote
    failAt := if c.remote = 0 ∧ status ≠ 0 then a else c.failAt
    buf := if x.type = tRead then granulesAt a data c.buf
      else if x.type = tAtomic then mset [] c.buf 0 (data ++ List.replicate 56 0#8) else c.buf }

/-- `b` is `a` with the transaction `x` of the command `c` ended. -/
def TxnEnded (x : Txn) (c : Cmd) (status : Nat) (data : List Byte) (a b : Dev) : Prop :=
  b.fabric.txns = a.fabric.txns.filter (fun y => y.num != x.num) ∧ b.fabric.nextTxn = a.fabric.nextTxn ∧
    b.hearth.cmds = a.hearth.cmds.map fun y => if y.uid == c.uid then c.answered x status data else y

/-- R390: the frames `fs` have been laid on the active lanes of link `l`, in order and behind what was there, each with a
trailer. -/
def Laid (l : Nat) (was : List (List (List Dword))) (fs : List Frame) (b : Dev) : Prop :=
  ∃ ts : List Trailer, ts.length = fs.length ∧
    (linkOf b l).wire = was ++ (fs.zip ts).map fun e => layLanes (linkWidth b l) (frameImage e.1 e.2)

/-- R370, R396: every unacknowledged frame of link `l`, which is `x`, has been put on the lanes again, in order, and
charged again. -/
structure Resent (l : Nat) (x : Link) (a b : Dev) : Prop where
  replay : (linkOf b l).replay = x.replay.map fun e => { e with resent := e.resent + 1 }
  wire : Laid l x.wire (x.replay.map (·.frame)) b
  since : (linkOf b l).since = a.time
  counted : reg b (lnkOff l 0x2C) = (reg a (lnkOff l 0x2C) + x.replay.length) % 2 ^ 32
  kept : (linkOf b l).rxSeq = x.rxSeq ∧ (linkOf b l).txSeq = x.txSeq ∧ (linkOf b l).credits = x.credits ∧
    (linkOf b l).nakSent = x.nakSent
  others : ∀ k, k ≠ l → linkOf b k = linkOf a k
  frame : Only (.links :: .buckets :: linkBlocks) a b

/-- An IDLE frame with this trailer has been put on the lanes of link `l`, which is `x`; what its trailer carries is owed
no longer. -/
structure IdleSent (l : Nat) (x : Link) (t : Trailer) (a b : Dev) : Prop where
  link : linkOf b l = { settleTrailer x t with
    wire := x.wire ++ [layLanes (linkWidth a l) (frameImage idleFrame t)]
    txFrames := (x.txFrames + 1) % 1024
    txBytes := (x.txBytes + 40) % 2 ^ 20
    idleAt := a.time }
  others : ∀ k, k ≠ l → linkOf b k = linkOf a k
  frame : Only (.links :: linkBlocks) a b

/-- R413, R415, R419: link `l` is down: out of service, without width or capacity, its replay buffer empty, LNK_STATUS
with the state and the reason; if it was in service, an event has been sent. -/
structure LinkDown (l state reason : Nat) (a b : Dev) : Prop where
  link : linkOf b l = { linkOf a l with
    stage := 0, full := false, trained := 0, used := 0, relock := false, failures := 0, triedAt := a.time, replay := [] }
  status : reg b (lnkOff l 0x04) = state + reason * 2 ^ 8
  feature : reg b 0x24 = clearBit (reg a 0x24) l % 2 ^ 32
  capacity : reg b (lnkOff l 0x14) = 0 ∧ bits (reg b (lnkOff l 0x18)) 15 8 = 0
  event : if inService a l then EventSent 0 stLinkDown 4 0 l 0 a b else b.host = a.host
  others : ∀ k, k ≠ l → linkOf b k = linkOf a k
  frame : Only (.links :: .buckets :: .block 0 :: (linkBlocks ++ hostPieces)) a b

/-- R410, R413: training of link `l`, full or in place, has begun on `a`; it is the `failures`-th in a row to follow a
failure. Frames that are not acknowledged are kept by an in-place retrain. -/
structure TrainingBegun (l : Nat) (full : Bool) (failures : Nat) (a b : Dev) : Prop where
  link : linkOf b l = { linkOf a l with
    stage := if full then 1 else 2
    full := full
    triedAt := a.time
    relock := false
    failures := failures
    replay := if full then [] else (linkOf a l).replay }
  state : linkState b l = if full then 1 else 3
  counted : reg b (lnkOff l 0x40) = (reg a (lnkOff l 0x40) + 1) % 2 ^ 32
  others : ∀ k, k ≠ l → linkOf b k = linkOf a k
  frame : Only (.links :: linkBlocks) a b

/-- R413: a stage of the training of link `l` has failed: a full training leaves it down with the reason; an in-place one
is repeated, and the third failure in a row is followed by a full training. -/
def StageFailed (l reason : Nat) (a b : Dev) : Prop :=
  let x := linkOf a l
  if x.full then LinkDown l 0 reason a b
  else if x.failures + 1 < 3 then TrainingBegun l false (x.failures + 1) a b
  else TrainingBegun l true 0 a b

/-- R415, R417: link `l`, which was `x`, is in service with the lanes `used`: FEAT_LINKS, LNK_STATUS and LNK_CAP say so,
and frames not acknowledged have been put on the lanes again. A change of width sends LINK_DEGRADED; a reduction that
throttling causes sends THERMAL_THROTTLE instead: here on the peer's account, while the housekeeping round sends that of
this end's engine (DEDUCED, assumption 27). -/
structure InService (l used reason : Nat) (x : Link) (a b : Dev) : Prop where
  link : let y := linkOf b l
    y.stage = 0 ∧ y.used = used ∧ y.trained = x.trained ∧ y.failures = 0 ∧ y.txSeq = x.txSeq ∧ y.rxSeq = x.rxSeq ∧
      y.replay.map (·.frame) = x.replay.map (·.frame)
  wire : Laid l x.wire (x.replay.map (·.frame)) b
  status : reg b (lnkOff l 0x04) = 2 + popcount used 8 * 2 ^ 4 + reason * 2 ^ 8
  feature : reg b 0x24 = setBit (reg a 0x24) l % 2 ^ 32
  capacity : reg b (lnkOff l 0x14) = popcount used 8 * 50
  event :
    let w := popcount used 8
    if inService a l = true ∧ linkWidth a l = w then b.host = a.host
    else if inService a l = true ∧ w < linkWidth a l ∧ used ≠ x.trained then
      if x.throttle then b.host = a.host else EventSent 0 stThrottle 4 0 l w a b
    else EventSent 0 stDegraded 4 0 l w a b
  others : ∀ k, k ≠ l → linkOf b k = linkOf a k
  frame : Only (.links :: .buckets :: .block 0 :: (linkBlocks ++ hostPieces)) a b

/-- R474: `b` is `a` with stage 11 of bring-up completed, if bring-up has reached stage 10 and every link has trained or
is down. -/
def TrainingNoted (a b : Dev) : Prop :=
  let due := field a (bootOff 0) 3 0 = 10 ∧ bit (reg a (bootOff 0)) 5 = false ∧ ∀ l, l < 20 → (linkOf a l).stage = 0
  (due → field b (bootOff 0) 3 0 = 11 ∧ (∀ off, off ≠ bootOff 0 → reg b off = reg a off) ∧ Only [.block 10] a b) ∧
    (¬ due → b = a)

/-! ## Control commands -/

/-- R440, R441: the command `w` stands at the head of control ring `n`, bound as `x`, has the op `op`, can be performed
now and breaks no rule. -/
def OnControl (d : Dev) (n op : Nat) (x : Ring) (w : List Dword) : Prop :=
  ctrlHead d n op = some (x, w) ∧ ctrlFault d (n / 16) w = none

/-- The first rule that a REG_WRITE of queue pair `q` breaks: those of R440 and R441, R79, R361. -/
def writeFault (d : Dev) (q : Nat) (w : List Dword) : Option Nat :=
  (ctrlFault d q w).or ((offsetFault (cOffsets w)).or (if benchOverflow d w then some stDescriptor else none))

/-- A REG_WRITE of the kind `k` stands at the head of control ring `n`, bound as `x`, can be performed now and breaks no
rule. -/
def OnWrite (d : Dev) (n : Nat) (k : WriteKind) (x : Ring) (w : List Dword) : Prop :=
  ctrlHead d n ctWrite = some (x, w) ∧ writeKind w = k ∧ writeFault d (n / 16) w = none

/-- The rings of `d` when the command at the head of ring `n`, bound as `x`, has left it. -/
def ringsPast (d : Dev) (n : Nat) (x : Ring) : Store (Option Ring) :=
  mset none d.host.rings n (some { x with head := none, fetch := (x.fetch + 1) % 2 ^ 32 })

/-- R440: `b` is `a` with the command at the head of control ring `n`, bound as `x`, completed as `rep` reports. -/
structure ControlReported (n : Nat) (x : Ring) (rep : Report) (a b : Dev) : Prop where
  rings : b.host.rings = ringsPast a n x
  entry : Handed (n / 16 * 16 + x.host) (completionEntry rep 0 0 0 n x.fetch a.time) a b
  frame : Only (.rings :: .turns :: hostPieces) a b

/-- The same, with status `st` and nothing else to report. -/
def ControlEnded (n : Nat) (x : Ring) (st : Nat) (a b : Dev) : Prop := ControlReported n x (plain st) a b

/-- R440: `b` is `a` with the command at the head of control ring `n`, bound as `x`, taken off it and under way. -/
structure ControlBegun (n : Nat) (x : Ring) (w : List Dword) (st : Option Nat) (a b : Dev) : Prop where
  rings : b.host.rings = ringsPast a n x
  ctrl : b.host.ctrl = a.host.ctrl ++ [⟨n, x.fetch, n / 16 * 16 + x.host, w, st⟩]
  frame : Only [.rings, .turns, .ctrl] a b

/-! ## Hosts -/

/-- R432, R441: the doorbell record `w0`, `w1` of the action `act` arrives on queue pair `q`, which is ready and belongs
to partition `p`; it is admitted, its reserved bits are zero, and no descriptor that it reads is held. -/
structure BellTaken (d : Dev) (q p act : Nat) (w0 w1 : Dword) : Prop where
  ready : qpReady d q = true
  part : qpPart d q = some p
  action : bAction w0 = act
  free : bellHeld d w0 w1 = false
  admitted : q = 0 → authenticated d = true ∨ bellOpen w0 = true
  clean : bits w0.toNat 31 8 = 0 ∧ (act = 1 ∨ act = 5 ∨ w1.toNat = 0)

/-- R445: the module when `n` packets for queue pair `q` have been counted at its port. -/
def Dev.received (d : Dev) (q n : Nat) : Dev := (countRxMany (qpPort (qpOf d q)) n d.start).dev

/-- R432: the record `w0` of queue pair `q` was invalid: it has been counted, and an event sent. Which records are
invalid for an argument or a descriptor that cannot be read is the model's choice (assumption 34). -/
structure BellRefused (p q : Nat) (w0 : Dword) (a b : Dev) : Prop where
  counted : reg b 0x400104 = (reg a 0x400104 + 1) % 2 ^ 32
  event : EventSent p stDescriptor 9 0 (16 * q + bRing w0) w0.toNat a b
  frame : Only hostPieces a b

/-- R344, R428, R441: queue pair `q` has entered the error state: what it was receiving is dropped, and so are the
messages that it had still to send, requests whose slice rings it carries are blocked from now on, queue pair 0 is no
longer authenticated, and the management host has been sent an event (its code is free among those that R123 delivers as
events: the model's choice, assumption 35). -/
structure QpErrored (q : Nat) (a b : Dev) : Prop where
  mode : (qpOf b q).mode = .error ∧ (qpOf b q).inOpen = false
  auth : q = 0 → authenticated b = false
  blocked : ∀ p x, x ∈ (servingOf a p).requests → x.ring / 16 = q → x.state = .decode →
    ∃ y ∈ (servingOf b p).requests, y.id = x.id ∧ y.blocked = some a.time
  others : ∀ p x, x ∈ (servingOf a p).requests → x.ring / 16 ≠ q → x ∈ (servingOf b p).requests
  event : ∃ c ∈ eventCodes, EventSent 0 c 8 0 q 0
    (dropBulk q (setQp q { qpOf a q with mode := .error, inOpen := false, inData := [] } a.start)).dev b
  frame : Only (.serving :: hostPieces) a b

/-- R428, R429: a message on queue pair `q` has been refused with a NAK, and the queue pair is in error. -/
def HostRefused (q code : Nat) (a b : Dev) : Prop :=
  .nak q (qpOf a q).recvPsn code ∈ (portOf b (qpPort (qpOf a q))).egress ∧ QpErrored q a b

/-- R428: a message on queue pair `q` whose end took `k` packets has been performed and acknowledged. -/
structure HostAcked (q k : Nat) (a b : Dev) : Prop where
  ack : .ack q (((qpOf a q).recvPsn + k + 2 ^ 24 - 1) % 2 ^ 24) ∈ (portOf b (qpPort (qpOf a q))).egress
  psn : (qpOf b q).recvPsn = ((qpOf a q).recvPsn + k) % 2 ^ 24 ∧ (qpOf b q).nakSent = false
  frame : Only [.qps, .ports, .block 128] a b

/-- R428, R432: a message of one record has been performed on queue pair `q` as `P` says, and acknowledged. -/
def Rung (q : Nat) (P : Dev → Prop) (b : Dev) : Prop := ∃ e, P e ∧ HostAcked q 1 e b

/-! ## The serving loop -/

/-- R314, R317: the entry at the head of request ring `n`, bound as `x`, has left it with a completion entry of this kind,
identity, status and reason. -/
structure EntryEnded (n : Nat) (x : Ring) (kind id status reason : Nat) (a b : Dev) : Prop where
  rings : b.host.rings = ringsPast a n x
  entry : Handed (n / 16 * 16 + x.host) (requestEntry status reason kind id n x.fetch a.time noOutcome) a b
  frame : Only (.rings :: .turns :: hostPieces) a b

/-- R317, R321, R334: the request `x` of partition `p` has ended: it is no longer active, it references no page, and its
completion entry goes to its host ring, at once or after the batch that still waits. -/
structure GenEnded (p : Nat) (x : Gen) (status reason : Nat) (a b : Dev) : Prop where
  gone : (servingOf b p).gen x.id = none
  others : ∀ id, id ≠ x.id → (servingOf b p).gen id = (servingOf a p).gen id
  pages : (servingOf b p).pages = ((servingOf a p).release x).pages
  entry : x.discard = false →
    let e : Ending := ⟨status, reason, a.time, x⟩
    if (servingOf a p).outbox.any fun y => y.gen == x.uid then
      ∃ y ∈ (servingOf b p).outbox, y.gen = x.uid ∧ y.ending = some e
    else Handed x.host e.entry a b
  parts : ∀ q, q ≠ p → servingOf b q = servingOf a q
  frame : Only (.serving :: hostPieces) a b

/-! ## Bring-up and shutdown -/

/-- R474: the rails are on, `n` is the last stage of bring-up completed, and bring-up has not halted. -/
def AtStage (d : Dev) (n : Nat) : Prop := d.board.rails = true ∧ stageOf d = n ∧ isHalted d = false

/-- R477: bring-up has halted at the stage reached, with this reason; FAULT_N is asserted, and the ports are down. -/
structure Halted (reason : Nat) (a b : Dev) : Prop where
  status : isHalted b = true ∧ field b (bootOff 0) 15 8 = reason ∧ stageOf b = stageOf a
  contact : b.board.faultN = true
  ports : ∀ p, p < 2 → portUp b p = false

/-- R68, R122, R498: FEAT_CORES and BOOT_CORES report the map of the cores. -/
def MapShown (b : Dev) : Prop :=
  let n := b.boot.map.length
  reg b 0x4 = (32 * n + n * 2 ^ 16 + 32 * 2 ^ 24) % 2 ^ 32 ∧ field b (bootOff 0x70) 21 16 = (64 - n) % 64

/-- R474, R487: scratchpads, mirrors and racks are clear. -/
def StoresClear (b : Dev) : Prop :=
  (∀ k, k < 2 ^ 30 → mget 0#8 b.spad k = 0) ∧ b.hearth.cores = [] ∧ b.hearth.mirrors = [] ∧ b.hearth.clusters = []

/-- R487: stage 9 ends in `b` if every core of the map has reported the correct digest, and the command processors hold
the section; it goes on otherwise. -/
def LoadingEnds (a b : Dev) : Prop :=
  ((∀ c ∈ b.boot.map.flatten, mget false b.boot.reported c = true) → stageOf b = 9 ∧ StoresClear b ∧
      ∀ s, hearthSection b.boot.image = some s → b.boot.firmware = sliceOf b.boot.image s.offset s.length) ∧
    ((∃ c ∈ b.boot.map.flatten, mget false b.boot.reported c = false) →
      stageOf b = stageOf a ∧ b.boot.firmware = a.boot.firmware)

/-- R486, R487: core `c` has failed loading: it is bad, the map is rebuilt without it, and without any cluster bring-up
halts. -/
structure CoreFailed (c : Nat) (a b : Dev) : Prop where
  map : b.boot.bad = setBit a.boot.bad c ∧ b.boot.map = buildMap b.boot.bad
  counted : field b (bootOff 0x70) 7 0 = (field a (bootOff 0x70) 7 0 + 1) % 2 ^ 8
  spare : field b (bootOff 0x70) 15 8 = (field a (bootOff 0x70) 15 8 +
    if ∃ x ∈ b.boot.map.flatten, x ∉ a.boot.map.flatten then 1 else 0) % 2 ^ 8
  shown : MapShown b
  ends : (b.boot.map = [] → Halted 7 a b) ∧ (b.boot.map ≠ [] → isHalted a = false → isHalted b = false ∧ LoadingEnds a b)

/-- R518, R523: the module has shut down: HK_SHUTDOWN holds cause, source and reading; the management contacts and the I3C
target are as before, but for THERM_TRIP_N and FAULT_N, which are asserted, and ALERT_N, which is `alert`; the fuses are
what they were, and FLASH_VCC as it was (the model's choice, assumption 42); of the rest nothing is left. -/
structure ShutDown (cause source reading : Nat) (alert : Bool) (a b : Dev) : Prop where
  latch : b.board.shut = true ∧ b.board.input = true ∧ b.board.rails = false
  contacts : b.board.thermTripN = true ∧ b.board.faultN = true ∧ b.board.alertN = alert ∧
    b.board.trstN = a.board.trstN ∧ b.board.flashVcc = a.board.flashVcc
  target : b.board.static = a.board.static ∧ b.board.dynamic = a.board.dynamic ∧ b.board.offset = a.board.offset
  record : reg b (hkOff 0x18) = (reading % 2 ^ 16 + source * 2 ^ 16 + cause * 2 ^ 25) % 2 ^ 32
  registers : ∀ off, off ≠ hkOff 0x18 → reg b off = (regReset off).toNat
  rest : { b with regs := [], board := Board.init } =
    { Dev.init with freeCtr := a.freeCtr, uidCtr := a.uidCtr, boot := { Boot.init with fuses := a.boot.fuses } }

/-- R512: a state of a unit after a round in which its temperature is `t`, in 1/16 °C: it is entered at the threshold, in
°C, and left below the threshold less 4 °C. -/
def Hysteresis (t threshold : Int) (was now : Bool) : Prop :=
  (threshold * 16 ≤ t → now = true) ∧ (t < (threshold - 4) * 16 → now = false) ∧
    (t < threshold * 16 → (threshold - 4) * 16 ≤ t → now = was)

/-- R513: the counter of throttle steps after a round: `temp` is the temperature of the hearth die in 1/16 °C, `power` the
mean input power in W. While a bake that stages THM_SUPPLY is in progress it holds. -/
def StepsAfter (d : Dev) (temp : Int) (power n : Nat) : Prop :=
  let was := d.board.steps
  let held := ∃ b, d.parts.bake = some b ∧ ∃ e ∈ b.staged, e.1 = thmOff 0x18
  let raises := 105 * 16 ≤ temp ∨ powerCap d < power
  let lowers := temp < 101 * 16 ∧ power + 50 < powerCap d
  (held → n = was) ∧ (¬ held → raises → n = min (was + 1) (bakedCode d)) ∧
    (¬ held → ¬ raises → lowers → n = was - 1) ∧ (¬ held → ¬ raises → ¬ lowers → n = was)

end Sys2Proof.Machine
end

