-- ==== Sys2Proof/Certificates/Slice0/Obligations.lean ====
section
/-! DEFINITION. The statements for the provers. `Only l a b` says that of the pieces of `a` at most those in `l` differ in
`b`; `Completed` says what a completion does; `Answers i s P` says that `exec i s` answers a next state that meets `P`. -/
section
open Sys2Proof Sys2Proof.Machine

/-! ## The machine -/

/-- A step takes the command at the front of the queue and performs it on the module with the rest of the queue; on an
empty queue each host port takes some of what its receive buffers hold out of them and sends one frame, if one may leave
(the model's choices, assumptions 10 and 53). -/
def Obligations.StepTakesFront : Prop :=
  (∀ (c : Instr) (s : State), step { s with pending := c :: s.pending } = exec c s) ∧
    ∀ s : State, s.pending = [] →
      ∃ t, step s = .next t ∧ t.pending = [] ∧ t.toDev = (grantPort 1 (grantPort 0 (drainPort 1 (drainPort 0 s.toDev.start)))).dev

/-- At reset nothing waits, the stores of `Dev.Wf` are in canonical form, every register reads its reset value, power is
off. -/
def Obligations.ResetState : Prop :=
  State.reset.pending = [] ∧ State.reset.toDev.Wf ∧ (∀ off, reg State.reset.toDev off = (regReset off).toNat) ∧
    isReady State.reset.toDev = false ∧ State.reset.toDev.time = 0 ∧ State.reset.toDev.board.rails = false

/-- Every step keeps the canonical form of the stores that `Dev.Wf` names (those of the module, its hearth, its host
side, its partitions and its fabric), and every register in force keeps to the bits that exist (R9). -/
def Obligations.StepKeepsWellFormed : Prop :=
  ∀ s t : State, step s = .next t → s.toDev.Wf → t.toDev.Wf

/-- Every command, on every module, answers a next state; none changes what waits in the queue. -/
def Obligations.EveryCommandAnswers : Prop :=
  ∀ (c : Instr) (s : State), Answers c s fun _ => True

/-! ## Commands of core queues that complete at once -/

/-- R89, R99, R85, R171: NOP, an issued WAIT, SIGNAL and FENCE, in flight in any state, answer a next state in which they
have completed with OK; a SIGNAL's arrivals, or its event to the owner host, are part of its completion. -/
def Claim.PlainCommandsComplete : Prop :=
  ∀ (s : State) (uid : Nat) (c : Cmd),
    (InFlight s.toDev uid opNop c → ∃ t, exec (.nop uid) s = .next t ∧ t.pending = s.pending ∧
      Completed c (plain stOk) none s.toDev t.toDev) ∧
    (InFlight s.toDev uid opWait c → ∃ t, exec (.wait uid) s = .next t ∧ t.pending = s.pending ∧
      Completed c (plain stOk) none s.toDev t.toDev) ∧
    (InFlight s.toDev uid opSignal c → ∃ t, exec (.signal uid) s = .next t ∧ t.pending = s.pending ∧
      Completed c (plain stOk) none s.toDev t.toDev) ∧
    (InFlight s.toDev uid opFence c → ∃ t, exec (.fence uid) s = .next t ∧ t.pending = s.pending ∧
      Completed c (plain stOk) none s.toDev t.toDev)

/-- R103: SET, ADD, SETREF and SETREL, in flight in any state, answer a next state: they have written one counter,
reference or relation of the core and completed with OK; ADD wraps. -/
def Claim.CounterCommandsComplete : Prop :=
  ∀ (s : State) (uid : Nat) (c : Cmd), InFlight s.toDev uid opCount c →
    let k := coreOf s.toDev c.core
    let written := fun (k' : Core) => Completed c (plain stOk) none (s.toDev.withCore c.core k')
    (bits (wd c.words 2) 2 0 = 0 → ∃ t, exec (.countSet uid) s = .next t ∧ t.pending = s.pending ∧
      written { k with counters := mset 0#32 k.counters (cntIndex c) (BitVec.ofNat 32 (cntValue c)) } t.toDev) ∧
    (bits (wd c.words 2) 2 0 = 1 → ∃ t, exec (.countAdd uid) s = .next t ∧ t.pending = s.pending ∧
      written { k with
        counters := mset 0#32 k.counters (cntIndex c)
          (mget 0#32 k.counters (cntIndex c) + BitVec.ofNat 32 (cntValue c)) } t.toDev) ∧
    (bits (wd c.words 2) 2 0 = 4 → ∃ t, exec (.countSetref uid) s = .next t ∧ t.pending = s.pending ∧
      written { k with refs := mset 0#32 k.refs (cmpIndex c) (BitVec.ofNat 32 (cntValue c)) } t.toDev) ∧
    (bits (wd c.words 2) 2 0 = 5 → ∃ t, exec (.countSetrel uid) s = .next t ∧ t.pending = s.pending ∧
      written { k with relations := mset 0#3 k.relations (cmpIndex c) (BitVec.ofNat 3 (cntValue c)) } t.toDev)

/-- NOP, an issued WAIT, SIGNAL, FENCE, and the COUNT operations on a core's own counters. -/
def Obligations.CommandsThatOnlyComplete : Prop := Claim.PlainCommandsComplete ∧ Claim.CounterCommandsComplete

/-- R103, R173, R401, R406, R455: LOAD reads four bytes of a scratchpad, of memory (a copy may serve it) or of another
module, into a counter. An uncorrectable granule, and a request that came back with an error or could not leave, end it
with that status (fault_count 1 and fault_word 3 are the model's choice, assumption 14); while its address is held, or the
stack's regulator does not let it pass, it waits. -/
def Claim.CounterLoads : Prop :=
  ∀ (s : State) (uid : Nat) (u : Upset) (c : Cmd), InFlight s.toDev uid opCount c → bits (wd c.words 2) 2 0 = 2 →
    let a := wd c.words 3
    let counted := fun (d : Dev) (v : Nat) =>
      let k := coreOf d c.core
      Completed c (plain stOk) none
        (d.withCore c.core { k with counters := mset 0#32 k.counters (cntIndex c) (BitVec.ofNat 32 v) })
    let failed := fun (f : Nat) => Completed c ⟨stUncorrectable, noFlags, 0, f, 1, 3⟩ none
    (∀ k, placeOf s.toDev a = .spad k →
      let z := readAll c.core atHome u [a - a % 64] s.toDev.start
      (z.1.fault = none → Answers (.countLoad (uid, u)) s (counted z.2.dev (bufNat z.1.buf a 4))) ∧
        (∀ f, z.1.fault = some f → Answers (.countLoad (uid, u)) s (failed f z.2.dev)) ∧
        (u = .none → a % 4 = 0 → Answers (.countLoad (uid, u)) s (counted s.toDev (leNat (peek s.toDev a 4))))) ∧
    (∀ v k, placeOf s.toDev a = .mem v k →
      let shut := stackShut s.toDev c.part [a] || addrHeld s.toDev a
      let x := readMem c.core ⟨true, true⟩ k s.toDev.start
      (shut = true → Gives (.countLoad (uid, u)) s s.toDev) ∧
        Only accessPieces s.toDev x.2.dev ∧
        (∀ data, shut = false → x.1 = some data →
          Answers (.countLoad (uid, u)) s (Metered (counted x.2.dev (leNat ((data.drop (k % 64)).take 4))))) ∧
        (shut = false → x.1 = none → Answers (.countLoad (uid, u)) s (Metered (failed (a - a % 64) x.2.dev)))) ∧
    (∀ dev addr, placeOf s.toDev a = .remote dev addr →
      let p := hearthPort s.toDev.start
      let q := sendRequest c.part c.uid ⟨p.1, tRead, dev, addr - addr % 64, 1, 0, 0, true, false, []⟩ p.2
      (c.stage = 0 → routeOf s.toDev dev ≠ 0 → Gives (.countLoad (uid, u)) s
        (setCmd { c with txns := c.txns ++ [q.1], stage := 1 } q.2).dev) ∧
      (c.stage = 0 → c.remote = 0 → routeOf s.toDev dev = 0 → Gives (.countLoad (uid, u)) s
        (setCmd { c with remote := stLinkDown, failAt := dev * 2 ^ 48 + (addr - addr % 64), stage := 1 } p.2).dev) ∧
      (c.stage ≠ 0 → c.txns = [] → c.remote = 0 → Answers (.countLoad (uid, u)) s (counted s.toDev (bufNat c.buf a 4))) ∧
      (c.stage ≠ 0 → c.txns = [] → c.remote ≠ 0 → Answers (.countLoad (uid, u)) s
        (Completed c ⟨c.remote, noFlags, 0, c.failAt, 1, 3⟩ none s.toDev)))

/-- R103, R197, R401, R406, R455: STORE writes a counter's four bytes to a scratchpad, to memory or to another module;
at a scope other than FABRIC the remote write is posted. The image its merge forms may reach the granule with a later step
(stage 5). While its address is held, or the stack's regulator does not let it pass, it waits (fault_count 1 and
fault_word 3 are the model's choice, assumption 14). -/
def Claim.CounterStores : Prop :=
  ∀ (s : State) (uid : Nat) (u : Upset) (c : Cmd), InFlight s.toDev uid opCount c → bits (wd c.words 2) 2 0 = 3 →
    let a := wd c.words 3
    let w := putBytes [] a (natLE (mget 0#32 (coreOf s.toDev c.core).counters (cntIndex c)).toNat 4)
    ((∃ k, placeOf s.toDev a = .spad k) ∨ (∃ v k, placeOf s.toDev a = .mem v k) →
      let shut := stackShut s.toDev c.part [a] || addrHeld s.toDev a
      (shut = true → Gives (.countStore (uid, u)) s s.toDev) ∧
        Only accessPieces s.toDev (writeIter c.core w u s.toDev.start).2.dev ∧
        (shut = false → c.stage ≠ 5 → Answers (.countStore (uid, u)) s
          (Metered fun d => Writes c 3 5 w u (fun r => Completed c (plain stOk) none r.dev d) s.toDev.start d)) ∧
        (shut = false → c.stage = 5 → ∃ e, Only [.buckets] (writeLate c s.toDev.start).dev e ∧
          Answers (.countStore (uid, u)) s (Completed c (plain stOk) none e))) ∧
    (∀ dev addr, placeOf s.toDev a = .remote dev addr →
      let e := mget noWrite w (a / 64)
      let p := hearthPort s.toDev.start
      let q := sendRequest c.part c.uid
        ⟨p.1, tMerge, dev, addr - addr % 64, 1, e.1, 0, true, decide (fScope c.words ≠ 3), e.2⟩ p.2
      (c.stage = 0 → routeOf s.toDev dev ≠ 0 → Gives (.countStore (uid, u)) s
        (setCmd { c with txns := c.txns ++ [q.1], stage := 1 } q.2).dev) ∧
      (c.stage = 0 → c.remote = 0 → routeOf s.toDev dev = 0 → Gives (.countStore (uid, u)) s
        (setCmd { c with remote := stLinkDown, failAt := dev * 2 ^ 48 + (addr - addr % 64), stage := 1 } p.2).dev) ∧
      (c.stage ≠ 0 → c.txns = [] → c.remote = 0 → Answers (.countStore (uid, u)) s
        (Completed c (plain stOk) none s.toDev)) ∧
      (c.stage ≠ 0 → c.txns = [] → c.remote ≠ 0 → Answers (.countStore (uid, u)) s
        (Completed c ⟨c.remote, noFlags, 0, c.failAt, 1, 3⟩ none s.toDev)))

/-- COUNT LOAD and COUNT STORE in all their forms. -/
def Obligations.CounterTransfers : Prop := Claim.CounterLoads ∧ Claim.CounterStores

/-- R398, R401: a request takes the next transaction number, is outstanding from now on, and waits at its stack port's
input of the switch as a frame; READ, ATOMIC and SYNC carry the count of posted writes sent to the device, which a posted
write raises by one. -/
def Obligations.RequestLeaves : Prop :=
  ∀ (d : Dev) (part uid : Nat) (q : Req),
    let x := sendRequest part uid q d.start
    let num := d.fabric.nextTxn % 2 ^ 20
    let counted := q.type = tRead ∨ q.type = tAtomic ∨ q.type = tSync
    x.1 = num ∧ x.2.dev.fabric.nextTxn = d.fabric.nextTxn + 1 ∧
      x.2.dev.fabric.txns = d.fabric.txns ++
        [⟨num, q.stack, uid, q.type, q.dst, if q.type = tSync then sentTo d q.dst else q.addr, d.time⟩] ∧
      x.2.dev.fabric.queue = d.fabric.queue ++ [⟨20 + q.stack,
        { type := q.type, vc := 0, part := part, granules := q.granules, seq := 0, hops := 127, posted := q.posted,
          dst := q.dst, addr := q.addr, src := deviceNumber d, txn := num, srcStack := q.stack, status := 0,
          aop := q.aop, hearth := q.hearth, arg := if counted then sentTo d q.dst else q.arg, payload := q.payload }⟩] ∧
      x.2.dev.fabric.sent =
        (if q.posted then mset 0 d.fabric.sent q.dst ((sentTo d q.dst + 1) % 2 ^ 32) else d.fabric.sent) ∧
      Only [.txns, .counts, .switch] d x.2.dev

/-- R180, R189, R401, R406: RELEASE first writes home the copies of network-attached units that its range covers: those of
its own cluster's unit at MODULE and FABRIC scope, and of other clusters' units at any scope (the model's reading of R178,
assumption 13). At FABRIC scope it then sends a SYNC to each device with unconfirmed posted writes and waits for their
SYNC_ACKs; then it completes. While the home of such a copy takes no access it waits. fault_count 1 and fault_word 0 of
one that failed are the model's choice (assumption 14). -/
def Obligations.ReleaseCompletes : Prop :=
  ∀ (s : State) (uid : Nat) (c : Cmd), InFlight s.toDev uid opRelease c →
    let held := releaseHeld s.toDev c (wd c.words 2) (wd c.words 3)
    let r := releaseCopies c (wd c.words 2) (wd c.words 3) s.toDev.start
    let z := sendSyncs c r
    (c.stage = 0 → held = true → Gives (.release uid) s s.toDev) ∧
    (c.stage = 0 → held = false → c.txns = [] → c.remote = 0 → fScope c.words ≠ 3 → Answers (.release uid) s
      (Completed c (plain stOk) none r.dev)) ∧
    (c.stage = 0 → held = false → z.1.txns = [] → z.1.remote = 0 → fScope c.words = 3 → Answers (.release uid) s
      (Completed c (plain stOk) none z.2.dev)) ∧
    (c.stage = 0 → held = false → (z.1.txns ≠ [] ∨ z.1.remote ≠ 0) → fScope c.words = 3 → Answers (.release uid) s
      fun d => d = (setCmd { z.1 with stage := 1 } z.2).dev) ∧
    (c.stage ≠ 0 → c.txns = [] → c.remote = 0 → Answers (.release uid) s (Completed c (plain stOk) none s.toDev)) ∧
    (c.stage ≠ 0 → c.txns = [] → c.remote ≠ 0 → Answers (.release uid) s
      (Completed c ⟨c.remote, noFlags, 0, c.failAt, 1, 0⟩ none s.toDev))

/-- R189: after a RELEASE below FABRIC scope no unit holds a copy that it sends home: one its range covers, of its own
cluster at MODULE scope and of another cluster at any (the model's reading of R178, assumption 13). The granule's data at
home are those of the copy, where one unit only held one, and every other copy and every other granule's data are as
before. -/
def Obligations.ReleaseWritesCopiesHome : Prop :=
  ∀ (s : State) (uid : Nat) (c : Cmd), InFlight s.toDev uid opRelease c → c.stage = 0 → c.txns = [] →
    c.remote = 0 → fScope c.words ≠ 3 → releaseHeld s.toDev c (wd c.words 2) (wd c.words 3) = false →
    let copy := fun (d : Dev) (q g : Nat) => mget [] (clusterOf d q).atomic g
    let sent := fun (q g : Nat) => rangeCovers s.toDev (wd c.words 2) (wd c.words 3) (g * 64) = true ∧
      (q = coreCluster c.core → fScope c.words = 2)
    Answers (.release uid) s fun d =>
      (∀ q g, sent q g → copy d q g = []) ∧
      (∀ q g, ¬ sent q g → copy d q g = copy s.toDev q g) ∧
      (∀ q g, sent q g → (copy s.toDev q g).length = 64 → (∀ p, p ≠ q → sent p g → copy s.toDev p g = []) →
        granuleData d (g * 64) = copy s.toDev q g) ∧
      ∀ g, (∀ q, sent q g → copy s.toDev q g = []) → granuleData d (g * 64) = granuleData s.toDev (g * 64)

/-- R174, R181, R184: ACQUIRE drops every copy in its range, every copy where the range is over 1 MiB (also one wholly in
scratchpads or on another module, the model's choice, assumption 59), from its cluster's cache and the mirrors of its
cluster's 32 cores, keeps every other copy, and completes. -/
def Claim.AcquireDropsCopies : Prop :=
  ∀ (s : State) (uid : Nat) (c : Cmd), InFlight s.toDev uid opAcquire c →
    let q := coreCluster c.core
    let covered := fun (g : Nat) =>
      decide (2 ^ 20 < wd c.words 3) || rangeCovers s.toDev (wd c.words 2) (wd c.words 3) (g * 64)
    Answers (.acquire uid) s fun d =>
      (∃ e, Only [.mirrors, .clusters] s.toDev e ∧ Completed c (plain stOk) none e d) ∧
      (∀ g, mget [] (clusterOf d q).cache g = if covered g then [] else mget [] (clusterOf s.toDev q).cache g) ∧
      (∀ k g, mget [] (mirrorOf d k) g =
        if k / 32 = q ∧ covered g = true then [] else mget [] (mirrorOf s.toDev k) g) ∧
      (clusterOf d q).atomic = (clusterOf s.toDev q).atomic

/-- R186 to R190, R370, R406: an ATOMIC performs its operation on a scratchpad, on its cluster's copy of a granule (CORE
and CLUSTER scope), at the granule's home (MODULE and FABRIC), or at another module; one whose device has no route notes
LINK_DOWN and sends nothing. fault_count 1 and fault_word 2 and 6 are the model's choice (assumption 14). -/
def Claim.AtomicPerforms : Prop :=
  ∀ (s : State) (uid now : Nat) (u : Upset) (c : Cmd) (r : Run s.toDev), InFlight s.toDev uid opAtomic c →
    AtomicBegins c (reach now s.toDev.start) r → addrHeld s.toDev (wd c.words 6) = false →
    let w := wd c.words 5
    let a := wd c.words 2
    let v := wd c.words 3
    let cmp := wd c.words 4
    let failed := fun (f : Nat) (r : Run s.toDev) => Completed c ⟨stUncorrectable, noFlags, 0, f, 1, 2⟩ none r.dev
    (∀ k, placeOf r.dev a = .spad k →
      let p := fresh r
      let z := readAll c.core atHome (upsetOf p.1 2 0 u) [a - a % 64] p.2
      let o := atomicOn w (k % 64) (readSpad z.2.dev k) v cmp
      (z.1.fault = none → Answers (.atomic uid (now, u)) s
        (Metered (AtomicEnds c o.1 (upsetOf p.1 2 1 u) (writeSpad k fullMask o.2 z.2)))) ∧
        ∀ f, z.1.fault = some f → Answers (.atomic uid (now, u)) s (Metered (failed f z.2))) ∧
    (∀ x k, placeOf r.dev a = .mem x k → homeHeld r.dev k = false → fScope c.words ≤ 1 →
      let z := atomicCopy (coreCluster c.core) w k v cmp r
      (∀ old, z.1 = some old → Answers (.atomic uid (now, u)) s (Metered (AtomicEnds c old u z.2))) ∧
        (z.1 = none → Answers (.atomic uid (now, u)) s (Metered (failed (a - a % 64) z.2)))) ∧
    (∀ x k, placeOf r.dev a = .mem x k → homeHeld r.dev k = false → 2 ≤ fScope c.words →
      stackShut r.dev c.part [a] = false → atomicShut r.dev c.part (keyStack k) = false →
      let z := atomicHome w k v cmp (charge 0x2C (keyStack k) c.part 64 r)
      (∀ old, z.1 = some old → Answers (.atomic uid (now, u)) s (Metered (AtomicEnds c old u z.2))) ∧
        (z.1 = none → Answers (.atomic uid (now, u)) s (Metered (failed (a - a % 64) z.2)))) ∧
    (∀ dev addr, placeOf r.dev a = .remote dev addr → routeOf r.dev dev ≠ 0 →
      let p := hearthPort r
      let q := sendRequest c.part c.uid ⟨p.1, tAtomic, dev, addr, 1, 0, w % 128, true, false,
        natLE v 8 ++ natLE cmp 8 ++ List.replicate 48 0#8⟩ p.2
      Gives (.atomic uid (now, u)) s (setCmd { c with txns := c.txns ++ [q.1], stage := 2 } q.2).dev) ∧
    (∀ dev addr, placeOf r.dev a = .remote dev addr → routeOf r.dev dev = 0 → c.remote = 0 →
      Gives (.atomic uid (now, u)) s
        (setCmd { c with remote := stLinkDown, failAt := dev * 2 ^ 48 + addr, stage := 2 } (hearthPort r).2).dev)

/-- R180, R190, R197, R401: an ATOMIC that is first a release at FABRIC scope waits for its SYNC_ACKs; one on another
module ends when its ATOMIC_DATA is back, with the status that came with it; one whose result's image was on its way
(stage 5) writes it and ends. One that is to release while the home of a copy is held waits. -/
def Claim.AtomicWaitsAndEnds : Prop :=
  ∀ (s : State) (uid now : Nat) (u : Upset) (c : Cmd), InFlight s.toDev uid opAtomic c →
    let r := reach now s.toDev.start
    let z := sendSyncs c (releaseCopies c 0 0 r)
    let free := addrHeld s.toDev (wd c.words 6) = false
    (c.stage = 0 → aopRel (wd c.words 5) = true → atomicUnrouted s.toDev c = false → free →
      releaseHeld r.dev c 0 0 = true → Gives (.atomic uid (now, u)) s r.dev) ∧
    (c.stage = 5 → free → Answers (.atomic uid (now, u)) s (AtomicDone c (metered c.part (writeLate c) r))) ∧
    (c.stage = 0 → aopRel (wd c.words 5) = true → fScope c.words = 3 → free →
      atomicUnrouted s.toDev c = false → releaseHeld r.dev c 0 0 = false → (z.1.txns ≠ [] ∨ z.1.remote ≠ 0) →
      Gives (.atomic uid (now, u)) s (setCmd { z.1 with stage := 1 } z.2).dev) ∧
    (c.stage = 2 → c.txns = [] → c.remote = 0 → Answers (.atomic uid (now, u)) s
      (Metered (AtomicEnds c (leNat ((mget [] c.buf 0).take (aopSize (wd c.words 5)))) u r))) ∧
    (c.stage = 2 → c.txns = [] → c.remote ≠ 0 → Answers (.atomic uid (now, u)) s
      (Metered (Completed c ⟨c.remote, noFlags, 0, c.failAt, 1, 2⟩ none r.dev)))

/-- ATOMIC in all its forms. -/
def Obligations.Atomics : Prop := Claim.AtomicPerforms ∧ Claim.AtomicWaitsAndEnds

/-- R187: the values the integer operations compute: ADD_I32 modulo 2^32, MIN_S and MAX_S as signed integers, SWAP the
operand, CAS the operand only where the old value equals the comparand. -/
def Claim.AtomicIntegers : Prop :=
  ∀ (size old v cmp : Nat), (size = 4 ∨ size = 8) → old < 2 ^ (8 * size) → v < 2 ^ (8 * size) →
    atomicValue 0 size old v cmp = (old + v) % 2 ^ 32 ∧
    signed (8 * size) (atomicValue 2 size old v cmp) = min (signed (8 * size) old) (signed (8 * size) v) ∧
    signed (8 * size) (atomicValue 3 size old v cmp) = max (signed (8 * size) old) (signed (8 * size) v) ∧
    atomicValue 6 size old v cmp = v ∧
    (old = cmp → atomicValue 7 size old v cmp = v) ∧ (old ≠ cmp → atomicValue 7 size old v cmp = old) ∧
    ∀ aop, aop < 8 → aop ≠ 0 ∧ aop ≠ 1 ∧ aop ≠ 4 ∧ aop ≠ 5 → atomicValue aop size old v cmp < 2 ^ (8 * size)

/-- R54, R187: the values of ADD_F32, MIN_F32 and MAX_F32: with a NaN operand, or for `∞ − ∞`, the canonical NaN; the
minimum and maximum are one of the operands, none of them below or above it, and of −0 and +0 the minimum is −0; a sum
that an FP32 number equals is that number, and the sum of finite operands that cancel is +0, but for −0 with −0. -/
def Claim.AtomicFloats : Prop :=
  ∀ (old v cmp : Nat), old < 2 ^ 32 → v < 2 ^ 32 →
    let x := val32 old
    let y := val32 v
    let some_nan := vIsNan x = true ∨ vIsNan y = true
    let fin := fun (z : Val) => vIsNan z = false ∧ vIsInf z = false
    (some_nan → ∀ aop ∈ [1, 4, 5], atomicValue aop 4 old v cmp = 0x7FC00000) ∧
    ((vadd x y).2 = true → atomicValue 1 4 old v cmp = 0x7FC00000) ∧
    (¬ some_nan →
      (atomicValue 4 4 old v cmp = old ∨ atomicValue 4 4 old v cmp = v) ∧
      (atomicValue 5 4 old v cmp = old ∨ atomicValue 5 4 old v cmp = v) ∧
      (∀ z ∈ [x, y], vlt z (val32 (atomicValue 4 4 old v cmp)) = false ∧
        vlt (val32 (atomicValue 5 4 old v cmp)) z = false) ∧
      (vIsZero x = true → vIsZero y = true → old ≠ v →
        atomicValue 4 4 old v cmp = 0x80000000 ∧ atomicValue 5 4 old v cmp = 0)) ∧
    (fin x → fin y → ∀ z, z < 2 ^ 32 → veq (val32 z) (vadd x y).1 = true → vIsZero (val32 z) = false →
      atomicValue 1 4 old v cmp = z) ∧
    (fin x → fin y → veq (val32 0) (vadd x y).1 = true →
      atomicValue 1 4 old v cmp = if old = 0x80000000 ∧ v = 0x80000000 then 0x80000000 else 0)

/-- R187: the value that each operation of ATOMIC computes. -/
def Obligations.AtomicValues : Prop := Claim.AtomicIntegers ∧ Claim.AtomicFloats

/-! ## The matrix engine and the rack -/

/-- R129 to R132, R163, R370: the matrix engine computes one tile and holds it; an uncorrectable source granule ends the
command with ECC_UNCORRECTABLE at its iteration (fault_count 1 is the model's choice, assumption 14). While a source is
held, or the stack's regulator does not let its reads pass, it waits. -/
def Claim.MatmulHoldsTile : Prop :=
  ∀ (s : State) (uid : Nat) (u : Upset) (c : Cmd) (w x : Desc), runningCmd s.toDev uid opMatmul = some c →
    descOf c.descs 2 = some w → descOf c.descs 3 = some x → (coreOf s.toDev c.core).hold = none → c.skipped = false →
    let blocked := stkBlocked s.toDev c
    let z := readAll c.core atHome u (runAddrs (w.runs c.iter ++ x.runs c.iter)) s.toDev.start
    let l := tileOf w x z.1.buf c.iter (alphaOf c.words)
    (blocked = true → Gives (.matmul uid u) s s.toDev) ∧
    (blocked = false → z.1.fault = none → Answers (.matmul uid u) s (Metered fun d =>
      d = (setCmd { c with flags := l.foldl (fun f e => orFlags f e.2) c.flags }
        (setCore c.core { coreOf z.2.dev c.core with hold := some (.tile (l.map (·.1))) } z.2)).dev)) ∧
    (∀ a, blocked = false → z.1.fault = some a → Answers (.matmul uid u) s (Metered fun d =>
      d = (finishCmd c ⟨stUncorrectable, c.flags, c.iter, a, 1, operandWord c a⟩ z.2).dev))

/-- R130, R133: a tile has 32 × 32 elements. Element T[m][n] is an accumulator times alpha, with one rounding: from +0 it
takes each k-group in turn, with one rounding, and a group of eight or, at the end, fewer elements is the exact sum of the
exact products of row m of the first and row n of the second operand times the two blocks' scales. Outside the operands'
rows an element is +0. -/
def Claim.TileElements : Prop :=
  ∀ (w x : Desc) (b : Store (List Byte)) (t alpha : Nat),
    let group := fun (m n g : Nat) => (List.range (min 8 (w.size 0 - 8 * g))).foldl (fun a j =>
      (vadd a (vmul (w.raw b t [m] (8 * g + j)) (x.raw b t [n] (8 * g + j))).1).1) vzero
    let scaled := fun (m n g : Nat) => (vmul (vmul (group m n g) (decodeScale w.kind (w.scaleCode b t [m] (8 * g)))).1
      (decodeScale x.kind (x.scaleCode b t [n] (8 * g)))).1
    (tileOf w x b t alpha).length = 1024 ∧
      (∀ m n, m < 32 → n < 32 → (tileOf w x b t alpha)[32 * m + n]? =
        some (if m < w.size 1 ∧ n < x.size 1 then tileElem w x b t alpha m n else (0, noFlags))) ∧
      ∀ m n, ∃ acc : Nat → Nat, acc 0 = 0 ∧
        (∀ g, 8 * g < w.size 0 → acc (g + 1) = (round32 (vadd (val32 (acc g)) (scaled m n g)).1).1) ∧
        (tileElem w x b t alpha m n).1 =
          BitVec.ofNat 32 (round32 (vmul (val32 (acc ((w.size 0 + 7) / 8))) (val32 alpha)).1).1

/-- MATMUL, and the elements of its tile. -/
def Obligations.MatmulMakesTiles : Prop := Claim.MatmulHoldsTile ∧ Claim.TileElements

/-- R133 to R135, R97: a finished tile, or a void entry of a skipped MATMUL, enters a rack that has a free entry, behind
the entries there, with one arrival of the MATMUL's signal tag counted; the command goes on to its next iteration. With
no free entry the engine waits. -/
def Claim.EntriesEnterRack : Prop :=
  ∀ (s : State) (core : CoreId) (c : Cmd), runningOn s.toDev core.val 1 = some c →
    let k := coreOf s.toDev c.core
    let entered := fun (e : RackEntry) =>
      let k' := { k with rack := k.rack ++ [e], hold := none }
      let r := setCore c.core (if fSignal c.words = 0 then k' else countTag (fSignal c.words) k') s.toDev.start
      (nextIter c c.flags (accountHeads (some c.core) r)).dev
    (∀ e, k.hold = some e → k.rack.length < 8 → Answers (.tileEntersRack core) s fun d => d = entered e) ∧
    (c.skipped = true → k.rack.length < 8 → Answers (.voidEntryEntersRack core) s fun d => d = entered .void) ∧
    (8 ≤ k.rack.length → Answers (.tileEntersRack core) s (fun d => d = s.toDev) ∧
      Answers (.voidEntryEntersRack core) s fun d => d = s.toDev)

/-- R136, R137, R144, R455: a rack-reading VECOP takes the head entry once an arrival of wait_a is counted, and consumes
it; a tile stays until it is processed, while a void entry, one that a skipped command discards and one that DROP takes
free at once. A tile with an uncorrectable error ends the command. -/
def Claim.RackEntriesTaken : Prop :=
  ∀ (s : State) (core : CoreId) (now : Nat) (u : Upset) (c : Cmd) (e : RackEntry),
    runningOn s.toDev core.val 2 = some c → (coreOf s.toDev core.val).rack.head? = some e → readsRack c.words = true →
    c.taken = none → tagCount (coreOf s.toDev core.val) (fWaitA c.words) ≠ 0 →
    let r := accountHeads (some core.val)
      (setCore core.val (takeTag (fWaitA c.words) (coreOf s.toDev core.val)) (reach now s.toDev.start))
    let r' := if u = .corrected then addReg (eccOff 0x08) 1 r else r
    let used := e ≠ .void ∧ c.skipped = false
    (used → u ≠ .uncorrectable → vop c.words ≠ 0x30 → Answers (.rackEntryTaken core now u) s fun d =>
      d = (setCmd { c with taken := some e } r').dev) ∧
    (used → u ≠ .uncorrectable → vop c.words = 0x30 → Answers (.rackEntryTaken core now u) s fun d =>
      d = (nextIter c c.flags (freeEntry core.val r')).dev) ∧
    (¬ used → Answers (.rackEntryTaken core now u) s fun d => d = (nextIter c c.flags (freeEntry core.val r)).dev) ∧
    (used → u = .uncorrectable →
      let z := vectorIter { c with taken := some e } .none (writeLate c (noteSram c.part r))
      Answers (.rackEntryTaken core now u) s fun d =>
        d = (stopCmd { c with late := [] } stUncorrectable (orFlags c.flags z.1.flags) 0 0 0
          (writeSome core.val z.1.writes (freeEntry core.val z.2))).dev)

/-- TILE_ENTERS_RACK, VOID_ENTRY_ENTERS_RACK and RACK_ENTRY_TAKEN. -/
def Obligations.RackInAndOut : Prop := Claim.EntriesEnterRack ∧ Claim.RackEntriesTaken

/-! ## The vector and layout engines, DMA -/

/-- R107, R112, R136, R158, R163: how an iteration ends. With a failing source granule, some of its writes are performed,
which ones is free, and the command ends with ECC_UNCORRECTABLE; so too when a merge read fails (that it reports one
faulting granule, and the word it names, are the model's choice, assumption 14). With out-of-range lanes it ends with
INDEX_RANGE, having written; else the next iteration starts, or the work ends with OK. Images that the iteration has
formed may still be on their way to their granules (R185, R208). A rack entry that the iteration has taken frees with it,
once the last of its images is written. -/
def Claim.IterationsEnd : Prop :=
  ∀ (d : Dev) (c : Cmd) (o : IterOut) (u : Upset),
    let flags := orFlags c.flags o.flags
    let y := if o.unit then (((none, []), forEach o.writes (writeUnit c.core) d.start) : (Option Nat × List Late) × Run d)
      else writeIter c.core o.writes u d.start
    let x := { c with late := y.1.2 }
    let ended := (endIter c o u d.start).dev
    let freed := fun (r : Run d) => if c.taken.isSome then freeEntry c.core r else r
    let waits := c.taken.isSome = true ∧ y.1.2 ≠ []
    (∀ a, o.fault = some a → ended =
      (finishCmd c ⟨stUncorrectable, flags, c.iter, a, 1, operandWord c a⟩
        (freed (writeSome c.core o.writes d.start))).dev) ∧
    (∀ a, o.fault = none → y.1.1 = some a → ended =
      (finishCmd x ⟨stUncorrectable, flags, c.iter, a, 1, operandWord c a⟩ (freed y.2)).dev) ∧
    (∀ a n, o.fault = none → y.1.1 = none → o.range = some (a, n) → ended =
      (finishCmd x ⟨stIndex, flags, c.iter, a, n, 3⟩ y.2).dev) ∧
    (o.fault = none → y.1.1 = none → o.range = none → waits →
      ended = (setCmd { x with stage := 1, flags := flags } y.2).dev) ∧
    (o.fault = none → y.1.1 = none → o.range = none → ¬ waits → c.iter + 1 < iterations c.words → ended =
      (accountRack c.core (setCmd { x with
        iter := c.iter + 1, flags := flags, taken := none, waited := 0, since := none } (freed y.2))).dev) ∧
    (o.fault = none → y.1.1 = none → o.range = none → ¬ waits → iterations c.words ≤ c.iter + 1 → c.skipped = false →
      ended = (finishCmd x ⟨stOk, flags, c.iter, 0, 0, 0⟩ (freed y.2)).dev)

/-- R141 to R163, R370: VECOP, REDUCE, GATHER, SCATTER and COPY, when their engine runs them, compute one iteration and
end it; a VECOP that reads the rack needs its entry. What their earlier iterations write is written by then. Where an
iteration with a rack entry still had images on their way, they are written, and it ends. -/
def Claim.EnginesRunIterations : Prop :=
  ∀ (s : State) (uid : Nat) (u : Upset) (c : Cmd), stkBlocked s.toDev c = false →
    let p := fresh (writeLate c s.toDev.start)
    let z := vectorIter c (upsetOf p.1 2 0 u) p.2
    let y := copyIter c (upsetOf p.1 2 0 u) p.2
    let ran := fun (i : Instr) =>
      (c.stage ≠ 1 → Answers i s (Metered fun d =>
        d = (endIter (keepOld c z.1 z.2.dev) z.1 (upsetOf p.1 2 1 u) z.2).dev)) ∧
      (c.stage = 1 → Gives i s (endTaken c s.toDev.start).dev)
    (runningCmd s.toDev uid opVecop = some c → (readsRack c.words = true → c.taken ≠ none) → ran (.vecop uid u)) ∧
    (runningCmd s.toDev uid opReduce = some c → ran (.reduce uid u)) ∧
    (runningCmd s.toDev uid opGather = some c → ran (.gather uid u)) ∧
    (runningCmd s.toDev uid opScatter = some c → ran (.scatter uid u)) ∧
    (runningCmd s.toDev uid opCopy = some c → Answers (.copy uid u) s (Metered fun d =>
      d = (endIter (keepOld c y.1 y.2.dev) y.1 (upsetOf p.1 2 1 u) y.2).dev))

/-- R54, R146, R153: elements that VECOP and REDUCE compute. A comparison gives 1 or 0; with a NaN, NE gives 1 and the
others 0. MAX and MIN of a line are one of its elements, above or below which there is none; ARGMAX and ARGMIN are the
lowest index of such an element, or that of the first NaN. With no element the four give −∞, +∞, −1 and −1. -/
def Claim.ElementsPicked : Prop :=
  ∀ (seed : Nat) (codes : List Nat),
    let l := (List.range codes.length).zip (codes.map val32)
    let isNan := fun (u : Nat) => vIsNan (val32 u)
    let below := fun (u v : Nat) => vlt (val32 u) (val32 v)
    (∀ (f : FloatFmt) (ch a b : Nat) (s : Val),
      let gives := fun (v : Nat) (is : Bool) => laneOp v f ch (val32 a) (val32 b) s = (vint (if is then 1 else 0), noFlags)
      ((isNan a || isNan b) = true → gives 0x20 false ∧ gives 0x21 false ∧ gives 0x22 false ∧ gives 0x23 true) ∧
      ((isNan a || isNan b) = false → gives 0x20 (below a b) ∧ gives 0x21 (!below b a) ∧
        gives 0x22 (!below a b && !below b a) ∧ gives 0x23 (below a b || below b a))) ∧
    (codes = [] → reduceLine 1 seed l = .inl (.inf true, noFlags) ∧ reduceLine 2 seed l = .inl (.inf false, noFlags) ∧
      reduceLine 4 seed l = .inr (-1) ∧ reduceLine 5 seed l = .inr (-1)) ∧
    ((∃ u ∈ codes, isNan u = true) →
      reduceLine 1 seed l = .inl (.nan, noFlags) ∧ reduceLine 2 seed l = .inl (.nan, noFlags) ∧
      ∃ i, i < codes.length ∧ isNan (codes.getD i 0) = true ∧ (∀ j, j < i → isNan (codes.getD j 0) = false) ∧
        reduceLine 4 seed l = .inr i ∧ reduceLine 5 seed l = .inr i) ∧
    (codes ≠ [] → (∀ u ∈ codes, isNan u = false) →
      (∃ u ∈ codes, reduceLine 1 seed l = .inl (val32 u, noFlags) ∧ ∀ v ∈ codes, below u v = false) ∧
      (∃ u ∈ codes, reduceLine 2 seed l = .inl (val32 u, noFlags) ∧ ∀ v ∈ codes, below v u = false) ∧
      (∃ i, i < codes.length ∧ reduceLine 4 seed l = .inr i ∧
        (∀ v ∈ codes, below (codes.getD i 0) v = false) ∧ ∀ j, j < i → below (codes.getD j 0) (codes.getD i 0) = true) ∧
      (∃ i, i < codes.length ∧ reduceLine 5 seed l = .inr i ∧
        (∀ v ∈ codes, below v (codes.getD i 0) = false) ∧ ∀ j, j < i → below (codes.getD i 0) (codes.getD j 0) = true))

/-- VECOP, REDUCE, GATHER, SCATTER and COPY: an iteration, how it ends, and elements that are picked. -/
def Obligations.EnginesRun : Prop := Claim.EnginesRunIterations ∧ Claim.IterationsEnd ∧ Claim.ElementsPicked

/-- R157: an index in range names its own position; with wrap, an index from -n to -1 counts from the end; any other names
none. -/
def Obligations.IndexPositions : Prop :=
  ∀ (n code : Nat),
    (∀ i, i < n → i < 2 ^ 31 → code % 2 ^ 32 = i → ∀ w, indexPos w n code = some i) ∧
    (∀ i, i < n → 1 ≤ n - i → n - i ≤ 2 ^ 31 → code % 2 ^ 32 = 2 ^ 32 - (n - i) →
      indexPos true n code = some i ∧ indexPos false n code = none) ∧
    (n ≤ code % 2 ^ 32 → code % 2 ^ 32 < 2 ^ 31 → ∀ w, indexPos w n code = none) ∧
    (2 ^ 31 ≤ code % 2 ^ 32 → n < 2 ^ 32 - code % 2 ^ 32 → ∀ w, indexPos w n code = none)

/-- R203, R164: a copy without permutation and padding moves every packing group of every row from its place in the source
to its place in the destination. -/
def Obligations.CopyMovesEveryGroup : Prop :=
  ∀ (a x : Desc) (t : Nat), a.rank = x.rank → 1 ≤ x.rank → x.rank ≤ 6 → a.dims = x.dims →
    x.sizes.length = 6 → a.sizes.length = 6 → (∀ i, i < x.rank → 0 < x.size i) →
    ∀ idx ∈ x.rows, ∀ j, j * (fmtGroup x.fmt).2 < x.size 0 →
      let e := j * (fmtGroup x.fmt).2
      ∃ m ∈ moves a x 0 none t, m.src = some (a.elemAddr t idx e) ∧ m.dst = x.elemAddr t idx e ∧ m.len = (fmtGroup x.fmt).1

/-- R163 to R166, R195, R398 to R400, R406: the stages of a DMA: CHECKs for its remote extents that take several frames,
none with an empty route entry; READs of a remote source; its writes, sent or performed; what of them waited for a fold
boundary; the next iteration. A failed transaction ends it. One that crosses the hearth die is charged at the stacks'
regulators. The engine's grant goes to it when the engine owes no other of its commands one (R118). The port by which the
CHECKs of a transfer from base die to base die leave is the model's choice (assumption 17), and so is what an iteration
whose source was written by an earlier one reads (assumption 18). -/
def Obligations.DmaStages : Prop :=
  ∀ (s : State) (uid : Nat) (u : Upset) (c : Cmd) (a x : Desc), cmdOf s.toDev uid = some c →
    descOf c.descs 2 = some a → descOf c.descs 4 = some x → dmaReady s.toDev c = true →
    (∀ v ∈ dmasReady s.toDev c.core c.uid, v ∉ owedBefore s.toDev 7 c.core c.uid) →
    let base := baseToBase s.toDev a x
    let n := iterations c.words
    let l := moves a x 0 none c.iter
    let r := grantDma c s.toDev.start
    let gives := fun (d : Dev) =>
      if base then Gives (.dma uid u) s d else Answers (.dma uid u) s (Metered fun b => b = d)
    let noRoute := fun (p : Nat) =>
      gives (setCmd { c with stage := 1, remote := stLinkDown, failAt := p } r).dev
    (c.remote ≠ 0 → gives (dmaFail c a x l r).dev) ∧
    (c.remote = 0 → c.stage = 0 →
      (∀ p, routeMissing r.dev n a = some p → noRoute p) ∧
        (∀ p, routeMissing r.dev n a = none → routeMissing r.dev n x = some p → noRoute p) ∧
        (routeMissing r.dev n a = none → routeMissing r.dev n x = none →
          let near := if base then (((memKey r.dev a.base).or (memKey r.dev x.base)).map keyStack) else none
          let z := sendCheck near base (manyFrames r.dev base true a x n) a
            (sendCheck near base (manyFrames r.dev base false a x n) x (c, r))
          gives (setCmd { z.1 with stage := 1 } z.2).dev)) ∧
    (c.remote = 0 → c.stage = 1 → (remoteOf r.dev a.base).isSome = true →
      let z := sendReads base l ({ c with stage := 2 }, r)
      gives (setCmd z.1 z.2).dev) ∧
    (c.remote = 0 → c.stage = 1 → (remoteOf r.dev a.base).isSome = false →
      let p := fresh (writeLate c r)
      let x' := { c with late := [] }
      let read := dmaRead x' base (upsetOf p.1 2 0 u) l p.2
      (read.1.1 = true → read.1.2.fault = none → gives (setCmd { x' with buf := read.1.2.buf } read.2).dev) ∧
        (read.1.1 = false ∨ read.1.2.fault ≠ none →
          gives (dmaStore x' a x l read.1.2.buf read.1.2.fault (upsetOf p.1 2 1 u) read.2).dev)) ∧
    (c.remote = 0 → c.stage = 2 → gives (dmaStore { c with late := [] } a x l c.buf none u (writeLate c r)).dev) ∧
    (c.remote = 0 → c.stage = 4 → gives (dmaWriteNow c u r).dev) ∧
    (c.remote = 0 → (c.stage = 3 ∨ 5 ≤ c.stage) → gives (nextIter { c with stage := 1 } c.flags r).dev)

/-! ## The life of a command -/

/-- R82, R110, R453: COMMAND_FETCH reads the ring's next entry. A core command passes step 1 and becomes the head, or
completes at once with DESCRIPTOR_INVALID, or with ECC_UNCORRECTABLE where its entry cannot be read. A control command or
request entry of a defined op or kind becomes the head; one of an undefined op or kind, or that cannot be read, completes.
That an entry that cannot be read reports one faulting granule is the model's choice (assumption 14), and so are the kind
and identity 0 of such a request entry (assumption 46). -/
def Obligations.CommandFetched : Prop :=
  ∀ (s : State) (ring : RingId) (now : Nat) (x : Ring) (v : Bool) (k : Nat),
    let r := reach now s.toDev.start
    let z := readHome k r
    ringOf s.toDev ring.val = some x → fetchable r.dev ring.val x = true →
    placeOf r.dev (entryAddr x x.fetch) = .mem v k →
    let i := Instr.commandFetch ring now
    let ended := fun (w : List Dword) (rep : Report) => Answers i s (Metered
      (Completed (mkCmd z.2.dev ring.val x w []) rep none (leaveHead ring.val x (z.2.emit .uid)).dev))
    let headed := fun (w : List Dword) =>
      let h : Head := ⟨w, true, 0, false, z.2.dev.time, false, none, none⟩
      Answers i s (Metered fun d =>
        d = (setRing ring.val (some { x with head := some { h with unmet := headUnmet z.2.dev x h } }) z.2).dev)
    (x.target = 0 → z.1 = none → ended []
      ⟨stUncorrectable, noFlags, 0, granuleAddr z.2.dev k, 1, 0⟩) ∧
    (∀ b, x.target = 0 → z.1 = some b → wordsOk (toWords b) = false → ended (toWords b) (plain stDescriptor)) ∧
    (∀ b, x.target = 0 → z.1 = some b → wordsOk (toWords b) = true → headed (toWords b)) ∧
    (∀ b, x.target = 1 → z.1 = some b → 1 ≤ fOpcode (toWords b) → fOpcode (toWords b) ≤ 7 → headed (toWords b)) ∧
    (∀ b, x.target = 1 → z.1 = some b → (fOpcode (toWords b) = 0 ∨ 7 < fOpcode (toWords b)) → Answers i s (Metered
      (EntryEnded ring.val x (fOpcode (toWords b)) (entryId (toWords b)) stDescriptor 0 z.2.dev))) ∧
    (x.target = 1 → z.1 = none → Answers i s (Metered (EntryEnded ring.val x 0 0 stUncorrectable 0 z.2.dev))) ∧
    (∀ b, x.target = 2 → z.1 = some b → cOp (toWords b) ∈ ctrlOps → headed (toWords b)) ∧
    (∀ b, x.target = 2 → z.1 = some b → cOp (toWords b) ∉ ctrlOps → Answers i s (Metered (ControlEnded ring.val x
      (if ring.val / 16 = 0 ∧ authenticated z.2.dev = false then stSig else stDescriptor) z.2.dev))) ∧
    (x.target = 2 → z.1 = none → Answers i s (Metered (ControlReported ring.val x
      ⟨stUncorrectable, noFlags, 0, entryAddr x x.fetch, 1, 0⟩ z.2.dev)))

/-- R83, R97, R98, R104, R110, R118: COMMAND_ISSUE is granted the engine, consumes the head's tags and evaluates its
predicate. A false predicate completes it with SKIPPED, its arrival going to its destination's core, but for a MATMUL
and a rack-reading VECOP, which go into flight as skipped (which core that is where the destination's strides reach
several is the model's choice, assumption 51), and with ECC_UNCORRECTABLE where storage of the command processor fails;
a condition read that failed completes it with that status (that it reports one faulting granule is the model's choice,
assumption 14); else its checks follow. The waits of the core's heads are brought up to date. -/
def Obligations.CommandIssues : Prop :=
  ∀ (s : State) (ring : RingId) (now : Nat) (u : Upset) (x : Ring) (h : Head),
    let r := reach now s.toDev.start
    ringOf s.toDev ring.val = some x → x.head = some h → issuable r.dev ring.val x h = true →
    let i := Instr.commandIssue ring now u
    let w := h.words
    let r := grantEngine ring.val x h r
    let r := setCore x.core (consumeTags w (coreOf r.dev x.core)) r
    let p := (clusterPart r.dev (x.core / 32)).getD 0
    let go := fPred w = true → predicate (coreOf r.dev x.core) w = true
    let r' := leaveHead ring.val x (r.emit .uid)
    let c := mkCmd r.dev ring.val x w (skippedDest r.dev p w)
    let given := fun (z : Run s.toDev) => Gives i s (accountHeads (some x.core) z).dev
    let ended := fun (q : Run s.toDev) (rep : Report) (dest : Option Nat) =>
      ∃ z : Run s.toDev, Completed (mkCmd q.dev ring.val x w []) rep dest (leaveHead ring.val x (q.emit .uid)).dev z.dev ∧
        given z
    (¬ go → u = .uncorrectable → ended (noteSram p r) (plain stUncorrectable) none) ∧
    (¬ go → u ≠ .uncorrectable → fOpcode w ≠ opMatmul → readsRack w = false →
      ended r (plain stSkipped) (destCore r.dev c)) ∧
    (¬ go → u ≠ .uncorrectable → (fOpcode w = opMatmul ∨ readsRack w = true) →
      given (launchCmd { c with skipped := true } r')) ∧
    (∀ st a, go → h.fail = some (st, a) → ended r ⟨st, noFlags, 0, a, 1, 2⟩ none) ∧
    (go → h.fail = none → given (metered p (checkHead ring.val x w u (recipeChecks u)) r))

/-- R110, R111, R113, R171, R455: the checks of a head at issue, but a RECIPE's. One that passes puts the command in
flight with the descriptors read, but a WAIT whose condition holds completes; one that fails completes it with the
status, word and address of the check, and with ECC_UNCORRECTABLE where a descriptor cannot be read, or storage of the
command processor fails; where descriptors lie in a scratchpad which of the two an upset strikes is free. The word and the
one faulting granule of an unreadable descriptor are the model's choice (assumption 14), and so is which address a failed
check reports (assumption 15). -/
def Claim.OperandsChecked : Prop :=
  ∀ (d : Dev) (n : Nat) (x : Ring) (w : List Dword) (u : Upset), fOpcode w ≠ opRecipe →
    let p := (clusterPart d (x.core / 32)).getD 0
    let os := operandsOf w
    let aligned := ∀ o ∈ os, o.addr % 64 = 0
    let own := ownUpset (os.map (·.addr)) u d.start
    let z := readDescs x.core p u (if aligned then os else []) own.2
    let xs := if aligned then descsOf z.2.dev p z.1.buf os else []
    let bad := if os = [] ∧ fOpcode w ≠ opVecop then plainChecks z.2.dev p w else descChecks z.2.dev p x.core w xs
    let r := leaveHead n x (z.2.emit .uid)
    let b := (checkHead n x w u (recipeChecks u) d.start).dev
    let sram := own.1 = true
    let c := mkCmd z.2.dev n x w []
    (u ≠ .uncorrectable → ¬ sram) ∧
    (u = .uncorrectable → (∀ o ∈ os, ∀ k, placeOf d o.addr ≠ .spad k) → sram) ∧
    (sram → Completed (mkCmd (noteSram p own.2).dev n x w []) (plain stUncorrectable) none
      (leaveHead n x ((noteSram p own.2).emit .uid)).dev b) ∧
    (∀ a, ¬ sram → z.1.fault = some a → Completed c
      ⟨stUncorrectable, noFlags, 0, a, 1, (((os.find? fun o => o.addr == a).map (·.word)).getD 0)⟩ none r.dev b) ∧
    (∀ f, ¬ sram → z.1.fault = none → bad = some f → Completed c ⟨f.status, noFlags, 0, f.addr, 0, f.word⟩ none r.dev b) ∧
    (¬ sram → z.1.fault = none → bad = none → fOpcode w = opWait → wd w 2 ≠ 0 → Completed c (plain stOk) none r.dev b) ∧
    (¬ sram → z.1.fault = none → bad = none → (fOpcode w = opWait → wd w 2 = 0) →
      b = (launchCmd (mkCmd z.2.dev n x w (xs.map (·.2))) r).dev)

/-- R110, R267, R455: the checks of a RECIPE at issue: it goes into flight with its parameter block, or completes with
what its checks report. -/
def Claim.RecipeHeadChecked : Prop :=
  ∀ (d : Dev) (n : Nat) (x : Ring) (w : List Dword) (u : Upset), fOpcode w = opRecipe →
    let p := (clusterPart d (x.core / 32)).getD 0
    let b := (checkHead n x w u (recipeChecks u) d.start).dev
    let own := ownUpset (issueAddrs w) u d.start
    let z := recipeChecks u p w own.2
    let r := leaveHead n x (z.2.emit .uid)
    let sram := own.1 = true
    (sram → Completed (mkCmd (noteSram p own.2).dev n x w []) (plain stUncorrectable) none
      (leaveHead n x ((noteSram p own.2).emit .uid)).dev b) ∧
    (∀ rep, ¬ sram → z.1.1 = some rep → Completed (mkCmd z.2.dev n x w []) rep none r.dev b) ∧
    (¬ sram → z.1.1 = none → b = (launchCmd { mkCmd z.2.dev n x w [] with buf := mset [] [] 0 z.1.2 } r).dev)

/-- The checks of a head at issue, of every opcode. -/
def Obligations.HeadChecked : Prop := Claim.OperandsChecked ∧ Claim.RecipeHeadChecked

/-- R95, R100: a travelling arrival is counted at its core, once, and travels no more; where there is none nothing but
time moves on. -/
def Claim.ArrivalsCounted : Prop :=
  ∀ (s : State) (n now : Nat),
    let r := reach now s.toDev.start
    (∀ a, s.toDev.hearth.arrivals[n]? = some a → Gives (.tagArrival n now) s
      (accountHeads (some a.core) (setCore a.core (countTag a.tag (coreOf s.toDev a.core))
        (r.emit (.arrivals (s.toDev.hearth.arrivals.eraseIdx n))))).dev) ∧
    (s.toDev.hearth.arrivals[n]? = none → Gives (.tagArrival n now) s r.dev)

/-- R95: an arrival raises its tag's count by one, up to 65,535, where further arrivals are lost; no other tag's count and
nothing else of the core changes. -/
def Claim.TagCountsSaturate : Prop :=
  ∀ (c : Core) (t : Nat), tagCount (countTag t c) t = min 65535 (tagCount c t + 1) ∧
    (∀ u, u ≠ t → tagCount (countTag t c) u = tagCount c u) ∧ { countTag t c with tags := c.tags } = c

/-- TAG_ARRIVAL, and what it does to a tag's count. -/
def Obligations.TagsArrive : Prop := Claim.ArrivalsCounted ∧ Claim.TagCountsSaturate

/-- R97, R111 to R113: a command whose work has ended completes, with all it writes written, with the report of its
work; its arrival goes to the core whose scratchpad is its destination, or its own. The granules that it still wrote are
charged to its partition (R370). -/
def Obligations.EndedWorkCompletes : Prop :=
  ∀ (s : State) (uid now : Nat) (c : Cmd) (rep : Report), cmdOf s.toDev uid = some c → c.phase = .done rep →
    let r := reach now s.toDev.start
    Answers (.commandCompletion uid now) s (Completed c rep (destCore r.dev c) (metered c.part (writeLate c) r).dev)

/-- R434, R435, R438: the oldest entry that waits for a host ring is written when the ring has room and its queue pair
is ready: the entry at its place, then the producer index that publishes it; with none waiting, or no room, nothing
happens. -/
def Obligations.WaitingEntryWritten : Prop :=
  ∀ (s : State) (ring : RingId) (h : HostRing), hostRingOf s.toDev ring.val = some h →
    let q := ring.val / 16
    let p := qpPort (qpOf s.toDev q)
    let n := (h.prod + 1) % 2 ^ 32
    (∀ e rest, h.wait = e :: rest → hostRoom h = true → (qpOf s.toDev q).mode = .ready →
      Answers (.completionEntry ring) s fun d =>
        (portOf d p).egress = (portOf s.toDev p).egress ++
          [.write q (h.addr + 64 * (h.prod % hostEntries h)) h.rkey e,
           .write q (h.addr + 64 * hostEntries h) h.rkey (natLE n 4)] ∧
        hostRingOf d ring.val = some { h with prod := n, wait := rest } ∧ Only hostPieces s.toDev d) ∧
    ((h.wait = [] ∨ hostRoom h = false ∨ (qpOf s.toDev q).mode ≠ .ready) → Gives (.completionEntry ring) s s.toDev)

/-- R114, R115, R136: a head that has waited out its timeout completes with WAIT_TIMEOUT, consuming no tags; a
rack-reading VECOP of the ring that its engine runs, whose running iteration has waited out its own, ends at that
iteration; nothing happens before. -/
def Obligations.WaitsTimeOut : Prop :=
  ∀ (s : State) (ring : RingId) (now : Nat) (x : Ring), ringOf s.toDev ring.val = some x →
    let r := reach now s.toDev.start
    let out := fun (h : Head) =>
      x.target = 0 ∧ x.halted = false ∧ headUnmet r.dev x h = true ∧ fTimeout h.words ≤ headWaited r.dev h
    (∀ h, x.head = some h → out h → Answers (.waitTimeout ring now) s
      (Completed (mkCmd r.dev ring.val x h.words []) (plain stWait) none (leaveHead ring.val x (r.emit .uid)).dev)) ∧
    (∀ c, (∀ h, x.head = some h → ¬ out h) → rackExpired r.dev ring.val = some c → Gives (.waitTimeout ring now) s
      (finishCmd c ⟨stWait, c.flags, c.iter, 0, 0, 0⟩ r).dev) ∧
    ((∀ h, x.head = some h → ¬ out h) → rackExpired r.dev ring.val = none → Gives (.waitTimeout ring now) s r.dev)

/-- R163, R274, R376: a command still in flight at its partition's limit is counted in PART_OVERRUNS and stops; a RECIPE
on its stack stops there. One within its limit goes on. -/
def Obligations.CommandsOverrun : Prop :=
  ∀ (s : State) (uid now : Nat) (c : Cmd), cmdOf s.toDev uid = some c → c.runs = true →
    let r := reach now s.toDev.start
    let r' := addReg (partOff c.part 0x38) 1 r
    let at_ := recipeOf s.toDev (recipeStack c) uid
    let past := c.issued + cmdLimit s.toDev c.part ≤ r.dev.time
    (past → (fOpcode c.words ≠ opRecipe ∨ at_ = none) → Gives (.cmdOverrun uid now) s (metered c.part (overrunCmd c) r').dev) ∧
    (∀ x, past → fOpcode c.words = opRecipe → at_ = some x → x.stop = none → Gives (.cmdOverrun uid now) s
      (stopRecipe (recipeStack c) x r.dev.time stOverrun 0 0 0 0 r').dev) ∧
    (∀ x, past → fOpcode c.words = opRecipe → at_ = some x → x.stop ≠ none → Gives (.cmdOverrun uid now) s r.dev) ∧
    (¬ past → Gives (.cmdOverrun uid now) s r.dev)

/-- R114, R436, R452, R453: one step of a walk over a ring's unissued commands reads one entry, hands over its
completion with QUEUE_HALTED, delivering no tag, and moves the fetch pointer on; at its end the halt clears, or the ring
unbinds. That an entry that cannot be read completes with ECC_UNCORRECTABLE, and the walk goes on, is the model's choice
(assumption 58). -/
def Obligations.WalkCompletesCommands : Prop :=
  ∀ (s : State) (ring : RingId) (now : Nat) (x : Ring) (w : Walk), ringOf s.toDev ring.val = some x → x.walk = some w →
    let r := reach now s.toDev.start
    let n := ring.val
    let part := entryPart r.dev n x
    let y := walkEntry (entryAddr x x.fetch) r
    let y' := meter part r.dev y.2
    let entry := match y.1 with
      | some words =>
        if x.target = 1 then
          requestEntry stHalted 0 (fOpcode words) (entryId words) n x.fetch r.dev.time noOutcome
        else if x.target = 0 then
          completionEntry (plain stHalted) (fSignal words) x.queue x.core n x.fetch r.dev.time
        else completionEntry (plain stHalted) 0 0 0 n x.fetch r.dev.time
      | none => walkCompletion x n (entryAddr x x.fetch) r.dev.time none
    let x' := { x with fetch := (x.fetch + 1) % 2 ^ 32 }
    let z := postCompletion (n / 16 * 16 + x.host) entry (setRing n (some x') y')
    let free := w.unbind = true → ctrlBusy r.dev n = false ∧ ∀ c ∈ s.toDev.hearth.cmds, c.ring ≠ n
    let open_ := hostOpen r.dev (n / 16 * 16 + x.host) = true ∧ doorAddr r.dev (entryAddr x x.fetch) = false ∧
      addrHeld r.dev (entryAddr x x.fetch) = false ∧ stackShut r.dev part [entryAddr x x.fetch] = false
    let past := fun (y : Ring) => if w.unbind then none else some { y with walk := none, halted := false }
    (free → x.fetch = w.stop → Gives (.flushWalk ring now) s (setRing n (past x) r).dev) ∧
    (free → open_ → x.fetch ≠ w.stop → x'.fetch ≠ w.stop → Gives (.flushWalk ring now) s z.dev) ∧
    (free → open_ → x.fetch ≠ w.stop → x'.fetch = w.stop → Gives (.flushWalk ring now) s (setRing n (past x') z).dev)

/-- R101: a poll that has read the value `v` leaves the condition of the head, whose tags have arrived, holding exactly
when the word meets the WAIT's relation, so that the condition keeps the WAIT from issuing no longer; one that has failed
leaves the failure with which the WAIT will complete. Nothing else of the module changes. -/
def Claim.ConditionJudged : Prop :=
  ∀ (d : Dev) (n : Nat) (x : Ring) (h : Head), ringOf d n = some x → x.head = some h →
    tagsCover (coreOf d x.core) h.words = true →
    let p := (clusterPart d (x.core / 32)).getD 0
    let rel := bits (wd h.words 4) 2 0
    let ref := bits (wd h.words 3) 31 0
    let leaves := fun (b : Dev) (ok : Bool) (failure : Option (Nat × Nat)) => Only [.rings] d b ∧
      (∀ m, m ≠ n → ringOf b m = ringOf d m) ∧ ∃ y, ringOf b n = some { x with head := some y } ∧
        y.words = h.words ∧ y.good = h.good ∧ y.cond = ok ∧ y.poll = none ∧ y.fail = failure ∧
        (ok = true → condUnmet b p y = false)
    (∀ v, v < 2 ^ 32 → ∃ ok, leaves (setCond n (some v) 0 0 d.start).dev ok none ∧
      (rel = 0 → (ok = true ↔ v = ref)) ∧ (rel = 1 → (ok = true ↔ v ≠ ref)) ∧
      (rel = 2 → (ok = true ↔ (BitVec.ofNat 32 v).toInt < (BitVec.ofNat 32 ref).toInt)) ∧
      (rel = 3 → (ok = true ↔ (BitVec.ofNat 32 ref).toInt ≤ (BitVec.ofNat 32 v).toInt)) ∧
      (rel = 4 → (ok = true ↔ v < ref)) ∧ (rel = 5 → (ok = true ↔ ref ≤ v))) ∧
    ∀ st a, leaves (setCond n none st a d.start).dev true (some (st, a))

/-- R101, R170, R173, R399, R455: a poll of a WAIT's condition word, its tags having arrived, reads the word at its home
and sets whether the relation holds, or the failure with which the WAIT will complete; on another module it sends a
READ. -/
def Claim.PollReads : Prop :=
  ∀ (s : State) (ring : RingId) (now : Nat) (u : Upset) (x : Ring) (h : Head),
    let r := reach now s.toDev.start
    let n := ring.val
    let a := wd h.words 2
    let p := (clusterPart r.dev (x.core / 32)).getD 0
    let i := Instr.waitConditionPoll ring (now, u)
    ringOf s.toDev n = some x → x.head = some h → x.target = 0 → h.good = true → fOpcode h.words = opWait → a ≠ 0 →
    h.fail = none → addrFault r.dev p 2 a 4 = none → heldAtDoor r.dev p x.core h.words = false →
    addrHeld r.dev a = false → tagsCover (coreOf r.dev x.core) h.words = true →
    (∀ k, placeOf r.dev a = .spad k →
      let z := readAll x.core atHome u [a - a % 64] r
      (z.1.fault = none → Gives i s (setCond n (some (bufNat z.1.buf a 4)) 0 0 z.2).dev) ∧
        ∀ f, z.1.fault = some f → Gives i s (setCond n none stUncorrectable f z.2).dev) ∧
    (∀ v k, placeOf r.dev a = .mem v k → stackShut r.dev p [a] = false →
      let z := readHome k (settleAtomic x.core k r)
      (∀ data, z.1 = some data → Answers i s (Metered fun d =>
        d = (setCond n (some (leNat ((data.drop (k % 64)).take 4))) 0 0 z.2).dev)) ∧
        (z.1 = none → Answers i s (Metered fun d => d = (setCond n none stUncorrectable (a - a % 64) z.2).dev))) ∧
    (∀ dev addr, placeOf r.dev a = .remote dev addr → h.poll = none → routeOf r.dev dev ≠ 0 →
      let q := hearthPort r
      let z := sendRequest p (pollUid n) ⟨q.1, tRead, dev, addr - addr % 64, 1, 0, 0, true, false, []⟩ q.2
      Gives i s (setRing n (some { x with head := some { h with poll := some z.1 } }) z.2).dev) ∧
    (∀ dev addr, placeOf r.dev a = .remote dev addr → h.poll = none → routeOf r.dev dev = 0 →
      Gives i s (setCond n none stLinkDown (dev * 2 ^ 48 + addr - addr % 64) r).dev)


/-- A poll of a WAIT's condition word, and what the word it reads does to the head. -/
def Obligations.ConditionPolled : Prop := Claim.PollReads ∧ Claim.ConditionJudged
/-! ## Copies and memory-mode channels -/

/-- R189, R464: a network-attached unit's copy is written home, where it is the granule's data from then on, and dropped;
no other granule's data and no other copy changes. While the home takes no access, nothing happens. -/
def Claim.CopyWrittenBack : Prop :=
  ∀ (s : State) (cluster : ClusterId) (g : Nat),
    let held := fun (d : Dev) (q h : Nat) => mget [] (clusterOf d q).atomic h
    (homeHeld s.toDev (g * 64) = true → Gives (.networkAtomicWriteBack cluster g) s s.toDev) ∧
    (homeHeld s.toDev (g * 64) = false → (held s.toDev cluster.val g).length = 64 →
    Answers (.networkAtomicWriteBack cluster g) s fun d =>
      held d cluster.val g = [] ∧ granuleData d (g * 64) = held s.toDev cluster.val g ∧
      (∀ q h, (q ≠ cluster.val ∨ h ≠ g) → held d q h = held s.toDev q h) ∧
      (∀ h, h ≠ g → granuleData d (h * 64) = granuleData s.toDev (h * 64)) ∧
      Only homePieces s.toDev d)

/-- R174, R455: a copy leaves a cluster's cache, or a core's mirror, and every other copy stays; a parity failure of a
copy that was there is counted in ECC_COPY_ERRS. -/
def Claim.CopyEvicted : Prop :=
  ∀ (s : State) (cluster : ClusterId) (core : Option (Fin 32)) (g : Nat) (parity : Bool),
    let q := cluster.val
    let cache := fun (d : Dev) (k h : Nat) => mget [] (clusterOf d k).cache h
    let mirror := fun (d : Dev) (k h : Nat) => mget [] (mirrorOf d k) h
    let there := core.elim (cache s.toDev q g) fun j => mirror s.toDev (32 * q + j.val) g
    Answers (.copyEviction cluster core g parity) s fun d =>
      (∀ k h, cache d k h = if core = none ∧ k = q ∧ h = g then [] else cache s.toDev k h) ∧
      (∀ k h, mirror d k h =
        if core.map (fun j => 32 * q + j.val) = some k ∧ h = g then [] else mirror s.toDev k h) ∧
      reg d (eccOff 0x10) =
        (if parity = true ∧ there ≠ [] then (reg s.toDev (eccOff 0x10) + 1) % 2 ^ 32 else reg s.toDev (eccOff 0x10)) ∧
      Only [.mirrors, .clusters, .block 8] s.toDev d

/-- ACQUIRE, NETWORK_ATOMIC_WRITE_BACK and COPY_EVICTION. -/
def Obligations.CopiesLeave : Prop := Claim.AcquireDropsCopies ∧ Claim.CopyWrittenBack ∧ Claim.CopyEvicted

/-- R223 to R225, R452, R453, R448: at a memory-mode channel granules leave the outbound FIFO, how many is free; a
request that arrives enters the inbound one unless it waits, and is charged at the stack's interface: it waits while 32
requests stand there, while the oven door holds its granule (R364), and while the regulator of the granule's partition
does not let it pass (R370). The oldest is taken: a write is performed, whole or merged; a read puts the granule, or
nothing where it is uncorrectable, into the outbound FIFO. A disturbance is XORed into its granule's image before. The
request waits while its row is being copied, and a read while 32 granules stand in the outbound FIFO. Without the supply
nothing happens (R506). -/
def Claim.MemoryModeServed : Prop :=
  ∀ (s : State) (stack : StackId) (chan : ChanId) (arrival : Option Request) (dis : Option Disturb),
    let x := stack.val
    let c := chan.val
    let i := Instr.memoryModeAccess stack chan arrival dis
    let r := match dis with
      | some e => if keyStack e.key = x ∧ keyChan e.key = c then disturb e.key e.pattern s.toDev.start else s.toDev.start
      | none => s.toDev.start
    let ch := chanOf s.toDev x c
    let p := fresh r
    let left := ch.outbound.drop (leaving p.1 ch.outbound.length)
    let before := setChan x c { ch with outbound := left } p.2
    let blocked := fun (q : Request) => 32 ≤ ch.inbound.length ∨ doorKey before.dev q.granule = true ∨
      portsShut before.dev (granulePart before.dev q.granule) [x] = true
    let waits := fun (q : Request) => rowHeld s.toDev q.granule = true ∨ (q.write = false ∧ 32 ≤ left.length)
    (s.toDev.board.rails = false → Gives i s s.toDev) ∧
    (s.toDev.board.rails = true → (chanMode s.toDev x c ≠ 0 ∨ ch.retrain = true) → Gives i s r.dev) ∧
    (s.toDev.board.rails = true → chanMode s.toDev x c = 0 → ch.retrain = false → ∀ add : List Request,
      (∀ q, arrival = some q →
        (keyStack q.granule ≠ x ∨ keyChan q.granule ≠ c ∨ blocked q → add = []) ∧
          (keyStack q.granule = x → keyChan q.granule = c → ¬ blocked q → add = [q])) →
      (arrival = none → add = []) →
      let r' := setChan x c { ch with outbound := left, inbound := ch.inbound ++ add } p.2
      let gives := fun (b : Dev) => Answers i s (Metered fun d => d = b)
      (ch.inbound ++ add = [] → gives r'.dev) ∧
      (∀ q rest, ch.inbound ++ add = q :: rest → waits q → gives r'.dev) ∧
      (∀ q rest, ch.inbound ++ add = q :: rest → ¬ waits q →
        let t := setChan x c { ch with outbound := left, inbound := rest } r'
        let z := readHome q.granule t
        (q.write = true → gives (mergeHome q.granule q.mask q.data t).2.dev) ∧
          (q.write = false → gives (setChan x c { chanOf z.2.dev x c with
            outbound := (chanOf z.2.dev x c).outbound ++ [z.1.getD []] } z.2).dev)))

/-- R226, R506: a memory-mode refresh moves the channel on to its next bank and pays one refresh owed; not without the
supply. -/
def Claim.MemoryModeRefreshed : Prop :=
  ∀ (s : State) (stack : StackId) (chan : ChanId) (now : Nat),
    let r := reach now s.toDev.start
    let ch := chanOf s.toDev stack.val chan.val
    (chanMode s.toDev stack.val chan.val = 0 → s.toDev.board.rails = true → Answers (.memoryModeRefresh stack chan now) s fun d =>
      chanOf d stack.val chan.val =
        { ch with bank := (ch.bank + 1) % 32, debt := ch.debt - 1, counted := r.dev.time, units := 0 } ∧
      Only [.chans, .time] s.toDev d) ∧
    (chanMode s.toDev stack.val chan.val ≠ 0 ∨ s.toDev.board.rails = false → Gives (.memoryModeRefresh stack chan now) s r.dev)

/-- MEMORY_MODE_ACCESS and MEMORY_MODE_REFRESH. -/
def Obligations.MemoryModeChannels : Prop := Claim.MemoryModeServed ∧ Claim.MemoryModeRefreshed

/-! ## Module memory -/

/-- R60 to R65: the interleaved view is a bijection onto the bytes of the 20 stacks, which keeps every 4 KiB together; the
direct view names the same bytes by stack, channel and offset, and nothing else has an address. -/
def Obligations.AddressViews : Prop :=
  (∀ a, a < 8 * 160 * 2 ^ 30 → interKey a < 20 * 2 ^ 36 ∧ interAddr (interKey a) = a ∧ interKey a % 4096 = a % 4096 ∧
    moduleKey a = some (interKey a)) ∧
  (∀ k, k < 20 * 2 ^ 36 → interAddr k < 8 * 160 * 2 ^ 30 ∧ interKey (interAddr k) = k ∧ moduleKey (2 ^ 47 + k) = some k) ∧
  (∀ a, 8 * 160 * 2 ^ 30 ≤ a → a < 2 ^ 47 → moduleKey a = none) ∧
  (∀ k, 20 * 2 ^ 36 ≤ k → k < 2 ^ 47 → moduleKey (2 ^ 47 + k) = none)

/-- R177, R185, R197, R199, R452: a granule written whole reads as what was written; one written in part reads as the
bytes written over those it held, the copies of network-attached units having gone home before; where the merge read
fails nothing is written; a merge that has read its bytes before writes all of them; every other granule keeps its data
and its errors. (The flip mask is not armed on its region.) -/
def Claim.GranuleWrittenRead : Prop :=
  ∀ (d : Dev) (k mask : Nat) (data old : List Byte), data.length = 64 → flipHits d (keyGranule k) = false →
    let others := fun (b : Dev) => ∀ j, keyGranule j ≠ keyGranule k →
      granuleData b j = granuleData d j ∧ granuleCheck b j = granuleCheck d j
    let settled := settleAll k d.start
    let w := writeHome k data d.start
    let full := mergeHome k fullMask data d.start
    let m := mergeHome k mask data d.start
    (readHome k w).1 = some data ∧ mget false w.dev.lights (k / 64) = isLight d (keyGranule k) ∧ others w.dev ∧
      full.1 = true ∧ (readHome k full.2).1 = some data ∧ others full.2.dev ∧
      ((∀ e ∈ d.hearth.clusters, mget [] e.2.atomic (k / 64) = []) → settled.dev = d) ∧
      (readHome k (mergeHome k mergedMask data d.start).2).1 = some data ∧
      (mask < fullMask → (readHome k settled).1 = some old →
        m.1 = true ∧ (readHome k m.2).1 = some (mergeBytes mask old data) ∧ others m.2.dev) ∧
      (mask < fullMask → (readHome k settled).1 = none → m.1 = false ∧ granuleData m.2.dev k = granuleData d k)

/-- R468: an armed flip mask on the region of a granule that is written whole: the granule holds the data with the mask as
its error, and the mask is armed no more. -/
def Claim.FlipMaskHits : Prop :=
  ∀ (d : Dev) (k : Nat) (data : List Byte), data.length = 64 → flipHits d (keyGranule k) = true →
    let b := (writeHome k data d.start).dev
    granuleData b k = data ∧ mget false b.hits (k / 64) = true ∧ bit (reg b (eccOff 0x100)) 31 = false ∧
      mget [] b.errs (k / 64) = if (flipMask d).all (· == 0#8) then [] else flipMask d

/-- Granules at their home: written, merged, read. -/
def Obligations.GranulesWrittenAndRead : Prop := Claim.GranuleWrittenRead ∧ Claim.FlipMaskHits

/-- R451: the light code corrects every single-bit error of a word and detects every double one. -/
def Claim.LightCodeCorrects : Prop :=
  (∀ b, b < 72 → lightWord (2 ^ b) = (false, true, 0)) ∧
    ∀ a b, a < b → b < 72 → (lightWord (2 ^ a ^^^ 2 ^ b)).1 = true

/-- R449, R450: the strong decoder changes at most four symbols of the 72, and what it then delivers belongs to a word of
the code; an error that is itself a code word passes unseen. -/
def Claim.StrongCodeDecodes : Prop :=
  ∀ err : List Byte, err.length = 72 →
    let x := decodeStrong err
    (rsSyndromes err = List.replicate 8 0 → x = ⟨false, false, err.take 64⟩) ∧
    (x.corrected = true → ∃ p : List Byte, p.length = 72 ∧ (p.filter (· ≠ 0#8)).length ≤ 4 ∧
      rsSyndromes (xorBytes err p) = List.replicate 8 0 ∧ x.residual = (xorBytes err p).take 64) ∧
    (x.uncorrectable = true → x.corrected = false ∧ rsSyndromes err ≠ List.replicate 8 0)

/-- R450: the strong decoder corrects every pattern of up to four erroneous symbols, in data or check bytes: no difference
from the data written is left. -/
def Claim.StrongCodeCorrects : Prop :=
  ∀ err : List Byte, err.length = 72 → (err.filter (· ≠ 0#8)).length ≤ 4 →
    decodeStrong err = ⟨false, err.any (· != 0#8), List.replicate 64 0#8⟩

/-- The two codes. -/
def Obligations.CodesDecode : Prop := Claim.LightCodeCorrects ∧ Claim.StrongCodeDecodes ∧ Claim.StrongCodeCorrects

/-! ## Recipes on their stack -/

/-- R118, R266, R267: a RECIPE joins its stack behind those there, not yet accepted, with the mask, image and parameter
block that its words name. It waits while the stack's arbiter owes another queue's RECIPE a grant first. -/
def Claim.RecipeLaunched : Prop :=
  ∀ (s : State) (uid : Nat) (c : Cmd), InFlight s.toDev uid opRecipe c → c.stage = 0 →
    let n := recipeStack c
    let owed := (owedBefore s.toDev 5 n c.ring).any (waitsLaunch s.toDev n)
    (owed = true → Gives (.recipe uid) s s.toDev) ∧ (owed = false → Answers (.recipe uid) s fun d =>
      (∃ x : Recipe, (stackOf d n).recipes = (stackOf s.toDev n).recipes ++ [x] ∧ x.uid = uid ∧ x.part = c.part ∧
        x.mask = bits (wd c.words 3) 63 32 ∧ x.imageAt = wd c.words 2 ∧ x.paramsAt = wd c.words 4 ∧
        x.params = (mget [] c.buf 0).take 320 ∧ x.accepted = false ∧ x.image = none ∧ x.stop = none ∧ x.started = 0 ∧
        x.ended = 0 ∧ x.loads = [] ∧ x.puts = [] ∧ x.marks = [] ∧ x.writes = []) ∧
      cmdOf d uid = some { c with stage := 1 } ∧ Only [.stackSet, .flight, .turns] s.toDev d)

/-- R267, R255, R288, R455: a stack that has room accepts its oldest recipe not yet accepted. A paged row base that does
not resolve refuses it, an uncorrectable error of on-die storage stops it; a resident image becomes the most recently
launched one of each channel, and one whose checkers found an error is dropped and will be fetched. Where channels hold
different copies of an image, the lowest channel's runs: the model's choice (assumption 60). -/
def Claim.RecipeAccepted : Prop :=
  ∀ (s : State) (stack : StackId) (u : Upset) (x : Recipe),
    let n := stack.val
    (stackOf s.toDev n).recipes.find? (fun x => !x.accepted && x.stop.isNone) = some x →
    recipeBlocked s.toDev n x.mask = false →
    let x' := { x with accepted := true }
    let z := resolveBases s.toDev n x
    let y := { x' with bases := z.1 }
    let old := if paramReload x.params then none else residentImage s.toDev n x.mask x.imageAt
    let gives := Gives (.recipeAccepted stack u) s
    (u = .uncorrectable → gives (stopRecipe n x' s.toDev.time stUncorrectable 0 0 0 0 (noteSram x.part s.toDev.start)).dev) ∧
    (∀ j, u ≠ .uncorrectable → z.2 = some j →
      gives (stopRecipe n x' s.toDev.time stDescriptor (x.paramsAt + 8 + 2 * j) 0 4 0 s.toDev.start).dev) ∧
    (u ≠ .uncorrectable → z.2 = none → old = none → gives (setRecipe n y s.toDev.start).dev) ∧
    (∀ i, u = .corrected → z.2 = none → old = some i →
      gives (forEach (bitsSet x.mask 32) (dropImage n x.imageAt)
        (setRecipe n y (addReg (eccOff 0x10) 1 s.toDev.start))).dev) ∧
    (∀ i, u = .none → z.2 = none → old = some i →
      gives (forEach (bitsSet x.mask 32) (touchImage n x.imageAt)
        (setRecipe n { y with image := some i, used := i.used } s.toDev.start)).dev)

/-- R286, R288: the paged row bases that the header marks as used resolve in every channel of the mask, each through its
page-table entry, or the first that is found not to names a base one of whose entries is invalid or has another owner. -/
def Claim.PagedBasesResolve : Prop :=
  ∀ (d : Dev) (s : Nat) (x : Recipe),
    let z := resolveBases d s x
    let paged := fun (j : Nat) => j ∈ bitsSet (usedBases x.used) 8 ∧ bit (paramBase x.params j) 15 = true
    let entry := fun (c j : Nat) => pageEntry d s x.part c (bits (paramBase x.params j) 13 0)
    (z.2 = none → ∀ j c, paged j → c ∈ bitsSet x.mask 32 →
      ∃ e, entry c j = some e ∧ mget 0 z.1 (8 * c + j) = setBit e 15) ∧
    (∀ j, z.2 = some j → paged j ∧ ∃ c, c ∈ bitsSet x.mask 32 ∧ entry c j = none)

/-- R268, R370, R453, R455: a load entry that the header marks as used arrives once, whole; one that cannot be read
stops the recipe. It waits while the regulators of its stack and of the stacks that it is read from do not let it pass. -/
def Claim.LoadEntryArrives : Prop :=
  ∀ (s : State) (stack : StackId) (uid : Nat) (e : Fin 16) (u : Upset) (x : Recipe),
    let n := stack.val
    let a := paramLoad x.params e.val
    recipeOf s.toDev n uid = some x → x.accepted = true → x.stop = none → bit (usedLoads x.used) e.val = true →
    mget [] x.loads e.val = [] → rangeHeld s.toDev a 1023 = false →
    let shut := readShut s.toDev n x.part ((List.range 16).map fun i => a + 64 * i)
    let z := readAtStack n x.part a 1024 u s.toDev.start
    (shut = true → Gives (.loadEntryArrival stack uid (e, u)) s s.toDev) ∧
    (shut = false → z.1.2 = none → Gives (.loadEntryArrival stack uid (e, u)) s
      (setRecipe n { x with loads := mset [] x.loads e.val z.1.1 } z.2).dev) ∧
    (∀ f, shut = false → z.1.2 = some f → Gives (.loadEntryArrival stack uid (e, u)) s
      (stopRecipe n x s.toDev.time stUncorrectable f 0 4 0 z.2).dev)

/-- R61, R254, R255, R278, R455: an image that arrives is proofed. One that passes is kept in the store of every channel
of the mask, the least recently launched images giving way, and the recipe has it; one that fails stops the recipe with
the status of its proof code, and no store keeps it. That an image whose body lies where R254 permits none fails as its
header would, with proof code 1, is the model's choice (assumption 21). -/
def Claim.ImageProofed : Prop :=
  ∀ (s : State) (stack : StackId) (uid : Nat) (u : Upset) (x : Recipe),
    let n := stack.val
    recipeOf s.toDev n uid = some x → x.accepted = true → x.stop = none → x.image = none →
    rangeHeld s.toDev x.imageAt 65536 = false → readShut s.toDev n x.part [x.imageAt] = false →
    let p := fresh s.toDev.start
    let h := readAtStack n x.part x.imageAt 64 (upsetOf p.1 2 0 u) p.2
    let w := toWords h.1.1
    let size := 8 * headerCount w
    let header := headerOk w = true ∧ recipePlace h.2.dev x.part (x.imageAt + 64) size = true
    let b := readAtStack n x.part (x.imageAt + 64) size (upsetOf p.1 2 1 u) h.2
    let i := imageFrom (plainAddr b.2.dev x.imageAt) (h.1.1 ++ b.1.1.take size)
    let proof := proofImage (field b.2.dev (seqOff n 0) 11 0) i
    let t := s.toDev.time
    let gives := Gives (.recipeImageArrival stack (uid, u)) s
    (∀ a, h.1.2 = some a → gives (stopRecipe n x t stUncorrectable a 0 2 0 h.2).dev) ∧
    (h.1.2 = none → ¬ header → gives (stopRecipe n x t stDescriptor x.imageAt 0 2 (2 ^ 8) h.2).dev) ∧
    (∀ a, h.1.2 = none → header → b.1.2 = some a → gives (stopRecipe n x t stUncorrectable a 0 2 0 b.2).dev) ∧
    (∀ q, h.1.2 = none → header → b.1.2 = none → proof = some q → gives
      (stopRecipe n x t (proofStatus q.1) (insAddr x.imageAt q.2) 0 2 (q.1 * 2 ^ 8 + q.2 * 2 ^ 12) b.2).dev) ∧
    (h.1.2 = none → header → b.1.2 = none → proof = none → Answers (.recipeImageArrival stack (uid, u)) s fun d =>
      (stackOf d n).recipes =
        (stackOf b.2.dev n).recipes.map (fun y => if y.uid == x.uid then { x with image := some i, used := i.used } else y) ∧
      (∀ c, c ∈ bitsSet x.mask 32 → chanOf d n c = { chanOf s.toDev n c with
        store := evictImages i.instrs.length ((chanOf s.toDev n c).store.filter fun y => y.addr != i.addr) ++ [i] }) ∧
      (∀ c, c < 32 → c ∉ bitsSet x.mask 32 → chanOf d n c = chanOf s.toDev n c) ∧
      Only (.stackSet :: .chans :: .buckets :: homePieces) s.toDev d)

/-- RECIPE, RECIPE_ACCEPTED, LOAD_ENTRY_ARRIVAL and RECIPE_IMAGE_ARRIVAL. -/
def Obligations.RecipesReachStacks : Prop :=
  Claim.RecipeLaunched ∧ Claim.RecipeAccepted ∧ Claim.PagedBasesResolve ∧ Claim.LoadEntryArrives ∧ Claim.ImageProofed

/-- R255: eviction leaves room: what stays are the most recently launched images, with the new one at most 16 images and,
where the new one fits at all, at most 8,192 instructions. -/
def Claim.EvictionLeavesRoom : Prop :=
  ∀ (n : Nat) (l : List Image), n ≤ 8192 →
    (∃ k, evictImages n l = l.drop k) ∧ (evictImages n l).length < 16 ∧ storeUsed (evictImages n l) + n ≤ 8192 ∧
      (l.length < 16 → storeUsed l + n ≤ 8192 → evictImages n l = l)

/-- R278: in an image that passes proofing every instruction has a defined opcode and clean reserved bits, the first
begins a fold at delta 0 and every other has a delta, SYNC stands only at the start of a fold, END only at the end, bank
ranges are not empty, and columns stay within the row. -/
def Claim.ProofedImages : Prop :=
  ∀ (budget : Nat) (i : Image), proofImage budget i = none → ∀ k w, i.instrs[k]? = some w →
    let y := decodeIns w
    1 ≤ y.op ∧ y.op ≤ 0xF ∧ insClean w = true ∧ (k = 0 → y.fold = true ∧ y.delta = 0) ∧ (k ≠ 0 → y.delta ≠ 0) ∧
      (y.op = iSync → y.fold = true) ∧ (y.op = iEnd ↔ k = i.instrs.length - 1) ∧ y.b0 ≤ y.b1 ∧
      (y.op = iDot ∨ y.op = iAxpy ∨ y.op = iReread ∨ y.op = iStore → y.c + y.n ≤ 64)

/-- What proofing lets pass, and what a recipe store keeps. -/
def Obligations.ImagesProofedAndKept : Prop := Claim.ProofedImages ∧ Claim.EvictionLeavesRoom

/-- R244, R267, R277: the oldest recipe that may start on a free channel starts there at instruction 0 in cleared bank
units and a cleared reducer; the channel has paid every refresh it owed, and is ready once the last of them is over. -/
def Claim.RecipeStarts : Prop :=
  ∀ (s : State) (stack : StackId) (chan : ChanId) (now : Nat) (x : Recipe),
    let n := stack.val
    let c := chan.val
    (unstarted s.toDev n c).head? = some x → x.image ≠ none → (chanOf s.toDev n c).run = none →
    (chanOf s.toDev n c).retrain = false → remapping s.toDev n c = false →
    Answers (.recipeStart stack chan now) s fun d =>
      (∃ run : ChanRun, (chanOf d n c).run = some run ∧ run.uid = x.uid ∧ run.ip = 0 ∧ run.phase = .boundary ∧
        run.banks = [] ∧ run.red = Reducer.init ∧ run.flow = [] ∧ run.ready = max d.time (chanOf d n c).busy ∧
        run.hist = [] ∧ run.puts = [] ∧ run.marks = []) ∧
      (chanOf d n c).debt = 0 ∧ (chanOf s.toDev n c).busy ≤ (chanOf d n c).busy ∧
      (stackOf d n).recipes = (stackOf s.toDev n).recipes.map (fun y =>
        if y.uid == x.uid then { x with started := setBit x.started c } else y) ∧
      Only [.time, .chans, .stackSet, .block (33 + 2 * n)] s.toDev d

/-- R244: a cleared bank unit: zeros in the operand buffer, the column buffer and the accumulators, m = −∞, l = +0, f and
q = 1; a cleared reducer: +0 everywhere, maxima −∞. -/
def Claim.ClearedUnits : Prop :=
  ∀ (b i v : Nat), v < 4 →
    let u := bankAt [] b
    u.slotAt v i = 0 ∧ u.entry i = List.replicate 32 0#8 ∧ u.accAt i v = 0 ∧ u.kind = 0 ∧ statAt u.m v = 0xFF800000 ∧
      statAt u.l v = 0 ∧ statAt u.f v = 0x3F800000 ∧ statAt u.q v = 0x3F800000 ∧ u.rowOf 0 = none ∧ u.rowOf 1 = none ∧
      Reducer.init.at_ i v = 0 ∧ statAt Reducer.init.m v = 0xFF800000 ∧ statAt Reducer.init.l v = 0

/-- R276, R277: a boundary pays refreshes, 160 ticks each, until no more than `keep` are owed. -/
def Claim.RefreshesPaid : Prop :=
  ∀ (keep t : Nat) (ch : Channel),
    let z := payDown keep 16 t ch
    z.1.debt ≤ keep ∧ z.2.2 = t + 160 * z.2.1 ∧
      { z.1 with debt := ch.debt, counted := ch.counted, units := ch.units } = ch ∧
      (ch.debt ≤ keep → ch.units + (t - ch.counted) * refreshUnits ch.hot < 3900 → z.2.1 = 0)

/-- R245, R261, R276: past a fold boundary the fold's instructions may issue, not before the work is done; the band is the
core die's, at most 6 refreshes are owed, and no scale serves the new fold. A boundary before a SYNC waits for its load
entries, and every boundary for a remap in progress or due (R465). That transfers are served before the refreshes are
paid is the model's choice (assumption 60). -/
def Claim.BoundaryPasses : Prop :=
  ∀ (s : State) (stack : StackId) (chan : ChanId) (now : Nat) (run : ChanRun) (x : Recipe) (i : Image),
    let n := stack.val
    let c := chan.val
    let r := reach now s.toDev.start
    let y := decodeIns ((i.instrs[run.ip]?).getD 0)
    seated s.toDev n c = some (run, x, i) → run.phase = .boundary →
    let waits := (y.op = iSync ∧ loadsHere x y.load = false) ∨ remapping s.toDev n c = true ∨ remapDue s.toDev n c = true
    (waits → Gives (.foldBoundary stack chan now) s r.dev) ∧
    (¬ waits → Answers (.foldBoundary stack chan now) s fun d =>
      (∃ k : ChanRun, (chanOf d n c).run = some k ∧ k.uid = run.uid ∧ k.ip = run.ip ∧ k.hist = run.hist ∧
        k.tick = run.tick ∧ k.folds = run.folds ∧ k.phase = .fold ∧ (∀ b, (bankAt k.banks b).kind = 0) ∧
        boundaryTick run y ≤ k.ready ∧
        closedAt (chanOf s.toDev n c).hot run i ≤ k.ready) ∧
      (chanOf d n c).hot = dieHot (serveTransfers n c r).dev n c ∧ (chanOf d n c).debt ≤ 6)

/-- R245, R276: a boundary serves the frames that wait for the channel, one after the other; where none waits it serves
none. The recipe on the channel stays as it is. -/
def Claim.TransfersServed : Prop :=
  ∀ (d : Dev) (s c : Nat), c < 32 →
    (nextTransfer d s c = none → (serveTransfers s c d.start).dev = d) ∧
    (∀ e, nextTransfer d s c = some e → (serveTransfer s c d.start).dev = (performFrame s e.1 e.2 d.start).dev) ∧
    ∀ run, (chanOf d s c).run = some run →
      ∃ k, (chanOf (serveTransfers s c d.start).dev s c).run = some { run with served := k }

/-- R267, R273, R276, R277: when its last boundary's work is done, a recipe that has ended, or was stopped and has nothing
left to issue before the stop, leaves the channel; no refresh is owed, and the channel is busy until the last of them is
over. Meanwhile a remap in progress or due comes first (R465). -/
def Claim.ChannelFreed : Prop :=
  ∀ (s : State) (stack : StackId) (chan : ChanId) (now : Nat) (run : ChanRun),
    let n := stack.val
    let c := chan.val
    let r := reach now s.toDev.start
    (chanOf s.toDev n c).run = some run → (run.phase = .ended ∨ run.phase = .stopped ∨ runOver r.dev n c run = true) →
    ((remapping s.toDev n c = true ∨ remapDue s.toDev n c = true) → Gives (.foldBoundary stack chan now) s r.dev) ∧
    (remapping s.toDev n c = false → remapDue s.toDev n c = false → Answers (.foldBoundary stack chan now) s fun d =>
      (chanOf d n c).run = none ∧ (chanOf d n c).debt = 0 ∧
      let z := stopChan n run.uid c r
      let t := match recipeOf z.dev n run.uid with
        | some x => x.image.elim 0 (closedAt (chanOf z.dev n c).hot run)
        | none => 0
      (boundaryWork n c 0 (max run.tick t) (run.tick - run.begun) z).1 ≤ (chanOf d n c).busy)

/-- R277: refresh in process mode: one falls due every 3,900 ticks, every 1,950 in the hot band, and what a band leaves
over counts on in the next. A channel that runs a recipe owes what has fallen due, at most 8; one that runs none pays
it, counts it, and is busy for 160 ticks from the last of them. -/
def Claim.RefreshesFallDue : Prop :=
  ∀ (s : State) (stack : StackId) (chan : ChanId) (now : Nat), chanMode s.toDev stack.val chan.val = 1 →
    let n := stack.val
    let c := chan.val
    let ch := chanOf s.toDev n c
    let t := (reach now s.toDev.start).dev.time
    let units := ch.units + (t - ch.counted) * (if ch.hot then 2 else 1)
    let due := units / 3900
    let off := seqChOff n c 0x10
    let last := max ch.counted t - units % 3900 / (if ch.hot then 2 else 1)
    (ch.run ≠ none → Answers (.refresh stack chan now) s fun d =>
      chanOf d n c = { ch with debt := min 8 (ch.debt + due), counted := max ch.counted t, units := units % 3900 } ∧
      Only [.time, .chans] s.toDev d) ∧
    (ch.run = none → Answers (.refresh stack chan now) s fun d =>
      chanOf d n c = { ch with debt := 0, counted := max ch.counted t, units := units % 3900,
                               busy := if due + ch.debt = 0 then ch.busy else max ch.busy (last + 160) } ∧
      reg d off = (reg s.toDev off + due + ch.debt) % 2 ^ 32 ∧ Only [.time, .chans, .block (33 + 2 * n)] s.toDev d)

/-- RECIPE_START, FOLD_BOUNDARY and REFRESH. -/
def Obligations.RecipesStartAndFold : Prop :=
  Claim.RecipeStarts ∧ Claim.ClearedUnits ∧ Claim.RefreshesPaid ∧ Claim.BoundaryPasses ∧ Claim.TransfersServed ∧
    Claim.ChannelFreed ∧ Claim.RefreshesFallDue

/-- R272, R273: no minimum of the table forbids an issue exactly when it comes no earlier than each minimum that an
earlier instruction sets; a trip names the largest shortfall and, among equal ones, the lowest code. -/
def Obligations.GuardHoldsMinimums : Prop :=
  ∀ (hot : Bool) (past : List (Ins × Nat)) (i : Ins) (t : Nat),
    let short := fun (c n : Nat) => ∃ e ∈ past, ∃ m, (c, m) ∈ minimums hot e.1 i ∧ t < e.2 + m ∧ n = e.2 + m - t
    (guardTrip hot past i t = none ↔ ∀ e ∈ past, ∀ q ∈ minimums hot e.1 i, e.2 + q.2 ≤ t) ∧
    ∀ q, guardTrip hot past i t = some q →
      short q.1 q.2 ∧ ∀ c n, short c n → n < q.2 ∨ (n = q.2 ∧ q.1 ≤ c)

/-! ## Recipe instructions -/

/-- ACT, PRE, LOADV, SETQ and SCORE (R234, R257, R258, R268, R289): in each bank of the range the half's row opens, the
halves of the mask close, a slot takes the load entry, the factors of the slots are set, or SCORE acts on the slots; every
other bank keeps what it holds, and the flags are those of the banks. -/
def Claim.BankInstructions : Prop :=
  ∀ (s : State) (stack : StackId) (chan : ChanId) (run : ChanRun) (x : Recipe) (i : Image) (w : Nat),
    let n := stack.val
    let c := chan.val
    let y := decodeIns w
    let drawn := (freshMany 256 s.toDev.start).2
    let did := fun (op : Nat) (cmd : Instr) (r : Run s.toDev) (f : Nat → Bank → Bank × Flags) =>
      Issuing s.toDev n c op run x i w →
        let z := (settle (issueTick run y) y run r).1
        let flags := y.banks.foldl (fun g b => orFlags g (f b (bankAt z.banks b)).2) noFlags
        Answers cmd s fun d => ∃ k : ChanRun, Issued n c i y run k flags [] s.toDev d ∧ { k with banks := z.banks } = z ∧
          ∀ b, bankAt k.banks b = if b ∈ y.banks then (f b (bankAt z.banks b)).1 else bankAt z.banks b
    (∀ row, actRow x c y = some row →
      did iAct (.act stack chan) s.toDev.start fun _ b => (b.setRow y.h (some row), noFlags)) ∧
    did iPre (.pre stack chan) s.toDev.start (fun _ b => ({ b with
      row0 := if bit y.halves 0 then none else b.row0, row1 := if bit y.halves 1 then none else b.row1 }, noFlags)) ∧
    (mget [] x.loads y.load ≠ [] → did iLoadv (.loadv stack (chan, false)) s.toDev.start fun _ b =>
      (b.putSlot (y.slotList.headD 0) 0 (mget [] x.loads y.load), noFlags)) ∧
    did iSetq (.setq stack chan) s.toDev.start (fun _ b => ({ b with
      f := y.slotList.foldl (fun l v => putStat l v 0x3F800000) b.f
      q := y.slotList.foldl (fun l v => putStat l v (paramConst x.params y.k)) b.q }, noFlags)) ∧
    did iScore (.score stack (chan, false)) drawn (fun b u => onSlots y (fun u v => scoreSlot y.r
      (s.toDev.freeCtr + 8 * b + 2 * v) (if y.kuse then some (paramConst x.params y.k) else none) u v) u)

/-- R257, R289: an unpaged ACT opens row h × 16,384 + ((row base + offset) mod 16,384); a paged one the resolved entry's
row and its offset, the entry's half being h and the offset at most 4. -/
def Claim.ActRows : Prop :=
  ∀ (x : Recipe) (c : Nat) (y : Ins),
    let b := paramBase x.params y.base
    let e := mget 0 x.bases (8 * c + y.base)
    (bit b 15 = false → actRow x c y = some (y.h * 16384 + (b % 2 ^ 14 + y.offset) % 16384)) ∧
    (bit b 15 = true → bit e 15 = true → (bits e 14 14 = y.h ∧ y.offset ≤ 4 →
        actRow x c y = some (y.h * 16384 + e % 2 ^ 14 + y.offset)) ∧
      (¬ (bits e 14 14 = y.h ∧ y.offset ≤ 4) → actRow x c y = none))

/-- R257: SYNC and IDLE issue and do nothing; columns due by then pass. -/
def Claim.IdleInstructions : Prop :=
  ∀ (s : State) (stack : StackId) (chan : ChanId) (run : ChanRun) (x : Recipe) (i : Image) (w : Nat),
    let n := stack.val
    let c := chan.val
    let y := decodeIns w
    let z := landColumns (issueTick run y) run
    (Issuing s.toDev n c iSync run x i w → Answers (.sync stack chan) s (Issued n c i y run z noFlags [] s.toDev)) ∧
    (Issuing s.toDev n c iIdle run x i w → Answers (.idle stack chan) s (Issued n c i y run z noFlags [] s.toDev))

/-- Columns 0 … n−1 of the instruction `w`, issued at tick `t`, have set out in `k`, which was `z`: column `j` passes
`columnDelay j` ticks later, each of `banks` sending what `feed` says; what was on its way still is (R259). -/
def Claim.SetOut (z k : ChanRun) (w t : Nat) (banks : List Nat) (feed : Nat → Nat → Feed) : Prop :=
  { k with banks := z.banks, flow := z.flow } = z ∧ k.flow.length = z.flow.length + (decodeIns w).n ∧
    (∀ e ∈ z.flow, e ∈ k.flow) ∧
    ∀ j, j < (decodeIns w).n → ∃ e ∈ k.flow, e.tick = t + columnDelay j ∧ e.word = w ∧ e.k = j ∧
      ∀ b ∈ banks, mget Feed.init e.feed b = feed b j

/-- R228, R229, R238, R257, R259, R261: DOT, AXPY and COPYV read their columns in each bank of the range and send them
on their way, each with the scale latch as it stands; the columns of a format that a SCALE serves move its order on.
SCALE fills each bank's latch and starts its order anew. A granule that a bank cannot deliver stops the recipe, and
nothing is sent. R253: column cycles that the stack has not counted yet are counted in STK_PROC_COLS, in units of 1,024
(that only columns of one tick share a cycle is the model's choice, assumption 60). -/
def Claim.PortInstructions : Prop :=
  ∀ (s : State) (stack : StackId) (chan : ChanId) (run : ChanRun) (x : Recipe) (i : Image) (w : Nat),
    let n := stack.val
    let c := chan.val
    let y := decodeIns w
    let t := issueTick run y
    let z := settlePort t y run s.toDev.start
    let p := readPort n c y (putSet z.1.puts) z.1.banks z.2
    let column := fun (b j : Nat) =>
      let u := bankAt z.1.banks b
      (⟨((mget [] p.1.1 b).drop (32 * j)).take 32, u.latch, u.kind, u.served + j * perColumn y.fmt, 0⟩ : Feed)
    let l := Piece.block (32 + 2 * n) :: homePieces
    let new := ((List.range y.n).filter fun j => !(stackOf s.toDev n).cycles.contains (t + columnDelay j)).length
    let cols := (stackOf s.toDev n).cols + new
    let port := fun (op : Nat) (cmd : Instr) (did : ChanRun → Prop) => Issuing s.toDev n c op run x i w →
      (p.1.2 = none → Answers cmd s fun d => (∃ k : ChanRun, Issued n c i y run k noFlags l s.toDev d ∧ did k) ∧
        (stackOf d n).cols = cols % 1024 ∧
        reg d (stkOff n 0x38) = (reg s.toDev (stkOff n 0x38) + cols / 1024) % 2 ^ 32) ∧
      (∀ k, p.1.2 = some k → Gives cmd s
        (stopAt n c x t stUncorrectable (directAddr k) 0 0 (run.ip * 2 ^ 12) p.2).dev)
    let sends := fun (k : ChanRun) => Claim.SetOut z.1 k w t y.banks column ∧
      ∀ b, bankAt k.banks b =
        let u := bankAt z.1.banks b
        { u with served := if b ∈ y.banks ∧ u.kind ≠ 0 ∧ y.fmt ≠ 0x1 then u.served + y.n * perColumn y.fmt else u.served }
    port iDot (.dot stack (chan, false)) sends ∧ port iAxpy (.axpy stack (chan, false)) sends ∧
      port iCopyv (.copyv stack (chan, false)) sends ∧
      port iScale (.scale stack chan) fun k => { k with banks := z.1.banks } = z.1 ∧
        ∀ b, bankAt k.banks b =
          if b ∈ y.banks then { bankAt z.1.banks b with latch := mget [] p.1.1 b, kind := y.kind, served := 0 }
          else bankAt z.1.banks b

/-- R233, R259, R263: REREAD sends columns of the column buffer on their way, STORE columns of the accumulators, each to
its place in the bank's open row. A STORE's column is what the accumulators hold when it passes; it stays with the run
until the recipe completes (R176). -/
def Claim.UnitInstructions : Prop :=
  ∀ (s : State) (stack : StackId) (chan : ChanId) (run : ChanRun) (x : Recipe) (i : Image) (w : Nat),
    let n := stack.val
    let c := chan.val
    let y := decodeIns w
    let t := issueTick run y
    let z := (settle t y run s.toDev.start).1
    let sent := fun (op : Nat) (cmd : Instr) (feed : Nat → Nat → Feed) => Issuing s.toDev n c op run x i w →
      Answers cmd s fun d => ∃ k : ChanRun, Issued n c i y run k noFlags [] s.toDev d ∧
        Claim.SetOut z k w t y.banks feed ∧ k.banks = z.banks
    sent iReread (.reread stack (chan, false)) (fun _ _ => Feed.init) ∧
      sent iStore (.store stack (chan, false)) (fun b j =>
        { Feed.init with key := columnKey n c b (((bankAt z.banks b).rowOf y.h).getD 0) (y.c + j) }) ∧
      ∀ (e : Delivery) (u : ChanRun), (decodeIns e.word).op = iStore →
        let v := decodeIns e.word
        (∀ b, bankAt (passColumn e u).banks b = bankAt u.banks b) ∧
          (passColumn e u).puts = (v.banks.map fun b => (e.tick - columnDelay e.k, (mget Feed.init e.feed b).key,
            (storeColumn v (bankAt u.banks b) e.k).1)).reverse ++ u.puts

/-- R239 to R241, R262: CHAIN passes, adds or merges entries of its banks into the channel reducer, or shifts content to
the next bank and out of bank 31; the flits that reach the reducer are counted in units of 1,024, where ADD and MERGE
deliver the one stream of sums and PASS that of each bank (DEDUCED, assumption 52). That it reads the accumulators and
writes the next bank as it issues is the model's choice (assumption 60). -/
def Claim.ChainInstruction : Prop :=
  ∀ (s : State) (stack : StackId) (chan : ChanId) (run : ChanRun) (x : Recipe) (i : Image) (w : Nat),
    let n := stack.val
    let c := chan.val
    let y := decodeIns w
    let z := settle (issueTick run y) y run s.toDev.start
    let f := z.2.dev.freeCtr
    let b := z.1.banks
    let r := z.1.red
    let flits := (stackOf s.toDev n).flits + y.delivered
    let did := fun (banks : Store Bank) (red : Reducer) (flags : Flags) => Answers (.chain stack (chan, false)) s fun d =>
      Issued n c i y run { z.1 with banks := banks, red := red } flags [.block (32 + 2 * n)] s.toDev d ∧
        (stackOf d n).flits = flits % 1024 ∧
        reg d (stkOff n 0x3C) = (reg s.toDev (stkOff n 0x3C) + flits / 1024) % 2 ^ 32
    Issuing s.toDev n c iChain run x i w →
      (y.chop = 0 → did b (chainPass y b r) noFlags) ∧
      (y.chop = 1 → did b (chainAdd y f b r).1 (chainAdd y f b r).2) ∧
      (y.chop = 2 → did b (chainMerge y f b r).1 (chainMerge y f b r).2) ∧
      (3 ≤ y.chop → did (chainShift y b r).1 (chainShift y b r).2 noFlags)

/-- R176, R236, R241: END lets the last columns pass and hands the channel's reducer, with what the channel stored and
flagged, over to the recipe. -/
def Claim.EndInstruction : Prop :=
  ∀ (s : State) (stack : StackId) (chan : ChanId) (run : ChanRun) (x : Recipe) (i : Image) (w : Nat),
    let n := stack.val
    let c := chan.val
    let y := decodeIns w
    let z := landAll run
    Issuing s.toDev n c iEnd run x i w → bit x.ended c = false → Answers (.finish stack chan) s fun d =>
      ∃ e, Issued n c i y run z noFlags [] s.toDev e ∧
        d = (setRecipe n { x with finals := mset Reducer.init x.finals c run.red, ended := setBit x.ended c,
                                  puts := z.puts ++ x.puts, marks := z.marks ++ x.marks }
          (setChan n c { chanOf e n c with
            run := some { moveOn y (issueTick run y) i noFlags z with puts := [], marks := [] } } e.start)).dev

/-- The fifteen recipe instructions, each issued where no minimum forbids it. -/
def Obligations.InstructionsIssue : Prop :=
  Claim.BankInstructions ∧ Claim.ActRows ∧ Claim.IdleInstructions ∧ Claim.PortInstructions ∧ Claim.UnitInstructions ∧
    Claim.ChainInstruction ∧ Claim.EndInstruction

/-- R238, R273, R289, R455: an instruction that would issue too early is not issued: the trip is recorded in the
channel's registers and the recipe stops with GUARD_TRIP; a LOADV without its load entry trips with code 15; an ACT that
its page entry forbids stops the recipe with DESCRIPTOR_INVALID (that it is judged before the guard is the model's choice,
assumption 21), and a parity error of the buffers that an instruction uses with ECC_UNCORRECTABLE. -/
def Claim.IssueRefused : Prop :=
  ∀ (s : State) (stack : StackId) (chan : ChanId) (run : ChanRun) (x : Recipe) (i : Image) (w : Nat),
    let n := stack.val
    let c := chan.val
    let y := decodeIns w
    let t := issueTick run y
    seated s.toDev n c = some (run, x, i) → i.instrs[run.ip]? = some w → run.phase = .fold →
    waitsIssue s.toDev n c x t = false →
    let early := guardTrip (chanOf s.toDev n c).hot (issuedBefore run i) y t
    let tripped := fun (code short : Nat) => (tripRecipe n c x run t code short s.toDev.start).dev
    (y.op = iAct → actRow x c y = none → Gives (.act stack chan) s
      (stopAt n c x t stDescriptor (insAddr x.imageAt run.ip) 0 2 (run.ip * 2 ^ 12) s.toDev.start).dev) ∧
    (∀ parity, ∀ e ∈ insCommands stack chan parity, y.op = e.1 → (y.op = iAct → actRow x c y ≠ none) →
      ∀ q, early = some q → Gives e.2 s (tripped q.1 q.2)) ∧
    (∀ parity, y.op = iLoadv → early = none → mget [] x.loads y.load = [] →
      Gives (.loadv stack (chan, parity)) s (tripped 15 0)) ∧
    (∀ e ∈ insCommands stack chan true, e.1 ∈ [iDot, iAxpy, iReread, iLoadv, iCopyv, iScore, iChain, iStore] → y.op = e.1 →
      (y.op = iLoadv → mget [] x.loads y.load ≠ []) → early = none → Gives e.2 s
        (stopAt n c x t stUncorrectable 0 0 0 (run.ip * 2 ^ 12) (noteSram x.part s.toDev.start)).dev) ∧
    (∀ parity, ∀ e ∈ insCommands stack chan parity, y.op ≠ e.1 → Gives e.2 s s.toDev)

/-- R273, R274: a recipe that stops at a tick keeps the report of the stop, and no channel issues an instruction more
than 4 ticks later; of several stops the earliest governs: the model's choice (assumption 21). -/
def Claim.RecipeStops : Prop :=
  ∀ (d : Dev) (s tick : Nat) (x : Recipe) (st addr count word note : Nat), recipeOf d s x.uid = some x →
    let b := (stopRecipe s x tick st addr count word note d.start).dev
    let y := { x with stop := some (st, addr, count, word), halt := tick + 4, note := note }
    ((x.stop = none ∨ tick + 4 < x.halt) → recipeOf b s x.uid = some y ∧ (∀ t, barred y t = decide (tick + 4 < t)) ∧
      (∀ c, chanOf b s c = chanOf d s c) ∧ Only [.stackSet] d b) ∧
    (x.stop ≠ none → x.halt ≤ tick + 4 → b = d)

/-- R273: a channel at which a recipe stops closes its rows and discards its bank units, its reducer and the columns on
their way, but those that had passed by the last tick, and those of its earlier STOREs. -/
def Claim.ChannelStops : Prop :=
  ∀ (d : Dev) (s c : Nat) (x : Recipe) (run : ChanRun), recipeOf d s x.uid = some x → x.stop ≠ none →
    (chanOf d s c).run = some run → run.uid = x.uid →
    let z := haltedRun x.halt run
    let b := (stopChan s x.uid c d.start).dev
    recipeOf b s x.uid = some { x with puts := z.puts ++ x.puts, marks := z.marks ++ x.marks } ∧
      chanOf b s c = { chanOf d s c with run := some { run with
        phase := .stopped, banks := [], red := Reducer.init, flow := [], puts := [], marks := [] } } ∧
      (∀ m n, 32 * m + n ≠ 32 * s + c → chanOf b m n = chanOf d m n) ∧ Only [.stackSet, .chans] d b

/-- R273: the registers of a trip, and its report: the instruction's address, the shortfall, word 2. -/
def Claim.TripRecorded : Prop :=
  ∀ (d : Dev) (s c t : Nat) (x : Recipe) (run : ChanRun) (code short : Nat), s < 20 → c < 32 →
    recipeOf d s x.uid = some x → x.stop = none → run.ip < 2 ^ 16 → code < 16 →
    let b := (tripRecipe s c x run t code short d.start).dev
    reg b (seqChOff s c 0x08) = run.ip + code * 2 ^ 16 + min short 255 * 2 ^ 20 ∧
      reg b (seqChOff s c 0x0C) = (reg d (seqChOff s c 0x0C) + 1) % 2 ^ 32 ∧
      ∃ y, recipeOf b s x.uid = some y ∧ y.stop = some (stGuard, x.imageAt + 64 + 8 * run.ip, short, 2) ∧
        y.halt = t + 4 ∧ y.note = run.ip * 2 ^ 12

/-- What stops an instruction from issuing, and what a stop does. -/
def Obligations.InstructionsStop : Prop :=
  Claim.IssueRefused ∧ Claim.RecipeStops ∧ Claim.ChannelStops ∧ Claim.TripRecorded

/-! ## Reducers and results -/

/-- R243, R270: the reducer of the oldest recipe that has issued END on the channel is final; when it is the last of the
mask, the recipe waits for the stack reducer behind those that do, but of recipes final at one tick the one whose lowest
channel is lower goes first. -/
def Claim.ReducersFinal : Prop :=
  ∀ (s : State) (stack : StackId) (chan : ChanId) (now : Nat) (x : Recipe),
    let n := stack.val
    let c := chan.val
    let r := reach now s.toDev.start
    let e := (r.dev.time, (bitsSet x.mask 32).headD 0, x.uid)
    let was := (stackOf s.toDev n).ready
    (stackOf s.toDev n).recipes.find? (fun x => x.stop.isNone && bit x.ended c && !bit x.final c) = some x →
    Answers (.channelReducerFinal stack (chan, now)) s fun d =>
      let f := setBit x.final c
      stackOf d n = { stackOf s.toDev n with
        recipes := (stackOf s.toDev n).recipes.map (fun y => if y.uid == x.uid then { x with final := f } else y)
        ready := (stackOf d n).ready } ∧
      (f ≠ x.mask → (stackOf d n).ready = was) ∧
      (f = x.mask → ∃ l m, was = l ++ m ∧ (stackOf d n).ready = l ++ e :: m ∧
        (∀ a ∈ l, ¬ (a.1 = e.1 ∧ e.2.1 < a.2.1)) ∧ ∀ a, m.head? = some a → a.1 = e.1 ∧ e.2.1 < a.2.1) ∧
      Only [.stackSet, .time] s.toDev d

/-- R242, R265, R270, R455: the stack reducer serves the recipe that has waited longest: it forms the writes of each used
destination, which stay with the recipe until it completes; a stopped recipe's are not sent, and a parity error of the
reducers stops the recipe. -/
def Claim.ResultsSent : Prop :=
  ∀ (s : State) (stack : StackId) (parity : Bool) (x : Recipe) (e : Nat × Nat × Nat) (rest : List (Nat × Nat × Nat)),
    let n := stack.val
    (stackOf s.toDev n).ready = e :: rest → e.2.2 = x.uid → recipeOf s.toDev n x.uid = some x →
    let seed := s.toDev.freeCtr
    let o := (bitsSet (usedDests x.used) 8).foldl (fun z i => destWrites x seed i z) ([], noFlags)
    Answers (.stackReducerSend (stack, parity)) s fun d =>
      (stackOf d n).ready = rest ∧
      (x.stop ≠ none → recipeOf d n x.uid = some x ∧ Only [.stackSet] s.toDev d) ∧
      (x.stop = none → parity = true → Only (.stackSet :: homePieces) s.toDev d ∧ recipeOf d n x.uid =
        some { x with stop := some (stUncorrectable, 0, 0, 0), halt := s.toDev.time + 4, note := 0 }) ∧
      (x.stop = none → parity = false →
        let w := placeResults s.toDev o.1 (putSet x.puts, [])
        Only [.stackSet] s.toDev d ∧ recipeOf d n x.uid =
          some { x with writes := w.1, spadOut := w.2, sent := true, flags := orFlags x.flags o.2 })

/-- R241, R265, R298: output in FP32 delivers the values' bits one after the other, filled to whole granules; one
channel alone under SUM or NONE, and one partial alone under MERGE, or merged with an empty one, is delivered unchanged,
whatever the order of the merges of each entry. -/
def Claim.ResultValues : Prop :=
  (∀ l : List Nat, (outRun 0 l).1.length = cdiv (4 * l.length) 64 * 64 ∧
    ∀ i, i < l.length → leNat (((outRun 0 l).1.drop (4 * i)).take 4) = (l[i]?).getD 0 % 2 ^ 32) ∧
  (∀ seed n, (sumBits seed [n]).1 = n) ∧
  (∀ (first : Nat → Nat) (p : Partial), (mergeEach first p.o.length [p]).1 = p) ∧
  (∀ (first : Nat → Nat) (m l : Nat) (o : List Nat), m ≠ minusInf →
    let p := Partial.of m l o
    let e := Partial.of minusInf 0 (List.replicate o.length 0)
    (mergeEach first o.length [p, e]).1 = p ∧ (mergeEach first o.length [e, p]).1 = p)

/-- R176, R238, R273, R274, R290, R370: a recipe that was stopped completes with the report of its stop, once none of
its channels may yet stop it earlier; of its writes some are performed, which is free, and none where a bank's granule
was uncorrectable. Results wait for the regulators of the stacks they cross, and are charged there. Of one whose results
are sent the channels outside its mask serve the writes that they take now; once all are served it performs its writes,
ascending, and completes with OK, or with ECC_UNCORRECTABLE at the merge read that fails. -/
def Claim.RecipeCompletes : Prop :=
  ∀ (s : State) (stack : StackId) (uid now : Nat) (x : Recipe),
    let n := stack.val
    let r := reach now s.toDev.start
    let i := Instr.recipeCompletion stack uid now
    let stopped := forEach (bitsSet x.mask 32) (stopChan n uid) r
    let o := x.writes.foldl (fun z e => serveResult x e z) (x.taken, r)
    let y := { x with taken := o.1 }
    let q := setRecipe n y o.2
    let z := performWrites x.writes q
    let gives := fun (d : Dev) => Answers i s (Metered fun b => b = d)
    let early := ∃ c ∈ bitsSet x.mask 32, beforeStop r.dev n c x = true
    let shut := portsShut r.dev x.part (resultPorts r.dev n x) = true
    recipeOf s.toDev n uid = some x →
    (x.stop ≠ none → (early ∨ shut) → Gives i s r.dev) ∧
    (∀ st a k w y, x.stop = some (st, a, k, w) → ¬ early → ¬ shut → recipeOf stopped.dev n uid = some y →
      y.stop = x.stop → gives (endRecipe n y ⟨st, recipeFlags (allFlags y), 0, a, k, w⟩ y.note
        (if bankFault st a w then stopped else performSome (stoppedWrites y) y.spadOut stopped)).dev) ∧
    (x.stop = none → x.sent = false → Gives i s r.dev) ∧
    (x.stop = none → x.sent = true → resultsBlocked q.dev n y = true → Gives i s q.dev) ∧
    (x.stop = none → x.sent = true → resultsBlocked q.dev n y = false → z.1 = none → gives
      (endRecipe n y ⟨stOk, recipeFlags (allFlags y), 0, 0, 0, 0⟩ 0
        (forEach x.spadOut (fun e => writeSpad (e.1 * 64) e.2.1 e.2.2) z.2)).dev) ∧
    (∀ k, x.stop = none → x.sent = true → resultsBlocked q.dev n y = false → z.1 = some k →
      let dest := (destGranules q.dev x).contains (k / 64)
      gives (endRecipe n y ⟨stUncorrectable, recipeFlags (allFlags y), 0,
        if dest then granuleAddr z.2.dev k else directAddr k, 0, if dest then 4 else 0⟩ 0
        (performSome [] x.spadOut z.2)).dev)

/-- R280, R97: the recipe leaves its stack, STK_RECIPES counts it, each channel of its mask records how it ended, and its
command completes. -/
def Claim.RecipeLeavesStack : Prop :=
  ∀ (d : Dev) (s : Nat) (x : Recipe) (c : Cmd) (rep : Report) (note : Nat), s < 20 → cmdOf d x.uid = some c →
    rep.status < 256 → note < 2 ^ 32 - 256 →
    ∃ e : Dev, Completed c rep none e (endRecipe s x rep note d.start).dev ∧
      (stackOf e s).recipes = (stackOf d s).recipes.filter (fun y => y.uid != x.uid) ∧
      reg e (stkOff s 0x40) = (reg d (stkOff s 0x40) + 1) % 2 ^ 32 ∧
      (∀ k ∈ bitsSet x.mask 32, reg e (seqChOff s k 0x04) = rep.status + note) ∧
      Only [.stackSet, .block (32 + 2 * s), .block (33 + 2 * s)] d e

/-- CHANNEL_REDUCER_FINAL, STACK_REDUCER_SEND and RECIPE_COMPLETION. -/
def Obligations.RecipeResults : Prop :=
  Claim.ReducersFinal ∧ Claim.ResultsSent ∧ Claim.ResultValues ∧ Claim.RecipeCompletes ∧ Claim.RecipeLeavesStack

/-! ## Control space -/

/-- R440, R441: a control command that breaks a rule completes with the status of the rule and does nothing else. -/
def Claim.ControlRefused : Prop :=
  ∀ (s : State) (ring : RingId) (x : Ring) (sig : List Byte) (c : List Dword) (st now : Nat),
    let n := ring.val
    let r := reach now s.toDev.start
    (∀ e ∈ [(ctRead, Instr.regRead ring), (ctNonce, .authNonce ring), (ctAuth, .auth ring sig),
        (ctConnect, .qpConnect ring), (ctReset, .qpReset ring), (ctUpdate, .update ring)],
      ctrlHead s.toDev n e.1 = some (x, c) → ctrlFault s.toDev (n / 16) c = some st →
      Answers e.2 s (ControlEnded n x st s.toDev)) ∧
    (ctrlHead r.dev n ctAttest = some (x, c) → ctrlFault r.dev (n / 16) c = some st →
      Answers (.attest ring now) s (ControlEnded n x st r.dev)) ∧
    (∀ e ∈ [(WriteKind.plain, Instr.regWrite ring), (.discard, .discard ring), (.remap, .eccRemapReq ring),
        (.arm, .flipArm ring), (.disarm, .flipDisarm ring), (.ptp, .ptpCtrlWrite ring)],
      ctrlHead s.toDev n ctWrite = some (x, c) → writeKind c = e.1 → writeFault s.toDev (n / 16) c = some st →
      Answers e.2 s (ControlEnded n x st s.toDev)) ∧
    (ctrlHead r.dev n ctWrite = some (x, c) → writeFault r.dev (n / 16) c = some st →
      (writeKind c = .bake → Answers (.bake ring now) s (ControlEnded n x st r.dev)) ∧
      ∀ l, writeKind c = .retrain l → Answers (.lnkRetrain ring now) s (ControlEnded n x st r.dev))

/-- R440, R441: before it has authenticated, queue pair 0 gets only AUTH_NONCE, AUTH and reads of the FEAT_ block past the
rules; any other queue pair only REG_READ and ATTEST. -/
def Claim.ControlAdmits : Prop :=
  ∀ (d : Dev) (q : Nat) (w : List Dword), ctrlFault d q w = none →
    cOp w ∈ ctrlOps ∧
    (q = 0 → authenticated d = false →
      cOp w = ctNonce ∨ cOp w = ctAuth ∨ (cOp w = ctRead ∧ ∀ o ∈ cOffsets w, o < 0x10000)) ∧
    (q ≠ 0 → cOp w = ctRead ∨ cOp w = ctAttest)

/-- R79, R80, R440: REG_READ sends what the registers read, 4 bytes each, to the host address as one write and completes
with OK; through a partition's window for a queue pair other than 0. A misaligned offset ends it with ALIGN_FAULT, one of
no block with DESCRIPTOR_INVALID. -/
def Claim.RegistersRead : Prop :=
  ∀ (s : State) (ring : RingId) (x : Ring) (w : List Dword),
    let n := ring.val
    let q := n / 16
    let d := s.toDev
    let data := (cOffsets w).flatMap fun o => natLE (if q = 0 then regRead d o else regWindow d (qpOwner d q) o) 4
    OnControl d n ctRead x w →
    (∀ st, offsetFault (cOffsets w) = some st → Answers (.regRead ring) s (ControlEnded n x st d)) ∧
    (offsetFault (cOffsets w) = none → Answers (.regRead ring) s
      (ControlEnded n x stOk (sendMsg q (.write q (cHost w) (cKey w) data) d.start).dev)) ∧
    (offsetFault (cOffsets w) = none ↔ ∀ o ∈ cOffsets w, o % 4 = 0 ∧ regInfo o ≠ none)

/-- R11, R80: a write-only register reads zero; a register that nothing else determines reads its value in force. Through
partition `p`'s window the bench, the boot and the fuse blocks read zero, as do other partitions' registers, while the
partition's own and those of the FEAT_, HK_ and THM_ blocks read as they are. -/
def Claim.ReadValues : Prop :=
  ∀ (d : Dev) (p off : Nat), p < 16 →
    (∀ i, regInfo off = some i → i.access = .wo → off ≠ benchOff 0 → regCore d off = 0) ∧
    (0x30000 ≤ off → off < 0x60000 → ∀ i, regInfo off = some i → i.access ≠ .wo → regRead d off = reg d off) ∧
    ((0x10000 ≤ off ∧ off < 0x20000) ∨ (0x50000 ≤ off ∧ off < 0x60000) → regWindow d p off = 0) ∧
    (0x20000 ≤ off → off < 0x30000 → regWindow d p off =
      if partOff p 0 ≤ off ∧ off < partOff p 0x100 then regRead d off else 0) ∧
    (off < 0x10000 ∨ (0x30000 ≤ off ∧ off < 0x40000) → regWindow d p off = regRead d off)

/-- R11, R361: a register write stages an RWB register and leaves it in force, changes the bits that exist of an RW one,
and does nothing to any other. -/
def Claim.RegisterWritten : Prop :=
  ∀ (d : Dev) (off v : Nat) (i : RegInfo), regInfo off = some i →
    let b := (writeReg off v d.start).dev
    (i.access = .rwb → (∀ o, mget none b.bench o =
      if o = off then some (BitVec.ofNat 32 (v &&& i.mask)) else mget none d.bench o) ∧ Only [.bench] d b) ∧
    (i.access = .rw → kindAt off v = .plain →
      (∀ o, reg b o = if o = off then (v &&& i.mask) % 2 ^ 32 else reg d o) ∧ Only [.block (off / 0x8000)] d b) ∧
    (i.access = .ro ∨ i.access = .wo → b = d)

/-- R361, R440: a REG_WRITE makes its writes in order and completes with OK; DISCARD empties the bench. -/
def Claim.RegistersWritten : Prop :=
  ∀ (s : State) (ring : RingId) (x : Ring) (w : List Dword),
    let n := ring.val
    (OnWrite s.toDev n .plain x w → Answers (.regWrite ring) s
      (ControlEnded n x stOk (forEach (cWrites w) (fun e => writeReg e.1 e.2) s.toDev.start).dev)) ∧
    (OnWrite s.toDev n .discard x w → Answers (.discard ring) s fun d => d.bench = [] ∧
      ControlEnded n x stOk ((writeRegs w s.toDev.start).emit .empty).dev d)

/-- REG_READ, REG_WRITE and DISCARD, and the rules for control commands. -/
def Obligations.ControlSpace : Prop :=
  Claim.ControlRefused ∧ Claim.ControlAdmits ∧ Claim.RegistersRead ∧ Claim.ReadValues ∧ Claim.RegisterWritten ∧
    Claim.RegistersWritten

/-! ## Bakes -/

/-- R362, R363, R383: BAKE. With discard it is refused; while another bake is in progress it waits; an empty bench
completes with OK; settings that break a rule change nothing, are recorded and leave an empty bench; else the prepare is
sent, the command stays under way, and the wait time of heads that the door holds stands still (R364). -/
def Claim.BakeRequested : Prop :=
  ∀ (s : State) (ring : RingId) (now : Nat) (x : Ring) (w : List Dword),
    let n := ring.val
    let r := reach now s.toDev.start
    let asked := ((ringOf s.toDev n).bind (·.head)).elim 0 (·.mark)
    let staged := benchValues r.dev
    let alone := bit (valueAt w (benchOff 0)) 1 = false
    let i := Instr.bake ring now
    OnWrite r.dev n .bake x w →
    (¬ alone → Answers i s (ControlEnded n x stDescriptor r.dev)) ∧
    (alone → r.dev.parts.bake ≠ none → Gives i s r.dev) ∧
    (alone → r.dev.parts.bake = none → staged = [] →
      Answers i s (ControlEnded n x stOk (setReg (benchOff 0x04) 0 r).dev)) ∧
    (∀ b, alone → r.dev.parts.bake = none → staged ≠ [] → checkBake r.dev staged = some b → Answers i s fun d =>
      ∃ e : Dev, ControlEnded n x b.status e d ∧ e.bench = [] ∧ reg e (benchOff 0x04) = b.status * 2 ^ 8 % 2 ^ 32 ∧
        reg e (benchOff 0x0C) = b.code % 2 ^ 32 ∧ reg e (benchOff 0x10) = failOffset staged b.offs % 2 ^ 32 ∧
        Only [.bench, .block 2] r.dev e) ∧
    (alone → r.dev.parts.bake = none → staged ≠ [] → checkBake r.dev staged = none → Answers i s fun d =>
      ∃ e b : Dev, ControlBegun n x w none e b ∧ d = (accountHeads none b.start).dev ∧
        e.parts.bake = some ⟨staged, some n, asked, r.dev.time, bakeUnits r.dev staged, []⟩ ∧
        Only (.bake :: stackBlocks) r.dev e)

/-- R356, R363: settings that pass the check hold no cluster or channel twice, retire no channel that a partition holds,
keep every fold budget within 200 to 3,600 ticks, and are within R77 and R247 entry by entry. -/
def Claim.CheckedSettings : Prop :=
  ∀ (d : Dev) (staged : Store Reg), checkBake d staged = none →
    let x := settingsWith d staged
    (∀ p q k, p < 16 → q < 16 → p ≠ q → k < 64 → ¬ (x.hasCluster p k = true ∧ x.hasCluster q k = true)) ∧
    (∀ p q s c, p < 16 → q < 16 → p ≠ q → s < 20 → c < 32 → ¬ (x.hasChan p s c = true ∧ x.hasChan q s c = true)) ∧
    (∀ p s c, p < 16 → s < 20 → c < 32 → x.hasChan p s c = true → x.mode s c ≠ 2) ∧
    (∀ s c, s < 20 → c < 32 → x.mode s c ≠ 3 ∧ (chanMode d s c = 2 → x.mode s c = 2)) ∧
    (∀ s, s < 20 → 200 ≤ bits (x.rd (seqOff s 0)) 11 0 ∧ bits (x.rd (seqOff s 0)) 11 0 ≤ 3600) ∧
    (∀ y ∈ x.regions, rule77_1 y = true ∧ rule77_2 y = true ∧ rule77_3 y = true ∧ rule77_6 x y = true)

/-- R365, R248, R253, R367: an affected unit whose condition holds acknowledges, once, within 50 µs of the prepare;
where a mode of its stack is staged, STK_PREP_ACK shows the channels that have acknowledged, and once all have
STK_PREP_TIME the time. A unit that is not affected, has acknowledged, or whose condition does not hold changes nothing.
-/
def Claim.PrepareAcknowledged : Prop :=
  ∀ (s : State) (u : BakeUnit) (now : Nat) (b : Bake),
    let r := reach now s.toDev.start
    let due := b.units.contains u = true ∧ b.acked.contains u = false ∧ ackReady r.dev u = true ∧
      r.dev.time ≤ b.sent + 50000
    let y := { b with acked := b.acked ++ [u] }
    r.dev.parts.bake = some b →
    (due → Answers (.prepareAck u now) s fun d => d.parts.bake = some y ∧ Only (.bake :: stackBlocks) r.dev d ∧
      ∀ t, t < 20 →
        let shown := u.onStack t && stagesMode b.staged t
        (shown = false → ∀ o, o < 0x100 → reg d (stkOff t o) = reg r.dev (stkOff t o)) ∧
        (shown = true → (∀ c, c < 32 → (bit (reg d (stkOff t 0x14)) c = true ↔ c ∈ y.ackedChans t)) ∧
          ((∀ v ∈ b.units, v.onStack t = true → v ∈ y.acked) →
            reg d (stkOff t 0x18) = duration16 b.sent r.dev.time))) ∧
    (¬ due → Gives (.prepareAck u now) s r.dev)

/-- R366, R383: when every unit has acknowledged, each staged value takes effect and every other setting stays;
THM_SUPPLY, which R519 confines, apart. The bench empties, the bake is counted and its instant recorded, and its command
gets OK. -/
def Claim.BakeTakesEffect : Prop :=
  ∀ (s : State) (now : Nat) (b : Bake),
    let r := reach now s.toDev.start
    let y := settingsWith r.dev b.staged
    r.dev.parts.bake = some b → unacked b = [] → Answers (.bakeInstant now) s fun d =>
      d.parts.bake = none ∧ d.bench = [] ∧
      (∀ off i, regInfo off = some i → i.access = .rwb → off ≠ thmOff 0x18 →
        reg d off = if off ∈ b.staged.map (·.1) then y.rd off &&& i.mask else reg r.dev off) ∧
      reg d (benchOff 0x14) = (reg r.dev (benchOff 0x14) + 1) % 2 ^ 32 ∧ reg d (benchOff 0x04) = 0 ∧
      reg d (benchOff 0x18) = r.dev.time % 2 ^ 32 ∧ reg d (benchOff 0x1C) = r.dev.time / 2 ^ 32 % 2 ^ 32 ∧
      ∀ n, b.ring = some n → ∀ c ∈ d.host.ctrl, c.ring = n → c.status = some stOk

/-- R78, R358, R360, R426: at the instant a cluster that changes holder has cleared cores, scratchpads and copies; a queue
pair whose partition changes is reset and its rings are unbound; what a fill covers reads zero; a partition with a new
owner has a new key, counted. -/
def Claim.BakeHandsOver : Prop :=
  ∀ (s : State) (now : Nat) (b : Bake),
    let r := reach now s.toDev.start
    let x := settingsNow r.dev
    let y := settingsWith r.dev b.staged
    r.dev.parts.bake = some b → unacked b = [] → Answers (.bakeInstant now) s fun d =>
      (∀ k, k < 64 → x.clusterHolder k ≠ y.clusterHolder k → clusterOf d k = Cluster.init ∧
        ∀ c, c / 32 = k → mirrorOf d c = [] ∧ { coreOf d c with
            job := Core.init.job, stopped := Core.init.stopped, sliceEnd := Core.init.sliceEnd,
            debt := Core.init.debt } = Core.init ∧
          ∀ o, o < 2 ^ 19 → mget 0#8 d.spad (2 ^ 19 * c + o) = 0#8) ∧
      (∀ q, q < 256 → qpPartOff q ∈ b.staged.map (·.1) → x.rd (qpPartOff q) ≠ y.rd (qpPartOff q) →
        (qpOf d q).mode = .reset ∧ ∀ n, n / 16 = q → ringOf d n = none ∧ hostRingOf d n = none) ∧
      (∀ f ∈ d.parts.fills, f ∉ r.dev.parts.fills → ∀ k, f.area.without f.before k = true → mget 0#8 d.mem k = 0#8) ∧
      ∀ p, p < 16 → newOwner r.dev y p = true → reg d (partOff p 0x30) = (reg r.dev (partOff p 0x30) + 1) % 2 ^ 32

/-- R250, R367: 50 µs after the prepare a bake that lacks an acknowledgement aborts: every setting stays, the bench
empties, the result registers say so and its command gets BAKE_ABORT. Before, or with every acknowledgement, nothing
happens. -/
def Claim.BakeAborts : Prop :=
  ∀ (s : State) (now : Nat) (b : Bake),
    let r := reach now s.toDev.start
    let late := unacked b ≠ [] ∧ b.sent + 50000 ≤ r.dev.time
    r.dev.parts.bake = some b →
    (late → Answers (.bakeAbort now) s fun d => d.parts.bake = none ∧ d.bench = [] ∧
      reg d (benchOff 0x04) = stBake * 2 ^ 8 ∧ reg d (benchOff 0x0C) = 0xF0 ∧ reg d (benchOff 0x10) = 0 ∧
      reg d (benchOff 0x30) = (unacked b).length % 2 ^ 32 ∧
      (∀ off, off / 0x8000 ≠ 2 → (∀ t, off ≠ stkOff t 0x18) → reg d off = reg r.dev off) ∧
      ∀ n, b.ring = some n → ∀ c ∈ d.host.ctrl, c.ring = n → c.status = some stBake) ∧
    (¬ late → Gives (.bakeAbort now) s r.dev)

/-- R364, R368: when the fill of an entry is complete, what is aimed at its granules is held no longer, and the wait
time of heads held for it runs on; other fills go on. -/
def Claim.FillCompletes : Prop :=
  ∀ (s : State) (e : Fin 512), Answers (.zeroFillComplete e) s fun d =>
    d.parts.fills = s.toDev.parts.fills.filter (fun f => f.entry != e.val) ∧ Only [.fills, .rings] s.toDev d ∧
      d = (accountHeads none (s.toDev.start.emit (.fills d.parts.fills))).dev

/-- BAKE, PREPARE_ACK, BAKE_INSTANT, BAKE_ABORT and ZERO_FILL_COMPLETE. -/
def Obligations.Bakes : Prop :=
  Claim.BakeRequested ∧ Claim.CheckedSettings ∧ Claim.PrepareAcknowledged ∧ Claim.BakeTakesEffect ∧ Claim.BakeHandsOver ∧
    Claim.BakeAborts ∧ Claim.FillCompletes

/-- R373: at the end of a slice it passes to the next runnable job and the cores of any other job stop fetching; with no
other job to run it is renewed. Before, a core whose own slice has ended stops. -/
def Claim.SlicePasses : Prop :=
  ∀ (s : State) (part : PartId) (now : Nat),
    let p := part.val
    let r := reach now s.toDev.start
    let job := sliceJob r.dev p
    let t := r.dev.time
    let t' := t + sliceLength r.dev p
    let next := (nextJob r.dev p job).getD job
    let cores := slicedCores r.dev p
    isSliced r.dev p = true → partInForce r.dev p = true →
    (sliceEndAt r.dev p ≤ t → Answers (.sliceEnd part now) s fun d =>
      sliceJob d p = next ∧ sliceEndAt d p = t' ∧ Only [.cores, .slices] r.dev d ∧
      ∀ k, coreOf d k =
        let c := coreOf r.dev k
        if k ∉ cores then c
        else if next = job then (if c.job = job ∧ c.stopped = false then { c with sliceEnd := t' } else c)
        else if c.job ≠ next then { c with stopped := true } else c) ∧
    (t < sliceEndAt r.dev p → Answers (.sliceEnd part now) s fun d => Only [.cores] r.dev d ∧
      ∀ k, coreOf d k =
        let c := coreOf r.dev k
        if k ∈ cores ∧ c.stopped = false ∧ c.sliceEnd ≤ t ∧ (nextJob r.dev p c.job).getD c.job ≠ c.job then
          { c with stopped := true }
        else c)

/-- R374, R375: a stopped core switches at a switch point: it takes the incoming job and gives up the heads of the
outgoing job's rings; the overrun is charged to the outgoing job, what the incoming job owes shortens its slice, and
PART_OVERRUN keeps the largest. -/
def Claim.CoreSwitches : Prop :=
  ∀ (s : State) (core : CoreId) (now p : Nat),
    let r := reach now s.toDev.start
    let c := coreOf r.dev core.val
    let late := r.dev.time - c.sliceEnd
    let job := if c.job = sliceJob r.dev p then (nextJob r.dev p c.job).getD c.job else sliceJob r.dev p
    let owed := mset 0 c.debt c.job (mget 0 c.debt c.job + late)
    let used := min (mget 0 owed job) (sliceLength r.dev p)
    clusterPart r.dev (core.val / 32) = some p → isSliced r.dev p = true → c.stopped = true →
    switchPoint r.dev core.val = true → Answers (.jobSwitch core now) s fun d =>
      coreOf d core.val = { c with
        job := job, stopped := false, debt := mset 0 owed job (mget 0 owed job - used),
        sliceEnd := (if job = sliceJob r.dev p then sliceEndAt r.dev p else sliceEndAt r.dev p + sliceLength r.dev p) - used } ∧
      reg d (partOff p 0x34) = max (reg r.dev (partOff p 0x34)) (min (late / 1000) (2 ^ 32 - 1)) ∧
      (∀ n x, ringOf s.toDev n = some x → ringOf d n = some (
        if x.target = 0 ∧ x.core = core.val ∧ x.job = c.job then { x with head := none } else x)) ∧
      Only [.cores, .rings, .block 4] r.dev d

/-- SLICE_END and JOB_SWITCH. -/
def Obligations.Slices : Prop := Claim.SlicePasses ∧ Claim.CoreSwitches

/-! ## Data integrity -/

/-- R458 to R462: an engine that may use the tick visits the oldest hint of its channel whose granule is scrubbed, else
the next scrubbed granule of its walk. -/
def Claim.SifterVisits : Prop :=
  ∀ (s : State) (stack : StackId) (chan : ChanId) (now : Nat) (dis : Option Disturb),
    let n := stack.val
    let c := chan.val
    let r := reach now s.toDev.start
    let r := match dis with
      | some x => if keyStack x.key = n ∧ keyChan x.key = c then disturb x.key x.pattern r else r
      | none => r
    let t := upkeepOf r.dev n
    let mine := t.hints.filter fun k => keyChan k == c && scrubbed r.dev k && !doorKey r.dev k
    let left := t.hints.filter fun k => keyChan k != c || (scrubbed r.dev k && some k != mine.head?)
    let r' := setUpkeep n { t with hints := left } r
    let i := Instr.sifterVisit stack chan now dis
    (siftIdle r.dev n c = false → Gives i s r.dev) ∧
    (∀ k rest, siftIdle r.dev n c = true → mine = k :: rest → Gives i s (visitGranule k r').dev) ∧
    (∀ o, siftIdle r.dev n c = true → mine = [] → nextScrub r'.dev n c (mget 0 t.walk c) = some o →
      doorKey r'.dev (chanKey n c o) = false →
      Gives i s (walkOn n c o (visitGranule (chanKey n c o) r')).dev) ∧
    (siftIdle r.dev n c = true → mine = [] → nextScrub r'.dev n c (mget 0 t.walk c) = none → Gives i s r'.dev)

/-- R460: a visit leaves a granule that it corrected without error, and counts it; it delivers the same data after as
before. An uncorrectable granule stays as it is and is counted. Every other granule stays as it is. -/
def Claim.GranuleVisited : Prop :=
  ∀ (d : Dev) (k : Nat),
    let x := granuleCheck d k
    let b := (visitGranule k d.start).dev
    (x.uncorrectable = false → delivered b k = delivered d k ∧ (granuleCheck b k).corrected = false ∧
      (granuleCheck b k).uncorrectable = false) ∧
    (x.uncorrectable = true → granuleData b k = granuleData d k ∧ granuleCheck b k = x ∧
      reg b (eccOff 0x04) = (reg d (eccOff 0x04) + 1) % 2 ^ 32) ∧
    (x.uncorrectable = false → x.corrected = true → reg b (eccOff 0x00) = (reg d (eccOff 0x00) + 1) % 2 ^ 32) ∧
    ∀ j, keyGranule j ≠ keyGranule k → granuleData b j = granuleData d j ∧ granuleCheck b j = granuleCheck d j

/-- R463 to R467: the firmware begins the remap of a row on account of a granule, taking a free entry and a spare of the
bank that none uses; its 32 granules count towards the 64 of a fold boundary. Where it cannot, an event says so. While a
bake, a recipe or a retraining holds the channel it waits; a granule that the flip mask hit, or of a retired channel, is
dismissed. -/
def Claim.RemapBegins : Prop :=
  ∀ (s : State) (k : Nat),
    let n := keyStack k
    let c := keyChan k
    let t := upkeepOf s.toDev n
    let o := remapChoice s.toDev n c (keyBank k) (keyRow k)
    let dismissed := chanMode s.toDev n c = 2 ∨ mget false s.toDev.hits (k / 64) = true
    let waits := remapFree s.toDev n c = false ∨ rowHeld s.toDev k = true
    t.due.contains k = true →
    (dismissed → Answers (.fieldRemap k) s fun d =>
      upkeepOf d n = { t with due := t.due.filter (· != k) } ∧ Only [.upkeep] s.toDev d) ∧
    (¬ dismissed → waits → Gives (.fieldRemap k) s s.toDev) ∧
    (¬ dismissed → ¬ waits → o.1 ≠ [] → o.2 ≠ [] → Answers (.fieldRemap k) s fun d =>
      Only [.upkeep, .chans] s.toDev d ∧
      (∀ run, (chanOf s.toDev n c).run = some run →
        chanOf d n c = { chanOf s.toDev n c with run := some { run with served := run.served + 32 } }) ∧ ∃ e ∈ o.1, ∃ v ∈ o.2, (upkeepOf d n).remaps = t.remaps ++ [⟨c, keyBank k, keyRow k, v, e, none⟩] ∧
        k ∉ (upkeepOf d n).due) ∧
    (¬ dismissed → ¬ waits → (o.1 = [] ∨ o.2 = []) → Answers (.fieldRemap k) s fun d =>
      (upkeepOf d n).remaps = t.remaps ∧ k ∉ (upkeepOf d n).due ∧ Only (.upkeep :: hostPieces) s.toDev d)

/-- R464: the oldest remap of the channel takes effect: its table entry maps the row to the spare, it is in progress no
longer, and a management request gets OK. -/
def Claim.RemapCompletes : Prop :=
  ∀ (s : State) (stack : StackId) (chan : ChanId) (i : Nat) (m : Remap),
    let n := stack.val
    let c := chan.val
    findIdx (fun (m : Remap) => m.channel == c) (upkeepOf s.toDev n).remaps 0 = some (i, m) →
    let off := remapReg n m.entry
    Answers (.remapComplete stack chan) s fun d =>
      reg d off = ((c + m.bank * 2 ^ 5 + m.row * 2 ^ 10 + m.spare * 2 ^ 25 + 2 ^ 31) &&& regMask off) % 2 ^ 32 ∧
      (upkeepOf d n).remaps = (upkeepOf s.toDev n).remaps.eraseIdx i ∧
      ∀ k, m.ring = some k → ∀ y ∈ d.host.ctrl, y.ring = k → y.status = some stOk

/-- R466, R467, R473: ECC_REMAP_REQ: a stack or channel that cannot be remapped ends it with DESCRIPTOR_INVALID, a bank
with no entry or spare left with REMAP_FULL; it waits as a firmware remap does; else the remap is under way. -/
def Claim.RemapRequested : Prop :=
  ∀ (s : State) (ring : RingId) (x : Ring) (w : List Dword),
    let q := ring.val
    let v := valueAt w (eccOff 0x800)
    let n := bits v 4 0
    let c := bits v 9 5
    let bank := bits v 14 10
    let row := bits v 29 15
    let o := remapChoice s.toDev n c bank row
    let bad := 19 < n ∨ chanMode s.toDev n c = 2
    let waits := remapFree s.toDev n c = false ∨ rowHeld s.toDev (rowKey n c bank row) = true
    let i := Instr.eccRemapReq ring
    let last := fun (st : Nat) => (setReg (eccOff 0x804) (st + n * 2 ^ 8) s.toDev.start).dev
    OnWrite s.toDev q .remap x w →
    (bad → Answers i s (ControlEnded q x stDescriptor (last stDescriptor))) ∧
    (¬ bad → waits → Gives i s s.toDev) ∧
    (¬ bad → ¬ waits → (o.1 = [] ∨ o.2 = []) → Answers i s (ControlEnded q x stRemapFull (last stRemapFull))) ∧
    (¬ bad → ¬ waits → o.1 ≠ [] → o.2 ≠ [] → Answers i s fun d => ∃ e : Dev, ControlBegun q x w none e d ∧
      ∃ j ∈ o.1, ∃ y ∈ o.2, (upkeepOf e n).remaps = (upkeepOf s.toDev n).remaps ++ [⟨c, bank, row, y, j, some q⟩])

/-- R468, R469: arming the flip mask on a valid entry arms it and taints the entry; on an invalid one it is refused;
disarming leaves the taint. -/
def Claim.FlipMaskArmed : Prop :=
  ∀ (s : State) (ring : RingId) (x : Ring) (w : List Dword),
    let n := ring.val
    let v := valueAt w (eccOff 0x100)
    let e := bits v 8 0
    (OnWrite s.toDev n .arm x w → (regionAt s.toDev e).valid = false →
      Answers (.flipArm ring) s (ControlEnded n x stDescriptor s.toDev)) ∧
    (OnWrite s.toDev n .arm x w → (regionAt s.toDev e).valid = true → Answers (.flipArm ring) s fun d =>
      reg d (eccOff 0x100) = e + 2 ^ 31 ∧ tainted d e = true ∧ (∀ j, j < 512 → tainted s.toDev j = true → tainted d j = true) ∧
      ∃ b : Dev, ControlEnded n x stOk b d) ∧
    (OnWrite s.toDev n .disarm x w → Answers (.flipDisarm ring) s fun d =>
      reg d (eccOff 0x100) = e ∧ (∀ j, j < 512 → tainted d j = tainted s.toDev j) ∧ ∃ b : Dev, ControlEnded n x stOk b d)

/-- R489: a channel that has resent more than 1,024 times within a second is retrained, one channel at a time and with no
recipe on it, and counted; when that is done it works again. -/
def Claim.ChannelRetrained : Prop :=
  ∀ (s : State) (stack : StackId) (chan : ChanId) (resends now : Nat),
    let n := stack.val
    let c := chan.val
    let r := reach now s.toDev.start
    let due := 1024 < resends ∧ isReady r.dev = true ∧ retraining r.dev = false ∧ chanMode r.dev n c ≠ 2 ∧
      chanInUse r.dev n c = false
    (due → Answers (.channelRetrain stack chan resends now) s fun d =>
      chanOf d n c = { chanOf s.toDev n c with retrain := true } ∧
      field d (bootOff 0x8C) 15 0 = (field r.dev (bootOff 0x8C) 15 0 + 1) % 2 ^ 16 ∧ Only [.chans, .block 10] r.dev d) ∧
    (¬ due → Gives (.channelRetrain stack chan resends now) s r.dev) ∧
    Answers (.channelRetrainComplete stack chan) s fun d =>
      chanOf d n c = { chanOf s.toDev n c with retrain := false } ∧ Only [.chans] s.toDev d

/-- R251, R253, R489, R335: a channel whose retraining failed is retired by the firmware: no partition holds it, no valid
region covers it, STK_PREP_ACK names it, and the retirement is counted. That it is one step, in which the channel
acknowledges at once, and that what stands in its FIFOs stays there, is the model's choice (assumption 31). -/
def Claim.ChannelRetired : Prop :=
  ∀ (s : State) (stack : StackId) (chan : ChanId),
    let n := stack.val
    let c := chan.val
    (chanOf s.toDev n c).retrain = true → s.toDev.parts.bake = none → retireReady s.toDev n c = true →
    Answers (.channelRetirement stack chan) s fun d =>
      chanMode d n c = 2 ∧ (∀ p, p < 16 → holdsChan d p n c = false) ∧
      (∀ y ∈ validRegions d, (areaPairs y.area).contains (n, c) = false) ∧
      (chanOf d n c).inbound = (chanOf s.toDev n c).inbound ∧ (chanOf d n c).outbound = (chanOf s.toDev n c).outbound ∧
      (chanOf d n c).retrain = false ∧ reg d (stkOff n 0x14) = 2 ^ c ∧ reg d (stkOff n 0x18) = 0 ∧
      field d (bootOff 0x8C) 31 16 = (field s.toDev (bootOff 0x8C) 31 16 + 1) % 2 ^ 16

/-- SIFTER_VISIT, FIELD_REMAP, REMAP_COMPLETE and ECC_REMAP_REQ. -/
def Obligations.SifterAndRemaps : Prop :=
  Claim.SifterVisits ∧ Claim.GranuleVisited ∧ Claim.RemapBegins ∧ Claim.RemapCompletes ∧ Claim.RemapRequested

/-- FLIP_ARM, FLIP_DISARM, CHANNEL_RETRAIN, CHANNEL_RETRAIN_COMPLETE and CHANNEL_RETIREMENT. -/
def Obligations.MaskAndRetirement : Prop := Claim.FlipMaskArmed ∧ Claim.ChannelRetrained ∧ Claim.ChannelRetired

/-! ## Frames and transactions between modules -/

/-- R391, R399 to R401, R245: a WRITE or MERGE_WRITE that breaks a check is counted and writes nothing; else its granules
are written at their home, an uncorrectable one not. Either is answered, and counted if it is posted (that a posted one is
answered too is the model's choice, assumption 26). A frame aimed at a unit that is held waits. -/
def Claim.WritesPerformed : Prop :=
  ∀ (s : State) (stack : StackId) (n : Nat) (f : Frame),
    let t := stack.val
    let st := frameStatus s.toDev f
    let r := takeFrame t n s.toDev.start
    let refused := lnkOff t 0x4C
    let acked := fun (i : Instr) (st : Nat) (l : List Piece) (m : Dev) => Answers i s fun d =>
      Answered t n f tWriteAck st 0 [] (.counts :: l) s.toDev d ∧ PostedCounted f st s.toDev d ∧ Piece.same m d .memory
    let waitsOr := fun (i : Instr) =>
      (frameWaits s.toDev f = true → Gives i s s.toDev) ∧
      (frameWaits s.toDev f = false → st ≠ stOk → acked i st linkBlocks s.toDev ∧
        Answers i s fun d => reg d refused = (reg s.toDev refused + 1) % 2 ^ 32)
    (frameOf s.toDev t n tWrite = some f → waitsOr (.writeFrame stack n)) ∧
    (frameOf s.toDev t n tMerge = some f → waitsOr (.mergeWrite stack n)) ∧
    (frameOf s.toDev t n tWrite = some f → frameWaits s.toDev f = false → st = stOk →
      acked (.writeFrame stack n) stOk (.chans :: homePieces)
        (forEach (List.zip (frameKeys f) (chunks 64 4 f.payload)) (fun e r => countServed e.1 (mergeHome e.1 fullMask e.2 r).2) r).dev) ∧
    (∀ k, frameOf s.toDev t n tMerge = some f → frameWaits s.toDev f = false → st = stOk → (frameKeys f).head? = some k →
      let z := mergeHome k f.arg f.payload r
      acked (.mergeWrite stack n) (if z.1 then stOk else stUncorrectable) (.chans :: homePieces) z.2.dev)

/-- R370, R391, R401: a READ or ATOMIC waits until the posted writes it counts have been performed, an ATOMIC also for
its regulator; then the granules are read, or the operation performed, at their home, and the response returns the data
or the old value, or the status of the check that failed or of an uncorrectable granule. -/
def Claim.ReadsPerformed : Prop :=
  ∀ (s : State) (stack : StackId) (n : Nat) (f : Frame),
    let t := stack.val
    let st := frameStatus s.toDev f
    let r := takeFrame t n s.toDev.start
    let waits := frameWaits s.toDev f = true ∨ caughtUp s.toDev f = false
    let blocked := atomicShut s.toDev f.part t = true
    let l := .chans :: homePieces
    (frameOf s.toDev t n tRead = some f →
      let i := Instr.readFrame stack n
      let z := readKeys (frameKeys f) r
      (waits → Gives i s s.toDev) ∧
      (¬ waits → st ≠ stOk → Answers i s (Answered t n f tReadData st 0 [] linkBlocks s.toDev)) ∧
      (∀ data, ¬ waits → st = stOk → z.1 = some data → Answers i s (Answered t n f tReadData stOk 0 data l s.toDev)) ∧
      (¬ waits → st = stOk → z.1 = none → Answers i s (Answered t n f tReadData stUncorrectable 0 [] l s.toDev))) ∧
    (frameOf s.toDev t n tAtomic = some f →
      let i := Instr.atomicRequestFrame stack n
      (waits ∨ blocked → Gives i s s.toDev) ∧
      (¬ waits → ¬ blocked → st ≠ stOk → Answers i s (Answered t n f tAtomicData st 0 [] linkBlocks s.toDev)) ∧
      (∀ k, ¬ waits → ¬ blocked → st = stOk → moduleKey f.addr = some k →
        let z := atomicHome f.aop k (leNat (f.payload.take 8)) (leNat ((f.payload.drop 8).take 8)) (charge 0x2C t f.part 64 r)
        (∀ old, z.1 = some old → Answers i s fun d => Answered t n f tAtomicData stOk old [] (.buckets :: l) s.toDev d ∧
          Piece.same z.2.dev d .memory) ∧
        (z.1 = none → Answers i s (Answered t n f tAtomicData stUncorrectable 0 [] (.buckets :: l) s.toDev))))

/-- R398, R401: a CHECK is answered with the first check that a block of its envelope breaks; a SYNC, once the posted
writes it counts have been performed, with the status of a refused one, which is reported once: the model's choice
(assumption 26). -/
def Claim.ChecksAnswered : Prop :=
  ∀ (s : State) (stack : StackId) (n : Nat) (f : Frame),
    let t := stack.val
    (frameOf s.toDev t n tCheck = some f → Answers (.check stack n) s
      (Answered t n f tCheckAck (checkStatus s.toDev f) 0 [] linkBlocks s.toDev)) ∧
    (frameOf s.toDev t n tSync = some f → caughtUp s.toDev f = false → Gives (.syncFrame stack n) s s.toDev) ∧
    (frameOf s.toDev t n tSync = some f → caughtUp s.toDev f = true → Answers (.syncFrame stack n) s fun d =>
      Answered t n f tSyncAck (mget 0 s.toDev.fabric.refused f.src) 0 [] [.counts] s.toDev d ∧
      d.fabric.refused = mset 0 s.toDev.fabric.refused f.src 0 ∧ d.fabric.done = s.toDev.fabric.done)

/-- WRITE, MERGE_WRITE, READ, ATOMIC, CHECK and SYNC frames at their target. -/
def Obligations.FramesPerformed : Prop := Claim.WritesPerformed ∧ Claim.ReadsPerformed ∧ Claim.ChecksAnswered

/-- A response frame of the type `type` that the command `i` takes, returning `data`, ends its transaction. -/
def Claim.ResponseEnds (s : State) (stack : StackId) (n : Nat) (f : Frame) (type : Nat) (i : Instr) (data : List Byte) : Prop :=
  let t := stack.val
  let found := s.toDev.fabric.txns.find? (·.num == f.txn)
  let confirmed := fun (d : Dev) =>
    d.fabric.confirmed = match found with
      | some x => if type = tSyncAck then mset 0 s.toDev.fabric.confirmed f.src x.addr else s.toDev.fabric.confirmed
      | none => s.toDev.fabric.confirmed
  frameOf s.toDev t n type = some f →
  (found = none → ∃ s', exec i s = .next s' ∧ s'.pending = s.pending ∧ Taken t n s.toDev s'.toDev ∧
    Only [.inbox] s.toDev s'.toDev) ∧
  (∀ x c, found = some x → x.uid < 2 ^ 64 → cmdOf s.toDev x.uid = some c → c.txns.contains f.txn = true →
    ∃ s', exec i s = .next s' ∧ s'.pending = s.pending ∧ Taken t n s.toDev s'.toDev ∧
      TxnEnded x c f.status data s.toDev s'.toDev ∧ confirmed s'.toDev ∧
      Only [.inbox, .txns, .flight, .counts] s.toDev s'.toDev) ∧
  (∀ x m z h, found = some x → x.uid = pollUid m → ringOf s.toDev m = some z → z.head = some h → h.poll = some f.txn →
    ∃ s' z' h', exec i s = .next s' ∧ s'.pending = s.pending ∧ Taken t n s.toDev s'.toDev ∧ confirmed s'.toDev ∧
      Only [.inbox, .txns, .rings, .counts] s.toDev s'.toDev ∧ ringOf s'.toDev m = some z' ∧ z'.head = some h' ∧
      h'.words = h.words ∧ h'.poll = none ∧
      h'.fail = if f.status = stOk then none else some (f.status, x.dst * 2 ^ 48 + x.addr))

/-- R391, R401, R402: a response ends its transaction: its command waits for it no longer, and has the status and the data
it returns. A response to a transaction that has ended is discarded. A SYNC_ACK confirms the count its SYNC carried. -/
def Claim.ResponsesEndTransactions : Prop :=
  ∀ (s : State) (stack : StackId) (n : Nat) (f : Frame),
    Claim.ResponseEnds s stack n f tWriteAck (.writeAck stack n) [] ∧
    Claim.ResponseEnds s stack n f tReadData (.readData stack n) f.payload ∧
    Claim.ResponseEnds s stack n f tAtomicData (.atomicData stack n) (natLE f.arg 8) ∧
    Claim.ResponseEnds s stack n f tCheckAck (.checkAck stack n) [] ∧
    Claim.ResponseEnds s stack n f tSyncAck (.syncAck stack n) []

/-- R402: a transaction without a response 2 ms after its request left ends with LINK_DOWN, and LNK_TIMEOUTS of its stack
counts it; an earlier timeout changes nothing. -/
def Claim.TransactionTimesOut : Prop :=
  ∀ (s : State) (num now : Nat) (x : Txn) (c : Cmd),
    let r := reach now s.toDev.start
    let i := Instr.transactionTimeout num now
    s.toDev.fabric.txns.find? (·.num == num) = some x → x.uid < 2 ^ 64 → cmdOf s.toDev x.uid = some c →
    c.txns.contains num = true → x.stack < 20 →
    (r.dev.time < x.at_ + 2000000 → Gives i s r.dev) ∧
    (x.at_ + 2000000 ≤ r.dev.time → Answers i s fun d => TxnEnded x c stLinkDown [] r.dev d ∧
      reg d (lnkOff x.stack 0x44) = (reg r.dev (lnkOff x.stack 0x44) + 1) % 2 ^ 32 ∧
      Only (.txns :: .flight :: linkBlocks) r.dev d)

/-- WRITE_ACK, READ_DATA, ATOMIC_DATA, CHECK_ACK and SYNC_ACK; TRANSACTION_TIMEOUT. -/
def Obligations.TransactionsEnd : Prop := Claim.ResponsesEndTransactions ∧ Claim.TransactionTimesOut

/-! ## The link switch and the link protocol -/

/-- R371, R388, R389, R404, R405: what an output grants waits for it, is of the class, can be taken by it, is the oldest
of its partition at its input, and comes from an input left in the round if one of those has a frame the output can
take. On a link its partition has the tokens, or may borrow and no frame of another that could leave, of either class,
has them. -/
def Claim.GrantRules : Prop :=
  ∀ (d : Dev) (o choice : Nat) (resp : Bool) (w : Waiting) (left : List Nat), o < 40 →
    let l := waitingFor d o resp
    let round := mget [] d.fabric.rounds (2 * o + resp.toNat)
    let rest := round.filter fun i => !(candidates d o i l).isEmpty
    pickFrame d o resp choice = some (w, left) →
    w ∈ d.fabric.queue ∧ isResponse w.frame = resp ∧ outputOf d w.frame = some o ∧ (o < 20 → linkTakes d o w = true) ∧
      (l.find? fun x => x.input == w.input && x.frame.part == w.frame.part) = some w ∧
      (rest = [] ∨ w.input ∈ rest) ∧
      (o < 20 → frameTokens d o w.frame = true ∨ (mayBorrow d w.frame.part 0x24 = true ∧
        ∀ x ∈ waitingFor d o true ++ waitingFor d o false, x.frame.part ≠ w.frame.part → linkTakes d o x = true →
          frameTokens d o x.frame = false))

/-- R387 to R389, R392, R394, R395, R401, R407: a grant takes a response before a request; the frame leaves the switch,
and the credits of the link on which it came are owed to it. At a stack port it enters the link buffer; on a link it
takes the next sequence, one hop less and the virtual channel of R394, draws its credits, is kept for resending, and
goes onto the lanes. A posted write that leaves its module counts as done for its command. -/
def Claim.SwitchGrants : Prop :=
  ∀ (s : State) (output : SwitchPort) (now : Nat),
    let o := output.val
    let r := fresh (reach now s.toDev.start)
    let a := r.2.dev
    let resp := pickFrame a o true r.1
    let pick := if resp.isSome then resp else pickFrame a o false r.1
    let i := Instr.switchGrant output now
    let owed := fun (input vc : Nat) (d : Dev) => mget 0 (linkOf d input).owed vc
    (pick = none → Gives i s a) ∧
    (∀ w left, pick = some (w, left) → Answers i s fun d =>
      let f := w.frame
      let vc := leaveVc a w.input o f
      let x := linkOf a o
      let out : Frame := { f with vc := vc, seq := x.txSeq, hops := f.hops - 1 }
      d.fabric.queue = a.fabric.queue.erase w ∧
      d.fabric.rounds = mset [] a.fabric.rounds (2 * o + (isResponse f).toNat) left ∧
      (w.input < 20 → w.input ≠ o → ∀ v, owed w.input v d = owed w.input v a + if v = f.vc then frameUnits f else 0) ∧
      (20 ≤ o → d.fabric.inbox = mset [] a.fabric.inbox (o - 20) (inboxOf a (o - 20) ++ [f]) ∧
        Only [.switch, .inbox, .links] a d) ∧
      (o < 20 → (linkOf d o).txSeq = (x.txSeq + 1) % 4096 ∧ (linkOf d o).replay = x.replay ++ [⟨out, 0⟩] ∧
        (∃ t : Trailer, (linkOf d o).wire = x.wire ++ [layLanes (linkWidth a o) (frameImage out t)]) ∧
        mget 0 (linkOf d o).credits vc = mget 0 x.credits vc - frameUnits f ∧
        (f.posted = false ∨ f.src ≠ deviceNumber a → d.hearth = a.hearth) ∧
        (∀ y c, f.posted = true → f.src = deviceNumber a → a.fabric.txns.find? (·.num == f.txn) = some y →
          cmdOf a y.uid = some c → d.hearth.cmds =
            a.hearth.cmds.map fun z => if z.uid == c.uid then { c with txns := c.txns.filter (· != f.txn) } else z) ∧
        Only (.switch :: .links :: .buckets :: .flight :: linkBlocks) a d))

/-- GRANTS of the link switch. -/
def Obligations.SwitchServesFrames : Prop := Claim.GrantRules ∧ Claim.SwitchGrants

/-- R396: a frame whose codewords or CRC fail, or that is out of sequence, is counted and enters nowhere; the first
brings a NAK for the sequence expected. -/
def Claim.BadFrameRefused : Prop :=
  ∀ (s : State) (link : LinkId) (lanes : List (List Dword)) (corrected uncorrectable now : Nat) (decoded ended : Bool),
    let l := link.val
    let a := (reach now s.toDev.start).dev
    let x := linkOf a l
    let bytes := takeLanes (linkWidth a l) lanes
    let f := frameFrom bytes
    let t := trailerFrom bytes
    let bad := lnkOff l 0x28
    let failed := decoded = false ∨ ended = false ∨ frameWhole bytes = false
    let early := ¬ failed ∧ f.type ≠ tIdle ∧ f.seq ≠ x.rxSeq ∧ t.ackValid = false ∧ t.nak = false ∧ t.credits = 0
    linkState a l = 2 → failed ∨ early → Answers (.linkFrameReceipt link lanes corrected uncorrectable decoded ended now) s fun d =>
      reg d bad = (reg a bad + 1) % 2 ^ 32 ∧ reg d (lnkOff l 0x20) = (reg a (lnkOff l 0x20) + corrected) % 2 ^ 32 ∧
      reg d (lnkOff l 0x24) = (reg a (lnkOff l 0x24) + uncorrectable) % 2 ^ 32 ∧
      (linkOf d l).rxSeq = x.rxSeq ∧ (linkOf d l).replay = x.replay ∧ (linkOf d l).nakSent = true ∧
      (x.nakSent = true → (linkOf d l).wire = x.wire) ∧
      (x.nakSent = false → ∃ u : Trailer, (linkOf d l).wire = x.wire ++ [layLanes (linkWidth a l) (frameImage idleFrame u)] ∧ u.nak = true ∧
        u.ackValid = true ∧ u.ack = (x.rxSeq + 4095) % 4096) ∧
      Only (.links :: linkBlocks) a d

/-- R391, R392, R395, R396, R407: a frame in sequence is accepted and will be acknowledged; its trailer's
acknowledgement frees the frames it covers and its credits are added. A frame of a type of R391 enters the switch; any
other, one whose reserved fields are not zero, and one that is not for this module and has no hop left, is dropped,
counted, and its credits are owed back. -/
def Claim.FrameAccepted : Prop :=
  ∀ (s : State) (link : LinkId) (lanes : List (List Dword)) (corrected uncorrectable now : Nat),
    let l := link.val
    let a := (reach now s.toDev.start).dev
    let x := linkOf a l
    let bytes := takeLanes (linkWidth a l) lanes
    let f := frameFrom bytes
    let t := trailerFrom bytes
    let kept := if t.ackValid then x.replay.filter fun e => decide (2048 ≤ (t.ack + 4096 - e.frame.seq) % 4096)
      else x.replay
    let drop := frameClean bytes = false ∨ typeDefined f.type = false ∨ payloadOk f = false ∨ (isResponse f = false ∧ f.status ≠ 0)
    let stray := f.dst ≠ deviceNumber a ∧ f.hops = 0
    linkState a l = 2 → frameWhole bytes = true → f.type ≠ tIdle → f.seq = x.rxSeq → t.nak = false →
    Answers (.linkFrameReceipt link lanes corrected uncorrectable true true now) s fun d =>
      let y := linkOf d l
      y.rxSeq = (x.rxSeq + 1) % 4096 ∧ y.ackOwed = true ∧ y.nakSent = false ∧ y.replay = kept ∧ y.wire = x.wire ∧
      mget 0 y.credits t.creditVc = mget 0 x.credits t.creditVc + t.credits ∧ Only (.links :: .switch :: linkBlocks) a d ∧
      (¬ drop → ¬ stray → d.fabric.queue = a.fabric.queue ++ [⟨l, f⟩] ∧ y.owed = x.owed) ∧
      (drop ∨ stray → d.fabric.queue = a.fabric.queue ∧
        y.owed = mset 0 x.owed f.vc (mget 0 x.owed f.vc + frameUnits f)) ∧
      (drop → reg d (lnkOff l 0x28) = (reg a (lnkOff l 0x28) + 1) % 2 ^ 32) ∧
      (¬ drop → stray → reg d (lnkOff l 0x48) = (reg a (lnkOff l 0x48) + 1) % 2 ^ 32)

/-- R392, R396, R397: an IDLE frame leaves a link that owes an acknowledgement or credits; 10 µs without progress bring
every unacknowledged frame onto the lanes again, as a NAK does; a frame resent 16 times retrains the link in place. -/
def Claim.LinkKeepsAlive : Prop :=
  ∀ (s : State) (link : LinkId) (now : Nat),
    let l := link.val
    let a := (reach now s.toDev.start).dev
    let x := linkOf a l
    let owes := x.ackOwed = true ∨ ∃ v, v < 4 ∧ mget 0 x.owed v ≠ 0
    let late := x.replay ≠ [] ∧ x.since + 10000 ≤ a.time
    let worn := ∃ e ∈ (linkOf s.toDev l).replay, 16 ≤ e.resent
    (linkState a l = 2 → owes → Answers (.idleFrame link now) s (IdleSent l x (trailerOf x false) a)) ∧
    (linkState a l = 2 → ¬ owes → Gives (.idleFrame link now) s a) ∧
    (linkState a l = 2 → late → Answers (.replayTimeout link now) s (Resent l x a)) ∧
    (linkState a l = 2 → ¬ late → Gives (.replayTimeout link now) s a) ∧
    (∀ lanes c u, let bytes := takeLanes (linkWidth a l) lanes
      let t := trailerFrom bytes
      linkState a l = 2 → frameWhole bytes = true → (frameFrom bytes).type = tIdle →
      t.nak = true → t.ackValid = false → t.credits = 0 →
      Answers (.linkFrameReceipt link lanes c u true true now) s fun d => Only (.links :: .buckets :: linkBlocks) a d ∧
        (linkOf d l).replay = x.replay.map (fun e => { e with resent := e.resent + 1 }) ∧
        Laid l x.wire (x.replay.map (·.frame)) d) ∧
    (linkState s.toDev l = 2 → worn →
      Answers (.resendLimit link) s (TrainingBegun l false (linkOf s.toDev l).failures s.toDev)) ∧
    (linkState s.toDev l = 2 → ¬ worn → Gives (.resendLimit link) s s.toDev)

/-- LINK_FRAME_RECEIPT, IDLE_FRAME, REPLAY_TIMEOUT and RESEND_LIMIT. -/
def Obligations.LinkProtocol : Prop := Claim.BadFrameRefused ∧ Claim.FrameAccepted ∧ Claim.LinkKeepsAlive

/-! ## Training, widths and routes of links -/

/-- R540: the lanes that an end's receivers lock are those that arrive at their own positions, unless the other end sends
them elsewhere or this end repairs them, and those that the other end sends on its spare positions that arrive here: its
own repaired lane, else a copy of the lane that this end's spare receiver takes. Without repairs on either side they are
the lanes whose positions take light. -/
def Claim.SpareLanes : Prop :=
  ∀ (own other positions : Nat),
    let tx := fun (v : Nat) => bitsSet (bits v 7 0) 8
    let rx := fun (v : Nat) => bitsSet (bits v 15 8) 8
    (∀ n, n < 8 → (bit (lockedLanes own other positions) n = true ↔
      (bit positions n = true ∧ n ∉ tx other ∧ n ∉ rx own) ∨ ∃ k, k < 2 ∧ bit positions (8 + k) = true ∧
        ((tx other)[k]? = some n ∨ ((tx other)[k]? = none ∧ (rx own)[k]? = some n)))) ∧
    lockedLanes 0 0 positions = positions % 2 ^ 8

/-- R386, R410 to R413, R417, R539, R540: a stage that succeeds is followed by the next; the lanes used are the widest
set of R411 that locked at both ends within both ends' limits, and the laser inputs have at least 14.0 dBm each; in
place, training ends after the alignment, and full training with a handshake that starts the sequences at zero and gives
at most the credits of a receive buffer. A stage that fails is dealt with by R413, with the reason of R420. With the
last link trained or down, stage 11 of bring-up is completed (R474). -/
def Claim.TrainingStages : Prop :=
  ∀ (s : State) (link : LinkId) (o : Training) (now : Nat),
    let l := link.val
    let a := (reach now s.toDev.start).dev
    let x := linkOf a l
    let optic := a.boot.fuses.optics.getD l 0
    let locked := lockedLanes optic x.peerOptic o.inward
    let both := locked &&& lockedLanes x.peerOptic optic o.outward
    let lanes := chooseLanes both (min (linkMax a l) o.peerMax)
    let lit := o.laser.length = 4 ∧ ∀ p ∈ o.laser, 1400 ≤ p
    let next := fun (k : Nat) (d : Dev) => (∀ j, j ≠ l → linkOf d j = linkOf a j) ∧ (linkOf d l).stage = k ∧
      (linkOf d l).full = x.full ∧ Only (.links :: linkBlocks) a d
    let used := throttledLanes x
    let reason := widthReason (linkMax a l) o.peerMax x used
    let i := Instr.linkTrainingStage link o now
    let fails := fun (reason : Nat) => Answers i s fun d => ∃ e m : Dev, linkOf e l = x ∧ Only linkBlocks a e ∧
      StageFailed l reason e m ∧ TrainingNoted m d
    (x.stage = 1 → lit → Answers i s fun d => next 2 d ∧ (linkOf d l).peerOptic = o.beacon) ∧
    (x.stage = 1 → ¬ lit → fails 4) ∧
    (∀ m, x.stage = 2 → lanes = some m → Answers i s fun d => next 3 d ∧ (linkOf d l).trained = m ∧
      bits (reg d (lnkOff l 0x18)) 7 0 = locked) ∧
    (x.stage = 2 → lanes = none → fails 1) ∧
    (x.stage = 3 → o.aligned = true → Answers i s (next 4)) ∧ (x.stage = 3 → o.aligned = false → fails 1) ∧
    (x.stage = 4 → o.aligned = false → fails 1) ∧
    (x.stage = 4 → o.aligned = true → x.full = true → Answers i s fun d => next 5 d ∧
      reg d (lnkOff l 0x1C) = o.rtt % 2 ^ 16) ∧
    (x.stage = 4 → o.aligned = true → x.full = false → Answers i s fun d => ∃ m, InService l used reason x a m ∧ TrainingNoted m d) ∧
    (x.stage = 5 → o.conforms = true → o.peer ≠ deviceNumber a → Answers i s fun d =>
      (∃ m, InService l used reason { x with txSeq := 0, rxSeq := 0, replay := [] } a m ∧ TrainingNoted m d) ∧
      reg d (lnkOff l 0x08) = o.peer % 2 ^ 16 + o.peerLink % 2 ^ 5 * 2 ^ 16 + 2 ^ 31 ∧
      (linkOf d l).owed = [] ∧ ∀ v, v < 4 → mget 0 (linkOf d l).credits v = min 2048 o.credits) ∧
    (x.stage = 5 → (o.conforms = false ∨ o.peer = deviceNumber a) → fails 6)

/-- R413, R420, R488: a down link that is enabled is trained in full every second once bring-up has reached event 12;
LNK_RETRAIN retrains a link in service in place, and any other that is not disabled in full. A link whose base die did
not answer when the stacks trained is not trained. -/
def Claim.TrainingRequested : Prop :=
  ∀ (s : State) (link : LinkId) (ring : RingId) (now : Nat) (x : Ring) (w : List Dword),
    let l := link.val
    let a := (reach now s.toDev.start).dev
    let due := linkState a l = 0 ∧ (linkOf a l).stage = 0 ∧ linkEnabled a l = true ∧
      baseAnswers a l = true ∧ (linkOf a l).triedAt + 1000000000 ≤ a.time ∧ isReady a = true
    let i := Instr.lnkRetrain ring now
    let v := (writeRegs w (reach now s.toDev.start)).dev
    let asks := OnWrite a ring.val (.retrain l) x w
    let begins := fun (full : Bool) (d : Dev) =>
      ∃ e : Dev, TrainingBegun l full (if full then 0 else (linkOf v l).failures) v e ∧ ControlEnded ring.val x stOk e d
    (due → Answers (.fullTrainingRetry link now) s (TrainingBegun l true 0 a)) ∧
    (¬ due → Gives (.fullTrainingRetry link now) s a) ∧
    (asks → linkState v l = 2 → Answers i s (begins false)) ∧
    (asks → linkState v l ≠ 2 → linkState v l ≠ 4 → linkEnabled v l = true → baseAnswers v l = true →
      Answers i s (begins true)) ∧
    (asks → linkState v l ≠ 2 → (linkState v l = 4 ∨ linkEnabled v l = false ∨ baseAnswers v l = false) →
      Answers i s (ControlEnded ring.val x stOk v))

/-- R415, R416: while the engine at either end is throttled an 8-lane link falls to lanes 0 to 3 with reason 2; on the
peer's account THERMAL_THROTTLE is sent, where for this end's engine the housekeeping round has sent it. Once throttling
has ended the other lanes lock again, and the link widens with LINK_DEGRADED. Which end sends which event is the model's
choice (assumption 27). -/
def Claim.WidthsThrottled : Prop :=
  ∀ (s : State) (link : LinkId) (peer : Bool),
    let l := link.val
    let a := s.toDev
    let x := linkOf a l
    let hot := x.throttle = true ∨ peer = true
    let w := popcount x.trained 8
    let only := fun (d : Dev) => (∀ k, k ≠ l → linkOf d k = linkOf a k) ∧ Only (.links :: .buckets :: (linkBlocks ++ hostPieces)) a d
    let i := Instr.throttleWidthChange (link, peer)
    (linkState a l = 2 → hot → x.used = 0xFF → Answers i s fun d => only d ∧
      (x.throttle = true → d.host = a.host) ∧ (x.throttle = false → EventSent 0 stThrottle 4 0 l 4 a d) ∧
      linkOf d l = { x with peerHot := peer, used := 0x0F, relock := false } ∧
      reg d (lnkOff l 0x04) = 2 + 4 * 2 ^ 4 + 2 * 2 ^ 8 ∧ reg d (lnkOff l 0x14) = 200) ∧
    (linkState a l = 2 → ¬ hot → x.used ≠ x.trained → Answers i s fun d => only d ∧ d.host = a.host ∧
      linkOf d l = { x with peerHot := peer, relock := true }) ∧
    (linkState a l = 2 → x.relock = true → Answers (.laneRelock link) s fun d => only d ∧
      linkOf d l = { x with used := x.trained, relock := false } ∧ reg d (lnkOff l 0x04) = 2 + w * 2 ^ 4 ∧
      reg d (lnkOff l 0x14) = w * 50 ∧ EventSent 0 stDegraded 4 0 l w a d)

/-- R414: a link out of service leaves every route entry; one in service and enabled returns to those that the management
host last baked with it. Each is one bake of the firmware, which waits for a bake in progress. -/
def Claim.RoutesKept : Prop :=
  ∀ (s : State) (link : LinkId),
    let l := link.val
    let a := s.toDev
    let listed := fun (v : Nat) => bit (reg a (routeOff v)) l = true
    let missing := fun (v : Nat) => v ≠ deviceNumber a ∧ bit (mget 0#32 a.parts.routes (routeOff v)).toNat l = true ∧
      bit (reg a (routeOff v)) l = false
    let seq := benchOff 0x14
    let baked := fun (d : Dev) => reg d seq = (reg a seq + 1) % 2 ^ 32 ∧ Only [.block 2, .block 96] a d
    let busy := a.parts.bake ≠ none
    (∀ v, v < 4096 → inService a l = false → ¬ busy → listed v → Answers (.routeRemoval link) s fun d => baked d ∧
      ∀ u, u < 4096 → routeOf d u = clearBit (routeOf a u) l) ∧
    ((inService a l = true ∨ busy ∨ ∀ v, v < 4096 → ¬ listed v) → Gives (.routeRemoval link) s a) ∧
    (∀ v, v < 4096 → inService a l = true → linkEnabled a l = true → ¬ busy → missing v →
      Answers (.routeRestore link) s fun d => baked d ∧ ∀ u, u < 4096 →
        (missing u → routeOf d u = setBit (routeOf a u) l) ∧ (¬ missing u → routeOf d u = routeOf a u)) ∧
    ((inService a l = false ∨ linkEnabled a l = false ∨ busy) → Gives (.routeRestore link) s a)

/-- LINK_TRAINING_STAGE, FULL_TRAINING_RETRY, LNK_RETRAIN, THROTTLE_WIDTH_CHANGE, LANE_RELOCK, ROUTE_REMOVAL and
ROUTE_RESTORE. -/
def Obligations.LinksTrained : Prop :=
  Claim.SpareLanes ∧ Claim.TrainingStages ∧ Claim.TrainingRequested ∧ Claim.WidthsThrottled ∧ Claim.RoutesKept

/-! ## Doorbells -/

/-- R114, R115, R118, R428, R431, R432, R436, R445: the packet is counted and acknowledged, and PRODUCE, UNBIND, RESUME
and FLUSH act on a bound ring: entries become fetchable; a walk over the unissued commands begins, which unbinds the ring
or does not; the halt ends, and the wait of its head counts again. Each is invalid on an unbound ring, PRODUCE also beyond
the ring's entries, UNBIND also on a serving ring in use. How a walk that has begun meets FLUSH and UNBIND is the model's
choice (assumption 34). -/
def Claim.RingBells : Prop :=
  ∀ (s : State) (qp : QpId) (w0 w1 : Dword) (p : Nat),
    let q := qp.val
    let n := 16 * q + bRing w0
    let d := s.toDev
    let k := bIndex w0
    let a := d.received q 1
    let refused := fun (i : Instr) => Answers i s (Rung q (BellRefused p q w0 a))
    let put := fun (i : Instr) (y : Ring) (l : List Piece) =>
      Answers i s (Rung q fun b => b.host.rings = mset none d.host.rings n (some y) ∧ Only (.rings :: l) a b)
    (ringOf d n = none → (BellTaken d q p 0 w0 w1 → refused (.produce qp w0 w1)) ∧
      (BellTaken d q p 2 w0 w1 → refused (.unbind qp w0 w1)) ∧ (BellTaken d q p 3 w0 w1 → refused (.resume qp w0 w1)) ∧
      (BellTaken d q p 4 w0 w1 → refused (.flush qp w0 w1))) ∧
    (∀ x, ringOf d n = some x →
      let far := (k + 2 ^ 32 - x.fetch) % 2 ^ 32
      let freed := x.walk.elim false (·.freed)
      let serves := x.target = 1 ∧ ringServes d n = true
      (BellTaken d q p 0 w0 w1 → far ≤ 2 ^ x.log2 → put (.produce qp w0 w1) { x with prod := k } []) ∧
      (BellTaken d q p 0 w0 w1 → 2 ^ x.log2 < far → refused (.produce qp w0 w1)) ∧
      (BellTaken d q p 2 w0 w1 → ¬ serves →
        put (.unbind qp w0 w1) { x with walk := some ⟨x.prod, true, freed⟩, head := none } [.turns]) ∧
      (BellTaken d q p 2 w0 w1 → serves → refused (.unbind qp w0 w1)) ∧
      (BellTaken d q p 3 w0 w1 → Answers (.resume qp w0 w1) s (Rung q fun b => ∃ e : Dev,
        e.host.rings = mset none d.host.rings n (some { x with halted := false }) ∧ Only [.rings] a e ∧
        b = (accountHeads (some x.core) e.start).dev)) ∧
      (BellTaken d q p 4 w0 w1 →
        put (.flush qp w0 w1) { x with walk := some ⟨x.prod, x.walk.elim false (·.unbind), freed⟩, head := none } [.turns]))

/-- R432 to R435: BIND binds an unbound ring as a valid descriptor says, with its fetch pointer at 0; HOSTRING binds a
host ring without unconsumed entries, an event ring only from the owner's queue pair; CONSUME records an index up to the
producer's. Otherwise the record is invalid, and so is one whose descriptor cannot be read (the model's choice,
assumption 34). -/
def Claim.BindBells : Prop :=
  ∀ (s : State) (qp : QpId) (w0 w1 : Dword) (p : Nat),
    let q := qp.val
    let n := 16 * q + bRing w0
    let d := s.toDev
    let a := d.received q 1
    let z := readDescriptor p w1.toNat a.start
    let i := Instr.bind qp w0 w1
    let j := Instr.hostring qp w0 w1
    let rung := fun (i : Instr) (P : Dev → Prop) => Answers i s (Rung q P)
    let refused := fun (i : Instr) (e : Dev) => rung i (BellRefused p q w0 e)
    let fits := fun (w : List Dword) => ringDescOk w = true ∧
      ownedRange z.2.dev p (0xFFFF * 2 ^ 48 + (ringFrom w).base) (64 * 2 ^ (ringFrom w).log2) = true ∧
      targetFree z.2.dev p (ringFrom w) = true
    let used := ∃ h, hostRingOf d n = some h ∧ (h.prod ≠ h.cons ∨ h.wait ≠ [])
    (BellTaken d q p 1 w0 w1 → ringOf d n ≠ none → refused i a) ∧
    (BellTaken d q p 1 w0 w1 → ringOf d n = none → (∀ w, z.1 ≠ .good w) → refused i z.2.dev) ∧
    (∀ w, BellTaken d q p 1 w0 w1 → ringOf d n = none → z.1 = .good w → ¬ fits w → refused i z.2.dev) ∧
    (∀ w, BellTaken d q p 1 w0 w1 → ringOf d n = none → z.1 = .good w → fits w → rung i fun b =>
      ringOf b n = some (ringFrom w) ∧ (∀ m, m ≠ n → ringOf b m = ringOf d m) ∧ Only (.rings :: homePieces) a b) ∧
    (BellTaken d q p 5 w0 w1 → used → refused j a) ∧
    (BellTaken d q p 5 w0 w1 → ¬ used → (∀ w, z.1 ≠ .good w) → refused j z.2.dev) ∧
    (∀ w, BellTaken d q p 5 w0 w1 → ¬ used → z.1 = .good w →
      (hostRingFrom w = none ∨ ∃ h, hostRingFrom w = some h ∧ h.event = true ∧ q ≠ ownerQp z.2.dev p) →
      refused j z.2.dev) ∧
    (∀ w h, BellTaken d q p 5 w0 w1 → ¬ used → z.1 = .good w → hostRingFrom w = some h →
      (h.event = true → q = ownerQp z.2.dev p) → rung j fun b => hostRingOf b n = some h ∧
        Only (.hostRings :: homePieces) a b) ∧
    (BellTaken d q p 6 w0 w1 → hostRingOf d n = none → refused (.consume qp w0 w1) a) ∧
    (∀ h, BellTaken d q p 6 w0 w1 → hostRingOf d n = some h →
      let fits := (bIndex w0 + 2 ^ 32 - h.cons) % 2 ^ 32 ≤ (h.prod + 2 ^ 32 - h.cons) % 2 ^ 32
      (fits → rung (.consume qp w0 w1) fun b =>
        b.host.hostRings = mset none d.host.hostRings n (some { h with cons := bIndex w0 }) ∧ Only [.hostRings] a b) ∧
      (¬ fits → refused (.consume qp w0 w1) a))

/-- A record of the action `act` that does nothing, `i` bringing it. -/
def Claim.RecordRefused (s : State) (qp : QpId) (w0 w1 : Dword) (act : Nat) (i : Instr) : Prop :=
  ∀ p : Nat,
    let q := qp.val
    let d := s.toDev
    let port := qpPort (qpOf d q)
    let a := d.received q 1
    let here := portUp d port = true ∧ bAction w0 = act
    let ready := (qpOf d q).mode = .ready
    let taken := here ∧ ready ∧ bellHeld d w0 w1 = false
    let shut := q = 0 ∧ authenticated d = false ∧ bellOpen w0 = false
    let soiled := bits w0.toNat 31 8 ≠ 0 ∨ (act ≠ 1 ∧ act ≠ 5 ∧ w1.toNat ≠ 0)
    (¬ here → Gives i s d) ∧
    (here → ready → bellHeld d w0 w1 = true → Gives i s d) ∧
    (here → ¬ ready → Answers i s fun b =>
      reg b (ethOff port 0x2C) = (reg d (ethOff port 0x2C) + 1) % 2 ^ 32 ∧ Only [.block 128] a b) ∧
    (taken → qpPart d q = none → Answers i s (HostAcked q 1 a)) ∧
    (taken → qpPart d q = some p → shut → Answers i s (Rung q fun b =>
      EventSent p stSig 9 0 (16 * q + bRing w0) w0.toNat a b ∧ Only hostPieces a b)) ∧
    (taken → qpPart d q = some p → ¬ shut → soiled → Answers i s (Rung q (BellRefused p q w0 a)))

/-- R425, R428, R432, R441, R445, R476: a record with reserved bits or a word 1 that its action does not use is invalid
(the latter is the model's choice, assumption 34); before queue pair 0 has authenticated, a record other than those of
R441 sends an event with SIGNATURE_INVALID and does nothing; on a queue pair without a partition it does nothing. Each of
these messages is counted and acknowledged. On a queue pair that is not ready it is discarded and counted so; with the
port down, or while its descriptor is held, nothing has arrived. -/
def Claim.BellsRefused : Prop :=
  ∀ (s : State) (qp : QpId) (w0 w1 : Dword),
    Claim.RecordRefused s qp w0 w1 0 (.produce qp w0 w1) ∧ Claim.RecordRefused s qp w0 w1 1 (.bind qp w0 w1) ∧
    Claim.RecordRefused s qp w0 w1 2 (.unbind qp w0 w1) ∧ Claim.RecordRefused s qp w0 w1 3 (.resume qp w0 w1) ∧
    Claim.RecordRefused s qp w0 w1 4 (.flush qp w0 w1) ∧ Claim.RecordRefused s qp w0 w1 5 (.hostring qp w0 w1) ∧
    Claim.RecordRefused s qp w0 w1 6 (.consume qp w0 w1)

/-- PRODUCE, BIND, UNBIND, RESUME, FLUSH, HOSTRING and CONSUME. -/
def Obligations.DoorbellsRung : Prop := Claim.RingBells ∧ Claim.BindBells ∧ Claim.BellsRefused

/-! ## Accesses and packets of hosts -/

/-- R429: the module key of the queue pair's partition admits a write of memory-mode granules that its regions cover, the
doorbell key one of 16, 32, 48 or 64 bytes at address 0; no other key admits any. -/
def Claim.KeysAdmit : Prop :=
  ∀ (d : Dev) (q p rkey va len : Nat), qpPart d q = some p → p < 16 →
    (writeOk d q rkey va len = true ↔
      (rkey = 0x4B440000 + p ∧ va = 0 ∧ len ∈ [16, 32, 48, 64]) ∨ (rkey = 0x4B4D0000 + p ∧ ownedRange d p va len = true))

/-- R192, R425, R428, R429, R445, R453, R476: a host's RDMA WRITE by the module key writes its bytes at their homes, one
by the doorbell key rings; an RDMA READ returns the bytes. The packets are counted. Each is acknowledged; one that its
key does not admit is refused with remote access error, one that meets an uncorrectable granule with remote operational
error; one aimed at what is held, and a READ beyond 16 outstanding, waits. On a queue pair that is not ready it
is discarded and counted so; nothing arrives at a port that is down. That a message which waits is counted when it is
performed, and that the acknowledgement is of its last packet, are the model's choices (assumption 35). -/
def Claim.HostAccessesPerformed : Prop :=
  ∀ (s : State) (qp : QpId) (rkey va len : Nat) (data : List Byte),
    let q := qp.val
    let d := s.toDev
    let port := qpPort (qpOf d q)
    let k := packetsOf (qpOf d q) data.length
    let a := d.received q k
    let c := d.received q 1
    let i := Instr.hostRdmaWrite qp rkey va data
    let j := Instr.hostRdmaRead qp rkey va len
    let w := writeRange va data a.start
    let z := readRange va len c.start
    let bell := rkey / 2 ^ 16 = 0x4B44
    let owned := ∃ p, qpPart d q = some p ∧ rkey = 0x4B4D0000 + p ∧ ownedRange d p va len = true
    let full := 16 ≤ openReads d q
    let dropped := fun (n : Nat) (b : Dev) =>
      reg b (ethOff port 0x2C) = (reg d (ethOff port 0x2C) + n) % 2 ^ 32 ∧ Only [.ports, .block 128] d b
    (portUp d port = false → Gives i s d ∧ Gives j s d) ∧
    (portUp d port = true → (qpOf d q).mode ≠ .ready → Answers i s (dropped k) ∧ Answers j s (dropped 1)) ∧
    (qpReady d q = true →
      (writeOk d q rkey va data.length = false → Answers i s (HostRefused q nakAccess a)) ∧
      (writeOk d q rkey va data.length = true →
        (bell → bellsHeld d data = true → Gives i s d) ∧
        (bell → bellsHeld d data = false → Answers i s (HostAcked q k (doorbells q data a.start).dev)) ∧
        (¬ bell → rangeWaits d va data.length = true → Gives i s d) ∧
        (¬ bell → rangeWaits d va data.length = false → w.1 = true → Answers i s (HostAcked q k w.2.dev)) ∧
        (¬ bell → rangeWaits d va data.length = false → w.1 = false → Answers i s (HostRefused q nakOperational w.2.dev))) ∧
      (¬ owned → Answers j s (HostRefused q nakAccess c)) ∧
      (owned → (rangeWaits d va len = true ∨ full) → Gives j s d) ∧
      (owned → rangeWaits d va len = false → ¬ full → z.1 = none → Answers j s (HostRefused q nakOperational z.2.dev)) ∧
      (∀ b, owned → rangeWaits d va len = false → ¬ full → z.1 = some b → Answers j s fun e =>
        let x := qpOf z.2.dev q
        .readData q x.recvPsn b ∈ (portOf e (qpPort x)).egress ∧
        (qpOf e q).recvPsn = (x.recvPsn + packetsOf (qpOf d q) len) % 2 ^ 24 ∧ Only [.qps, .ports, .block 128] z.2.dev e))

/-- R421, R423, R425, R428 to R430: a packet on a port that is up is counted with its port's codewords and fills
the buffer of its priority; one that uses what R421 does not support, or names no ready queue pair, is discarded and
counted. A request in order is performed at its last packet, as a whole one is; an earlier packet is kept. A duplicate is
acknowledged again and not performed; a packet ahead of order brings one NAK. An ACK frees the messages it covers, up to
the first READ, which its response alone frees; a NAK other than a sequence error puts the queue pair in error. That only
the last packet of a message is acknowledged, and a READ by its response only, are the model's choices (assumption 35). -/
def Claim.PacketsTaken : Prop :=
  ∀ (s : State) (port : PortId) (pk : Packet) (now : Nat),
    let p := port.val
    let r := reach now s.toDev.start
    let q := pk.qpn - 0x100000
    let h := holdBuffer p (pk.priority % 8) pk.held (countRx p (countCodewords p pk r))
    let known := pk.supported = true ∧ 0x100000 ≤ pk.qpn ∧ q < 256 ∧ qpReady h.dev q = true
    let e := if pk.ce then answerMark q h else h
    let x := qpOf e.dev q
    let psn := pk.psn % 2 ^ 24
    let i := Instr.rocePacket port pk now
    let request := (∃ f l va k n b, pk.op = .write f l va k n b) ∨ ∃ f l b, pk.op = .send f l b
    let egress := fun (d : Dev) => (portOf d (qpPort x)).egress
    let drop := ethOff p 0x2C
    (portUp r.dev p = false → Gives i s r.dev) ∧
    (portUp r.dev p = true → ¬ known → Answers i s fun d =>
      reg d drop = (reg h.dev drop + 1) % 2 ^ 32 ∧ Only [.block 128] h.dev d) ∧
    (portUp r.dev p = true → known →
      (pk.op = .ack → Answers i s fun d => Only [.qps] e.dev d ∧
        (qpOf d q).unacked = x.unacked.dropWhile fun m => !isRead m && psnLe (lastPsn m) psn) ∧
      (∀ c, pk.op = .nak c → c ≠ 0 → c ≠ nakAccess → Answers i s (QpErrored q e.dev)) ∧
      (request → psn ≠ x.recvPsn → psnLe psn x.recvPsn = true → Answers i s fun d =>
        .ack q ((x.recvPsn + 2 ^ 24 - 1) % 2 ^ 24) ∈ egress d ∧ Only [.ports, .block 128] e.dev d) ∧
      (request → psn ≠ x.recvPsn → psnLe psn x.recvPsn = false → x.nakSent = true → Gives i s e.dev) ∧
      (request → psn ≠ x.recvPsn → psnLe psn x.recvPsn = false → x.nakSent = false → Answers i s fun d =>
        .nak q x.recvPsn 0 ∈ egress d ∧ (qpOf d q).nakSent = true ∧ Only [.qps, .ports, .block 128] e.dev d) ∧
      (∀ va k n b, pk.op = .write true false va k n b → psn = x.recvPsn → x.inOpen = false → b.length = qpMtu x →
        b.length ≤ n → writeOk e.dev q k va n = true → Answers i s fun d => Only [.qps] e.dev d ∧
          (qpOf d q).inData = b ∧ (qpOf d q).inOpen = true ∧ (qpOf d q).inLeft = n - b.length ∧
          (qpOf d q).recvPsn = (x.recvPsn + 1) % 2 ^ 24) ∧
      (∀ va k b, pk.op = .write true true va k b.length b → psn = x.recvPsn → x.inOpen = false → b.length ≤ qpMtu x →
        writeOk e.dev q k va b.length = true → k / 2 ^ 16 = 0x4B4D → rangeWaits e.dev va b.length = false →
        (writeRange va b e).1 = true → Answers i s (HostAcked q 1 (writeRange va b e).2.dev)) ∧
      (∀ b, pk.op = .send true true b → psn = x.recvPsn → x.inOpen = false → b.length ∈ [16, 32, 48, 64] →
        b.length ≤ qpMtu x → bellsHeld e.dev b = false → Answers i s (HostAcked q 1 (doorbells q b e).dev)) ∧
      (∀ b, pk.op = .send true true b → psn = x.recvPsn → b.length ∉ [16, 32, 48, 64] →
        Answers i s (HostRefused q nakInvalid e.dev)) ∧
      (∀ va k n b part, pk.op = .read va k n → psn = x.recvPsn → x.inOpen = false → qpPart e.dev q = some part →
        k = 0x4B4D0000 + part → ownedRange e.dev part va n = true → rangeWaits e.dev va n = false →
        openReads e.dev q < 16 → (readRange va n e).1 = some b → Answers i s fun d => .readData q x.recvPsn b ∈ egress d ∧
          (qpOf d q).recvPsn = (x.recvPsn + packetsOf x n) % 2 ^ 24 ∧
          Only [.qps, .ports, .block 128] (readRange va n e).2.dev d) ∧
      (∀ z b, pk.op = .response z b → (∀ m, x.unacked.find? isRead = some m → m.psn ≠ psn) → Gives i s e.dev) ∧
      (∀ z b m, pk.op = .response z b → x.unacked.find? isRead = some m → m.psn = psn → Answers i s fun d =>
        (∃ l, (qpOf d q).unacked = (x.unacked.dropWhile fun y => !isRead y).drop 1 ++ l ∧ ∀ y ∈ l, isRead y = true) ∧
          (qpOf d q).retries = 0 ∧ Only [.serving, .qps, .ports, .block 128] e.dev d))

/-- R427, R428: without progress for the ACK timeout every unacknowledged message leaves again, as often as the descriptor
allows; then the queue pair is in error, of which the event's code is free (the model's choice, assumption 35). -/
def Claim.AckTimesOut : Prop :=
  ∀ (s : State) (qp : QpId) (now : Nat),
    let q := qp.val
    let r := reach now s.toDev.start
    let x := qpOf r.dev q
    let p := qpPort x
    let late := qpReady r.dev q = true ∧ x.unacked ≠ [] ∧ x.since + 4096 * 2 ^ bits (wd x.desc 1) 46 43 ≤ r.dev.time
    let left := x.retries < bits (wd x.desc 1) 49 47
    let i := Instr.ackTimeout qp now
    (late → left → Answers i s fun d =>
      qpOf d q = { x with retries := x.retries + 1, since := r.dev.time } ∧
      (portOf d p).egress = (portOf r.dev p).egress ++ x.unacked.map (·.msg) ∧ Only [.qps, .ports, .block 128] r.dev d) ∧
    (late → ¬ left → Answers i s (QpErrored q r.dev)) ∧
    (¬ late → Gives i s r.dev)

/-- HOST_RDMA_WRITE, HOST_RDMA_READ, ROCE_PACKET and ACK_TIMEOUT. -/
def Obligations.HostsServed : Prop :=
  Claim.KeysAdmit ∧ Claim.HostAccessesPerformed ∧ Claim.PacketsTaken ∧ Claim.AckTimesOut

/-! ## Host ports -/

/-- R423, R445: a lossless priority that holds more than xoff KiB sends XOFF once, and XON once it holds fewer than xon; a
CE mark is answered by a CNP, at most one in 50 µs. A port that idles takes some of what it holds: how much is free (the
model's choice, assumption 53), and XON follows. -/
def Claim.BuffersHeld : Prop :=
  (∀ (d : Dev) (p : Nat), p < 2 →
    let x := portOf d p
    let b := (drainPort p d.start).dev
    let y := portOf b p
    Only [.ports, .block 128] d b ∧ ∀ n, n < 8 → mget 0 y.fill n ≤ mget 0 x.fill n ∧
      ∀ xoff xon, pfcLimits d p n = some (xoff, xon) → mget 0 x.fill n ≠ 0 → mget 0 y.fill n < xon →
        bit x.xoff n = true → .pfc n false ∈ y.egress ∧ bit y.xoff n = false) ∧
  (∀ (d : Dev) (p n held xoff xon : Nat), p < 2 → n < 8 → pfcLimits d p n = some (xoff, xon) →
    let x := portOf d p
    let b := (holdBuffer p n held d.start).dev
    let y := portOf b p
    let sent := fun (on : Bool) => y.egress = x.egress ++ [.pfc n on] ∧ bit y.xoff n = on ∧
      reg b (ethOff p 0x3C) = (reg d (ethOff p 0x3C) + 1) % 2 ^ 32
    mget 0 y.fill n = min held 256 ∧ Only [.ports, .block 128] d b ∧
      (xoff < held → bit x.xoff n = false → sent true) ∧
      (held ≤ xoff → held < xon → bit x.xoff n = true → sent false) ∧
      (¬ (xoff < held ∧ bit x.xoff n = false) → ¬ (held < xon ∧ bit x.xoff n = true) →
        y.egress = x.egress ∧ y.xoff = x.xoff)) ∧
  ∀ (d : Dev) (q : Nat),
    let x := qpOf d q
    let b := (answerMark q d.start).dev
    let lately := ∃ t, x.cnpSent = some t ∧ d.time < t + 50000
    (lately → b = d) ∧
    (¬ lately → (portOf b (qpPort x)).egress = (portOf d (qpPort x)).egress ++ [.cnp q] ∧
      qpOf b q = { x with cnpSent := some d.time } ∧ Only [.qps, .ports, .block 128] d b)

/-- R423: a CNP halves the rate of its queue pair, to no less than C/256 and at most once in 50 µs; 55 µs without one
raise it by C/64, up to C. Rates are whole kB/s, rounded down (the model's choice, assumption 35). -/
def Claim.RatesFollow : Prop :=
  ∀ (s : State) (qp : QpId) (now : Nat),
    let q := qp.val
    let r := reach now s.toDev.start
    let t := r.dev.time
    let x := qpOf r.dev q
    let cut := ∀ u, x.cutAt = some u → u + 50000 ≤ t
    let due := ∃ u, x.cnpAt = some u ∧ max u x.riseAt + 55000 ≤ t
    let count := ethOff (qpPort x) 0x40
    (qpReady r.dev q = true → Answers (.cnpReceived qp now) s fun d => (qpOf d q).cnpAt = some t ∧
      (cut → (qpOf d q).rate = max (x.rate / 2) (100000000 / 256) ∧ (qpOf d q).cutAt = some t) ∧
      (¬ cut → (qpOf d q).rate = x.rate ∧ (qpOf d q).cutAt = x.cutAt) ∧
      reg d count = (reg r.dev count + 1) % 2 ^ 32 ∧ Only [.qps, .ports, .block 128] r.dev d) ∧
    (portUp r.dev (qpPort x) = true → x.mode ≠ .ready → Answers (.cnpReceived qp now) s fun d =>
      let drops := ethOff (qpPort x) 0x2C
      reg d drops = (reg r.dev drops + 1) % 2 ^ 32 ∧ Only [.ports, .block 128] r.dev d) ∧
    (portUp r.dev (qpPort x) = false → Gives (.cnpReceived qp now) s r.dev) ∧
    (due → Answers (.rateRecovery qp now) s fun d =>
      qpOf d q = { x with rate := min 100000000 (x.rate + 100000000 / 64), riseAt := t } ∧ Only [.qps] r.dev d) ∧
    (¬ due → Gives (.rateRecovery qp now) s r.dev)

/-- R421 to R423, R445, R476: a port that is up takes PFC frames, counts and discards LLDPDUs, answers requests for its
own addresses and no others, and sends an LLDPDU every 30 s; a port comes up unless bring-up has halted, and goes down.
-/
def Claim.PortsServe : Prop :=
  ∀ (s : State) (port : PortId) (a b now : Nat),
    let p := port.val
    let d := s.toDev
    let x := portOf d p
    let r := reach now d.start
    let up := portUp d p = true
    let heard := fun (d' : Dev) => Only [.ports, .block 128] d d'
    let same := fun (d' : Dev) => (portOf d' p).egress = x.egress
    let own4 := reg d (ethOff p 0x0C)
    let own6 := ipv6Of d p
    let due := up ∧ x.lldpAt + 30000000000 ≤ r.dev.time
    (up → Answers (.pfcFrame port a b) s fun d' => heard d' ∧ same d' ∧
      (∀ i, i < 8 → bit (portOf d' p).paused i = if bit a i then bit b i else bit x.paused i) ∧
      reg d' (ethOff p 0x38) = (reg d (ethOff p 0x38) + 1) % 2 ^ 32) ∧
    (up → Answers (.lldpReceived port) s fun d' => heard d' ∧ same d' ∧
      reg d' (ethOff p 0x48) = (reg d (ethOff p 0x48) + 1) % 2 ^ 32) ∧
    (up → own4 ≠ 0 → a = own4 → Answers (.arpReply port a b) s fun d' => heard d' ∧
      (portOf d' p).egress = x.egress ++ [.arpReply a b]) ∧
    (up → (own4 = 0 ∨ a ≠ own4) → Answers (.arpReply port a b) s fun d' => heard d' ∧ same d') ∧
    (up → own6 ≠ 0 → a = own6 → Answers (.neighbourAdvertisement port a b) s fun d' => heard d' ∧
      (portOf d' p).egress = x.egress ++ [.neighbourAdvertisement a b]) ∧
    (up → (own6 = 0 ∨ a ≠ own6) → Answers (.neighbourAdvertisement port a b) s fun d' => heard d' ∧ same d') ∧
    (¬ up → Gives (.pfcFrame port a b) s d ∧ Gives (.lldpReceived port) s d ∧ Gives (.arpReply port a b) s d ∧
      Gives (.neighbourAdvertisement port a b) s d) ∧
    (due → Answers (.lldpTransmit port now) s fun d' => (portOf d' p).egress = x.egress ++ [.lldp (portMac d p) (portMac d p) 120 "KX-20"] ∧
      (portOf d' p).lldpAt = r.dev.time ∧ Only [.ports, .block 128] r.dev d') ∧
    (¬ due → Gives (.lldpTransmit port now) s r.dev) ∧
    (d.board.rails = true → isHalted d = false → Answers (.ethPortUp port) s fun d' => portUp d' p = true ∧
      Only [.block 128] d d') ∧
    Answers (.ethPortDown port) s fun d' => portUp d' p = false ∧ Only [.block 128] d d'

/-- R423, R424, R445: a port that is up sends one frame at a time: the oldest acknowledgement, NAK, CNP or frame of its
own that no received XOFF holds; without one, the next packet of the message whose turn it is among those that may
leave: the partitions come in rounds, ascending, and a partition's queue pairs round-robin. A message leaves the egress
with its last packet. Frames are counted, in units of 1,024. That the port's own frames leave with the acknowledgements,
and that a received XOFF holds acknowledgements too, are the model's choices (assumption 53). -/
def Claim.PortsGrant : Prop :=
  ∀ (d : Dev) (p : Nat), p < 2 →
    let b := (grantPort p d.start).dev
    let x := portOf d p
    let y := portOf b p
    let first := fun (i : Nat) (m : Msg) => x.egress[i]? = some m ∧ urgent m = true ∧ heldByPfc d p m = false ∧
      ∀ j n, j < i → x.egress[j]? = some n → urgent n = true → heldByPfc d p n = true
    let l := mayLeave d p
    let wants := fun (a : Nat) => a < 16 ∧ ∃ e ∈ l, sendPart d e.2.1 = a
    let sends := fun (m : Msg) (k : Nat) => (∃ h, y.sent = x.sent ++ [⟨m, k, h⟩]) ∧ y.tx = (x.tx + 1) % 1024 ∧
      reg b (ethOff p 0x28) = (reg d (ethOff p 0x28) + (x.tx + 1) / 1024) % 2 ^ 32
    let turn := fun (a : Nat) => wants a ∧
      ((∃ before, x.round = before ++ a :: y.round ∧ ∀ c ∈ before, ¬ wants c) ∨
        ((∀ c ∈ x.round, ¬ wants c) ∧ (∀ c, wants c → a ≤ c) ∧ ∀ c, c ∈ y.round ↔ wants c ∧ c ≠ a))
    let next := fun (last q : Nat) (m : List (Nat × Nat × Msg)) =>
      (last < q ∧ ∀ e ∈ m, last < e.2.1 → q ≤ e.2.1) ∨ ((∀ e ∈ m, e.2.1 ≤ last) ∧ ∀ e ∈ m, q ≤ e.2.1)
    Only [.ports, .buckets, .block 128] d b ∧
    (portUp d p = false → b = d) ∧
    (∀ i m, portUp d p = true → first i m → sends m 0 ∧ y.egress = x.egress.eraseIdx i ∧ Only [.ports, .block 128] d b) ∧
    (portUp d p = true → (¬ ∃ i m, first i m) → (∀ a, ¬ wants a) → b = d) ∧
    (portUp d p = true → (¬ ∃ i m, first i m) → (∃ a, wants a) → ∃ i q m, (i, q, m) ∈ l ∧
      let k := mget 0 x.begun q
      let last := msgFrames (qpOf d q) m ≤ k + 1
      turn (sendPart d q) ∧ next (mget 0 x.lastQp (sendPart d q)) q (l.filter fun e => sendPart d e.2.1 == sendPart d q) ∧
      mget 0 y.lastQp (sendPart d q) = q ∧ sends m k ∧
      (last → y.egress = x.egress.eraseIdx i ∧ mget 0 y.begun q = 0) ∧
      (¬ last → y.egress = x.egress ∧ mget 0 y.begun q = k + 1))

/-- R370, R371, R423, R424: what may leave a port is the oldest message of a queue pair whose priority is not held, with
the tokens for its next packet, or borrowing while no such message of another partition has them. The bytes of a packet
are those of assumption 53. -/
def Claim.PacketsMayLeave : Prop :=
  ∀ (d : Dev) (p i q : Nat) (m : Msg), (i, q, m) ∈ mayLeave d p →
    let e := (portOf d p).egress
    e[i]? = some m ∧ msgQp m = some q ∧ urgent m = false ∧ heldByPfc d p m = false ∧
    (∀ (j : Nat) n, j < i → e[j]? = some n → msgQp n = some q → urgent n = true) ∧
    (packetTokens d p (i, q, m) = true ∨ (mayBorrow d (sendPart d q) 0x28 = true ∧
      ∀ y ∈ oldestBulk d p, heldByPfc d p y.2.2 = false → sendPart d y.2.1 ≠ sendPart d q → packetTokens d p y = false))

/-- PFC_FRAME, CNP_RECEIVED, RATE_RECOVERY, LLDP_TRANSMIT, LLDP_RECEIVED, ARP_REPLY, NEIGHBOUR_ADVERTISEMENT, ETH_PORT_UP
and ETH_PORT_DOWN; what leaves a port. -/
def Obligations.PortsRun : Prop :=
  Claim.BuffersHeld ∧ Claim.RatesFollow ∧ Claim.PortsServe ∧ Claim.PortsGrant ∧ Claim.PacketsMayLeave

/-! ## Control commands of the management host -/

/-- R440, R441, R484: AUTH_NONCE draws a nonce and writes it to the host; without a random source it gets
SIGNATURE_INVALID. AUTH authenticates queue pair 0 if the signature over nonce, FEAT_ID and device number verifies under
the owner key; each nonce serves once. That AUTH reads and verifies the signature in one step, waiting for a queue pair
that is ready with no READ outstanding, is the model's choice (assumptions 35 and 38). -/
def Claim.HostAuthenticates : Prop :=
  ∀ (s : State) (ring : RingId) (sig : List Byte) (x : Ring) (w : List Dword),
    let n := ring.val
    let q := n / 16
    let d := s.toDev
    let z := drawRandom d.start
    let nonce := natLE z.1 32
    let y := qpOf d q
    let m := Msg.read q (cHost w) (cKey w) 64 0
    let asked := egress (qpPort y) m (setQp q
      { y with sendPsn := (y.sendPsn + msgPackets y m) % 2 ^ 24, unacked := [], retries := 0, since := d.time } d.start)
    let can := qpReady d q = true ∧ y.unacked.any isRead = false
    let e := asked.emit (.nonce none)
    let good := ∃ c, d.host.nonce = some c ∧ sig.length = 64 ∧
      verifyBytes (ownerKey d.boot.config) (sha256 (c ++ natLE (reg d 0) 4 ++ natLE (deviceNumber d) 2)) sig = true
    (OnControl d n ctNonce x w → d.boot.noRandom = true → Answers (.authNonce ring) s (ControlEnded n x stSig d)) ∧
    (OnControl d n ctNonce x w → d.boot.noRandom = false → Answers (.authNonce ring) s fun b =>
      b.host.nonce = some nonce ∧ b.boot = { d.boot with draws := d.boot.draws + 1 } ∧
      ControlEnded n x stOk (sendMsg q (.write q (cHost w) (cKey w) nonce) (z.2.emit (.nonce (some nonce)))).dev b) ∧
    (OnControl d n ctAuth x w → ¬ can → Gives (.auth ring sig) s d) ∧
    (OnControl d n ctAuth x w → can → good → Answers (.auth ring sig) s fun b => authenticated b = true ∧ b.host.nonce = none ∧
      ControlEnded n x stOk (setReg 0x400100 1 e).dev b) ∧
    (OnControl d n ctAuth x w → can → ¬ good → Answers (.auth ring sig) s fun b =>
      authenticated b = authenticated d ∧ b.host.nonce = none ∧ ControlEnded n x stSig e.dev b)

/-- R427, R428, R453: QP_CONNECT makes a queue pair ready as a valid descriptor of partition 0 says, if the queue pair
is in use and not ready; QP_RESET puts a queue pair in reset. A queue pair, or a descriptor, that is not valid gets
DESCRIPTOR_INVALID, a descriptor whose granule is uncorrectable ECC_UNCORRECTABLE with its address. That a ready queue
pair refuses QP_CONNECT is the model's choice (assumption 35). -/
def Claim.QueuePairsConnected : Prop :=
  ∀ (s : State) (ring : RingId) (x : Ring) (w : List Dword),
    let n := ring.val
    let d := s.toDev
    let q := bits (wd w 1) 31 0
    let z := readDescriptor 0 (cHost w) d.start
    let i := Instr.qpConnect ring
    let can := q < 256 ∧ qpPart d q ≠ none ∧ (qpOf d q).mode ≠ .ready
    let waits := rangeWaits d (cHost w) 64 = true
    (OnControl d n ctConnect x w → waits → Gives i s d) ∧
    (OnControl d n ctConnect x w → ¬ waits → ¬ can → Answers i s (ControlEnded n x stDescriptor d)) ∧
    (OnControl d n ctConnect x w → ¬ waits → can → (z.1 = .absent ∨ ∃ c, z.1 = .good c ∧ qpDescOk c = false) →
      Answers i s (ControlEnded n x stDescriptor z.2.dev)) ∧
    (OnControl d n ctConnect x w → ¬ waits → can → z.1 = .bad →
      Answers i s (ControlReported n x { plain stUncorrectable with faultAddr := cHost w, faultCount := 1 } z.2.dev)) ∧
    (∀ c, OnControl d n ctConnect x w → ¬ waits → can → z.1 = .good c → qpDescOk c = true → Answers i s fun b =>
      (qpOf b q).mode = .ready ∧ (qpOf b q).desc = c ∧ (qpOf b q).recvPsn = bits (wd c 2) 47 24 ∧
      ControlEnded n x stOk (connect q c z.2).dev b) ∧
    (OnControl d n ctReset x w → 256 ≤ q → Answers (.qpReset ring) s (ControlEnded n x stDescriptor d)) ∧
    (OnControl d n ctReset x w → q < 256 → Answers (.qpReset ring) s fun b =>
      (qpOf b q).mode = .reset ∧ (qpOf b q).inOpen = false ∧ (q = 0 → authenticated b = false) ∧
      Only (.rings :: .turns :: .serving :: hostPieces) d b)

/-- R491 to R493: ATTEST waits for a bake; the partition must be the queue pair's own, or one in force for the management
host; without a random source it gets SIGNATURE_INVALID. Else the report with its signature under the identity key is
written to the host, and the command is under way. -/
def Claim.Attests : Prop :=
  ∀ (s : State) (ring : RingId) (now : Nat) (x : Ring) (w : List Dword),
    let n := ring.val
    let q := n / 16
    let r := reach now s.toDev.start
    let p := bits (wd w 1) 31 0
    let named := if q = 0 then p < 16 ∧ partInForce r.dev p = true else qpPart r.dev q = some p
    let body := reportBody r.dev p ((wordBytes (w.drop 4)).take 32)
    let z := drawRandom r
    let report := body ++ ecdsaSign r.dev.boot.key (beNat (sha256 body)) (z.1 % (p256N - 1) + 1)
    let i := Instr.attest ring now
    OnControl r.dev n ctAttest x w →
    (r.dev.parts.bake ≠ none → Gives i s r.dev) ∧
    (r.dev.parts.bake = none → ¬ named → Answers i s (ControlEnded n x stDescriptor r.dev)) ∧
    (r.dev.parts.bake = none → named → r.dev.boot.noRandom = true → Answers i s (ControlEnded n x stSig r.dev)) ∧
    (r.dev.parts.bake = none → named → r.dev.boot.noRandom = false → Answers i s
      (ControlBegun n x w (some stOk) (sendMsg q (.write q (cHost w) (cKey w) report) z.2).dev))

/-- R494, R495: UPDATE: an extent that partition 0 does not hold, an uncorrectable granule, or the first check that the
image fails ends it with a status and a reason and changes nothing in the flash; else the record of the other slot is
erased, its image erased and programmed, and the command is under way. Reason 1 for the extent and 2 for an uncorrectable
granule are the model's choices (assumption 37). -/
def Claim.UpdateRequested : Prop :=
  ∀ (s : State) (ring : RingId) (x : Ring) (w : List Dword),
    let n := ring.val
    let d := s.toDev
    let a := cHost w
    let len := bits (wd w 1) 31 0
    let z := readRange a len d.start
    let slot := 1 - d.boot.slot
    let o := slot * 0x800000
    let cmds := fun (img : List Byte) => [FlashCmd.erase o 32, .status, .erase (o + 0x1000) img.length, .status,
      .program (o + 0x1000) img, .status]
    let bad := a % 64 ≠ 0 ∨ 8384512 < len ∨ namedRange d 0 a len = false
    let waits := rangeWaits d a len = true
    let fails := fun (b : Dev) (status reason : Nat) => b.boot.flash = d.boot.flash ∧
      reg b (bootOff 0x7C) = 3 + slot * 4 + status * 2 ^ 8 + reason * 2 ^ 16
    let i := Instr.update ring
    OnControl d n ctUpdate x w →
    (bad → Answers i s fun b => fails b stDescriptor 1 ∧ ControlEnded n x stDescriptor (noteUpdate 3 stDescriptor 1 d.start).dev b) ∧
    (¬ bad → waits → Gives i s d) ∧
    (¬ bad → ¬ waits → z.1 = none → Answers i s fun b => fails b stUncorrectable 2 ∧
      ∀ g, firstBad d a len = some g →
        ControlReported n x { plain stUncorrectable with faultAddr := g, faultCount := 1 }
          (noteUpdate 3 stUncorrectable 2 z.2).dev b) ∧
    (∀ img reason status, ¬ bad → ¬ waits → z.1 = some img → updateFault d img len = some (reason, status) →
      Answers i s fun b => fails b status reason ∧ ControlEnded n x status (noteUpdate 3 status reason z.2).dev b) ∧
    (∀ img, ¬ bad → ¬ waits → z.1 = some img → updateFault d img len = none → Answers i s fun b =>
      b.boot = { d.boot with flash := d.boot.flash ++ cmds img } ∧ reg b (bootOff 0x7C) = 1 + slot * 4 ∧
      ∃ e : Dev, ControlBegun n x w none e b ∧ Only (.boot :: .block 10 :: homePieces) d e)

/-- R440, R491, R494, R495: a command that took time completes with its status; an ATTEST is counted (then, and not
before, the model's choice, assumption 38); an UPDATE ends as the flash reports, its slot record programmed last with the
sequence of the booted slot + 1 and the new version shown, or with reason 7. A command whose status is not known goes on.
-/
def Claim.ControlCommandsEnd : Prop :=
  ∀ (s : State) (ring : RingId) (ok : Bool) (now : Nat) (c : Ctrl),
    let n := ring.val
    let r := reach now s.toDev.start
    let d := r.dev
    let i := Instr.controlCommandCompletion ring ok now
    let counts := bootOff 0x88
    let ends := fun (st : Nat) (b : Dev) => b.host.ctrl = (d.host.ctrl.filter fun y => y.ring != n) ∧
      Handed c.host (completionEntry (plain st) 0 0 0 n c.seq d.time) d b ∧
      Only (.ctrl :: .boot :: .block 10 :: hostPieces) d b
    let slot := 1 - d.boot.slot
    let o := slot * 0x800000
    d.host.ctrl.find? (·.ring == n) = some c →
    (∀ st, c.status = some st → Answers i s fun b => ends st b ∧ b.boot = d.boot ∧
      reg b counts = (reg d counts + if cOp c.words = ctAttest then 1 else 0) % 2 ^ 32) ∧
    (∀ before img, c.status = none → cOp c.words = ctUpdate → ok = true →
      d.boot.flash = before ++ [.program (o + 0x1000) img, .status] → Answers i s fun b => ends stOk b ∧
        b.boot = { d.boot with flash := d.boot.flash ++
          [.program o (slotRecordBytes ((bootedSequence d.boot + 1) % 2 ^ 32) img.length), .status] } ∧
        reg b (bootOff 0x80) = imageVersion img % 2 ^ 32 ∧ reg b (bootOff 0x84) = imageVersion img / 2 ^ 32 ∧
        reg b (bootOff 0x7C) = 2 + slot * 4) ∧
    (c.status = none → cOp c.words = ctUpdate → ok = false → Answers i s fun b => ends stDescriptor b ∧ b.boot = d.boot ∧
      reg b (bootOff 0x7C) = 3 + slot * 4 + stDescriptor * 2 ^ 8 + 7 * 2 ^ 16 ∧
      reg b (bootOff 0x80) = reg d (bootOff 0x80) ∧ reg b (bootOff 0x84) = reg d (bootOff 0x84)) ∧
    (c.status = none → cOp c.words ≠ ctUpdate → cOp c.words ≠ ctAttest → Gives i s d)

/-- AUTH_NONCE, AUTH, QP_CONNECT, QP_RESET, ATTEST, UPDATE and CONTROL_COMMAND_COMPLETION. -/
def Obligations.ManagementCommands : Prop :=
  Claim.HostAuthenticates ∧ Claim.QueuePairsConnected ∧ Claim.Attests ∧ Claim.UpdateRequested ∧ Claim.ControlCommandsEnd

/-! ## Device time -/

/-- R442, R443, R447: a Sync of the best master, or the Follow_Up of a two-step one, gives an offset; eight in a row
below 100 ns lock the servo, and the first lock steps device time forward; a Sync with a larger offset starts the count
again; stamps taken before the step move with it. Until the first lock the servo keeps PTP time beside device time (the
model's choice, assumption 54). That a locked servo stays locked on a large offset, and that device time steps only
forward, are the model's choices (assumption 33). -/
def Claim.SyncsUsed : Prop :=
  ∀ (s : State) (port : PortId) (m : PtpMessage) (now : Nat),
    let p := port.val
    let r := reach now s.toDev.start
    let a := r.dev
    let x := a.host.ptp
    let mine := portUp a p = true ∧ ptpFor a p m.domain m.transport = true ∧ x.best[7]? = some (beNat m.master)
    let used := fun (got : Nat) (d : Dev) =>
      let offset : Int := (got : Int) + x.ahead - m.stamp - reg a (ptpOff 0x14)
      let good := if -100 < offset ∧ offset < 100 then x.good + 1 else 0
      let step := x.ahead - offset
      let locks := 8 ≤ good ∧ x.locked = false
      let steps := locks ∧ 0 < step ∧ a.board.rails = true
      let moved := if locks then step.toNat else 0
      d.host.ptp.good = good ∧ d.host.ptp.pending = none ∧ d.host.ptp.lastSync = some d.time ∧
      d.host.ptp.t1 = m.stamp ∧ d.host.ptp.t2 = got + moved ∧ d.host.ptp.delay = x.delay.map (fun e => (e.1, e.2 + moved)) ∧
      ptpState d = (if 8 ≤ good then 2 else if ptpState a = 2 then 2 else 1) ∧
      d.host.ptp.locked = (x.locked || decide (8 ≤ good)) ∧
      (x.locked = false → good = 0 → d.host.ptp.ahead = x.ahead - offset) ∧
      (steps → (d.time : Int) = a.time + step) ∧ (¬ steps → d.time = a.time) ∧
      (-(2 ^ 31) ≤ offset → offset < 2 ^ 31 → (reg d (ptpOff 0x10) : Int) = offset % 2 ^ 32) ∧
      reg d (ptpOff 0x24) = (reg a (ptpOff 0x24) + 1) % 2 ^ 32 ∧ Only [.time, .ptp, .ports, .block 128, .block 129] a d
    (mine → m.twoStep = false → Answers (.syncMessage port m now) s (used a.time)) ∧
    (mine → m.twoStep = true → Answers (.syncMessage port m now) s fun d =>
      d.host.ptp = { x with pending := some (m.seq, a.time) } ∧ Only [.ptp, .ports, .block 128] a d) ∧
    (∀ got, mine → x.pending = some (m.seq, got) → Answers (.followUpMessage port m now) s (used got)) ∧
    (portUp a p = true → ¬ mine → Answers (.syncMessage port m now) s (Only [.ports, .block 128] a) ∧
      Answers (.followUpMessage port m now) s (Only [.ports, .block 128] a)) ∧
    (portUp a p = false → Gives (.syncMessage port m now) s a ∧ Gives (.followUpMessage port m now) s a)

/-- R443, R447: two seconds without a Sync put an acquiring or locked servo in holdover; a departure from locked is
counted. A write of PTP_CTRL takes effect, with transport 3 refused, and the servo acquires again, or runs free with PTP
off (the model's choice, assumption 33). -/
def Claim.ServoHoldsOver : Prop :=
  ∀ (s : State) (ring : RingId) (now : Nat) (y : Ring) (w : List Dword),
    let a := (reach now s.toDev.start).dev
    let x := a.host.ptp
    let due := ∃ t, x.lastSync = some t ∧ t + 2000000000 ≤ a.time ∧ ptpOn a = true ∧ (ptpState a = 1 ∨ ptpState a = 2)
    let gone := fun (a d : Dev) => reg d (ptpOff 0x28) =
      (reg a (ptpOff 0x28) + if ptpState a = 2 ∧ ptpState d ≠ 2 then 1 else 0) % 2 ^ 32
    let v := valueAt w (ptpOff 0xC)
    (due → Answers (.ptpHoldover now) s fun d => ptpState d = 3 ∧ gone a d ∧ d.host.ptp = { x with good := 0 } ∧
      Only [.ptp, .block 129] a d) ∧
    (¬ due → Gives (.ptpHoldover now) s a) ∧
    (OnWrite s.toDev ring.val .ptp y w → bits v 10 9 = 3 →
      Answers (.ptpCtrlWrite ring) s (ControlEnded ring.val y stDescriptor s.toDev)) ∧
    (OnWrite s.toDev ring.val .ptp y w → bits v 10 9 ≠ 3 → Answers (.ptpCtrlWrite ring) s fun d =>
      reg d (ptpOff 0xC) = v % 2 ^ 12 ∧ ptpState d = (if bit v 11 then 1 else 0) ∧ gone s.toDev d ∧
      d.host.ptp = { Ptp.init with locked := s.toDev.host.ptp.locked } ∧
      ControlEnded ring.val y stOk (writePtpCtrl v (writeRegs w s.toDev.start)).dev d)

/-- R443, R447: an Announce makes its sender, a source port identity, the best master if there is none, if it is the best
master's own, if its data set compares lower, or if the best master has been silent too long (the model's choice,
assumption 32); a new master begins anew; its grandmaster is shown (the model's choice, assumption 54). A Delay_Req leaves
with the next sequence number, and its response gives the path delay as the mean of both directions, 0 for a negative mean
(the model's choice, assumption 33). -/
def Claim.MastersAndDelays : Prop :=
  ∀ (s : State) (port : PortId) (ds : List Nat) (domain transport now : Nat) (m : PtpMessage),
    let p := port.val
    let a := (reach now s.toDev.start).dev
    let x := a.host.ptp
    let chosen := x.best = [] ∨ x.bestAt + announceTimeout ≤ a.time ∨ ds[7]? = x.best[7]? ∨ listLt ds x.best = true
    let port' := field a (ptpOff 0xC) 8 8
    let seq := (x.seq + 1) % 2 ^ 16
    let ready := ptpOn a = true ∧ portUp a port' = true ∧ x.best ≠ []
    (portUp a p = true → ptpFor a p domain transport = true → ds.length = 8 → chosen →
      Answers (.announceMessage port ds domain transport now) s fun d =>
        d.host.ptp = (if ds[7]? = x.best[7]? then { x with best := ds, bestAt := a.time }
          else { x with best := ds, bestAt := a.time, pending := none, delay := none, good := 0 }) ∧
        reg d (ptpOff 0x1C) = leNat ((natBE (ds.getD 5 0) 8).take 4) ∧
        reg d (ptpOff 0x20) = leNat ((natBE (ds.getD 5 0) 8).drop 4) ∧ Only [.ptp, .ports, .block 128, .block 129] a d) ∧
    (portUp a p = true → ¬ (ptpFor a p domain transport = true ∧ ds.length = 8 ∧ chosen) →
      Answers (.announceMessage port ds domain transport now) s (Only [.ports, .block 128] a)) ∧
    (ready → Answers (.delayRequest now) s fun d => d.host.ptp = { x with seq := seq, delay := some (seq, a.time) } ∧
      (portOf d port').egress = (portOf a port').egress ++ [.delayReq seq] ∧ Only [.ptp, .ports, .block 128] a d) ∧
    (¬ ready → Gives (.delayRequest now) s a) ∧
    (∀ left, portUp a p = true → ptpFor a p m.domain m.transport = true → x.best[7]? = some (beNat m.master) →
      x.delay = some (m.seq, left) → x.lastSync ≠ none → Answers (.delayResponse port m now) s fun d =>
        let both : Int := ((x.t2 : Int) - x.t1) + ((m.stamp : Int) - left)
        d.host.ptp = { x with delay := none } ∧
        (0 ≤ both → both / 2 < 2 ^ 32 → (reg d (ptpOff 0x14) : Int) = both / 2) ∧ (both < 0 → reg d (ptpOff 0x14) = 0) ∧
        Only [.ptp, .ports, .block 128, .block 129] a d)

/-- SYNC_MESSAGE, FOLLOW_UP_MESSAGE, PTP_HOLDOVER, PTP_CTRL_WRITE, ANNOUNCE_MESSAGE, DELAY_REQUEST and DELAY_RESPONSE. -/
def Obligations.TimeFollowsMaster : Prop := Claim.SyncsUsed ∧ Claim.ServoHoldsOver ∧ Claim.MastersAndDelays

/-! ## Entries of request rings -/

/-- R315, R316, R321: a GENERATE that breaks a rule gets its status at once; else its request is QUEUED as the entry
describes it, and the entry leaves its ring without a completion. That alignment is judged before the other rules is the
model's choice (assumption 46). -/
def Claim.RequestQueued : Prop :=
  ∀ (s : State) (ring : RingId) (now : Nat) (x : Ring) (w : List Dword),
    let n := ring.val
    let d := (reach now s.toDev.start).dev
    let p := ringPart d n
    let g := genFrom n x w d.time
    let v := servingOf d p
    let i := Instr.generate ring now
    serveHead d n 1 = some (x, w) →
    (∀ st, generateFault d p g w = some st → Answers i s (EntryEnded n x 1 g.id st 0 d)) ∧
    (generateFault d p g w = none → Answers i s fun b =>
      servingOf b p = { v with requests := v.requests ++ [{ g with uid := v.nextGen }], nextGen := v.nextGen + 1 } ∧
        b.host.rings = ringsPast d n x ∧ Only [.rings, .turns, .serving] d b) ∧
    ((g.prompt % 64 ≠ 0 ∨ g.addr % 64 ≠ 0) ↔ generateFault d p g w = some stAlign) ∧
    (generateFault d p g w = none → v.active = true ∧ v.gen g.id = none ∧ v.requests.length < 4096 ∧ g.id ≠ 0 ∧
      1 ≤ g.width ∧ g.width ≤ 4 ∧ 1 ≤ g.len ∧ namedRange d p g.prompt (4 * g.len) = true ∧
      ∃ m, v.model g.model = some m ∧ m.type = 1 ∧ (g.stop0 = 2 ^ 32 - 1 ∨ g.stop0 < m.vocab) ∧
        (g.stop1 = 2 ^ 32 - 1 ∨ g.stop1 < m.vocab))

/-- R314, R348: a CANCEL of an id that is not active is refused at once; else it waits for the next boundary, for the
request that is active under the id now. -/
def Claim.CancelRead : Prop :=
  ∀ (s : State) (ring : RingId) (x : Ring) (w : List Dword),
    let n := ring.val
    let d := s.toDev
    let p := ringPart d n
    let v := servingOf d p
    let clean := bits (wd w 0) 31 8 = 0 ∧ wordsZero w [1, 2, 3, 4, 5, 6, 7] = true
    serveHead d n 2 = some (x, w) →
    ((¬ clean ∨ v.gen (sId w) = none) → Answers (.cancel ring) s (EntryEnded n x 2 (sId w) stDescriptor 0 d)) ∧
    (∀ g, clean → v.gen (sId w) = some g → Answers (.cancel ring) s fun b =>
      servingOf b p = { v with cancels := v.cancels ++ [⟨n, x.fetch, n / 16 * 16 + x.host, sId w, g.uid, false⟩] } ∧
        b.host.rings = ringsPast d n x ∧ Only [.rings, .turns, .serving] d b)

/-- R318, R319: MODEL: a plan whose digest differs gets SIGNATURE_INVALID; one whose header breaks R318, that places
data outside the partition's regions (free, assumption 12), or whose handle is in use, DESCRIPTOR_INVALID; else the
handle holds the plan's model. -/
def Claim.ModelRegistered : Prop :=
  ∀ (s : State) (ring : RingId) (x : Ring) (w : List Dword),
    let n := ring.val
    let d := s.toDev
    let p := ringPart d n
    let a := wd w 1
    let len := bits (wd w 2) 31 0
    let h := sModel w
    let can := bits (wd w 0) 31 12 = 0 ∧ bits (wd w 2) 63 32 = 0 ∧ wd w 3 = 0 ∧ namedRange d p a len = true
    let z := readRange a len d.start
    let e := z.2.dev
    let digest := wordBytes ((w.drop 4).take 4)
    let inside := fun (m : Model) => Config.planInside (leNat m.digest) (fresh z.2).1 = true
    let i := Instr.model ring
    let fails := fun (st : Nat) (e : Dev) => Answers i s (EntryEnded n x 6 (sId w) st 0 e)
    serveHead d n 6 = some (x, w) →
    (¬ can → fails stDescriptor d) ∧
    (can → rangeWaits d a len = true → Gives i s d) ∧
    (can → rangeWaits d a len = false → z.1 = none → fails stUncorrectable e) ∧
    (∀ plan, can → rangeWaits d a len = false → z.1 = some plan →
      (sha256 plan ≠ digest → fails stSig e) ∧
      (sha256 plan = digest → modelFrom plan = none → fails stDescriptor e) ∧
      (∀ m, sha256 plan = digest → modelFrom plan = some m → (¬ inside m ∨ (servingOf e p).handleUsed h = true) →
        fails stDescriptor e) ∧
      (∀ m, sha256 plan = digest → modelFrom plan = some m → inside m → (servingOf e p).handleUsed h = false →
        m.digest = digest ∧ Answers i s fun b => (servingOf b p).model h = some m ∧
          (∀ j, j ≠ h → (servingOf b p).model j = (servingOf e p).model j) ∧
          ∃ c : Dev, EntryEnded n x 6 (sId w) stOk 4 c b ∧ Only [.serving] e c))

/-- R310, R320: CONFIG: one that breaks a rule is refused; else the loop takes its clusters in ascending order and its
settings, every cell is free and the index is empty; three counts of 0 remove the configuration. That an entry which
removes it is checked in every word is the model's choice (assumption 46). -/
def Claim.ConfigAccepted : Prop :=
  ∀ (s : State) (ring : RingId) (x : Ring) (w : List Dword),
    let n := ring.val
    let d := s.toDev
    let p := ringPart d n
    let v := servingOf d p
    let dec := bits (wd w 1) 5 0
    let pre := bits (wd w 1) 13 8
    let frm := bits (wd w 1) 21 16
    let own := (List.range 64).filter fun k => clusterPart d k == some p
    serveHead d n 7 = some (x, w) →
    (configBad d p w = true → Answers (.config ring) s (EntryEnded n x 7 (sId w) stDescriptor 0 d)) ∧
    (configBad d p w = false → v.requests = [] ∧ v.streams = [] ∧ dec + pre + frm ≤ own.length ∧
      (dec = 0 → pre = 0 ∧ frm = 0) ∧ bits (wd w 2) 13 0 + 4 ≤ bits (wd w 2) 29 16 ∧
        256 * 2 ^ 20 ≤ wd w 5 ∧ namedRange d p (wd w 4) (wd w 5) = true) ∧
    (configBad d p w = false → Answers (.config ring) s fun b =>
      let u := servingOf b p
      u.active = decide (dec ≠ 0) ∧ u.clusters = own.take (dec + pre + frm) ∧ u.decode = dec ∧ u.prefill = pre ∧
        u.frame = frm ∧ u.rowLo = bits (wd w 2) 13 0 ∧ u.rowHi = bits (wd w 2) 29 16 ∧ u.reserve = bits (wd w 3) 31 0 ∧
        u.limit = (if bits (wd w 3) 63 32 = 0 then 100000 else bits (wd w 3) 63 32) * 1000 ∧ u.work = wd w 4 ∧
        u.workLen = wd w 5 ∧ u.pages = [] ∧ u.models = v.models ∧
        ∃ c : Dev, EntryEnded n x 7 (sId w) stOk 4 c b ∧ Only [.serving, .cores] d c)

/-- R349: STREAM_OPEN: one that breaks a rule is refused; else the stream is open as the entry describes it. That one
which attaches to a request that is not active breaks a rule is the model's choice (assumption 46). -/
def Claim.StreamOpened : Prop :=
  ∀ (s : State) (ring : RingId) (now : Nat) (x : Ring) (w : List Dword),
    let n := ring.val
    let d := (reach now s.toDev.start).dev
    let p := ringPart d n
    let v := servingOf d p
    let st := streamFrom n w
    let i := Instr.streamOpen ring now
    serveHead d n 3 = some (x, w) →
    (streamBad d p st w = true → Answers i s (EntryEnded n x 3 st.num stDescriptor 0 d)) ∧
    (streamBad d p st w = false → v.stream st.num = none ∧ v.frame ≠ 0 ∧ (st.attach = 0 ∨ v.gen st.attach ≠ none) ∧
      ∃ m, v.model st.model = some m ∧ m.type = 2 ∧ st.offset ≤ st.period ∧ m.cNom ≤ st.offset ∧ 2 * m.mNom ≤ st.period) ∧
    (streamBad d p st w = false → Answers i s fun b => (servingOf b p).streams = v.streams ++ [st] ∧
      ∃ c : Dev, EntryEnded n x 3 st.num stOk 4 c b ∧ Only [.serving] d c)

/-- R351, R352: a FRAME with a reserved bit set, of a stream that is not open or is closing, or whose number is not
after the last, is rejected. Any other is read: the numbers skipped, and a frame that waited, are dropped; the frame
waits, or is dropped if its deadline has been reached. -/
def Claim.FrameRead : Prop :=
  ∀ (s : State) (ring : RingId) (now : Nat) (x : Ring) (w : List Dword),
    let n := ring.val
    let d := (reach now s.toDev.start).dev
    let p := ringPart d n
    let v := servingOf d p
    let i := Instr.frame ring now
    let clean := bits (wd w 0) 11 8 = 0 ∧ bits (wd w 0) 31 16 = 0 ∧ wordsZero w [1, 2, 3, 4, 5, 6, 7] = true
    let rejected := Answers i s (EntryEnded n x 4 (sStream w) stDescriptor 0 d)
    serveHead d n 4 = some (x, w) →
    (v.stream (sStream w) = none → rejected) ∧
    (∀ t, v.stream (sStream w) = some t → (¬ clean ∨ t.closing ≠ none ∨ frameNumber t.last (sId w) = none) → rejected) ∧
    (∀ l, frameNumber (some l) (sId w) = none ↔
      ((sId w + 2 ^ 32 - l % 2 ^ 32) % 2 ^ 32 = 0 ∨ 2 ^ 31 ≤ (sId w + 2 ^ 32 - l % 2 ^ 32) % 2 ^ 32)) ∧
    (∀ t k, v.stream (sStream w) = some t → clean → t.closing = none → frameNumber t.last (sId w) = some k →
      let late := t.t0 + (k * t.period + t.offset) * 1000 ≤ d.time
      let skipped := t.last.elim 0 fun l => k - l - 1
      Answers i s fun b => b.host.rings = ringsPast d n x ∧ Only (.rings :: .turns :: .serving :: hostPieces) d b ∧
        (servingOf b p).stream (sStream w) = some { t with
          last := some k, waiting := if late then none else some k,
          dropped := t.dropped + skipped + (if t.waiting = none then 0 else 1) + (if late then 1 else 0) })

/-- R353: STREAM_CLOSE drops the frame that waits; without a running frame the stream is gone and the completion carries
its counts; else it waits for the frame. That the frame dropped sends its event is the model's choice (assumption 46). -/
def Claim.StreamClosed : Prop :=
  ∀ (s : State) (ring : RingId) (x : Ring) (w : List Dword),
    let n := ring.val
    let d := s.toDev
    let p := ringPart d n
    let v := servingOf d p
    let i := Instr.streamClose ring
    let num := sStream w
    let clean := bits (wd w 0) 11 8 = 0 ∧ bits (wd w 0) 31 16 = 0 ∧ wordsZero w [1, 2, 3, 4, 5, 6, 7] = true
    let host := n / 16 * 16 + x.host
    serveHead d n 5 = some (x, w) →
    (v.stream num = none → Answers i s (EntryEnded n x 5 num stDescriptor 0 d)) ∧
    (∀ t, v.stream num = some t → (¬ clean ∨ t.closing ≠ none) → Answers i s (EntryEnded n x 5 num stDescriptor 0 d)) ∧
    (∀ t, v.stream num = some t → clean → t.closing = none →
      let lost := t.dropped + if t.waiting = none then 0 else 1
      (∀ k, t.running = some k → Answers i s fun b => b.host.rings = ringsPast d n x ∧
        (servingOf b p).stream num = some { t with
          closing := some ⟨n, x.fetch, host, num, 0, false⟩, waiting := none, dropped := lost }) ∧
      (t.running = none → Answers i s fun b => b.host.rings = ringsPast d n x ∧ (servingOf b p).stream num = none ∧
        (t.waiting = none → Handed host
          (requestEntry stOk 4 5 num n x.fetch d.time { noOutcome with encoded := t.encoded, dropped := lost }) d b)))

/-- GENERATE, CANCEL, MODEL, CONFIG, STREAM_OPEN, FRAME and STREAM_CLOSE. -/
def Obligations.RequestEntries : Prop :=
  Claim.RequestQueued ∧ Claim.CancelRead ∧ Claim.ModelRegistered ∧ Claim.ConfigAccepted ∧ Claim.StreamOpened ∧
    Claim.FrameRead ∧ Claim.StreamClosed

/-! ## Steps of a serving loop -/

/-- R321, R333, R335, R344 to R348: at a boundary a request that no step and no chunk holds ends with the first of these
that applies: its deadline, a CANCEL, a lost page, a starved spell beyond the limit, from which the time that it stood
blocked is taken; else it stays. That a lost page comes before the limit, and how blocked time is taken, are the model's
choices (assumption 46). -/
def Claim.BoundaryEndings : Prop :=
  ∀ (d : Dev) (p : Nat) (x : Gen),
    let v := servingOf d p
    let b := (checkGen p x.id d.start).dev
    let late := x.deadline ≠ 0 ∧ x.deadline ≤ d.time
    let cancelled := v.cancels.find? (·.target == x.uid)
    let since := x.hungry.map (· + x.blocked.elim 0 fun t => d.time - t)
    let starved := ∃ t, since = some t ∧ t + v.limit < d.time
    let blocks := x.state = .decode ∧ (x.room = false ∨ (qpOf d (x.ring / 16)).mode ≠ .ready)
    v.gen x.id = some x →
    (v.endable x = false → b = d) ∧
    (v.endable x = true → late → GenEnded p x stDeadline 0 d b) ∧
    (∀ c, v.endable x = true → ¬ late → cancelled = some c → ∃ e : Dev,
      (c.discard = false → Handed c.host (requestEntry stOk 4 2 c.id c.ring c.seq d.time noOutcome) d e) ∧
      servingOf e p = { v with cancels := v.cancels.erase c } ∧ Only (.serving :: hostPieces) d e ∧
      GenEnded p x stOk 3 e b) ∧
    (v.endable x = true → ¬ late → cancelled = none → x.lost = true → GenEnded p x stUncorrectable 0 d b) ∧
    (v.endable x = true → ¬ late → cancelled = none → x.lost = false → starved → GenEnded p x stExhausted 0 d b) ∧
    (v.endable x = true → ¬ late → cancelled = none → x.lost = false → ¬ starved →
      ∃ y, y = { x with hungry := since, blocked := y.blocked } ∧ (blocks → y.blocked = some d.time) ∧
        (¬ blocks → y.blocked = none) ∧ servingOf b p = v.put y ∧ Only [.serving] d b)

/-- R325, R326, R331, R343: a step boundary gives at most four slots in all; a request that has slots is in STEP, holds no
more than its width and its model's draft heads and one, has room in its slice ring, no frame to append, and holds the
pages of its positions. With a step running, or no configuration, nothing happens. -/
def Claim.SlotsGranted : Prop :=
  ∀ (s : State) (part : PartId) (now : Nat),
    let p := part.val
    let d := (reach now s.toDev.start).dev
    let v := servingOf d p
    let i := Instr.stepBoundary part now
    (v.active = false ∨ v.step ≠ none → Gives i s d) ∧
    (v.active = true → v.step = none → Answers i s fun b =>
      let u := servingOf b p
      u.boundary = d.time ∧
      (u.step = none → u.stepNum = v.stepNum) ∧
      ∀ slots, u.step = some slots → slots ≠ [] ∧ u.stepNum = v.stepNum + 1 ∧ (slots.map (·.width)).sum ≤ 4 ∧
        ∀ e ∈ slots, 1 ≤ e.width ∧ ∃ g, u.gen e.request = some g ∧ g.state = .step ∧ e.width ≤ g.width ∧
          e.width ≤ (genModel u g).heads + 1 ∧ g.n + e.width ≤ 4194303 ∧ g.frames = [] ∧ g.hungry = none ∧
          (g.n + e.width - 1) / 64 < g.pages.length ∧ (g.prod + g.width + 2 ^ 32 - g.cons) % 2 ^ 32 ≤ 256)

/-- R326, R333: a decoding request whose cells cannot be had skips the step, which is counted; the first skip of a spell
sends CACHE_STARVED. -/
def Claim.StarvedSkips : Prop :=
  ∀ (d : Dev) (p : Nat) (x : Gen) (count : Bool), (servingOf d p).gen x.id = some x →
    let b := (starve p x count d.start).dev
    (servingOf b p).gen x.id = some { x with
      starved := x.starved + if count then 1 else 0, hungry := some (x.hungry.getD d.time) } ∧
    (x.hungry = none → EventSent p stStarved 1 0 x.id 0 d b) ∧ (x.hungry ≠ none → b.host = d.host) ∧
    Only (.serving :: hostPieces) d b

/-- R329: tokens are published in order, up to and with the first that ends the request. -/
def Claim.PublicationStops : Prop :=
  ∀ (x : Gen) (l : List Nat),
    let z := publishable x l 0
    (∃ rest, l = z.1 ++ rest) ∧ (z.2 = none → z.1 = l) ∧ (l ≠ [] → z.1 ≠ []) ∧
    (∀ j t, z.1[j]? = some t → tokenEnds x t (x.published + j + 1) (x.n + j + 1) =
      if j + 1 = z.1.length then z.2 else none) ∧
    ∀ t count pos, (tokenEnds x t count pos = some 0 ↔ (t = x.stop0 ∨ t = x.stop1)) ∧
      (tokenEnds x t count pos = some 1 ↔ (t ≠ x.stop0 ∧ t ≠ x.stop1 ∧ x.maxTokens ≠ 0 ∧ count = x.maxTokens))

/-- R321, R328, R329, R341, R342, R345: the commit of a step: a request that has reached its deadline ends and publishes
nothing of the step; one whose ring the host refused ends; any other publishes one to `w` tokens as a batch of entries
behind its producer index, which become its committed length, and is in DECODE again or ends with its batch. How many,
and which, is free (the model's choice, assumption 44). -/
def Claim.StepCommitted : Prop :=
  ∀ (s : State) (part : PartId) (now w : Nat) (x : Gen),
    let p := part.val
    let d := (reach now s.toDev.start).dev
    let v := servingOf d p
    let i := Instr.stepCommit part now
    let late := x.deadline ≠ 0 ∧ x.deadline ≤ d.time
    (v.step = none → Gives i s d) ∧
    (∀ slots, v.step = some slots → Answers i s fun b => (servingOf b p).step = none) ∧
    (v.step = some [⟨x.id, w⟩] → v.gen x.id = some x →
      (late → Answers i s fun b => (servingOf b p).gen x.id = none ∧
        (servingOf b p).outbox.map (·.entries) = v.outbox.map (·.entries)) ∧
      (¬ late → x.refused = true → Answers i s fun b => (servingOf b p).gen x.id = none ∧
        (servingOf b p).outbox.map (·.entries) = v.outbox.map (·.entries)) ∧
      (¬ late → x.refused = false → x.lost = false → 1 ≤ w → Answers i s fun b =>
        ∃ k y, 1 ≤ k ∧ k ≤ w ∧ y ∈ (servingOf b p).outbox ∧ y.request = x.id ∧ y.qp = x.ring / 16 ∧ y.addr = x.addr ∧
          y.rkey = x.rkey ∧ y.first = x.prod ∧ y.entries.length = k ∧ (∀ e ∈ y.entries, e.length = 16) ∧
          ((∃ g, (servingOf b p).gen x.id = some g ∧ g.state = .decode ∧ g.n = x.n + k ∧ g.published = x.published + k ∧
              g.prod = (x.prod + k) % 2 ^ 32 ∧ y.ending = none) ∨
            ((servingOf b p).gen x.id = none ∧ (x.discard = false → ∃ e, y.ending = some e ∧ e.gen.host = x.host)))))

/-- R317, R340, R342, R344: the oldest batch of a request, if it is the oldest of its ready queue pair, is written: its
entries into slots from its first index on, then the index that publishes them; the completion of an ended request
follows, and the time of the first token is that of its publication. -/
def Claim.BatchPublished : Prop :=
  ∀ (s : State) (part : PartId) (request : Nat) (b : Batch),
    let p := part.val
    let d := s.toDev
    let v := servingOf d p
    let i := Instr.publish part request
    let x := qpOf d b.qp
    let msgs := (List.range b.entries.length).map (fun j =>
      Msg.write b.qp (b.addr + 16 * ((b.first + j) % 256)) b.rkey (b.entries.getD j [])) ++
        [.write b.qp (b.addr + 4096) b.rkey (natLE (b.first + b.entries.length) 4)]
    let left := (v.outbox.erase b).map fun y =>
      if y.gen == b.gen then { y with ending := y.ending.map (·.shown d.time) } else y
    let sent := fun (e c : Dev) => (servingOf e p).outbox = left ∧
      (servingOf e p).requests = v.requests.map (fun g => if g.uid == b.gen then g.shown d.time else g) ∧
      (qpOf c b.qp).unacked.map (·.msg) = x.unacked.map (·.msg) ++ msgs
    v.outbox.find? (·.request == request) = some b →
    ((v.outbox.find? (·.qp == b.qp) ≠ some b ∨ x.mode ≠ .ready) → Gives i s d) ∧
    (v.outbox.find? (·.qp == b.qp) = some b → x.mode = .ready →
      (b.ending = none → Answers i s fun e => sent e e ∧ Only (.serving :: hostPieces) d e) ∧
      (∀ z, b.ending = some z → Answers i s fun e => ∃ c : Dev, sent e c ∧ Handed z.gen.host (z.shown d.time).entry c e ∧
        c.host.hostRings = d.host.hostRings))

/-- R343, R344: the read of a slice ring's consumer index returns on a queue pair that is ready: the request knows it, its
blocked time is counted up to now, and it may ask again; reads that were still to be sent on the queue pair may leave. -/
def Claim.ConsumerRead : Prop :=
  ∀ (s : State) (part : PartId) (index : Nat) (x : Gen),
    let p := part.val
    let d := s.toDev
    let i := Instr.consumerIndexRead part x.id index
    (servingOf d p).gen x.id = some x →
    (x.asked = true → qpReady d (x.ring / 16) = true → Answers i s fun b =>
      Only [.serving, .qps, .ports, .block 128] d b ∧ ∃ y, (servingOf b p).gen x.id = some y ∧
        { y with asked := false, asks := x.asks } = { x with cons := index % 2 ^ 32, asked := false }.accrue d ∧
        (x.asks = false → y.asked = false ∧ y.asks = false)) ∧
    (x.asked = false ∨ qpReady d (x.ring / 16) = false → Gives i s d)

/-- R345 to R347: the check of deadlines ends every request that has reached its own and is in no step and no chunk, and
no other. -/
def Claim.DeadlinesChecked : Prop :=
  ∀ (s : State) (part : PartId) (now : Nat),
    let p := part.val
    let d := (reach now s.toDev.start).dev
    let v := servingOf d p
    let due := fun (id : Nat) => ∃ x ∈ v.requests, x.id = id ∧ v.endable x = true ∧ x.deadline ≠ 0 ∧ x.deadline ≤ d.time
    Answers (.deadlineCheck part now) s fun b =>
      (∀ id, due id → (servingOf b p).gen id = none) ∧ (∀ id, ¬ due id → (servingOf b p).gen id = v.gen id) ∧
        Only (.serving :: hostPieces) d b

/-- STEP_BOUNDARY, STEP_COMMIT, PUBLISH, CONSUMER_INDEX_READ and DEADLINE_CHECK. -/
def Obligations.ServingSteps : Prop :=
  Claim.BoundaryEndings ∧ Claim.SlotsGranted ∧ Claim.StarvedSkips ∧ Claim.PublicationStops ∧ Claim.StepCommitted ∧
    Claim.BatchPublished ∧ Claim.ConsumerRead ∧ Claim.DeadlinesChecked

/-! ## Pages, prefill and frames -/

/-- R330, R331, R334, R336, R338: a cell is the lowest free one of a process-mode channel of an appender's stack; a page
that seals has the digest of R336 and is indexed once; a prompt references leading pages of the index whose ids and
parents match; an ended request leaves the pages that others reference or the index holds. -/
def Claim.PagesManaged : Prop :=
  (∀ (d : Dev) (p app : Nat) (x : Gen) (g : Nat) (more : List PageCell) (fuel : Nat) (v u : Serving) (c : PageCell),
    takeCell d p app x g more fuel v = some (c, u) →
    (c.stack, c.chan) ∈ poolChans d p ∧ bit app c.stack = true ∧ u.lowest more c.stack c.chan = some c.num ∧
      (∀ y ∈ u.cells ++ more, y ≠ c) ∧ ∀ y ∈ u.pages, y ∈ v.pages) ∧
  (∀ (key : Nat) (m : Model) (x : Gen) (v : Serving) (y : Page), v.page y.uid = some y → y.sealed = false → y.lost = false →
    x.pages[0]? = some y.uid → x.noReuse = false →
    let ids := x.tokens.take 64
    let digest := (sha256 (natLE key 32 ++ m.digest.take 16 ++ ids.flatMap fun t => natLE t 4)).take 16
    let z := (sealPage key m x v 0).page y.uid
    ∃ u, z = some u ∧ u.sealed = true ∧ u.ids = ids ∧ u.digest = digest ∧ u.parent = m.digest.take 16 ∧ u.cells = y.cells ∧
      (u.indexed = true → ∀ w ∈ v.pages, w.indexed = true → w.digest ≠ digest)) ∧
  (∀ (key : Nat) (v : Serving) (prompt : List Nat) (left : Nat) (root : List Byte),
    let l := matchPages key v prompt left root 0
    l.length ≤ left ∧ ∀ i y, l[i]? = some y → y ∈ v.pages ∧ y.indexed = true ∧ y.ids = (prompt.drop (64 * i)).take 64 ∧
      y.digest = pageDigest key y.parent y.ids ∧
      y.parent = if i = 0 then root else (l[i - 1]?).elim [] (·.digest)) ∧
  ∀ (v : Serving) (x : Gen),
    let u := v.release x
    (∀ y ∈ u.requests, y.id ≠ x.id) ∧
    ∀ y ∈ v.pages, (∃ z ∈ u.pages, z.uid = y.uid ∧ z.cells = y.cells) ↔
      (¬ x.pages.contains y.uid = true ∨ y.indexed = true ∨ (∃ g ∈ u.requests, g.pages.contains y.uid = true) ∨
        ∃ w ∈ v.pages, w.uid = y.uid ∧ w.cells = y.cells ∧ w.indexed = true)

/-- R321, R322, R332, R333: the requests whose ending has come end; a chunk then goes to the first candidate that can
have one, by priority, acceptance and id; a candidate without cells, or with a bad prompt, is passed over. A chunk of a
prompt begins at the position reached and ends at the end of one of the next eight pages, or at the prompt's last
position: how many pages is free, and a bad prompt ends its request (the model's choices, assumption 45). -/
def Claim.ChunkStarted : Prop :=
  (∀ (s : State) (part : PartId) (now : Nat),
    let p := part.val
    let r := reach now s.toDev.start
    let v := servingOf r.dev p
    let z := checkAll p r
    let l := (sortGens chunkBefore ((servingOf z.dev p).requests.filter fun x => wantsChunk x r.dev.time)).map (·.id)
    let i := Instr.prefillChunkStart part now
    let can := v.active = true ∧ v.prefill ≠ 0 ∧ v.chunk = none
    (¬ can → Gives i s r.dev) ∧ (can → l = [] → Gives i s z.dev) ∧
    (∀ id rest r', can → l = id :: rest → tryChunk p id z = .stop r' → Gives i s r'.dev) ∧
    (∀ id rest r', can → l = id :: rest → tryChunk p id z = .next r' → Gives i s (tryChunks p rest r').dev)) ∧
  ∀ (d : Dev) (p : Nat) (x : Gen) (r' : Run d),
    let b := servingOf r'.dev p
    (servingOf d p).gen x.id = some x → (servingOf d p).chunk = none → x.state = .prefill → x.n < x.len →
    tryChunk p x.id d.start = .stop r' →
    (b.chunk = none ∧ r'.dev = (fresh d.start).2.dev) ∨
      ∃ c g, b.chunk = some c ∧ b.gen x.id = some g ∧ c.request = x.id ∧ c.gen = x.uid ∧ c.first = x.n ∧ c.frame = false ∧ x.n < c.stop ∧
        c.stop ≤ 64 * (x.n / 64) + 512 ∧ (c.stop = x.len ∨ (c.stop % 64 = 0 ∧ c.stop < x.len)) ∧ g.hungry = none ∧
        (∃ new, g.tokens = x.tokens ++ new ∧ ∀ t ∈ new, t < (genModel b g).vocab) ∧ (c.stop - 1) / 64 < x.n / 64 + g.pages.length

/-- R321, R322, R336: when a chunk of a prompt ends, the request has reached its end, and no chunk runs; after the last
chunk the first token is published as step 0 at position L, and the request is in DECODE, or has ended with its batch. -/
def Claim.ChunkEnded : Prop :=
  ∀ (s : State) (part : PartId) (now : Nat) (c : Chunk) (x : Gen),
    let p := part.val
    let d := (reach now s.toDev.start).dev
    let v := servingOf d p
    let i := Instr.prefillChunkEnd part now
    let stays := (x.deadline = 0 ∨ d.time < x.deadline) ∧ v.cancels.find? (·.target == x.uid) = none ∧ x.lost = false ∧
      ∀ t, (x.accrue d).hungry = some t → d.time ≤ t + v.limit
    (v.chunk = none → Gives i s d) ∧
    (v.chunk = some c → Answers i s fun b => (servingOf b p).chunk = none) ∧
    (v.chunk = some c → v.gen x.id = some x → v.requests.find? (·.uid == c.gen) = some x → c.frame = false → x.state = .prefill → stays →
      (c.stop ≠ x.len → Answers i s fun b => ∃ g, (servingOf b p).gen x.id = some g ∧ g.n = c.stop ∧ g.state = .prefill ∧
        g.tokens = x.tokens ∧ g.published = x.published) ∧
      (c.stop = x.len → Answers i s fun b =>
        (∃ y ∈ (servingOf b p).outbox, y.request = x.id ∧ y.first = x.prod ∧ y.entries.length = 1) ∧
        ((servingOf b p).gen x.id = none ∨ ∃ g, (servingOf b p).gen x.id = some g ∧ g.state = .decode ∧ g.n = x.len ∧
          g.published = 1 ∧ g.prod = (x.prod + 1) % 2 ^ 32)))

/-- R352: the frame with the earliest deadline goes on: one that waits starts, or is dropped when it could not be
encoded by its deadline at the beat rate last reported, and the next is considered. How lateness is computed, and that a
rate of 0 counts as nominal, are the model's choices (assumption 45). -/
def Claim.FrameStarted : Prop :=
  ∀ (s : State) (part : PartId) (now : Nat),
    let p := part.val
    let r := reach now s.toDev.start
    let v := servingOf r.dev p
    let i := Instr.frameStart part now
    let first := firstFrame (runningFrames v ++ startableFrames v)
    (v.active = false ∨ first = none → Gives i s r.dev) ∧
    (∀ f, v.active = true → first = some f → f.runs = true → Gives i s r.dev) ∧
    (∀ f x, v.active = true → first = some f → f.runs = false → v.stream f.stream = some x →
      x.waiting = some f.num → f.deadline = frameDeadline x f.num →
      let work := (v.model x.model).elim 0 fun m => m.cNom * 1800000
      let late := f.deadline * beatRate r.dev < r.dev.time * beatRate r.dev + work
      (¬ late → Answers i s fun b => (servingOf b p).stream f.stream = some { x with waiting := none, running := some f.num } ∧
        Only [.serving] r.dev b) ∧
      (late → Gives i s (chooseFrame p 16 (beginFrame p f r)).dev ∧
        (x.closing = none → (servingOf (beginFrame p f r).dev p).stream f.stream =
          some { x with waiting := none, dropped := x.dropped + 1 } ∧
          EventSent p stDropped 2 0 f.num f.stream r.dev (beginFrame p f r).dev)))

/-- R352, R353: a frame whose encoding ends before its deadline is written into its slot, counted, and appended to the
request its stream is attached to; a frame that is being encoded when its deadline is reached is dropped. What the slot
then holds, that nothing is written to one that the partition does not own, and that an end waits for a slot that is held,
are the model's choices (assumption 45). -/
def Claim.FrameEnded : Prop :=
  ∀ (s : State) (part : PartId) (now : Nat) (f : Encoding) (x : Stream) (m : Model),
    let p := part.val
    let r := reach now s.toDev.start
    let v := servingOf r.dev p
    let size := outputSize m
    let slot := x.output + f.num % 3 * (size + 64)
    let i := Instr.frameEncoded part now
    let running := runningFrames v
    let held := rangeWaits r.dev slot (size + 64) = true
    let late := running.filter fun f => decide (f.deadline ≤ r.dev.time)
    (running = [] → Gives i s r.dev) ∧
    (firstFrame running = some f → v.stream f.stream = some x → v.model x.model = some m → x.closing = none →
      (f.deadline ≤ r.dev.time ∨ held → Gives i s r.dev) ∧
      (r.dev.time < f.deadline → ¬ held → Answers i s fun b =>
        (servingOf b p).stream f.stream = some { x with running := none, encoded := x.encoded + 1 } ∧
        (∀ y, x.attach ≠ 0 → v.gen x.attach = some y → (servingOf b p).gen x.attach =
          some { y with frames := y.frames ++ [Config.planPositions (leNat m.digest)] }) ∧
        (namedRange r.dev p slot (size + 64) = true → Piece.same (writeSlot x size f.num r).dev b .memory) ∧
        (namedRange r.dev p slot (size + 64) = false → Piece.same r.dev b .memory))) ∧
    (late = [] → Gives (.frameDeadline part now) s r.dev) ∧
    (late = [f] → v.stream f.stream = some x → x.closing = none → Answers (.frameDeadline part now) s fun b =>
      (servingOf b p).stream f.stream = some { x with running := none, dropped := x.dropped + 1 }) ∧
    Answers (.frameDeadline part now) s fun b => b = (forEach late (abandonFrame p) r).dev

/-- PREFILL_CHUNK_START, PREFILL_CHUNK_END, FRAME_START, FRAME_ENCODED and FRAME_DEADLINE, and the pages. -/
def Obligations.PrefillAndFrames : Prop :=
  Claim.PagesManaged ∧ Claim.ChunkStarted ∧ Claim.ChunkEnded ∧ Claim.FrameStarted ∧ Claim.FrameEnded

/-! ## Bring-up -/

/-- R474, R507, R518: the input passing 40 V begins stage 1, unless a shutdown is latched; the rails in regulation
complete stage 2. A later stage's event does nothing unless the stage before it is the last completed and bring-up has
not halted. -/
def Claim.PowerBegins : Prop :=
  ∀ s : State,
    let d := s.toDev
    (d.board.input = false → d.board.shut = false → Answers .powerOn s fun b =>
      stageOf b = 1 ∧ b.board = { d.board with input := true } ∧ Only [.board, .block 10] d b) ∧
    (d.board.input = true ∨ d.board.shut = true → Gives .powerOn s d) ∧
    (d.board.input = true → d.board.rails = false → d.board.shut = false → Answers .railsInRegulation s fun b =>
      stageOf b = 2 ∧ b.board = { d.board with rails := true, flashVcc := true } ∧ Only [.board, .block 10] d b) ∧
    (d.board.input = false ∨ d.board.rails = true ∨ d.board.shut = true → Gives .railsInRegulation s d) ∧
    ∀ (f : Fuses) (x y : Bool) (m k c : Nat) (l e : List Byte) (p : List (Nat × Nat × List Byte))
      (g : List (Nat × List Byte)) (q : List (Option (List Nat))) (now : Nat) (n : Nat) (i : Instr),
      (n, i) ∈ [(2, Instr.fuseSense f x y now), (3, .flashDiscovery x m k l e now), (5, .imageVerify now),
        (6, .fieldLockBlow x now), (7, .serviceCoreLoad x now), (8, .hearthCoreLoad p now), (8, .missingList c g now),
        (8, .digestReport c l now), (9, .stackTraining q now), (11, .managementBake now)] →
      ¬ AtStage d n → Gives i s d

/-- R474, R477, R484, R490, R496, R499: fuses sensed at stage 3: they and the identity are in force and in their
registers; behind a blown field lock they are what they were. A failed check halts with reason 1, a random source that
fails its tests with reason 9. That the CRC-32C of the fuses is an operand is the model's choice (assumption 40). -/
def Claim.FusesSensed : Prop :=
  ∀ (s : State) (sensed : Fuses) (checkOk randomOk : Bool) (now : Nat),
    let d := (reach now s.toDev.start).dev
    let f := if d.boot.fuses.locked then d.boot.fuses else sensed
    let good := checkOk = true ∧ ∀ i, i < 20 →
      popcount (bits (f.optics.getD i 0) 7 0) 8 ≤ 2 ∧ popcount (bits (f.optics.getD i 0) 15 8) 8 ≤ 2
    AtStage s.toDev 2 → Answers (.fuseSense sensed checkOk randomOk now) s fun b =>
      b.boot = { d.boot with fuses := f, key := identityKey f.seed 256 0, noRandom := !randomOk } ∧
      (good → randomOk = true → stageOf b = 3 ∧ isHalted b = false ∧ b.board = d.board) ∧
      (good → randomOk = false → Halted 9 d b) ∧ (¬ good → Halted 1 d b) ∧
      reg b (fuseOff 4) = f.serial % 2 ^ 32 ∧ reg b (fuseOff 8) = f.serial / 2 ^ 32 % 2 ^ 32 ∧
      reg b (fuseOff 0xC) = f.idcode % 2 ^ 32 ∧
      (∀ k, k < 20 → field b (fuseOff (0x300 + 4 * k)) 12 0 = (f.rows.getD k []).length % 2 ^ 13 ∧
        field b (fuseOff (0x300 + 4 * k)) 23 16 = (f.lanes.getD k []).length % 2 ^ 8 ∧
        reg b (fuseOff (0x400 + 4 * k)) = f.optics.getD k 0 % 2 ^ 16) ∧
      (∀ i, i < 2176 → bit (reg b (fuseOff (0x100 + 4 * (i / 32)))) (i % 32) = bit f.coreMap i) ∧
      (f.cert.length = 64 → Only [.boot, .board, .block 10, .block 11, .block 128] d b)

/-- R477, R478, R479: the flash's tables are read in 4-byte addressing; it is found with a density that is admitted, its
slot records are read at its clock or at 100 MHz, and one of them is valid, or bring-up halts; the valid slot with the
higher sequence is tried first, slot 0 on a tie. -/
def Claim.FlashDiscovered : Prop :=
  ∀ (s : State) (found : Bool) (mbit mhz : Nat) (slot0 slot1 : List Byte) (now : Nat),
    let d := (reach now s.toDev.start).dev
    let x := slotRecord slot0
    let y := slotRecord slot1
    let i := Instr.flashDiscovery found mbit mhz slot0 slot1 now
    let flash := found = true ∧ 128 ≤ mbit ∧ mbit ≤ 512
    let told := d.boot.flash ++ [.fourByte, .sfdp 25]
    let reads := [FlashCmd.fastRead 0 32 (min mhz 100), .fastRead 0x800000 32 (min mhz 100)]
    let opens := fun (slot : Nat) => Answers i s fun b =>
      stageOf b = 4 ∧ b.boot = { d.boot with record0 := x, record1 := y, slot := slot, image := [], flash := told ++ reads } ∧
        reg b (bootOff 0x78) = mbit + min mhz 100 * 2 ^ 16 ∧ Only [.boot, .block 10] d b
    AtStage s.toDev 3 →
    (¬ flash → Answers i s fun b => Halted 2 d b ∧ b.boot.flash = told) ∧
    (flash → x = none → y = none → Answers i s fun b => Halted 3 d b ∧ b.boot.flash = told ++ reads) ∧
    (∀ a, flash → x = some a → (y = none ∨ ∃ c, y = some c ∧ c.1 ≤ a.1) → opens 0) ∧
    (∀ c, flash → y = some c → (x = none ∨ ∃ a, x = some a ∧ a.1 < c.1) → opens 1)

/-- R474, R477, R479, R482: the chosen slot's image is read with the length of its record. One that fails R482 sends
bring-up to the other valid slot, once, and sets fallback; an image that passes with an invalid configuration halts it.
-/
def Claim.ImageTried : Prop :=
  ∀ (s : State) (image : List Byte) (now : Nat),
    let d := (reach now s.toDev.start).dev
    let x := d.boot
    let record := recordOf x x.slot
    let other := recordOf x (1 - x.slot) ≠ none ∧ (1 - x.slot) ∉ x.failed ++ [x.slot]
    let due := x.image = [] ∧ (AtStage s.toDev 4 ∨ AtStage s.toDev 5) ∧ record.map (·.2) = some image.length
    (due → Answers (.imageRead image now) s fun b =>
      stageOf b = 5 ∧ Only [.boot, .block 10] d b ∧ b.boot = { x with
        image := image, flash := x.flash ++
          [.fastRead (x.slot * 0x800000 + 0x1000) image.length (field d (bootOff 0x78) 23 16)] }) ∧
    (¬ due → Gives (.imageRead image now) s s.toDev) ∧
    (AtStage s.toDev 5 → x.image = [] → Gives (.imageVerify now) s d) ∧
    (AtStage s.toDev 5 → x.image ≠ [] → imageOk x.image = false → other → Answers (.imageVerify now) s fun b =>
      stageOf b = 5 ∧ bit (reg b (bootOff 0)) 7 = true ∧ Only [.boot, .block 10] d b ∧
        b.boot = { x with image := [], failed := x.failed ++ [x.slot], slot := 1 - x.slot }) ∧
    (AtStage s.toDev 5 → x.image ≠ [] → imageOk x.image = false → ¬ other →
      Answers (.imageVerify now) s fun b => Halted 4 d b ∧ bit (reg b (bootOff 0)) 7 = true) ∧
    (AtStage s.toDev 5 → x.image ≠ [] → imageOk x.image = true → configOk (configOf x.image) = false →
      Answers (.imageVerify now) s (Halted 5 d))

/-- R475, R481, R497, R521: an image that passes puts its configuration in force: device number, MAC addresses, the I3C
target's static address; versions and digests are in their registers. -/
def Claim.ImageAccepted : Prop :=
  ∀ (s : State) (now : Nat),
    let d := (reach now s.toDev.start).dev
    let img := d.boot.image
    let cfg := configOf img
    AtStage s.toDev 5 → imageOk img = true → configOk cfg = true → Answers (.imageVerify now) s fun b =>
      stageOf b = 6 ∧ isHalted b = false ∧ (bit (reg b (bootOff 0)) 6 = true ↔ d.boot.slot = 1) ∧
      b.boot = { d.boot with config := cfg } ∧ b.board = { d.board with static := numAt cfg 0x1C 1 } ∧
      (∀ l, l < 20 → field b (lnkOff l 0) 15 0 = numAt cfg 8 2) ∧
      (∀ p, p < 2 → reg b (ethOff p 4) = numAt cfg (0x10 + 6 * p) 4 ∧ reg b (ethOff p 8) = numAt cfg (0x14 + 6 * p) 2) ∧
      reg b (bootOff 8) = imageVersion img % 2 ^ 32 ∧ reg b (bootOff 0xC) = imageVersion img / 2 ^ 32 % 2 ^ 32 ∧
      (∀ i, i < 8 → reg b (bootOff (0x10 + 4 * i)) = numAt (firmwareDigest img) (4 * i) 4 ∧
        reg b (bootOff (0x30 + 4 * i)) = numAt (sha256 cfg) (4 * i) 4 ∧
        reg b (bootOff (0x50 + 4 * i)) = numAt (sha256 (ownerKey cfg)) (4 * i) 4) ∧
      Only ([.boot, .board, .block 10, .block 128] ++ linkBlocks) d b

/-- R477, R496: the fuse is blown at stage 7 if the configuration asks for it and it is not blown yet; a fuse that does
not read as blown then halts bring-up. -/
def Claim.FieldLocked : Prop :=
  ∀ (s : State) (blown : Bool) (now : Nat),
    let d := (reach now s.toDev.start).dev
    let x := d.boot
    let asked := bit (numAt x.config 6 2) 0 = true ∧ x.fuses.locked = false
    let i := Instr.fieldLockBlow blown now
    AtStage s.toDev 6 →
    (¬ asked → Answers i s fun b => stageOf b = 7 ∧ Only [.block 10] d b) ∧
    (asked → blown = true → Answers i s fun b => stageOf b = 7 ∧ bit (reg b (fuseOff 0)) 0 = true ∧
      b.boot = { x with fuses := { x.fuses with locked := true } } ∧ Only [.boot, .block 10, .block 11] d b) ∧
    (asked → blown = false → Answers i s fun b => Halted 6 d b ∧ Only [.board, .block 10, .block 128] d b)

/-- R486: the map holds the lowest 32 good cores, ascending, of each physical cluster that has so many, in ascending order
of the clusters. -/
def Claim.MapBuilt : Prop :=
  ∀ bad : Nat,
    let map := buildMap bad
    let good := fun (k : Nat) => (List.range 34).countP fun j => !bit bad (34 * k + j)
    map.Pairwise (fun l m => ∀ i ∈ l, ∀ j ∈ m, i < j) ∧
    (∀ k, k < 64 → (32 ≤ good k ↔ ∃ l ∈ map, ∃ i ∈ l, i / 34 = k)) ∧
    ∀ l ∈ map, l.length = 32 ∧ l.Pairwise (· < ·) ∧ ∃ k, k < 64 ∧ (∀ i ∈ l, i / 34 = k ∧ bit bad i = false) ∧
      ∀ i, i / 34 = k → bit bad i = false → i ∉ l → ∀ j ∈ l, j < i

/-- R487: `bytes` are block `i` of `n` with a correct CRC-32C. -/
def Claim.Heard (n i : Nat) (bytes : List Byte) : Prop :=
  bytes.length = 4112 ∧ i < n ∧ numAt bytes 0 4 = i ∧ numAt bytes 12 4 = crc32c (bytes.take 12 ++ (bytes.drop 16).take 4096)

/-- R474, R477, R486, R487: the service cores load, the stores are clear and the map is built at stage 8; the section is
then broadcast once in blocks with a CRC-32C, and each core of the map has every block that reached it as it was sent, or
as bytes that are some block. -/
def Claim.CoresLoaded : Prop :=
  (∀ (n k have_ : Nat) (body : List Byte), k < n → n ≤ 2 ^ 32 →
    (blockBytes n k body).length = 4112 ∧ takeBlock n have_ (blockBytes n k body) = setBit have_ k) ∧
  ∀ (s : State) (ok : Bool) (garbled : List (Nat × Nat × List Byte)) (now : Nat),
    let d := (reach now s.toDev.start).dev
    let x := d.boot
    let map := buildMap x.fuses.coreMap
    (AtStage s.toDev 7 → ok = true → map ≠ [] → Answers (.serviceCoreLoad ok now) s fun b => stageOf b = 8 ∧
      isHalted b = false ∧ b.boot = { x with bad := x.fuses.coreMap, map := map } ∧ MapShown b ∧ StoresClear b) ∧
    (AtStage s.toDev 7 → (ok = false ∨ map = []) → Answers (.serviceCoreLoad ok now) s (Halted 7 d)) ∧
    (AtStage s.toDev 8 → x.sent = true → Gives (.hearthCoreLoad garbled now) s d) ∧
    (AtStage s.toDev 8 → x.sent = false → Answers (.hearthCoreLoad garbled now) s fun b =>
      b.boot = { x with sent := true, blocks := b.boot.blocks } ∧ Only [.boot] d b ∧
      ∀ c ∈ x.map.flatten, ∀ i,
        (bit (mget 0 b.boot.blocks c) i = true ↔ (i < blockCount x ∧ ∀ e ∈ garbled, (e.1, e.2.1) ≠ (c, i)) ∨
          ∃ e ∈ garbled, e.1 = c ∧ e.2.1 < blockCount x ∧ Claim.Heard (blockCount x) i e.2.2))

/-- R487, R498: a core of the map that lacks blocks is sent them in a round, which is counted; one that still lacks blocks
after eight rounds of a loading fails: eight again after a failed digest (the model's choice, assumption 40). -/
def Claim.BlocksResent : Prop :=
  ∀ (s : State) (c now : Nat) (garbled : List (Nat × List Byte)),
    let d := (reach now s.toDev.start).dev
    let x := d.boot
    let had := mget 0 x.blocks c
    let lack := (List.range (blockCount x)).filter fun i => !bit had i
    let round := mget 0 x.rounds c + 1
    let limit := 8 * (1 + mget 0 x.fails c)
    let got := fun (n : Nat) => bit had n = true ∨ (n ∈ lack ∧ ∀ e ∈ garbled, e.1 ≠ n) ∨
      ∃ e ∈ garbled, e.1 ∈ lack ∧ Claim.Heard (blockCount x) n e.2
    let i := Instr.missingList c garbled now
    AtStage s.toDev 8 →
    (x.sent = false ∨ c ∉ x.map.flatten ∨ lack = [] → Gives i s d) ∧
    (x.sent = true → c ∈ x.map.flatten → lack ≠ [] → Answers i s fun b =>
      (∀ n, bit (mget 0 b.boot.blocks c) n = true ↔ got n) ∧
      mget 0 b.boot.rounds c = round ∧ b.boot.sent = true ∧ b.boot.reported = x.reported ∧ b.boot.fails = x.fails ∧
      (∀ k, k ≠ c → mget 0 b.boot.blocks k = mget 0 x.blocks k ∧ mget 0 b.boot.rounds k = mget 0 x.rounds k) ∧
      field b (bootOff 0x74) 7 0 = max (field d (bootOff 0x74) 7 0) round % 2 ^ 8 ∧
      field b (bootOff 0x74) 23 8 = (field d (bootOff 0x74) 23 8 + lack.length) % 2 ^ 16 ∧
      ((∃ n ∈ lack, ¬ got n) → limit ≤ round → CoreFailed c d b) ∧
      (round < limit → stageOf b = 8 ∧ b.boot.map = x.map ∧ b.boot.bad = x.bad ∧ Only [.boot, .block 10] d b))

/-- R474, R486, R487: a complete core reports its digest; when all have reported that of the section, stage 9 ends. A
digest that differs clears the core's blocks, and a second one fails the core (the model's reading, assumption 40). -/
def Claim.DigestsReported : Prop :=
  ∀ (s : State) (c : Nat) (digest : List Byte) (now : Nat),
    let d := (reach now s.toDev.start).dev
    let x := d.boot
    let due := x.sent = true ∧ c ∈ x.map.flatten ∧ mget 0 x.blocks c = 2 ^ blockCount x - 1 ∧ mget false x.reported c = false
    let fails := mget 0 x.fails c + 1
    let good := digest = (hearthSection x.image).elim [] (·.digest)
    let i := Instr.digestReport c digest now
    AtStage s.toDev 8 →
    (¬ due → Gives i s d) ∧
    (due → good → Answers i s fun b =>
      b.boot = { x with reported := mset false x.reported c true, firmware := b.boot.firmware } ∧ LoadingEnds d b) ∧
    (due → ¬ good → Answers i s fun b =>
      mget 0 b.boot.blocks c = 0 ∧ mget 0 b.boot.fails c = fails ∧ b.boot.reported = x.reported ∧
      (fails < 2 → stageOf b = 8 ∧ b.boot.map = x.map ∧ Only [.boot] d b) ∧ (2 ≤ fails → CoreFailed c d b))

/-- R251, R474, R477, R485, R488: a channel with more failing lanes in use than spare lanes that work and repair none, and
every channel of a base die that does not respond, is retired; no other channel changes. Without a channel bring-up halts;
else the full training of every enabled link begins whose base die responds, and without any such link stage 11 is
completed too (the model's reading, assumption 40). -/
def Claim.StacksTrained : Prop :=
  ∀ (s : State) (failed : List (Option (List Nat))) (now : Nat),
    let d := (reach now s.toDev.start).dev
    let f := d.boot.fuses
    let fused := fun (k c : Nat) => ((f.lanes.getD k []).filter (·.1 == c)).map (·.2)
    let used := fun (k c p : Nat) => if p < 64 then ∀ e ∈ fused k c, e.1 ≠ p else ∃ e ∈ fused k c, 64 + e.2 = p
    let free := fun (k c p : Nat) => 64 ≤ p ∧ p < 68 ∧ ∀ e ∈ fused k c, 64 + e.2 ≠ p
    let short := fun (k c bad : Nat) => ∃ l m : List Nat, l.Nodup ∧ m.Nodup ∧ m.length < l.length ∧
      (∀ p, p ∈ l ↔ (p < 68 ∧ bit bad p = true ∧ used k c p)) ∧ ∀ p, p ∈ m ↔ (free k c p ∧ bit bad p = false)
    let dead := fun (k c : Nat) => failed[k]? = some none ∨ ∃ l, failed[k]? = some (some l) ∧ short k c (l.getD c 0)
    let trains := fun (b : Dev) => ∃ l, l < 20 ∧ (linkOf b l).stage ≠ 0
    let none_ := ∀ k c, k < 20 → c < 32 → dead k c
    AtStage s.toDev 9 → Answers (.stackTraining failed now) s fun b =>
      (none_ → Halted 8 d b) ∧ (¬ none_ → reg b 0x24 = 0) ∧
      (¬ none_ → trains b → stageOf b = 10) ∧ (¬ none_ → ¬ trains b → stageOf b = 11) ∧
      (∀ k c, k < 20 → c < 32 → dead k c → chanMode b k c = 2 ∧ bit (reg b (stkOff k 0x1C)) c = true ∧
        bit (reg b (0x40 + 4 * k)) c = false ∧ bit (reg b 0x20) (c / 4) = false) ∧
      (∀ k c, k < 20 → c < 32 → ¬ dead k c →
        chanMode b k c = chanMode d k c ∧ bit (reg b (stkOff k 0x1C)) c = bit (reg d (stkOff k 0x1C)) c) ∧
      (∀ k, k < 20 → reg b (stkOff k 0x20) = (f.rows.getD k []).length % 2 ^ 13 + (f.lanes.getD k []).length % 2 ^ 8 * 2 ^ 16) ∧
      (∀ k, k < 20 → failed[k]? ≠ some none → bit (reg b (stkOff k 0x04)) 0 = true) ∧
      (∀ l, l < 20 → ¬ none_ → linkEnabled d l = true → failed[l]? ≠ some none →
        (linkOf b l).stage = 1 ∧ (linkOf b l).full = true ∧ linkState b l = 1) ∧
      (∀ l, l < 20 → (linkEnabled d l = false ∨ failed[l]? = some none) → linkOf b l = linkOf d l) ∧
      (∀ l, 20 ≤ l → linkOf b l = linkOf d l)

/-- R337, R441, R474, R475, R484, R498: once no link trains any more, which completes stage 11, the management partition
is baked (with every enabled cluster: the model's reading, assumption 39), queue pair 0 is connected with its rings, and
the module is ready. After stage 3 the random source may fail. -/
def Claim.BringUpEnds : Prop :=
  ∀ (s : State) (now : Nat),
    let d := (reach now s.toDev.start).dev
    let cfg := d.boot.config
    let n := d.boot.map.length
    (AtStage s.toDev 11 → Answers (.managementBake now) s fun b =>
      stageOf b = 12 ∧ isReady b = true ∧ reg b (bootOff 4) = d.time / 1000000 % 2 ^ 16 ∧
      reg b (partOff 0 0x08) = 2 ^ min n 32 - 1 ∧ reg b (partOff 0 0x0C) = (2 ^ (n - 32) - 1) % 2 ^ 32 ∧
      reg b (benchOff 0x14) = (reg d (benchOff 0x14) + 1) % 2 ^ 32 ∧
      qpOf b 0 = connectedQp (cfgWords cfg 0x60) ∧ ringOf b 0 = some (ringFrom (cfgWords cfg 0xA0)) ∧
      hostRingOf b 0 = hostRingFrom (cfgWords cfg 0xE0) ∧ hostRingOf b 1 = hostRingFrom (cfgWords cfg 0x120)) ∧
    (s.toDev.board.rails = true → 3 ≤ stageOf s.toDev → Answers .randomSourceFailure s fun b =>
      b.boot = { s.boot with noRandom := true } ∧ Only [.boot] s.toDev b) ∧
    (s.toDev.board.rails = false ∨ stageOf s.toDev < 3 → Gives .randomSourceFailure s s.toDev)

/-- POWER_ON, RAILS_IN_REGULATION, FUSE_SENSE, FLASH_DISCOVERY, IMAGE_READ, IMAGE_VERIFY and FIELD_LOCK_BLOW. -/
def Obligations.BringUpBegins : Prop :=
  Claim.PowerBegins ∧ Claim.FusesSensed ∧ Claim.FlashDiscovered ∧ Claim.ImageTried ∧ Claim.ImageAccepted ∧
    Claim.FieldLocked

/-- SERVICE_CORE_LOAD, HEARTH_CORE_LOAD, MISSING_LIST, DIGEST_REPORT, STACK_TRAINING, MANAGEMENT_BAKE and
RANDOM_SOURCE_FAILURE. -/
def Obligations.BringUpCompletes : Prop :=
  Claim.MapBuilt ∧ Claim.CoresLoaded ∧ Claim.BlocksResent ∧ Claim.DigestsReported ∧ Claim.StacksTrained ∧
    Claim.BringUpEnds

/-! ## Temperature, the management bus and the test access port -/

/-- R509, R510: a sensor's value is on the line through its calibration points, rounded down to 1/16 °C (the model's
choice, assumption 41), and valid within −40 °C to 150 °C; the temperature of a unit is its highest valid reading, and
its throttle threshold where it has, or has had since power-on, none. -/
def Claim.Readings : Prop :=
  (∀ (f : Fuses) (x : Sample) (n : Nat) (f1 t1 f2 t2 : Int), f.points.getD n none = some (f1, t1, f2, t2) → f1 ≠ f2 →
    let rise := (x.freqs.getD n 0 - f1) * (t2 - t1) * (f2 - f1).sign
    let run : Int := (f2 - f1).natAbs
    ∀ t : Int, (sensorValue f x n = some t ↔ (t - t1) * run ≤ rise ∧ rise < (t - t1 + 1) * run) ∧
      (sensorReading f x n = some t ↔ sensorValue f x n = some t ∧ -640 ≤ t ∧ t ≤ 2400)) ∧
  (∀ (f : Fuses) (x : Sample) (n : Nat), f.points.getD n none = none → sensorReading f x n = none) ∧
  ∀ (readings : List (Option Int)) (sensors : List Nat) (throttle : Int) (blind : Bool),
    let u := unitTemp readings sensors throttle blind
    let valid := fun (n : Nat) (t : Int) => n ∈ sensors ∧ readings.getD n none = some t
    ((blind = true ∨ ∀ n t, ¬ valid n t) → u.1 = throttle * 16) ∧
      (blind = false → (∃ n t, valid n t) → valid u.2 u.1 ∧ ∀ n t, valid n t → t ≤ u.1)

/-- R510: the units without a valid sensor, now or since power-on: the hearth die, the stacks, the optical engines. -/
def Claim.Blind (readings : List (Option Int)) (before i : Nat) : Prop :=
  bit before i = true ∨ ∀ n t, n ∈ (if i = 0 then hearthSensors else if i < 21 then stackSensors (i - 1)
    else opticSensors (i - 21)) → readings.getD n none ≠ some t

/-- R511, R518, R520: the round runs from event 3 on. A unit at its shutdown threshold shuts the module down with cause
1; else a rail outside its limits for the second round does with cause 2. ALERT_N is asserted if a unit warns or
throttles in this round. That rails come after units, and the lowest of each is reported, are the model's choices
(assumption 41). -/
def Claim.RoundShutsDown : Prop :=
  ∀ (s : State) (x : Sample) (now : Nat),
    let d := (addReg (hkOff 0) 1 (reach now s.toDev.start)).dev
    let readings := (List.range 428).map (sensorReading d.boot.fuses x)
    let blind := nowBlind readings d.board.blind
    let hearth := unitTemp readings hearthSensors 105 (bit blind 0)
    let stack := fun (k : Nat) => unitTemp readings (stackSensors k) 95 (bit blind (1 + k))
    let optic := fun (l : Nat) => unitTemp readings (opticSensors l) 80 (bit blind (21 + l))
    let units : List ((Int × Nat) × Int) := [(hearth, 120)] ++
      ((List.range 20).map fun k => (stack k, 105)) ++ (List.range 20).map fun l => (optic l, 90)
    let hot := units.filter fun u => decide (u.2 * 16 ≤ u.1.1)
    let steps := nextSteps d hearth.1 x.power
    let was := fun (o i : Nat) => bit (reg d (thmOff o)) i
    let alert := steps ≠ 0 ∨ nextLimited d steps x.power = true ∨ enters hearth.1 95 (was 0 0) = true ∨
      (∃ k, k < 20 ∧ (enters (stack k).1 85 (was 0x08 k) = true ∨ enters (stack k).1 95 (bit d.board.hotStacks k) = true)) ∨
      ∃ l, l < 20 ∧ (enters (optic l).1 70 (was 0x10 l) = true ∨ enters (optic l).1 80 (was 0x14 l) = true)
    let bad := fun (i : Nat) =>
      let v := x.railV.getD i 0
      mget 0 d.board.outRail i ≠ 0 ∧ (v * 1000 < railNominal d i * 95 ∨ railNominal d i * 105 < v * 1000)
    let i := Instr.housekeepingRound x now
    (s.toDev.board.rails = false ∨ stageOf s.toDev < 3 → Gives i s s.toDev) ∧
    (s.toDev.board.rails = true → 3 ≤ stageOf s.toDev →
      (∀ i, i < 41 → (bit blind i = true ↔ Claim.Blind readings d.board.blind i)) ∧
      (∀ u l, hot = u :: l → Answers i s (ShutDown 1 u.1.2 (unsigned 16 u.1.1) true d)) ∧
      (∀ n, hot = [] → n < 6 → bad n → (∀ m, m < n → ¬ bad m) →
        Answers i s fun b => ∃ al, (al = true ↔ alert) ∧ ShutDown 2 n (x.railV.getD n 0) al d b))

/-- R503, R512 to R516, R520, R522 to R525: any other round: throttle steps and power limiting follow R513 and
R514, warning and throttling of every unit R512 with its hysteresis, the registers report them, and ALERT_N is
asserted while any of them lasts. Throttling changes only speed: besides the registers of the block, the bands, the
links' flags and the events, nothing changes. What an invalid sensor outside 16 bits reads as is the model's choice
(assumption 41). -/
def Claim.RoundThrottles : Prop :=
  ∀ (s : State) (x : Sample) (now : Nat),
    let d := (addReg (hkOff 0) 1 (reach now s.toDev.start)).dev
    let readings := (List.range 428).map (sensorReading d.boot.fuses x)
    let blind := nowBlind readings d.board.blind
    let hearth := unitTemp readings hearthSensors 105 (bit blind 0)
    let stack := fun (k : Nat) => (unitTemp readings (stackSensors k) 95 (bit blind (1 + k))).1
    let optic := fun (l : Nat) => (unitTemp readings (opticSensors l) 80 (bit blind (21 + l))).1
    let outside := fun (i : Nat) =>
      let v := x.railV.getD i 0
      decide (v * 1000 < railNominal d i * 95) || decide (railNominal d i * 105 < v * 1000)
    s.toDev.board.rails = true → 3 ≤ stageOf s.toDev → hearth.1 < 120 * 16 → (∀ k, k < 20 → stack k < 105 * 16) →
    (∀ l, l < 20 → optic l < 90 * 16) → (∀ n, n < 6 → outside n = true → mget 0 d.board.outRail n = 0) →
    Answers (.housekeepingRound x now) s fun b =>
      let n := b.board.steps
      let st := fun (o i : Nat) => bit (reg b (thmOff o)) i
      let least := fun (l : List Int) (o : Nat) => ∀ a ∈ l, (∀ y ∈ l, a ≤ y) → reg b (hkOff o) = unsigned 16 a
      b.board.blind = blind ∧ (∀ l, l < 20 → least (x.laser.getD l []) (0x800 + 8 * l) ∧
        least (x.received.getD l []) (0x804 + 8 * l)) ∧
      StepsAfter d hearth.1 x.power n ∧
      b.board.limited = (if d.board.limited then decide (powerCap d ≤ x.power + 50)
        else decide (n = bakedCode d) && decide (powerCap d < x.power)) ∧
      Hysteresis hearth.1 95 (bit (reg d (thmOff 0)) 0) (st 0 0) ∧ st 0 1 = decide (n ≠ 0) ∧ st 0 2 = b.board.limited ∧
      bits (reg b (thmOff 0)) 31 8 = n % 2 ^ 24 ∧
      (∀ k, k < 20 → Hysteresis (stack k) 85 (bit (reg d (thmOff 0x08)) k) (st 0x08 k) ∧
        Hysteresis (stack k) 95 (bit d.board.hotStacks k) (bit b.board.hotStacks k) ∧
        st 0x0C k = (b.board.limited || bit b.board.hotStacks k) ∧ bit (reg b (stkOff k 0x04)) 1 = st 0x0C k) ∧
      (∀ l, l < 20 → Hysteresis (optic l) 70 (bit (reg d (thmOff 0x10)) l) (st 0x10 l) ∧
        Hysteresis (optic l) 80 (bit (reg d (thmOff 0x14)) l) (st 0x14 l) ∧
        linkOf b l = { linkOf d l with throttle := st 0x14 l }) ∧
      (b.board.alertN = true ↔ st 0 0 = true ∨ st 0 1 = true ∨ st 0 2 = true ∨
        (∃ k, k < 20 ∧ (st 0x08 k = true ∨ st 0x0C k = true)) ∨ ∃ l, l < 20 ∧ (st 0x10 l = true ∨ st 0x14 l = true)) ∧
      (∀ i, mget 0 b.board.outRail i = if i < 6 ∧ outside i = true then 1 else 0) ∧
      reg b (thmOff 4) = (unsigned 16 hearth.1 + hearth.2 * 2 ^ 16) % 2 ^ 32 ∧
      reg b (hkOff 0x14) = (bakedCode d - n + x.hearthV % 2 ^ 16 * 2 ^ 16) % 2 ^ 32 ∧
      reg b (hkOff 0x0C) = x.power % 2 ^ 16 ∧ reg b (hkOff 0) = (reg s.toDev (hkOff 0) + 1) % 2 ^ 32 ∧
      (∀ m, m < 428 → reg b (hkOff (0x100 + 4 * m)) = match sensorValue d.boot.fuses x m with
        | some t => if -640 ≤ t ∧ t ≤ 2400 then unsigned 16 t + 2 ^ 31 else unsigned 16 (max (-32768) (min 32767 t))
        | none => 0) ∧
      (∀ k c, k < 20 → c < 16 → bit (reg b (seqOff k 0x04)) c =
        match readings.getD (48 + 18 * k + c) none with
        | some t => decide (85 * 16 < t)
        | none => true) ∧
      Only ([.board, .links, .block 6, .block 7] ++ stackBlocks ++ ((List.range 20).map fun k => .block (33 + 2 * k)) ++
        hostPieces) d b

/-- R517, R525: a thermal event goes to the owner of every partition in force, in their order, and is counted once. -/
def Claim.ThermalEvents : Prop :=
  ∀ (d : Dev) (code id reading : Nat) (entry : Bool),
    let ps := partsInForce d
    let b := (thermalEvent code id reading entry d.start).dev
    reg b (thmOff 0x1C) = (reg d (thmOff 0x1C) + 1) % 2 ^ 32 ∧ Only (.block 7 :: hostPieces) d b ∧
      ∃ m : Nat → Dev, m 0 = d ∧ Only [.block 7] (m ps.length) b ∧ ∀ i p, ps[i]? = some p →
        EventSent p code 7 0 id (reading % 2 ^ 16 + if entry then 2 ^ 16 else 0) (m i) (m (i + 1))

/-- R485, R496, R506, R507, R518: the loss of the input leaves the module as at power-off, every latch clear; the fuses
hold what they held, and TRST_N is the board's (the model's choice, assumption 42). An input too high shuts it down with
cause 3. -/
def Claim.InputFails : Prop :=
  ∀ (s : State) (mv : Nat),
    let d := s.toDev
    Gives .inputUndervoltage s { Dev.init with
      freeCtr := d.freeCtr, uidCtr := d.uidCtr, board := { Board.init with trstN := d.board.trstN }
      boot := { Boot.init with fuses := d.boot.fuses } } ∧
    (d.board.input = true → d.board.shut = false → Answers (.inputOvervoltage mv) s (ShutDown 3 0 mv d.board.alertN d)) ∧
    (d.board.input = false ∨ d.board.shut = true → Gives (.inputOvervoltage mv) s d)

/-- R7, R521: the I3C target: a write of four bytes sets the offset, any other is refused; a read returns consecutive
registers, the lowest byte of each first, and moves the offset on; SETDASA and ENTDAA give a dynamic address to a target
without one. That a target with one keeps it, that a write of another length leaves the offset, and what reads 0, are the
model's choices (assumptions 42 and 43). -/
def Claim.TargetAddressed : Prop :=
  ∀ (s : State) (bytes : List Byte) (count static dynamic : Nat),
    let d := s.toDev
    let x := d.board
    let serves := x.input = true ∧ (x.shut = true ∨ 3 ≤ stageOf d ∨ isHalted d = true)
    let board := fun (i : Instr) (y : Board) => Answers i s fun b => b.board = y ∧ Only [.board] d b
    (x.input = true → bytes.length = 4 → board (.i3cPrivateWrite bytes) { x with offset := leNat bytes, nack := false }) ∧
    (x.input = true → bytes.length ≠ 4 → board (.i3cPrivateWrite bytes) { x with nack := true }) ∧
    (x.input = false → Gives (.i3cPrivateWrite bytes) s d) ∧
    (serves → Answers (.i3cPrivateRead count) s fun b => b.board.offset = (x.offset + 4 * count) % 2 ^ 32 ∧
      b.board = { x with offset := b.board.offset, readOut := b.board.readOut } ∧ Only [.board] d b ∧
      b.board.readOut.length = 4 * count ∧ ∀ i, i < count →
        let o := x.offset + 4 * i
        let visible := o % 4 = 0 ∧ (0x30000 ≤ o ∧ o < 0x40000 ∨ o = 0x50000 ∨ o = 0)
        let shown := fun (v : Nat) => (b.board.readOut.drop (4 * i)).take 4 = natLE v 4
        (¬ visible → shown 0) ∧ (visible → x.shut = false → shown (regRead d o)) ∧
          (x.shut = true → shown (if o = hkOff 0x18 then regRead d o else 0))) ∧
    (¬ serves → Gives (.i3cPrivateRead count) s d) ∧
    (x.input = true → x.dynamic = none → static = x.static →
      board (.setdasa static dynamic) { x with dynamic := some (dynamic % 128) }) ∧
    (x.input = false ∨ x.dynamic ≠ none ∨ static ≠ x.static → Gives (.setdasa static dynamic) s d) ∧
    (x.input = true → x.dynamic = none → board (.entdaa dynamic) { x with dynamic := some (dynamic % 128) }) ∧
    (x.input = false ∨ x.dynamic ≠ none → Gives (.entdaa dynamic) s d)

/-- R496, R529: out of reset the test access port performs IDCODE, which returns FUSE_IDCODE, and BYPASS, which passes
data through one bit; with the field-lock fuse blown every other instruction code acts as BYPASS, and with it whole the
data that another code shifts out is free (the model's choice, assumption 43); TRST_N holds the port in reset. -/
def Claim.PortTested : Prop :=
  ∀ (s : State) (code : TapCode) (tdi : Bool),
    let d := s.toDev
    let x := d.board
    let on := x.rails = true ∧ x.trstN = true
    let board := fun (i : Instr) (y : Board) => Answers i s fun b => b.board = y ∧ Only [.board] d b
    (on → board .idcode { x with idcode := true, tdo := reg d 0x5800C }) ∧
    (on → code = .bypass ∨ d.boot.fuses.locked = true →
      board (.bypass (code, tdi)) { x with idcode := false, bypass := tdi, tdo := if x.bypass then 1 else 0 }) ∧
    (on → code ≠ .bypass → d.boot.fuses.locked = false → Answers (.bypass (code, tdi)) s fun b =>
      b.board = { x with idcode := false, tdo := b.board.tdo } ∧ Only [.board] d b) ∧
    (¬ on → Gives .idcode s d ∧ Gives (.bypass (code, tdi)) s d) ∧
    board (.testAccessPortReset true) { x with trstN := true } ∧
    board (.testAccessPortReset false) { x with trstN := false, idcode := true, bypass := false }

/-- HOUSEKEEPING_ROUND, INPUT_UNDERVOLTAGE, INPUT_OVERVOLTAGE, I3C_PRIVATE_WRITE, I3C_PRIVATE_READ, SETDASA, ENTDAA,
IDCODE, BYPASS and TEST_ACCESS_PORT_RESET. -/
def Obligations.ThermalAndContacts : Prop :=
  Claim.Readings ∧ Claim.RoundShutsDown ∧ Claim.RoundThrottles ∧ Claim.ThermalEvents ∧ Claim.InputFails ∧
    Claim.TargetAddressed ∧ Claim.PortTested

end
end

