-- ==== Sys2Proof/Laws/Store.lean ====
section
/-! SUPPORT. Laws of sparse stores: a read after a write, the canonical form, and equality by reads. -/
namespace Sys2Proof.Machine
variable {α : Type}

theorem mget_nil (d : α) (k : Nat) : mget d [] k = d := rfl

theorem mwfFrom_mono [DecidableEq α] {d : α} {lo hi : Nat} (h : lo ≤ hi) :
    ∀ {m : Store α}, mwfFrom d hi m = true → mwfFrom d lo m = true
  | [], _ => rfl
  | (a, v) :: r, w => by
    simp only [mwfFrom, Bool.and_eq_true, decide_eq_true_eq] at w ⊢
    exact ⟨⟨by omega, w.1.2⟩, w.2⟩

theorem mget_below [DecidableEq α] {d : α} {lo k : Nat} (h : k < lo) :
    ∀ {m : Store α}, mwfFrom d lo m = true → mget d m k = d
  | [], _ => rfl
  | (a, v) :: r, w => by
    simp only [mwfFrom, Bool.and_eq_true, decide_eq_true_eq] at w
    rw [mget, if_neg (by omega)]
    exact mget_below (by omega) w.2

theorem mwfFrom_filter [DecidableEq α] {d : α} {p : Nat × α → Bool} : ∀ {lo : Nat} {m : Store α},
    mwfFrom d lo m = true → mwfFrom d lo (m.filter p) = true
  | _, [], _ => rfl
  | lo, (a, v) :: r, w => by
    simp only [mwfFrom, Bool.and_eq_true, decide_eq_true_eq] at w
    have t := mwfFrom_filter (p := p) w.2
    rw [List.filter_cons]
    split
    · simp only [mwfFrom, Bool.and_eq_true, decide_eq_true_eq]; exact ⟨w.1, t⟩
    · exact mwfFrom_mono (by omega) t

theorem mwfFrom_mput [DecidableEq α] {d : α} {k : Nat} {v : α} (hv : v ≠ d) :
    ∀ {lo : Nat} {m : Store α}, mwfFrom d lo m = true → lo ≤ k → mwfFrom d lo (mput m k v) = true
  | lo, [], _, h => by simp [mput, mwfFrom, h, hv]
  | lo, (a, w) :: r, m, h => by
    simp only [mwfFrom, Bool.and_eq_true, decide_eq_true_eq] at m
    rw [mput]
    split
    · rename_i e; subst e; simp [mwfFrom, h, hv, m.2]
    · split
      · simp only [mwfFrom, Bool.and_eq_true, decide_eq_true_eq]
        exact ⟨⟨h, hv⟩, ⟨by omega, m.1.2⟩, m.2⟩
      · simp only [mwfFrom, Bool.and_eq_true, decide_eq_true_eq]
        exact ⟨m.1, mwfFrom_mput hv m.2 (by omega)⟩

theorem mget_filter {d : α} {k : Nat} (j : Nat) : ∀ m : Store α,
    mget d (m.filter fun e => e.1 != k) j = if j = k then d else mget d m j
  | [] => by simp [mget]
  | (a, w) :: r => by
    by_cases h : a = k
    · rw [List.filter_cons_of_neg (by simp [h]), mget_filter j r]
      split
      · rfl
      · rw [mget, if_neg (by omega)]
    · rw [List.filter_cons_of_pos (by simp [h]), mget, mget_filter j r, mget]
      split
      · rw [if_neg (by omega)]
      · rfl

theorem mget_mput {d : α} {k : Nat} {v : α} (j : Nat) : ∀ m : Store α,
    mget d (mput m k v) j = if j = k then v else mget d m j
  | [] => by simp [mput, mget, eq_comm]
  | (a, w) :: r => by
    rw [mput]
    split
    · rename_i e; subst e
      by_cases h : j = a
      · simp [mget, h]
      · simp [mget, h, Ne.symm h]
    · split
      · simp only [mget, eq_comm (a := k)]
      · rename_i ha _
        rw [mget, mget_mput j r, mget]
        split
        · rw [if_neg (by omega)]
        · rfl

/-- A read after a write. -/
theorem mget_mset [DecidableEq α] {d : α} (m : Store α) (k j : Nat) (v : α) :
    mget d (mset d m k v) j = if j = k then v else mget d m j := by
  rw [mset]
  split
  · rename_i h; subst h; exact mget_filter j m
  · exact mget_mput j m

/-- A write leaves every other key as it was. -/
theorem mget_mset_other [DecidableEq α] {d e : α} {k j : Nat} (h : j ≠ k) (v : α) (m : Store α) :
    mget d (mset e m k v) j = mget d m j := by
  rw [mset]
  split
  · rw [mget_filter, if_neg h]
  · rw [mget_mput, if_neg h]

/-- A write keeps the canonical form. -/
theorem mwf_mset [DecidableEq α] {d : α} {m : Store α} (h : mwf d m = true) (k : Nat) (v : α) :
    mwf d (mset d m k v) = true := by
  rw [mset]
  split
  · exact mwfFrom_filter h
  · exact mwfFrom_mput (by assumption) h (by omega)

theorem mwf_mputs [DecidableEq α] {d : α} : ∀ {m : Store α} (_ : mwf d m = true) (k : Nat) (l : List α),
    mwf d (mputs d m k l) = true
  | _, h, _, [] => h
  | _, h, k, v :: r => mwf_mputs (mwf_mset h k v) (k + 1) r

theorem mwf_mdrop [DecidableEq α] {d : α} {m : Store α} (p : Nat → Bool) (h : mwf d m = true) :
    mwf d (mdrop p m) = true := mwfFrom_filter h

/-- Bytes written at consecutive keys leave the keys outside as they were. -/
theorem mget_mputs_other [DecidableEq α] {d : α} {j : Nat} : ∀ (m : Store α) (k : Nat) (l : List α),
    j < k ∨ k + l.length ≤ j → mget d (mputs d m k l) j = mget d m j
  | _, _, [], _ => rfl
  | m, k, v :: r, h => by
    simp only [List.length_cons] at h
    rw [mputs, mget_mputs_other _ _ r (by omega), mget_mset_other (by omega)]

/-- Bytes written at consecutive keys are read there. -/
theorem mget_mputs [DecidableEq α] {d : α} {i : Nat} : ∀ (m : Store α) (k : Nat) (l : List α),
    i < l.length → mget d (mputs d m k l) (k + i) = l.getD i d
  | _, _, [], h => absurd h (by simp)
  | m, k, v :: r, h => by
    rw [mputs]
    cases i with
    | zero => rw [Nat.add_zero, mget_mputs_other _ _ r (by omega), mget_mset]; simp
    | succ i =>
      have := mget_mputs (d := d) (mset d m k v) (k + 1) r (i := i) (by simpa using h)
      simpa [Nat.add_assoc, Nat.add_comm 1 i] using this

/-- Two stores in canonical form that read alike are equal. -/
theorem store_ext [DecidableEq α] {d : α} : ∀ {lo : Nat} {m n : Store α}, mwfFrom d lo m = true → mwfFrom d lo n = true →
    (∀ k, mget d m k = mget d n k) → m = n
  | _, [], [], _, _, _ => rfl
  | _, [], (b, w) :: s, _, n, h => by
    simp only [mwfFrom, Bool.and_eq_true, decide_eq_true_eq] at n
    have := h b; simp [mget] at this; exact absurd this.symm n.1.2
  | _, (a, v) :: r, [], m, _, h => by
    simp only [mwfFrom, Bool.and_eq_true, decide_eq_true_eq] at m
    have := h a; simp [mget] at this; exact absurd this m.1.2
  | lo, (a, v) :: r, (b, w) :: s, m, n, h => by
    simp only [mwfFrom, Bool.and_eq_true, decide_eq_true_eq] at m n
    have hab : a = b := by
      rcases Nat.lt_trichotomy a b with l | e | l
      · have t := h a
        rw [mget, if_pos rfl, mget, if_neg (by omega), mget_below (by omega) n.2] at t
        exact absurd t m.1.2
      · exact e
      · have t := h b
        rw [mget, if_neg (by omega), mget_below (by omega) m.2, mget, if_pos rfl] at t
        exact absurd t.symm n.1.2
    subst hab
    have hv : v = w := by simpa [mget] using h a
    subst hv
    have hr : r = s := store_ext m.2 n.2 (fun k => by
      by_cases e : a = k
      · subst e; rw [mget_below (by omega) m.2, mget_below (by omega) n.2]
      · have := h k; rwa [mget, if_neg e, mget, if_neg e] at this)
    rw [hr]

end Sys2Proof.Machine
end

