-- ==== Sys2Proof/Laws/State.lean ====
section
/-! SUPPORT. What each named update leaves of the module, one lemma for each update and piece, and what it makes of its own. -/
namespace Sys2Proof.Machine
variable {d₀ : Dev}

@[simp] theorem Dev.start_dev (d : Dev) : d.start.dev = d := rfl

@[simp] theorem setReg_time (o v : Nat) (r : Run d₀) : (setReg o v r).dev.time = r.dev.time := rfl
@[simp] theorem setReg_mem (o v : Nat) (r : Run d₀) : (setReg o v r).dev.mem = r.dev.mem := rfl
@[simp] theorem setReg_lights (o v : Nat) (r : Run d₀) : (setReg o v r).dev.lights = r.dev.lights := rfl
@[simp] theorem setReg_spad (o v : Nat) (r : Run d₀) : (setReg o v r).dev.spad = r.dev.spad := rfl
@[simp] theorem setReg_cores (o v : Nat) (r : Run d₀) : (setReg o v r).dev.hearth.cores = r.dev.hearth.cores := rfl
@[simp] theorem setReg_mirrors (o v : Nat) (r : Run d₀) :
    (setReg o v r).dev.hearth.mirrors = r.dev.hearth.mirrors := rfl
@[simp] theorem setReg_clusters (o v : Nat) (r : Run d₀) :
    (setReg o v r).dev.hearth.clusters = r.dev.hearth.clusters := rfl
@[simp] theorem setReg_cmds (o v : Nat) (r : Run d₀) : (setReg o v r).dev.hearth.cmds = r.dev.hearth.cmds := rfl
@[simp] theorem setReg_arrivals (o v : Nat) (r : Run d₀) :
    (setReg o v r).dev.hearth.arrivals = r.dev.hearth.arrivals := rfl
@[simp] theorem setReg_turns (o v : Nat) (r : Run d₀) : (setReg o v r).dev.hearth.turns = r.dev.hearth.turns := rfl
@[simp] theorem setReg_rings (o v : Nat) (r : Run d₀) : (setReg o v r).dev.host.rings = r.dev.host.rings := rfl
@[simp] theorem setReg_hostRings (o v : Nat) (r : Run d₀) :
    (setReg o v r).dev.host.hostRings = r.dev.host.hostRings := rfl
@[simp] theorem setReg_qps (o v : Nat) (r : Run d₀) : (setReg o v r).dev.host.qps = r.dev.host.qps := rfl
@[simp] theorem setReg_ctrl (o v : Nat) (r : Run d₀) : (setReg o v r).dev.host.ctrl = r.dev.host.ctrl := rfl
@[simp] theorem setReg_parts (o v : Nat) (r : Run d₀) : (setReg o v r).dev.parts = r.dev.parts := rfl
@[simp] theorem setReg_stackSet (o v : Nat) (r : Run d₀) : (setReg o v r).dev.stackSet = r.dev.stackSet := rfl
@[simp] theorem setReg_chans (o v : Nat) (r : Run d₀) : (setReg o v r).dev.chans = r.dev.chans := rfl
@[simp] theorem setReg_upkeep (o v : Nat) (r : Run d₀) : (setReg o v r).dev.upkeep = r.dev.upkeep := rfl
@[simp] theorem setReg_links (o v : Nat) (r : Run d₀) : (setReg o v r).dev.fabric.links = r.dev.fabric.links := rfl
@[simp] theorem setReg_fabric (o v : Nat) (r : Run d₀) : (setReg o v r).dev.fabric = r.dev.fabric := rfl
@[simp] theorem setReg_serving (o v : Nat) (r : Run d₀) : (setReg o v r).dev.serving = r.dev.serving := rfl
@[simp] theorem setReg_boot (o v : Nat) (r : Run d₀) : (setReg o v r).dev.boot = r.dev.boot := rfl
@[simp] theorem setReg_board (o v : Nat) (r : Run d₀) : (setReg o v r).dev.board = r.dev.board := rfl

@[simp] theorem addReg_time (o n : Nat) (r : Run d₀) : (addReg o n r).dev.time = r.dev.time := rfl
@[simp] theorem addReg_mem (o n : Nat) (r : Run d₀) : (addReg o n r).dev.mem = r.dev.mem := rfl
@[simp] theorem addReg_lights (o n : Nat) (r : Run d₀) : (addReg o n r).dev.lights = r.dev.lights := rfl
@[simp] theorem addReg_spad (o n : Nat) (r : Run d₀) : (addReg o n r).dev.spad = r.dev.spad := rfl
@[simp] theorem addReg_cores (o n : Nat) (r : Run d₀) : (addReg o n r).dev.hearth.cores = r.dev.hearth.cores := rfl
@[simp] theorem addReg_mirrors (o n : Nat) (r : Run d₀) :
    (addReg o n r).dev.hearth.mirrors = r.dev.hearth.mirrors := rfl
@[simp] theorem addReg_clusters (o n : Nat) (r : Run d₀) :
    (addReg o n r).dev.hearth.clusters = r.dev.hearth.clusters := rfl
@[simp] theorem addReg_cmds (o n : Nat) (r : Run d₀) : (addReg o n r).dev.hearth.cmds = r.dev.hearth.cmds := rfl
@[simp] theorem addReg_arrivals (o n : Nat) (r : Run d₀) :
    (addReg o n r).dev.hearth.arrivals = r.dev.hearth.arrivals := rfl
@[simp] theorem addReg_turns (o n : Nat) (r : Run d₀) : (addReg o n r).dev.hearth.turns = r.dev.hearth.turns := rfl
@[simp] theorem addReg_rings (o n : Nat) (r : Run d₀) : (addReg o n r).dev.host.rings = r.dev.host.rings := rfl
@[simp] theorem addReg_hostRings (o n : Nat) (r : Run d₀) :
    (addReg o n r).dev.host.hostRings = r.dev.host.hostRings := rfl
@[simp] theorem addReg_qps (o n : Nat) (r : Run d₀) : (addReg o n r).dev.host.qps = r.dev.host.qps := rfl
@[simp] theorem addReg_ctrl (o n : Nat) (r : Run d₀) : (addReg o n r).dev.host.ctrl = r.dev.host.ctrl := rfl
@[simp] theorem addReg_parts (o n : Nat) (r : Run d₀) : (addReg o n r).dev.parts = r.dev.parts := rfl
@[simp] theorem addReg_stackSet (o n : Nat) (r : Run d₀) : (addReg o n r).dev.stackSet = r.dev.stackSet := rfl
@[simp] theorem addReg_chans (o n : Nat) (r : Run d₀) : (addReg o n r).dev.chans = r.dev.chans := rfl
@[simp] theorem addReg_upkeep (o n : Nat) (r : Run d₀) : (addReg o n r).dev.upkeep = r.dev.upkeep := rfl
@[simp] theorem addReg_links (o n : Nat) (r : Run d₀) : (addReg o n r).dev.fabric.links = r.dev.fabric.links := rfl
@[simp] theorem addReg_fabric (o n : Nat) (r : Run d₀) : (addReg o n r).dev.fabric = r.dev.fabric := rfl
@[simp] theorem addReg_serving (o n : Nat) (r : Run d₀) : (addReg o n r).dev.serving = r.dev.serving := rfl
@[simp] theorem addReg_boot (o n : Nat) (r : Run d₀) : (addReg o n r).dev.boot = r.dev.boot := rfl
@[simp] theorem addReg_board (o n : Nat) (r : Run d₀) : (addReg o n r).dev.board = r.dev.board := rfl

@[simp] theorem setField_time (o hi lo v : Nat) (r : Run d₀) : (setField o hi lo v r).dev.time = r.dev.time := rfl
@[simp] theorem setField_mem (o hi lo v : Nat) (r : Run d₀) : (setField o hi lo v r).dev.mem = r.dev.mem := rfl
@[simp] theorem setField_lights (o hi lo v : Nat) (r : Run d₀) : (setField o hi lo v r).dev.lights = r.dev.lights := rfl
@[simp] theorem setField_spad (o hi lo v : Nat) (r : Run d₀) : (setField o hi lo v r).dev.spad = r.dev.spad := rfl
@[simp] theorem setField_cores (o hi lo v : Nat) (r : Run d₀) :
    (setField o hi lo v r).dev.hearth.cores = r.dev.hearth.cores := rfl
@[simp] theorem setField_mirrors (o hi lo v : Nat) (r : Run d₀) :
    (setField o hi lo v r).dev.hearth.mirrors = r.dev.hearth.mirrors := rfl
@[simp] theorem setField_clusters (o hi lo v : Nat) (r : Run d₀) :
    (setField o hi lo v r).dev.hearth.clusters = r.dev.hearth.clusters := rfl
@[simp] theorem setField_cmds (o hi lo v : Nat) (r : Run d₀) :
    (setField o hi lo v r).dev.hearth.cmds = r.dev.hearth.cmds := rfl
@[simp] theorem setField_arrivals (o hi lo v : Nat) (r : Run d₀) :
    (setField o hi lo v r).dev.hearth.arrivals = r.dev.hearth.arrivals := rfl
@[simp] theorem setField_turns (o hi lo v : Nat) (r : Run d₀) :
    (setField o hi lo v r).dev.hearth.turns = r.dev.hearth.turns := rfl
@[simp] theorem setField_rings (o hi lo v : Nat) (r : Run d₀) :
    (setField o hi lo v r).dev.host.rings = r.dev.host.rings := rfl
@[simp] theorem setField_hostRings (o hi lo v : Nat) (r : Run d₀) :
    (setField o hi lo v r).dev.host.hostRings = r.dev.host.hostRings := rfl
@[simp] theorem setField_qps (o hi lo v : Nat) (r : Run d₀) :
    (setField o hi lo v r).dev.host.qps = r.dev.host.qps := rfl
@[simp] theorem setField_ctrl (o hi lo v : Nat) (r : Run d₀) :
    (setField o hi lo v r).dev.host.ctrl = r.dev.host.ctrl := rfl
@[simp] theorem setField_parts (o hi lo v : Nat) (r : Run d₀) : (setField o hi lo v r).dev.parts = r.dev.parts := rfl
@[simp] theorem setField_stackSet (o hi lo v : Nat) (r : Run d₀) :
    (setField o hi lo v r).dev.stackSet = r.dev.stackSet := rfl
@[simp] theorem setField_chans (o hi lo v : Nat) (r : Run d₀) : (setField o hi lo v r).dev.chans = r.dev.chans := rfl
@[simp] theorem setField_upkeep (o hi lo v : Nat) (r : Run d₀) : (setField o hi lo v r).dev.upkeep = r.dev.upkeep := rfl
@[simp] theorem setField_links (o hi lo v : Nat) (r : Run d₀) :
    (setField o hi lo v r).dev.fabric.links = r.dev.fabric.links := rfl
@[simp] theorem setField_fabric (o hi lo v : Nat) (r : Run d₀) : (setField o hi lo v r).dev.fabric = r.dev.fabric := rfl
@[simp] theorem setField_serving (o hi lo v : Nat) (r : Run d₀) :
    (setField o hi lo v r).dev.serving = r.dev.serving := rfl
@[simp] theorem setField_boot (o hi lo v : Nat) (r : Run d₀) : (setField o hi lo v r).dev.boot = r.dev.boot := rfl
@[simp] theorem setField_board (o hi lo v : Nat) (r : Run d₀) : (setField o hi lo v r).dev.board = r.dev.board := rfl

@[simp] theorem setRegBit_time (o i : Nat) (b : Bool) (r : Run d₀) : (setRegBit o i b r).dev.time = r.dev.time := rfl
@[simp] theorem setRegBit_mem (o i : Nat) (b : Bool) (r : Run d₀) : (setRegBit o i b r).dev.mem = r.dev.mem := rfl
@[simp] theorem setRegBit_lights (o i : Nat) (b : Bool) (r : Run d₀) :
    (setRegBit o i b r).dev.lights = r.dev.lights := rfl
@[simp] theorem setRegBit_spad (o i : Nat) (b : Bool) (r : Run d₀) : (setRegBit o i b r).dev.spad = r.dev.spad := rfl
@[simp] theorem setRegBit_cores (o i : Nat) (b : Bool) (r : Run d₀) :
    (setRegBit o i b r).dev.hearth.cores = r.dev.hearth.cores := rfl
@[simp] theorem setRegBit_mirrors (o i : Nat) (b : Bool) (r : Run d₀) :
    (setRegBit o i b r).dev.hearth.mirrors = r.dev.hearth.mirrors := rfl
@[simp] theorem setRegBit_clusters (o i : Nat) (b : Bool) (r : Run d₀) :
    (setRegBit o i b r).dev.hearth.clusters = r.dev.hearth.clusters := rfl
@[simp] theorem setRegBit_cmds (o i : Nat) (b : Bool) (r : Run d₀) :
    (setRegBit o i b r).dev.hearth.cmds = r.dev.hearth.cmds := rfl
@[simp] theorem setRegBit_arrivals (o i : Nat) (b : Bool) (r : Run d₀) :
    (setRegBit o i b r).dev.hearth.arrivals = r.dev.hearth.arrivals := rfl
@[simp] theorem setRegBit_turns (o i : Nat) (b : Bool) (r : Run d₀) :
    (setRegBit o i b r).dev.hearth.turns = r.dev.hearth.turns := rfl
@[simp] theorem setRegBit_rings (o i : Nat) (b : Bool) (r : Run d₀) :
    (setRegBit o i b r).dev.host.rings = r.dev.host.rings := rfl
@[simp] theorem setRegBit_hostRings (o i : Nat) (b : Bool) (r : Run d₀) :
    (setRegBit o i b r).dev.host.hostRings = r.dev.host.hostRings := rfl
@[simp] theorem setRegBit_qps (o i : Nat) (b : Bool) (r : Run d₀) :
    (setRegBit o i b r).dev.host.qps = r.dev.host.qps := rfl
@[simp] theorem setRegBit_ctrl (o i : Nat) (b : Bool) (r : Run d₀) :
    (setRegBit o i b r).dev.host.ctrl = r.dev.host.ctrl := rfl
@[simp] theorem setRegBit_parts (o i : Nat) (b : Bool) (r : Run d₀) : (setRegBit o i b r).dev.parts = r.dev.parts := rfl
@[simp] theorem setRegBit_stackSet (o i : Nat) (b : Bool) (r : Run d₀) :
    (setRegBit o i b r).dev.stackSet = r.dev.stackSet := rfl
@[simp] theorem setRegBit_chans (o i : Nat) (b : Bool) (r : Run d₀) : (setRegBit o i b r).dev.chans = r.dev.chans := rfl
@[simp] theorem setRegBit_upkeep (o i : Nat) (b : Bool) (r : Run d₀) :
    (setRegBit o i b r).dev.upkeep = r.dev.upkeep := rfl
@[simp] theorem setRegBit_links (o i : Nat) (b : Bool) (r : Run d₀) :
    (setRegBit o i b r).dev.fabric.links = r.dev.fabric.links := rfl
@[simp] theorem setRegBit_fabric (o i : Nat) (b : Bool) (r : Run d₀) :
    (setRegBit o i b r).dev.fabric = r.dev.fabric := rfl
@[simp] theorem setRegBit_serving (o i : Nat) (b : Bool) (r : Run d₀) :
    (setRegBit o i b r).dev.serving = r.dev.serving := rfl
@[simp] theorem setRegBit_boot (o i : Nat) (b : Bool) (r : Run d₀) : (setRegBit o i b r).dev.boot = r.dev.boot := rfl
@[simp] theorem setRegBit_board (o i : Nat) (b : Bool) (r : Run d₀) : (setRegBit o i b r).dev.board = r.dev.board := rfl

@[simp] theorem setCore_time (k : Nat) (c : Core) (r : Run d₀) : (setCore k c r).dev.time = r.dev.time := rfl
@[simp] theorem setCore_regs (k : Nat) (c : Core) (r : Run d₀) : (setCore k c r).dev.regs = r.dev.regs := rfl
@[simp] theorem setCore_mem (k : Nat) (c : Core) (r : Run d₀) : (setCore k c r).dev.mem = r.dev.mem := rfl
@[simp] theorem setCore_lights (k : Nat) (c : Core) (r : Run d₀) : (setCore k c r).dev.lights = r.dev.lights := rfl
@[simp] theorem setCore_spad (k : Nat) (c : Core) (r : Run d₀) : (setCore k c r).dev.spad = r.dev.spad := rfl
@[simp] theorem setCore_mirrors (k : Nat) (c : Core) (r : Run d₀) :
    (setCore k c r).dev.hearth.mirrors = r.dev.hearth.mirrors := rfl
@[simp] theorem setCore_clusters (k : Nat) (c : Core) (r : Run d₀) :
    (setCore k c r).dev.hearth.clusters = r.dev.hearth.clusters := rfl
@[simp] theorem setCore_cmds (k : Nat) (c : Core) (r : Run d₀) :
    (setCore k c r).dev.hearth.cmds = r.dev.hearth.cmds := rfl
@[simp] theorem setCore_arrivals (k : Nat) (c : Core) (r : Run d₀) :
    (setCore k c r).dev.hearth.arrivals = r.dev.hearth.arrivals := rfl
@[simp] theorem setCore_turns (k : Nat) (c : Core) (r : Run d₀) :
    (setCore k c r).dev.hearth.turns = r.dev.hearth.turns := rfl
@[simp] theorem setCore_rings (k : Nat) (c : Core) (r : Run d₀) :
    (setCore k c r).dev.host.rings = r.dev.host.rings := rfl
@[simp] theorem setCore_hostRings (k : Nat) (c : Core) (r : Run d₀) :
    (setCore k c r).dev.host.hostRings = r.dev.host.hostRings := rfl
@[simp] theorem setCore_qps (k : Nat) (c : Core) (r : Run d₀) : (setCore k c r).dev.host.qps = r.dev.host.qps := rfl
@[simp] theorem setCore_ctrl (k : Nat) (c : Core) (r : Run d₀) : (setCore k c r).dev.host.ctrl = r.dev.host.ctrl := rfl
@[simp] theorem setCore_parts (k : Nat) (c : Core) (r : Run d₀) : (setCore k c r).dev.parts = r.dev.parts := rfl
@[simp] theorem setCore_stackSet (k : Nat) (c : Core) (r : Run d₀) :
    (setCore k c r).dev.stackSet = r.dev.stackSet := rfl
@[simp] theorem setCore_chans (k : Nat) (c : Core) (r : Run d₀) : (setCore k c r).dev.chans = r.dev.chans := rfl
@[simp] theorem setCore_upkeep (k : Nat) (c : Core) (r : Run d₀) : (setCore k c r).dev.upkeep = r.dev.upkeep := rfl
@[simp] theorem setCore_links (k : Nat) (c : Core) (r : Run d₀) :
    (setCore k c r).dev.fabric.links = r.dev.fabric.links := rfl
@[simp] theorem setCore_fabric (k : Nat) (c : Core) (r : Run d₀) : (setCore k c r).dev.fabric = r.dev.fabric := rfl
@[simp] theorem setCore_serving (k : Nat) (c : Core) (r : Run d₀) : (setCore k c r).dev.serving = r.dev.serving := rfl
@[simp] theorem setCore_boot (k : Nat) (c : Core) (r : Run d₀) : (setCore k c r).dev.boot = r.dev.boot := rfl
@[simp] theorem setCore_board (k : Nat) (c : Core) (r : Run d₀) : (setCore k c r).dev.board = r.dev.board := rfl

@[simp] theorem setMirror_time (k : Nat) (m : Store (List Byte)) (r : Run d₀) :
    (setMirror k m r).dev.time = r.dev.time := rfl
@[simp] theorem setMirror_regs (k : Nat) (m : Store (List Byte)) (r : Run d₀) :
    (setMirror k m r).dev.regs = r.dev.regs := rfl
@[simp] theorem setMirror_mem (k : Nat) (m : Store (List Byte)) (r : Run d₀) :
    (setMirror k m r).dev.mem = r.dev.mem := rfl
@[simp] theorem setMirror_lights (k : Nat) (m : Store (List Byte)) (r : Run d₀) :
    (setMirror k m r).dev.lights = r.dev.lights := rfl
@[simp] theorem setMirror_spad (k : Nat) (m : Store (List Byte)) (r : Run d₀) :
    (setMirror k m r).dev.spad = r.dev.spad := rfl
@[simp] theorem setMirror_cores (k : Nat) (m : Store (List Byte)) (r : Run d₀) :
    (setMirror k m r).dev.hearth.cores = r.dev.hearth.cores := rfl
@[simp] theorem setMirror_clusters (k : Nat) (m : Store (List Byte)) (r : Run d₀) :
    (setMirror k m r).dev.hearth.clusters = r.dev.hearth.clusters := rfl
@[simp] theorem setMirror_cmds (k : Nat) (m : Store (List Byte)) (r : Run d₀) :
    (setMirror k m r).dev.hearth.cmds = r.dev.hearth.cmds := rfl
@[simp] theorem setMirror_arrivals (k : Nat) (m : Store (List Byte)) (r : Run d₀) :
    (setMirror k m r).dev.hearth.arrivals = r.dev.hearth.arrivals := rfl
@[simp] theorem setMirror_turns (k : Nat) (m : Store (List Byte)) (r : Run d₀) :
    (setMirror k m r).dev.hearth.turns = r.dev.hearth.turns := rfl
@[simp] theorem setMirror_rings (k : Nat) (m : Store (List Byte)) (r : Run d₀) :
    (setMirror k m r).dev.host.rings = r.dev.host.rings := rfl
@[simp] theorem setMirror_hostRings (k : Nat) (m : Store (List Byte)) (r : Run d₀) :
    (setMirror k m r).dev.host.hostRings = r.dev.host.hostRings := rfl
@[simp] theorem setMirror_qps (k : Nat) (m : Store (List Byte)) (r : Run d₀) :
    (setMirror k m r).dev.host.qps = r.dev.host.qps := rfl
@[simp] theorem setMirror_ctrl (k : Nat) (m : Store (List Byte)) (r : Run d₀) :
    (setMirror k m r).dev.host.ctrl = r.dev.host.ctrl := rfl
@[simp] theorem setMirror_parts (k : Nat) (m : Store (List Byte)) (r : Run d₀) :
    (setMirror k m r).dev.parts = r.dev.parts := rfl
@[simp] theorem setMirror_stackSet (k : Nat) (m : Store (List Byte)) (r : Run d₀) :
    (setMirror k m r).dev.stackSet = r.dev.stackSet := rfl
@[simp] theorem setMirror_chans (k : Nat) (m : Store (List Byte)) (r : Run d₀) :
    (setMirror k m r).dev.chans = r.dev.chans := rfl
@[simp] theorem setMirror_upkeep (k : Nat) (m : Store (List Byte)) (r : Run d₀) :
    (setMirror k m r).dev.upkeep = r.dev.upkeep := rfl
@[simp] theorem setMirror_links (k : Nat) (m : Store (List Byte)) (r : Run d₀) :
    (setMirror k m r).dev.fabric.links = r.dev.fabric.links := rfl
@[simp] theorem setMirror_fabric (k : Nat) (m : Store (List Byte)) (r : Run d₀) :
    (setMirror k m r).dev.fabric = r.dev.fabric := rfl
@[simp] theorem setMirror_serving (k : Nat) (m : Store (List Byte)) (r : Run d₀) :
    (setMirror k m r).dev.serving = r.dev.serving := rfl
@[simp] theorem setMirror_boot (k : Nat) (m : Store (List Byte)) (r : Run d₀) :
    (setMirror k m r).dev.boot = r.dev.boot := rfl
@[simp] theorem setMirror_board (k : Nat) (m : Store (List Byte)) (r : Run d₀) :
    (setMirror k m r).dev.board = r.dev.board := rfl

@[simp] theorem setCluster_time (k : Nat) (c : Cluster) (r : Run d₀) : (setCluster k c r).dev.time = r.dev.time := rfl
@[simp] theorem setCluster_regs (k : Nat) (c : Cluster) (r : Run d₀) : (setCluster k c r).dev.regs = r.dev.regs := rfl
@[simp] theorem setCluster_mem (k : Nat) (c : Cluster) (r : Run d₀) : (setCluster k c r).dev.mem = r.dev.mem := rfl
@[simp] theorem setCluster_lights (k : Nat) (c : Cluster) (r : Run d₀) :
    (setCluster k c r).dev.lights = r.dev.lights := rfl
@[simp] theorem setCluster_spad (k : Nat) (c : Cluster) (r : Run d₀) : (setCluster k c r).dev.spad = r.dev.spad := rfl
@[simp] theorem setCluster_cores (k : Nat) (c : Cluster) (r : Run d₀) :
    (setCluster k c r).dev.hearth.cores = r.dev.hearth.cores := rfl
@[simp] theorem setCluster_mirrors (k : Nat) (c : Cluster) (r : Run d₀) :
    (setCluster k c r).dev.hearth.mirrors = r.dev.hearth.mirrors := rfl
@[simp] theorem setCluster_cmds (k : Nat) (c : Cluster) (r : Run d₀) :
    (setCluster k c r).dev.hearth.cmds = r.dev.hearth.cmds := rfl
@[simp] theorem setCluster_arrivals (k : Nat) (c : Cluster) (r : Run d₀) :
    (setCluster k c r).dev.hearth.arrivals = r.dev.hearth.arrivals := rfl
@[simp] theorem setCluster_turns (k : Nat) (c : Cluster) (r : Run d₀) :
    (setCluster k c r).dev.hearth.turns = r.dev.hearth.turns := rfl
@[simp] theorem setCluster_rings (k : Nat) (c : Cluster) (r : Run d₀) :
    (setCluster k c r).dev.host.rings = r.dev.host.rings := rfl
@[simp] theorem setCluster_hostRings (k : Nat) (c : Cluster) (r : Run d₀) :
    (setCluster k c r).dev.host.hostRings = r.dev.host.hostRings := rfl
@[simp] theorem setCluster_qps (k : Nat) (c : Cluster) (r : Run d₀) :
    (setCluster k c r).dev.host.qps = r.dev.host.qps := rfl
@[simp] theorem setCluster_ctrl (k : Nat) (c : Cluster) (r : Run d₀) :
    (setCluster k c r).dev.host.ctrl = r.dev.host.ctrl := rfl
@[simp] theorem setCluster_parts (k : Nat) (c : Cluster) (r : Run d₀) :
    (setCluster k c r).dev.parts = r.dev.parts := rfl
@[simp] theorem setCluster_stackSet (k : Nat) (c : Cluster) (r : Run d₀) :
    (setCluster k c r).dev.stackSet = r.dev.stackSet := rfl
@[simp] theorem setCluster_chans (k : Nat) (c : Cluster) (r : Run d₀) :
    (setCluster k c r).dev.chans = r.dev.chans := rfl
@[simp] theorem setCluster_upkeep (k : Nat) (c : Cluster) (r : Run d₀) :
    (setCluster k c r).dev.upkeep = r.dev.upkeep := rfl
@[simp] theorem setCluster_links (k : Nat) (c : Cluster) (r : Run d₀) :
    (setCluster k c r).dev.fabric.links = r.dev.fabric.links := rfl
@[simp] theorem setCluster_fabric (k : Nat) (c : Cluster) (r : Run d₀) :
    (setCluster k c r).dev.fabric = r.dev.fabric := rfl
@[simp] theorem setCluster_serving (k : Nat) (c : Cluster) (r : Run d₀) :
    (setCluster k c r).dev.serving = r.dev.serving := rfl
@[simp] theorem setCluster_boot (k : Nat) (c : Cluster) (r : Run d₀) : (setCluster k c r).dev.boot = r.dev.boot := rfl
@[simp] theorem setCluster_board (k : Nat) (c : Cluster) (r : Run d₀) :
    (setCluster k c r).dev.board = r.dev.board := rfl

@[simp] theorem setCmd_time (c : Cmd) (r : Run d₀) : (setCmd c r).dev.time = r.dev.time := rfl
@[simp] theorem setCmd_regs (c : Cmd) (r : Run d₀) : (setCmd c r).dev.regs = r.dev.regs := rfl
@[simp] theorem setCmd_mem (c : Cmd) (r : Run d₀) : (setCmd c r).dev.mem = r.dev.mem := rfl
@[simp] theorem setCmd_lights (c : Cmd) (r : Run d₀) : (setCmd c r).dev.lights = r.dev.lights := rfl
@[simp] theorem setCmd_spad (c : Cmd) (r : Run d₀) : (setCmd c r).dev.spad = r.dev.spad := rfl
@[simp] theorem setCmd_cores (c : Cmd) (r : Run d₀) : (setCmd c r).dev.hearth.cores = r.dev.hearth.cores := rfl
@[simp] theorem setCmd_mirrors (c : Cmd) (r : Run d₀) : (setCmd c r).dev.hearth.mirrors = r.dev.hearth.mirrors := rfl
@[simp] theorem setCmd_clusters (c : Cmd) (r : Run d₀) : (setCmd c r).dev.hearth.clusters = r.dev.hearth.clusters := rfl
@[simp] theorem setCmd_arrivals (c : Cmd) (r : Run d₀) : (setCmd c r).dev.hearth.arrivals = r.dev.hearth.arrivals := rfl
@[simp] theorem setCmd_turns (c : Cmd) (r : Run d₀) : (setCmd c r).dev.hearth.turns = r.dev.hearth.turns := rfl
@[simp] theorem setCmd_rings (c : Cmd) (r : Run d₀) : (setCmd c r).dev.host.rings = r.dev.host.rings := rfl
@[simp] theorem setCmd_hostRings (c : Cmd) (r : Run d₀) : (setCmd c r).dev.host.hostRings = r.dev.host.hostRings := rfl
@[simp] theorem setCmd_qps (c : Cmd) (r : Run d₀) : (setCmd c r).dev.host.qps = r.dev.host.qps := rfl
@[simp] theorem setCmd_ctrl (c : Cmd) (r : Run d₀) : (setCmd c r).dev.host.ctrl = r.dev.host.ctrl := rfl
@[simp] theorem setCmd_parts (c : Cmd) (r : Run d₀) : (setCmd c r).dev.parts = r.dev.parts := rfl
@[simp] theorem setCmd_stackSet (c : Cmd) (r : Run d₀) : (setCmd c r).dev.stackSet = r.dev.stackSet := rfl
@[simp] theorem setCmd_chans (c : Cmd) (r : Run d₀) : (setCmd c r).dev.chans = r.dev.chans := rfl
@[simp] theorem setCmd_upkeep (c : Cmd) (r : Run d₀) : (setCmd c r).dev.upkeep = r.dev.upkeep := rfl
@[simp] theorem setCmd_links (c : Cmd) (r : Run d₀) : (setCmd c r).dev.fabric.links = r.dev.fabric.links := rfl
@[simp] theorem setCmd_fabric (c : Cmd) (r : Run d₀) : (setCmd c r).dev.fabric = r.dev.fabric := rfl
@[simp] theorem setCmd_serving (c : Cmd) (r : Run d₀) : (setCmd c r).dev.serving = r.dev.serving := rfl
@[simp] theorem setCmd_boot (c : Cmd) (r : Run d₀) : (setCmd c r).dev.boot = r.dev.boot := rfl
@[simp] theorem setCmd_board (c : Cmd) (r : Run d₀) : (setCmd c r).dev.board = r.dev.board := rfl

@[simp] theorem dropCmd_time (u : Nat) (r : Run d₀) : (dropCmd u r).dev.time = r.dev.time := rfl
@[simp] theorem dropCmd_regs (u : Nat) (r : Run d₀) : (dropCmd u r).dev.regs = r.dev.regs := rfl
@[simp] theorem dropCmd_mem (u : Nat) (r : Run d₀) : (dropCmd u r).dev.mem = r.dev.mem := rfl
@[simp] theorem dropCmd_lights (u : Nat) (r : Run d₀) : (dropCmd u r).dev.lights = r.dev.lights := rfl
@[simp] theorem dropCmd_spad (u : Nat) (r : Run d₀) : (dropCmd u r).dev.spad = r.dev.spad := rfl
@[simp] theorem dropCmd_cores (u : Nat) (r : Run d₀) : (dropCmd u r).dev.hearth.cores = r.dev.hearth.cores := rfl
@[simp] theorem dropCmd_mirrors (u : Nat) (r : Run d₀) : (dropCmd u r).dev.hearth.mirrors = r.dev.hearth.mirrors := rfl
@[simp] theorem dropCmd_clusters (u : Nat) (r : Run d₀) :
    (dropCmd u r).dev.hearth.clusters = r.dev.hearth.clusters := rfl
@[simp] theorem dropCmd_arrivals (u : Nat) (r : Run d₀) :
    (dropCmd u r).dev.hearth.arrivals = r.dev.hearth.arrivals := rfl
@[simp] theorem dropCmd_turns (u : Nat) (r : Run d₀) : (dropCmd u r).dev.hearth.turns = r.dev.hearth.turns := rfl
@[simp] theorem dropCmd_rings (u : Nat) (r : Run d₀) : (dropCmd u r).dev.host.rings = r.dev.host.rings := rfl
@[simp] theorem dropCmd_hostRings (u : Nat) (r : Run d₀) :
    (dropCmd u r).dev.host.hostRings = r.dev.host.hostRings := rfl
@[simp] theorem dropCmd_qps (u : Nat) (r : Run d₀) : (dropCmd u r).dev.host.qps = r.dev.host.qps := rfl
@[simp] theorem dropCmd_ctrl (u : Nat) (r : Run d₀) : (dropCmd u r).dev.host.ctrl = r.dev.host.ctrl := rfl
@[simp] theorem dropCmd_parts (u : Nat) (r : Run d₀) : (dropCmd u r).dev.parts = r.dev.parts := rfl
@[simp] theorem dropCmd_stackSet (u : Nat) (r : Run d₀) : (dropCmd u r).dev.stackSet = r.dev.stackSet := rfl
@[simp] theorem dropCmd_chans (u : Nat) (r : Run d₀) : (dropCmd u r).dev.chans = r.dev.chans := rfl
@[simp] theorem dropCmd_upkeep (u : Nat) (r : Run d₀) : (dropCmd u r).dev.upkeep = r.dev.upkeep := rfl
@[simp] theorem dropCmd_links (u : Nat) (r : Run d₀) : (dropCmd u r).dev.fabric.links = r.dev.fabric.links := rfl
@[simp] theorem dropCmd_fabric (u : Nat) (r : Run d₀) : (dropCmd u r).dev.fabric = r.dev.fabric := rfl
@[simp] theorem dropCmd_serving (u : Nat) (r : Run d₀) : (dropCmd u r).dev.serving = r.dev.serving := rfl
@[simp] theorem dropCmd_boot (u : Nat) (r : Run d₀) : (dropCmd u r).dev.boot = r.dev.boot := rfl
@[simp] theorem dropCmd_board (u : Nat) (r : Run d₀) : (dropCmd u r).dev.board = r.dev.board := rfl

@[simp] theorem setStack_time (k : Nat) (x : Stack) (r : Run d₀) : (setStack k x r).dev.time = r.dev.time := rfl
@[simp] theorem setStack_regs (k : Nat) (x : Stack) (r : Run d₀) : (setStack k x r).dev.regs = r.dev.regs := rfl
@[simp] theorem setStack_mem (k : Nat) (x : Stack) (r : Run d₀) : (setStack k x r).dev.mem = r.dev.mem := rfl
@[simp] theorem setStack_lights (k : Nat) (x : Stack) (r : Run d₀) : (setStack k x r).dev.lights = r.dev.lights := rfl
@[simp] theorem setStack_spad (k : Nat) (x : Stack) (r : Run d₀) : (setStack k x r).dev.spad = r.dev.spad := rfl
@[simp] theorem setStack_cores (k : Nat) (x : Stack) (r : Run d₀) :
    (setStack k x r).dev.hearth.cores = r.dev.hearth.cores := rfl
@[simp] theorem setStack_mirrors (k : Nat) (x : Stack) (r : Run d₀) :
    (setStack k x r).dev.hearth.mirrors = r.dev.hearth.mirrors := rfl
@[simp] theorem setStack_clusters (k : Nat) (x : Stack) (r : Run d₀) :
    (setStack k x r).dev.hearth.clusters = r.dev.hearth.clusters := rfl
@[simp] theorem setStack_cmds (k : Nat) (x : Stack) (r : Run d₀) :
    (setStack k x r).dev.hearth.cmds = r.dev.hearth.cmds := rfl
@[simp] theorem setStack_arrivals (k : Nat) (x : Stack) (r : Run d₀) :
    (setStack k x r).dev.hearth.arrivals = r.dev.hearth.arrivals := rfl
@[simp] theorem setStack_turns (k : Nat) (x : Stack) (r : Run d₀) :
    (setStack k x r).dev.hearth.turns = r.dev.hearth.turns := rfl
@[simp] theorem setStack_rings (k : Nat) (x : Stack) (r : Run d₀) :
    (setStack k x r).dev.host.rings = r.dev.host.rings := rfl
@[simp] theorem setStack_hostRings (k : Nat) (x : Stack) (r : Run d₀) :
    (setStack k x r).dev.host.hostRings = r.dev.host.hostRings := rfl
@[simp] theorem setStack_qps (k : Nat) (x : Stack) (r : Run d₀) : (setStack k x r).dev.host.qps = r.dev.host.qps := rfl
@[simp] theorem setStack_ctrl (k : Nat) (x : Stack) (r : Run d₀) :
    (setStack k x r).dev.host.ctrl = r.dev.host.ctrl := rfl
@[simp] theorem setStack_parts (k : Nat) (x : Stack) (r : Run d₀) : (setStack k x r).dev.parts = r.dev.parts := rfl
@[simp] theorem setStack_chans (k : Nat) (x : Stack) (r : Run d₀) : (setStack k x r).dev.chans = r.dev.chans := rfl
@[simp] theorem setStack_upkeep (k : Nat) (x : Stack) (r : Run d₀) : (setStack k x r).dev.upkeep = r.dev.upkeep := rfl
@[simp] theorem setStack_links (k : Nat) (x : Stack) (r : Run d₀) :
    (setStack k x r).dev.fabric.links = r.dev.fabric.links := rfl
@[simp] theorem setStack_fabric (k : Nat) (x : Stack) (r : Run d₀) : (setStack k x r).dev.fabric = r.dev.fabric := rfl
@[simp] theorem setStack_serving (k : Nat) (x : Stack) (r : Run d₀) :
    (setStack k x r).dev.serving = r.dev.serving := rfl
@[simp] theorem setStack_boot (k : Nat) (x : Stack) (r : Run d₀) : (setStack k x r).dev.boot = r.dev.boot := rfl
@[simp] theorem setStack_board (k : Nat) (x : Stack) (r : Run d₀) : (setStack k x r).dev.board = r.dev.board := rfl

@[simp] theorem setRecipe_time (k : Nat) (x : Recipe) (r : Run d₀) : (setRecipe k x r).dev.time = r.dev.time := rfl
@[simp] theorem setRecipe_regs (k : Nat) (x : Recipe) (r : Run d₀) : (setRecipe k x r).dev.regs = r.dev.regs := rfl
@[simp] theorem setRecipe_mem (k : Nat) (x : Recipe) (r : Run d₀) : (setRecipe k x r).dev.mem = r.dev.mem := rfl
@[simp] theorem setRecipe_lights (k : Nat) (x : Recipe) (r : Run d₀) :
    (setRecipe k x r).dev.lights = r.dev.lights := rfl
@[simp] theorem setRecipe_spad (k : Nat) (x : Recipe) (r : Run d₀) : (setRecipe k x r).dev.spad = r.dev.spad := rfl
@[simp] theorem setRecipe_cores (k : Nat) (x : Recipe) (r : Run d₀) :
    (setRecipe k x r).dev.hearth.cores = r.dev.hearth.cores := rfl
@[simp] theorem setRecipe_mirrors (k : Nat) (x : Recipe) (r : Run d₀) :
    (setRecipe k x r).dev.hearth.mirrors = r.dev.hearth.mirrors := rfl
@[simp] theorem setRecipe_clusters (k : Nat) (x : Recipe) (r : Run d₀) :
    (setRecipe k x r).dev.hearth.clusters = r.dev.hearth.clusters := rfl
@[simp] theorem setRecipe_cmds (k : Nat) (x : Recipe) (r : Run d₀) :
    (setRecipe k x r).dev.hearth.cmds = r.dev.hearth.cmds := rfl
@[simp] theorem setRecipe_arrivals (k : Nat) (x : Recipe) (r : Run d₀) :
    (setRecipe k x r).dev.hearth.arrivals = r.dev.hearth.arrivals := rfl
@[simp] theorem setRecipe_turns (k : Nat) (x : Recipe) (r : Run d₀) :
    (setRecipe k x r).dev.hearth.turns = r.dev.hearth.turns := rfl
@[simp] theorem setRecipe_rings (k : Nat) (x : Recipe) (r : Run d₀) :
    (setRecipe k x r).dev.host.rings = r.dev.host.rings := rfl
@[simp] theorem setRecipe_hostRings (k : Nat) (x : Recipe) (r : Run d₀) :
    (setRecipe k x r).dev.host.hostRings = r.dev.host.hostRings := rfl
@[simp] theorem setRecipe_qps (k : Nat) (x : Recipe) (r : Run d₀) :
    (setRecipe k x r).dev.host.qps = r.dev.host.qps := rfl
@[simp] theorem setRecipe_ctrl (k : Nat) (x : Recipe) (r : Run d₀) :
    (setRecipe k x r).dev.host.ctrl = r.dev.host.ctrl := rfl
@[simp] theorem setRecipe_parts (k : Nat) (x : Recipe) (r : Run d₀) : (setRecipe k x r).dev.parts = r.dev.parts := rfl
@[simp] theorem setRecipe_chans (k : Nat) (x : Recipe) (r : Run d₀) : (setRecipe k x r).dev.chans = r.dev.chans := rfl
@[simp] theorem setRecipe_upkeep (k : Nat) (x : Recipe) (r : Run d₀) :
    (setRecipe k x r).dev.upkeep = r.dev.upkeep := rfl
@[simp] theorem setRecipe_links (k : Nat) (x : Recipe) (r : Run d₀) :
    (setRecipe k x r).dev.fabric.links = r.dev.fabric.links := rfl
@[simp] theorem setRecipe_fabric (k : Nat) (x : Recipe) (r : Run d₀) :
    (setRecipe k x r).dev.fabric = r.dev.fabric := rfl
@[simp] theorem setRecipe_serving (k : Nat) (x : Recipe) (r : Run d₀) :
    (setRecipe k x r).dev.serving = r.dev.serving := rfl
@[simp] theorem setRecipe_boot (k : Nat) (x : Recipe) (r : Run d₀) : (setRecipe k x r).dev.boot = r.dev.boot := rfl
@[simp] theorem setRecipe_board (k : Nat) (x : Recipe) (r : Run d₀) : (setRecipe k x r).dev.board = r.dev.board := rfl

@[simp] theorem setUpkeep_time (k : Nat) (u : Upkeep) (r : Run d₀) : (setUpkeep k u r).dev.time = r.dev.time := rfl
@[simp] theorem setUpkeep_regs (k : Nat) (u : Upkeep) (r : Run d₀) : (setUpkeep k u r).dev.regs = r.dev.regs := rfl
@[simp] theorem setUpkeep_mem (k : Nat) (u : Upkeep) (r : Run d₀) : (setUpkeep k u r).dev.mem = r.dev.mem := rfl
@[simp] theorem setUpkeep_lights (k : Nat) (u : Upkeep) (r : Run d₀) :
    (setUpkeep k u r).dev.lights = r.dev.lights := rfl
@[simp] theorem setUpkeep_spad (k : Nat) (u : Upkeep) (r : Run d₀) : (setUpkeep k u r).dev.spad = r.dev.spad := rfl
@[simp] theorem setUpkeep_cores (k : Nat) (u : Upkeep) (r : Run d₀) :
    (setUpkeep k u r).dev.hearth.cores = r.dev.hearth.cores := rfl
@[simp] theorem setUpkeep_mirrors (k : Nat) (u : Upkeep) (r : Run d₀) :
    (setUpkeep k u r).dev.hearth.mirrors = r.dev.hearth.mirrors := rfl
@[simp] theorem setUpkeep_clusters (k : Nat) (u : Upkeep) (r : Run d₀) :
    (setUpkeep k u r).dev.hearth.clusters = r.dev.hearth.clusters := rfl
@[simp] theorem setUpkeep_cmds (k : Nat) (u : Upkeep) (r : Run d₀) :
    (setUpkeep k u r).dev.hearth.cmds = r.dev.hearth.cmds := rfl
@[simp] theorem setUpkeep_arrivals (k : Nat) (u : Upkeep) (r : Run d₀) :
    (setUpkeep k u r).dev.hearth.arrivals = r.dev.hearth.arrivals := rfl
@[simp] theorem setUpkeep_turns (k : Nat) (u : Upkeep) (r : Run d₀) :
    (setUpkeep k u r).dev.hearth.turns = r.dev.hearth.turns := rfl
@[simp] theorem setUpkeep_rings (k : Nat) (u : Upkeep) (r : Run d₀) :
    (setUpkeep k u r).dev.host.rings = r.dev.host.rings := rfl
@[simp] theorem setUpkeep_hostRings (k : Nat) (u : Upkeep) (r : Run d₀) :
    (setUpkeep k u r).dev.host.hostRings = r.dev.host.hostRings := rfl
@[simp] theorem setUpkeep_qps (k : Nat) (u : Upkeep) (r : Run d₀) :
    (setUpkeep k u r).dev.host.qps = r.dev.host.qps := rfl
@[simp] theorem setUpkeep_ctrl (k : Nat) (u : Upkeep) (r : Run d₀) :
    (setUpkeep k u r).dev.host.ctrl = r.dev.host.ctrl := rfl
@[simp] theorem setUpkeep_parts (k : Nat) (u : Upkeep) (r : Run d₀) : (setUpkeep k u r).dev.parts = r.dev.parts := rfl
@[simp] theorem setUpkeep_stackSet (k : Nat) (u : Upkeep) (r : Run d₀) :
    (setUpkeep k u r).dev.stackSet = r.dev.stackSet := rfl
@[simp] theorem setUpkeep_chans (k : Nat) (u : Upkeep) (r : Run d₀) : (setUpkeep k u r).dev.chans = r.dev.chans := rfl
@[simp] theorem setUpkeep_links (k : Nat) (u : Upkeep) (r : Run d₀) :
    (setUpkeep k u r).dev.fabric.links = r.dev.fabric.links := rfl
@[simp] theorem setUpkeep_fabric (k : Nat) (u : Upkeep) (r : Run d₀) :
    (setUpkeep k u r).dev.fabric = r.dev.fabric := rfl
@[simp] theorem setUpkeep_serving (k : Nat) (u : Upkeep) (r : Run d₀) :
    (setUpkeep k u r).dev.serving = r.dev.serving := rfl
@[simp] theorem setUpkeep_boot (k : Nat) (u : Upkeep) (r : Run d₀) : (setUpkeep k u r).dev.boot = r.dev.boot := rfl
@[simp] theorem setUpkeep_board (k : Nat) (u : Upkeep) (r : Run d₀) : (setUpkeep k u r).dev.board = r.dev.board := rfl

@[simp] theorem setChan_time (k c : Nat) (x : Channel) (r : Run d₀) : (setChan k c x r).dev.time = r.dev.time := rfl
@[simp] theorem setChan_regs (k c : Nat) (x : Channel) (r : Run d₀) : (setChan k c x r).dev.regs = r.dev.regs := rfl
@[simp] theorem setChan_mem (k c : Nat) (x : Channel) (r : Run d₀) : (setChan k c x r).dev.mem = r.dev.mem := rfl
@[simp] theorem setChan_lights (k c : Nat) (x : Channel) (r : Run d₀) :
    (setChan k c x r).dev.lights = r.dev.lights := rfl
@[simp] theorem setChan_spad (k c : Nat) (x : Channel) (r : Run d₀) : (setChan k c x r).dev.spad = r.dev.spad := rfl
@[simp] theorem setChan_cores (k c : Nat) (x : Channel) (r : Run d₀) :
    (setChan k c x r).dev.hearth.cores = r.dev.hearth.cores := rfl
@[simp] theorem setChan_mirrors (k c : Nat) (x : Channel) (r : Run d₀) :
    (setChan k c x r).dev.hearth.mirrors = r.dev.hearth.mirrors := rfl
@[simp] theorem setChan_clusters (k c : Nat) (x : Channel) (r : Run d₀) :
    (setChan k c x r).dev.hearth.clusters = r.dev.hearth.clusters := rfl
@[simp] theorem setChan_cmds (k c : Nat) (x : Channel) (r : Run d₀) :
    (setChan k c x r).dev.hearth.cmds = r.dev.hearth.cmds := rfl
@[simp] theorem setChan_arrivals (k c : Nat) (x : Channel) (r : Run d₀) :
    (setChan k c x r).dev.hearth.arrivals = r.dev.hearth.arrivals := rfl
@[simp] theorem setChan_turns (k c : Nat) (x : Channel) (r : Run d₀) :
    (setChan k c x r).dev.hearth.turns = r.dev.hearth.turns := rfl
@[simp] theorem setChan_rings (k c : Nat) (x : Channel) (r : Run d₀) :
    (setChan k c x r).dev.host.rings = r.dev.host.rings := rfl
@[simp] theorem setChan_hostRings (k c : Nat) (x : Channel) (r : Run d₀) :
    (setChan k c x r).dev.host.hostRings = r.dev.host.hostRings := rfl
@[simp] theorem setChan_qps (k c : Nat) (x : Channel) (r : Run d₀) :
    (setChan k c x r).dev.host.qps = r.dev.host.qps := rfl
@[simp] theorem setChan_ctrl (k c : Nat) (x : Channel) (r : Run d₀) :
    (setChan k c x r).dev.host.ctrl = r.dev.host.ctrl := rfl
@[simp] theorem setChan_parts (k c : Nat) (x : Channel) (r : Run d₀) : (setChan k c x r).dev.parts = r.dev.parts := rfl
@[simp] theorem setChan_stackSet (k c : Nat) (x : Channel) (r : Run d₀) :
    (setChan k c x r).dev.stackSet = r.dev.stackSet := rfl
@[simp] theorem setChan_upkeep (k c : Nat) (x : Channel) (r : Run d₀) :
    (setChan k c x r).dev.upkeep = r.dev.upkeep := rfl
@[simp] theorem setChan_links (k c : Nat) (x : Channel) (r : Run d₀) :
    (setChan k c x r).dev.fabric.links = r.dev.fabric.links := rfl
@[simp] theorem setChan_fabric (k c : Nat) (x : Channel) (r : Run d₀) :
    (setChan k c x r).dev.fabric = r.dev.fabric := rfl
@[simp] theorem setChan_serving (k c : Nat) (x : Channel) (r : Run d₀) :
    (setChan k c x r).dev.serving = r.dev.serving := rfl
@[simp] theorem setChan_boot (k c : Nat) (x : Channel) (r : Run d₀) : (setChan k c x r).dev.boot = r.dev.boot := rfl
@[simp] theorem setChan_board (k c : Nat) (x : Channel) (r : Run d₀) : (setChan k c x r).dev.board = r.dev.board := rfl

@[simp] theorem setRing_time (n : Nat) (x : Option Ring) (r : Run d₀) : (setRing n x r).dev.time = r.dev.time := rfl
@[simp] theorem setRing_regs (n : Nat) (x : Option Ring) (r : Run d₀) : (setRing n x r).dev.regs = r.dev.regs := rfl
@[simp] theorem setRing_mem (n : Nat) (x : Option Ring) (r : Run d₀) : (setRing n x r).dev.mem = r.dev.mem := rfl
@[simp] theorem setRing_lights (n : Nat) (x : Option Ring) (r : Run d₀) :
    (setRing n x r).dev.lights = r.dev.lights := rfl
@[simp] theorem setRing_spad (n : Nat) (x : Option Ring) (r : Run d₀) : (setRing n x r).dev.spad = r.dev.spad := rfl
@[simp] theorem setRing_cores (n : Nat) (x : Option Ring) (r : Run d₀) :
    (setRing n x r).dev.hearth.cores = r.dev.hearth.cores := rfl
@[simp] theorem setRing_mirrors (n : Nat) (x : Option Ring) (r : Run d₀) :
    (setRing n x r).dev.hearth.mirrors = r.dev.hearth.mirrors := rfl
@[simp] theorem setRing_clusters (n : Nat) (x : Option Ring) (r : Run d₀) :
    (setRing n x r).dev.hearth.clusters = r.dev.hearth.clusters := rfl
@[simp] theorem setRing_cmds (n : Nat) (x : Option Ring) (r : Run d₀) :
    (setRing n x r).dev.hearth.cmds = r.dev.hearth.cmds := rfl
@[simp] theorem setRing_arrivals (n : Nat) (x : Option Ring) (r : Run d₀) :
    (setRing n x r).dev.hearth.arrivals = r.dev.hearth.arrivals := rfl
@[simp] theorem setRing_turns (n : Nat) (x : Option Ring) (r : Run d₀) :
    (setRing n x r).dev.hearth.turns = r.dev.hearth.turns := rfl
@[simp] theorem setRing_hostRings (n : Nat) (x : Option Ring) (r : Run d₀) :
    (setRing n x r).dev.host.hostRings = r.dev.host.hostRings := rfl
@[simp] theorem setRing_qps (n : Nat) (x : Option Ring) (r : Run d₀) :
    (setRing n x r).dev.host.qps = r.dev.host.qps := rfl
@[simp] theorem setRing_ctrl (n : Nat) (x : Option Ring) (r : Run d₀) :
    (setRing n x r).dev.host.ctrl = r.dev.host.ctrl := rfl
@[simp] theorem setRing_parts (n : Nat) (x : Option Ring) (r : Run d₀) : (setRing n x r).dev.parts = r.dev.parts := rfl
@[simp] theorem setRing_stackSet (n : Nat) (x : Option Ring) (r : Run d₀) :
    (setRing n x r).dev.stackSet = r.dev.stackSet := rfl
@[simp] theorem setRing_chans (n : Nat) (x : Option Ring) (r : Run d₀) : (setRing n x r).dev.chans = r.dev.chans := rfl
@[simp] theorem setRing_upkeep (n : Nat) (x : Option Ring) (r : Run d₀) :
    (setRing n x r).dev.upkeep = r.dev.upkeep := rfl
@[simp] theorem setRing_links (n : Nat) (x : Option Ring) (r : Run d₀) :
    (setRing n x r).dev.fabric.links = r.dev.fabric.links := rfl
@[simp] theorem setRing_fabric (n : Nat) (x : Option Ring) (r : Run d₀) :
    (setRing n x r).dev.fabric = r.dev.fabric := rfl
@[simp] theorem setRing_serving (n : Nat) (x : Option Ring) (r : Run d₀) :
    (setRing n x r).dev.serving = r.dev.serving := rfl
@[simp] theorem setRing_boot (n : Nat) (x : Option Ring) (r : Run d₀) : (setRing n x r).dev.boot = r.dev.boot := rfl
@[simp] theorem setRing_board (n : Nat) (x : Option Ring) (r : Run d₀) : (setRing n x r).dev.board = r.dev.board := rfl

@[simp] theorem setHostRing_time (n : Nat) (x : Option HostRing) (r : Run d₀) :
    (setHostRing n x r).dev.time = r.dev.time := rfl
@[simp] theorem setHostRing_regs (n : Nat) (x : Option HostRing) (r : Run d₀) :
    (setHostRing n x r).dev.regs = r.dev.regs := rfl
@[simp] theorem setHostRing_mem (n : Nat) (x : Option HostRing) (r : Run d₀) :
    (setHostRing n x r).dev.mem = r.dev.mem := rfl
@[simp] theorem setHostRing_lights (n : Nat) (x : Option HostRing) (r : Run d₀) :
    (setHostRing n x r).dev.lights = r.dev.lights := rfl
@[simp] theorem setHostRing_spad (n : Nat) (x : Option HostRing) (r : Run d₀) :
    (setHostRing n x r).dev.spad = r.dev.spad := rfl
@[simp] theorem setHostRing_cores (n : Nat) (x : Option HostRing) (r : Run d₀) :
    (setHostRing n x r).dev.hearth.cores = r.dev.hearth.cores := rfl
@[simp] theorem setHostRing_mirrors (n : Nat) (x : Option HostRing) (r : Run d₀) :
    (setHostRing n x r).dev.hearth.mirrors = r.dev.hearth.mirrors := rfl
@[simp] theorem setHostRing_clusters (n : Nat) (x : Option HostRing) (r : Run d₀) :
    (setHostRing n x r).dev.hearth.clusters = r.dev.hearth.clusters := rfl
@[simp] theorem setHostRing_cmds (n : Nat) (x : Option HostRing) (r : Run d₀) :
    (setHostRing n x r).dev.hearth.cmds = r.dev.hearth.cmds := rfl
@[simp] theorem setHostRing_arrivals (n : Nat) (x : Option HostRing) (r : Run d₀) :
    (setHostRing n x r).dev.hearth.arrivals = r.dev.hearth.arrivals := rfl
@[simp] theorem setHostRing_turns (n : Nat) (x : Option HostRing) (r : Run d₀) :
    (setHostRing n x r).dev.hearth.turns = r.dev.hearth.turns := rfl
@[simp] theorem setHostRing_rings (n : Nat) (x : Option HostRing) (r : Run d₀) :
    (setHostRing n x r).dev.host.rings = r.dev.host.rings := rfl
@[simp] theorem setHostRing_qps (n : Nat) (x : Option HostRing) (r : Run d₀) :
    (setHostRing n x r).dev.host.qps = r.dev.host.qps := rfl
@[simp] theorem setHostRing_ctrl (n : Nat) (x : Option HostRing) (r : Run d₀) :
    (setHostRing n x r).dev.host.ctrl = r.dev.host.ctrl := rfl
@[simp] theorem setHostRing_parts (n : Nat) (x : Option HostRing) (r : Run d₀) :
    (setHostRing n x r).dev.parts = r.dev.parts := rfl
@[simp] theorem setHostRing_stackSet (n : Nat) (x : Option HostRing) (r : Run d₀) :
    (setHostRing n x r).dev.stackSet = r.dev.stackSet := rfl
@[simp] theorem setHostRing_chans (n : Nat) (x : Option HostRing) (r : Run d₀) :
    (setHostRing n x r).dev.chans = r.dev.chans := rfl
@[simp] theorem setHostRing_upkeep (n : Nat) (x : Option HostRing) (r : Run d₀) :
    (setHostRing n x r).dev.upkeep = r.dev.upkeep := rfl
@[simp] theorem setHostRing_links (n : Nat) (x : Option HostRing) (r : Run d₀) :
    (setHostRing n x r).dev.fabric.links = r.dev.fabric.links := rfl
@[simp] theorem setHostRing_fabric (n : Nat) (x : Option HostRing) (r : Run d₀) :
    (setHostRing n x r).dev.fabric = r.dev.fabric := rfl
@[simp] theorem setHostRing_serving (n : Nat) (x : Option HostRing) (r : Run d₀) :
    (setHostRing n x r).dev.serving = r.dev.serving := rfl
@[simp] theorem setHostRing_boot (n : Nat) (x : Option HostRing) (r : Run d₀) :
    (setHostRing n x r).dev.boot = r.dev.boot := rfl
@[simp] theorem setHostRing_board (n : Nat) (x : Option HostRing) (r : Run d₀) :
    (setHostRing n x r).dev.board = r.dev.board := rfl

@[simp] theorem setQp_time (q : Nat) (x : Qp) (r : Run d₀) : (setQp q x r).dev.time = r.dev.time := rfl
@[simp] theorem setQp_regs (q : Nat) (x : Qp) (r : Run d₀) : (setQp q x r).dev.regs = r.dev.regs := rfl
@[simp] theorem setQp_mem (q : Nat) (x : Qp) (r : Run d₀) : (setQp q x r).dev.mem = r.dev.mem := rfl
@[simp] theorem setQp_lights (q : Nat) (x : Qp) (r : Run d₀) : (setQp q x r).dev.lights = r.dev.lights := rfl
@[simp] theorem setQp_spad (q : Nat) (x : Qp) (r : Run d₀) : (setQp q x r).dev.spad = r.dev.spad := rfl
@[simp] theorem setQp_cores (q : Nat) (x : Qp) (r : Run d₀) : (setQp q x r).dev.hearth.cores = r.dev.hearth.cores := rfl
@[simp] theorem setQp_mirrors (q : Nat) (x : Qp) (r : Run d₀) :
    (setQp q x r).dev.hearth.mirrors = r.dev.hearth.mirrors := rfl
@[simp] theorem setQp_clusters (q : Nat) (x : Qp) (r : Run d₀) :
    (setQp q x r).dev.hearth.clusters = r.dev.hearth.clusters := rfl
@[simp] theorem setQp_cmds (q : Nat) (x : Qp) (r : Run d₀) : (setQp q x r).dev.hearth.cmds = r.dev.hearth.cmds := rfl
@[simp] theorem setQp_arrivals (q : Nat) (x : Qp) (r : Run d₀) :
    (setQp q x r).dev.hearth.arrivals = r.dev.hearth.arrivals := rfl
@[simp] theorem setQp_turns (q : Nat) (x : Qp) (r : Run d₀) : (setQp q x r).dev.hearth.turns = r.dev.hearth.turns := rfl
@[simp] theorem setQp_rings (q : Nat) (x : Qp) (r : Run d₀) : (setQp q x r).dev.host.rings = r.dev.host.rings := rfl
@[simp] theorem setQp_hostRings (q : Nat) (x : Qp) (r : Run d₀) :
    (setQp q x r).dev.host.hostRings = r.dev.host.hostRings := rfl
@[simp] theorem setQp_ctrl (q : Nat) (x : Qp) (r : Run d₀) : (setQp q x r).dev.host.ctrl = r.dev.host.ctrl := rfl
@[simp] theorem setQp_parts (q : Nat) (x : Qp) (r : Run d₀) : (setQp q x r).dev.parts = r.dev.parts := rfl
@[simp] theorem setQp_stackSet (q : Nat) (x : Qp) (r : Run d₀) : (setQp q x r).dev.stackSet = r.dev.stackSet := rfl
@[simp] theorem setQp_chans (q : Nat) (x : Qp) (r : Run d₀) : (setQp q x r).dev.chans = r.dev.chans := rfl
@[simp] theorem setQp_upkeep (q : Nat) (x : Qp) (r : Run d₀) : (setQp q x r).dev.upkeep = r.dev.upkeep := rfl
@[simp] theorem setQp_links (q : Nat) (x : Qp) (r : Run d₀) : (setQp q x r).dev.fabric.links = r.dev.fabric.links := rfl
@[simp] theorem setQp_fabric (q : Nat) (x : Qp) (r : Run d₀) : (setQp q x r).dev.fabric = r.dev.fabric := rfl
@[simp] theorem setQp_serving (q : Nat) (x : Qp) (r : Run d₀) : (setQp q x r).dev.serving = r.dev.serving := rfl
@[simp] theorem setQp_boot (q : Nat) (x : Qp) (r : Run d₀) : (setQp q x r).dev.boot = r.dev.boot := rfl
@[simp] theorem setQp_board (q : Nat) (x : Qp) (r : Run d₀) : (setQp q x r).dev.board = r.dev.board := rfl

@[simp] theorem setLink_time (k : Nat) (x : Link) (r : Run d₀) : (setLink k x r).dev.time = r.dev.time := rfl
@[simp] theorem setLink_regs (k : Nat) (x : Link) (r : Run d₀) : (setLink k x r).dev.regs = r.dev.regs := rfl
@[simp] theorem setLink_mem (k : Nat) (x : Link) (r : Run d₀) : (setLink k x r).dev.mem = r.dev.mem := rfl
@[simp] theorem setLink_lights (k : Nat) (x : Link) (r : Run d₀) : (setLink k x r).dev.lights = r.dev.lights := rfl
@[simp] theorem setLink_spad (k : Nat) (x : Link) (r : Run d₀) : (setLink k x r).dev.spad = r.dev.spad := rfl
@[simp] theorem setLink_cores (k : Nat) (x : Link) (r : Run d₀) :
    (setLink k x r).dev.hearth.cores = r.dev.hearth.cores := rfl
@[simp] theorem setLink_mirrors (k : Nat) (x : Link) (r : Run d₀) :
    (setLink k x r).dev.hearth.mirrors = r.dev.hearth.mirrors := rfl
@[simp] theorem setLink_clusters (k : Nat) (x : Link) (r : Run d₀) :
    (setLink k x r).dev.hearth.clusters = r.dev.hearth.clusters := rfl
@[simp] theorem setLink_cmds (k : Nat) (x : Link) (r : Run d₀) :
    (setLink k x r).dev.hearth.cmds = r.dev.hearth.cmds := rfl
@[simp] theorem setLink_arrivals (k : Nat) (x : Link) (r : Run d₀) :
    (setLink k x r).dev.hearth.arrivals = r.dev.hearth.arrivals := rfl
@[simp] theorem setLink_turns (k : Nat) (x : Link) (r : Run d₀) :
    (setLink k x r).dev.hearth.turns = r.dev.hearth.turns := rfl
@[simp] theorem setLink_rings (k : Nat) (x : Link) (r : Run d₀) :
    (setLink k x r).dev.host.rings = r.dev.host.rings := rfl
@[simp] theorem setLink_hostRings (k : Nat) (x : Link) (r : Run d₀) :
    (setLink k x r).dev.host.hostRings = r.dev.host.hostRings := rfl
@[simp] theorem setLink_qps (k : Nat) (x : Link) (r : Run d₀) : (setLink k x r).dev.host.qps = r.dev.host.qps := rfl
@[simp] theorem setLink_ctrl (k : Nat) (x : Link) (r : Run d₀) : (setLink k x r).dev.host.ctrl = r.dev.host.ctrl := rfl
@[simp] theorem setLink_parts (k : Nat) (x : Link) (r : Run d₀) : (setLink k x r).dev.parts = r.dev.parts := rfl
@[simp] theorem setLink_stackSet (k : Nat) (x : Link) (r : Run d₀) :
    (setLink k x r).dev.stackSet = r.dev.stackSet := rfl
@[simp] theorem setLink_chans (k : Nat) (x : Link) (r : Run d₀) : (setLink k x r).dev.chans = r.dev.chans := rfl
@[simp] theorem setLink_upkeep (k : Nat) (x : Link) (r : Run d₀) : (setLink k x r).dev.upkeep = r.dev.upkeep := rfl
@[simp] theorem setLink_serving (k : Nat) (x : Link) (r : Run d₀) : (setLink k x r).dev.serving = r.dev.serving := rfl
@[simp] theorem setLink_boot (k : Nat) (x : Link) (r : Run d₀) : (setLink k x r).dev.boot = r.dev.boot := rfl
@[simp] theorem setLink_board (k : Nat) (x : Link) (r : Run d₀) : (setLink k x r).dev.board = r.dev.board := rfl

@[simp] theorem setServing_time (p : Nat) (x : Serving) (r : Run d₀) : (setServing p x r).dev.time = r.dev.time := rfl
@[simp] theorem setServing_regs (p : Nat) (x : Serving) (r : Run d₀) : (setServing p x r).dev.regs = r.dev.regs := rfl
@[simp] theorem setServing_mem (p : Nat) (x : Serving) (r : Run d₀) : (setServing p x r).dev.mem = r.dev.mem := rfl
@[simp] theorem setServing_lights (p : Nat) (x : Serving) (r : Run d₀) :
    (setServing p x r).dev.lights = r.dev.lights := rfl
@[simp] theorem setServing_spad (p : Nat) (x : Serving) (r : Run d₀) : (setServing p x r).dev.spad = r.dev.spad := rfl
@[simp] theorem setServing_cores (p : Nat) (x : Serving) (r : Run d₀) :
    (setServing p x r).dev.hearth.cores = r.dev.hearth.cores := rfl
@[simp] theorem setServing_mirrors (p : Nat) (x : Serving) (r : Run d₀) :
    (setServing p x r).dev.hearth.mirrors = r.dev.hearth.mirrors := rfl
@[simp] theorem setServing_clusters (p : Nat) (x : Serving) (r : Run d₀) :
    (setServing p x r).dev.hearth.clusters = r.dev.hearth.clusters := rfl
@[simp] theorem setServing_cmds (p : Nat) (x : Serving) (r : Run d₀) :
    (setServing p x r).dev.hearth.cmds = r.dev.hearth.cmds := rfl
@[simp] theorem setServing_arrivals (p : Nat) (x : Serving) (r : Run d₀) :
    (setServing p x r).dev.hearth.arrivals = r.dev.hearth.arrivals := rfl
@[simp] theorem setServing_turns (p : Nat) (x : Serving) (r : Run d₀) :
    (setServing p x r).dev.hearth.turns = r.dev.hearth.turns := rfl
@[simp] theorem setServing_rings (p : Nat) (x : Serving) (r : Run d₀) :
    (setServing p x r).dev.host.rings = r.dev.host.rings := rfl
@[simp] theorem setServing_hostRings (p : Nat) (x : Serving) (r : Run d₀) :
    (setServing p x r).dev.host.hostRings = r.dev.host.hostRings := rfl
@[simp] theorem setServing_qps (p : Nat) (x : Serving) (r : Run d₀) :
    (setServing p x r).dev.host.qps = r.dev.host.qps := rfl
@[simp] theorem setServing_ctrl (p : Nat) (x : Serving) (r : Run d₀) :
    (setServing p x r).dev.host.ctrl = r.dev.host.ctrl := rfl
@[simp] theorem setServing_parts (p : Nat) (x : Serving) (r : Run d₀) :
    (setServing p x r).dev.parts = r.dev.parts := rfl
@[simp] theorem setServing_stackSet (p : Nat) (x : Serving) (r : Run d₀) :
    (setServing p x r).dev.stackSet = r.dev.stackSet := rfl
@[simp] theorem setServing_chans (p : Nat) (x : Serving) (r : Run d₀) :
    (setServing p x r).dev.chans = r.dev.chans := rfl
@[simp] theorem setServing_upkeep (p : Nat) (x : Serving) (r : Run d₀) :
    (setServing p x r).dev.upkeep = r.dev.upkeep := rfl
@[simp] theorem setServing_links (p : Nat) (x : Serving) (r : Run d₀) :
    (setServing p x r).dev.fabric.links = r.dev.fabric.links := rfl
@[simp] theorem setServing_fabric (p : Nat) (x : Serving) (r : Run d₀) :
    (setServing p x r).dev.fabric = r.dev.fabric := rfl
@[simp] theorem setServing_boot (p : Nat) (x : Serving) (r : Run d₀) : (setServing p x r).dev.boot = r.dev.boot := rfl
@[simp] theorem setServing_board (p : Nat) (x : Serving) (r : Run d₀) :
    (setServing p x r).dev.board = r.dev.board := rfl

@[simp] theorem freshMany_time (n : Nat) (r : Run d₀) : (freshMany n r).2.dev.time = r.dev.time := rfl
@[simp] theorem freshMany_regs (n : Nat) (r : Run d₀) : (freshMany n r).2.dev.regs = r.dev.regs := rfl
@[simp] theorem freshMany_mem (n : Nat) (r : Run d₀) : (freshMany n r).2.dev.mem = r.dev.mem := rfl
@[simp] theorem freshMany_lights (n : Nat) (r : Run d₀) : (freshMany n r).2.dev.lights = r.dev.lights := rfl
@[simp] theorem freshMany_spad (n : Nat) (r : Run d₀) : (freshMany n r).2.dev.spad = r.dev.spad := rfl
@[simp] theorem freshMany_cores (n : Nat) (r : Run d₀) : (freshMany n r).2.dev.hearth.cores = r.dev.hearth.cores := rfl
@[simp] theorem freshMany_mirrors (n : Nat) (r : Run d₀) :
    (freshMany n r).2.dev.hearth.mirrors = r.dev.hearth.mirrors := rfl
@[simp] theorem freshMany_clusters (n : Nat) (r : Run d₀) :
    (freshMany n r).2.dev.hearth.clusters = r.dev.hearth.clusters := rfl
@[simp] theorem freshMany_cmds (n : Nat) (r : Run d₀) : (freshMany n r).2.dev.hearth.cmds = r.dev.hearth.cmds := rfl
@[simp] theorem freshMany_arrivals (n : Nat) (r : Run d₀) :
    (freshMany n r).2.dev.hearth.arrivals = r.dev.hearth.arrivals := rfl
@[simp] theorem freshMany_turns (n : Nat) (r : Run d₀) : (freshMany n r).2.dev.hearth.turns = r.dev.hearth.turns := rfl
@[simp] theorem freshMany_rings (n : Nat) (r : Run d₀) : (freshMany n r).2.dev.host.rings = r.dev.host.rings := rfl
@[simp] theorem freshMany_hostRings (n : Nat) (r : Run d₀) :
    (freshMany n r).2.dev.host.hostRings = r.dev.host.hostRings := rfl
@[simp] theorem freshMany_qps (n : Nat) (r : Run d₀) : (freshMany n r).2.dev.host.qps = r.dev.host.qps := rfl
@[simp] theorem freshMany_ctrl (n : Nat) (r : Run d₀) : (freshMany n r).2.dev.host.ctrl = r.dev.host.ctrl := rfl
@[simp] theorem freshMany_parts (n : Nat) (r : Run d₀) : (freshMany n r).2.dev.parts = r.dev.parts := rfl
@[simp] theorem freshMany_stackSet (n : Nat) (r : Run d₀) : (freshMany n r).2.dev.stackSet = r.dev.stackSet := rfl
@[simp] theorem freshMany_chans (n : Nat) (r : Run d₀) : (freshMany n r).2.dev.chans = r.dev.chans := rfl
@[simp] theorem freshMany_upkeep (n : Nat) (r : Run d₀) : (freshMany n r).2.dev.upkeep = r.dev.upkeep := rfl
@[simp] theorem freshMany_links (n : Nat) (r : Run d₀) : (freshMany n r).2.dev.fabric.links = r.dev.fabric.links := rfl
@[simp] theorem freshMany_fabric (n : Nat) (r : Run d₀) : (freshMany n r).2.dev.fabric = r.dev.fabric := rfl
@[simp] theorem freshMany_serving (n : Nat) (r : Run d₀) : (freshMany n r).2.dev.serving = r.dev.serving := rfl
@[simp] theorem freshMany_boot (n : Nat) (r : Run d₀) : (freshMany n r).2.dev.boot = r.dev.boot := rfl
@[simp] theorem freshMany_board (n : Nat) (r : Run d₀) : (freshMany n r).2.dev.board = r.dev.board := rfl


/-! ## A read of what was written -/

@[simp] theorem coreOf_setCore (k : Nat) (c : Core) (j : Nat) (r : Run d₀) : coreOf (setCore k c r).dev j = if j = k then c else coreOf r.dev j :=
  mget_mset _ _ _ _

@[simp] theorem mirrorOf_setMirror (k : Nat) (m : Store (List Byte)) (j : Nat) (r : Run d₀) : mirrorOf (setMirror k m r).dev j = if j = k then m else mirrorOf r.dev j :=
  mget_mset _ _ _ _

@[simp] theorem clusterOf_setCluster (k : Nat) (c : Cluster) (j : Nat) (r : Run d₀) : clusterOf (setCluster k c r).dev j = if j = k then c else clusterOf r.dev j :=
  mget_mset _ _ _ _

@[simp] theorem stackOf_setStack (k : Nat) (x : Stack) (j : Nat) (r : Run d₀) : stackOf (setStack k x r).dev j = if j = k then x else stackOf r.dev j :=
  mget_mset _ _ _ _

@[simp] theorem upkeepOf_setUpkeep (k : Nat) (u : Upkeep) (j : Nat) (r : Run d₀) : upkeepOf (setUpkeep k u r).dev j = if j = k then u else upkeepOf r.dev j :=
  mget_mset _ _ _ _

@[simp] theorem ringOf_setRing (n : Nat) (x : Option Ring) (j : Nat) (r : Run d₀) : ringOf (setRing n x r).dev j = if j = n then x else ringOf r.dev j :=
  mget_mset _ _ _ _

@[simp] theorem hostRingOf_setHostRing (n : Nat) (x : Option HostRing) (j : Nat) (r : Run d₀) : hostRingOf (setHostRing n x r).dev j = if j = n then x else hostRingOf r.dev j :=
  mget_mset _ _ _ _

@[simp] theorem qpOf_setQp (q : Nat) (x : Qp) (j : Nat) (r : Run d₀) : qpOf (setQp q x r).dev j = if j = q then x else qpOf r.dev j :=
  mget_mset _ _ _ _

@[simp] theorem linkOf_setLink (k : Nat) (x : Link) (j : Nat) (r : Run d₀) : linkOf (setLink k x r).dev j = if j = k then x else linkOf r.dev j :=
  mget_mset _ _ _ _

@[simp] theorem servingOf_setServing (p : Nat) (x : Serving) (j : Nat) (r : Run d₀) : servingOf (setServing p x r).dev j = if j = p then x else servingOf r.dev j :=
  mget_mset _ _ _ _

theorem key_chan {s c m n : Nat} (hc : c < 32) (hn : n < 32) : 32 * m + n = 32 * s + c ↔ m = s ∧ n = c := by omega

@[simp] theorem chanOf_setChan (s c : Nat) (x : Channel) (m n : Nat) (r : Run d₀) :
    chanOf (setChan s c x r).dev m n = if 32 * m + n = 32 * s + c then x else chanOf r.dev m n := mget_mset _ _ _ _

theorem stackOf_setRecipe (s : Nat) (x : Recipe) (n : Nat) (r : Run d₀) : stackOf (setRecipe s x r).dev n =
    if n = s then { stackOf r.dev s with recipes := (stackOf r.dev s).recipes.map fun y => if y.uid == x.uid then x else y }
    else stackOf r.dev n := mget_mset _ _ _ _

theorem reg_setReg (off v o : Nat) (r : Run d₀) :
    reg (setReg off v r).dev o = if o = off then (v &&& regMask off) % 2 ^ 32 else reg r.dev o := by
  simp only [reg, setReg, Run.emit, Dev.apply]
  by_cases h : o = off
  · subst h; rw [mget_mset, if_pos rfl, if_pos rfl, BitVec.toNat_ofNat]
  · rw [if_neg h, mget_mset_other h]

/-- A register of which every bit exists counts modulo 2^32. -/
theorem reg_addReg (off n o : Nat) (r : Run d₀) (h : regMask off = 0xFFFFFFFF) :
    reg (addReg off n r).dev o = if o = off then (reg r.dev off + n) % 2 ^ 32 else reg r.dev o := by
  have e := reg_setReg off ((reg r.dev off + n) % 2 ^ 32) o r
  rw [h, show (0xFFFFFFFF : Nat) = 2 ^ 32 - 1 from rfl, Nat.and_two_pow_sub_one_eq_mod, Nat.mod_mod, Nat.mod_mod] at e
  exact e

theorem reg_addReg_other {off n o : Nat} {r : Run d₀} (h : o ≠ off) : reg (addReg off n r).dev o = reg r.dev o := by
  have e := reg_setReg off ((reg r.dev off + n) % 2 ^ 32) o r
  rw [if_neg h] at e; exact e

theorem coreOf_congr {a b : Dev} (h : b.hearth.cores = a.hearth.cores) (k : Nat) : coreOf b k = coreOf a k := by rw [coreOf, h, coreOf]
theorem chanOf_congr {a b : Dev} (h : b.chans = a.chans) (m n : Nat) : chanOf b m n = chanOf a m n := by rw [chanOf, h, chanOf]
theorem stackOf_congr {a b : Dev} (h : b.stackSet = a.stackSet) (n : Nat) : stackOf b n = stackOf a n := by rw [stackOf, h, stackOf]
theorem reg_congr {a b : Dev} (h : b.regs = a.regs) (o : Nat) : reg b o = reg a o := by rw [reg, h, reg]

end Sys2Proof.Machine
end

