-- ==== Sys2Proof/Laws/Within.lean ====
section
/-! SUPPORT. Updates that stay within given pieces of the module, and the frame that follows from them. -/
namespace Sys2Proof.Machine
variable {d₀ : Dev}

/-- The pieces that a primitive update may change; none where it changes none that the manual knows, and all of them for
a removal of power, for which this says nothing. -/
def Fx.inside (l : List Piece) : Fx → Prop
  | .tick _ => .time ∈ l
  | .draw _ | .uid => True
  | .bytes _ _ | .fill _ _ | .err _ _ | .hit _ _ | .light _ _ => .memory ∈ l
  | .spad _ _ | .clear _ _ => .spads ∈ l
  | .reg o _ => .block (o / 0x8000) ∈ l
  | .stage _ _ | .empty => .bench ∈ l
  | .core _ _ | .dropCores _ => .cores ∈ l
  | .mirror _ _ | .dropMirrors _ => .mirrors ∈ l
  | .cluster _ _ | .dropClusters _ => .clusters ∈ l
  | .cmds _ => .flight ∈ l
  | .arrivals _ => .arrivals ∈ l
  | .turns _ => .turns ∈ l
  | .ring _ _ | .dropRings _ => .rings ∈ l
  | .hostRing _ _ | .dropHostRings _ => .hostRings ∈ l
  | .qp _ _ => .qps ∈ l
  | .lost _ _ => .lost ∈ l
  | .port _ _ => .ports ∈ l
  | .ctrl _ => .ctrl ∈ l
  | .nonce _ => .nonce ∈ l
  | .ptp _ => .ptp ∈ l
  | .key _ _ | .released _ _ | .received _ _ => .keys ∈ l
  | .bake _ => .bake ∈ l
  | .fills _ => .fills ∈ l
  | .job _ _ | .sliceEnd _ _ => .slices ∈ l
  | .bucket _ _ _ | .lent _ _ => .buckets ∈ l
  | .route _ _ => .routes ∈ l
  | .stack _ _ => .stackSet ∈ l
  | .upkeep _ _ => .upkeep ∈ l
  | .chan _ _ _ => .chans ∈ l
  | .link _ _ => .links ∈ l
  | .queue _ | .rounds _ _ => .switch ∈ l
  | .inbox _ _ => .inbox ∈ l
  | .txns _ _ => .txns ∈ l
  | .sent _ _ | .confirmed _ _ | .performed _ _ | .refused _ _ => .counts ∈ l
  | .serving _ _ => .serving ∈ l
  | .boot _ => .boot ∈ l
  | .board _ => .board ∈ l
  | .off => False

/-- `b` comes of `a` by updates inside the pieces `l`. -/
inductive Within (l : List Piece) (a : Dev) : Dev → Prop where
  | refl : Within l a a
  | step {d : Dev} (e : Fx) : Within l a d → e.inside l → Within l a (d.apply e)

theorem Within.emit {l : List Piece} {a : Dev} {r : Run d₀} {e : Fx} (h : e.inside l) (w : Within l a r.dev) :
    Within l a (r.emit e).dev := .step e w h

theorem apply_reg_other {d : Dev} {off v o : Nat} (h : o ≠ off) : Machine.reg (d.apply (.reg off v)) o = reg d o := by
  simp only [reg, Dev.apply]; rw [mget_mset_other h]

/-- An update inside some pieces leaves every other piece as it was, registers aside. -/
theorem same_apply {l : List Piece} {d a : Dev} {p : Piece} {e : Fx} (h : e.inside l) (hp : p ∉ l) (hs : p.same a d)
    (nb : ∀ n, p ≠ .block n) : p.same a (d.apply e) := by
  cases e with
  | off => exact h.elim
  | tick t =>
    rw [Dev.apply]; split
    · cases p <;> first | exact hs | exact absurd h hp
    · exact hs
  | port q x => rw [Dev.apply]; split <;> (cases p <;> first | exact hs | exact absurd h hp)
  | _ => cases p <;> first | exact hs | exact absurd h hp | exact absurd rfl (nb _)

/-- An update inside some pieces leaves the registers outside their blocks as they were. -/
theorem same_apply_block {l : List Piece} {d a : Dev} {n : Nat} {e : Fx} (h : e.inside l) (hp : .block n ∉ l)
    (hs : Piece.same a d (.block n)) : Piece.same a (d.apply e) (.block n) := by
  intro off ho
  rw [← hs off ho]
  cases e with
  | reg o v =>
    refine apply_reg_other fun hh => ?_
    subst hh
    exact hp (by simpa [Fx.inside, ho] using h)
  | off => exact h.elim
  | tick t => simp only [reg, Dev.apply]; split <;> rfl
  | _ => rfl

/-- Updates inside some pieces leave every other piece as it was. -/
theorem Within.only {l : List Piece} {a b : Dev} (w : Within l a b) : Only l a b := by
  induction w with
  | refl => intro p _; cases p <;> simp [Piece.same]
  | step e _ h ih =>
    intro p hp
    by_cases hb : ∃ n, p = .block n
    · obtain ⟨n, rfl⟩ := hb
      exact same_apply_block h hp (ih _ hp)
    · exact same_apply h hp (ih _ hp) fun n hn => hb ⟨n, hn⟩

theorem Within.mono {l m : List Piece} {a b : Dev} (h : ∀ p, p ∈ l → p ∈ m) (w : Within l a b) : Within m a b := by
  induction w with
  | refl => exact .refl
  | step e _ hi ih =>
    refine .step e ih ?_
    cases e <;> simp only [Fx.inside] at hi ⊢ <;> first | exact h _ hi | exact hi

theorem Within.trans {l : List Piece} {a b c : Dev} (w : Within l a b) (v : Within l b c) : Within l a c := by
  induction v with
  | refl => exact w
  | step e _ h ih => exact .step e ih h

/-! ## The operations of Ops.lean, each on the end of what went before -/

variable {l : List Piece} {a : Dev} {r : Run d₀}

theorem within_reach (h : .time ∈ l) (now : Nat) (w : Within l a r.dev) : Within l a (reach now r).dev := w.emit h
theorem within_fresh (w : Within l a r.dev) : Within l a (fresh r).2.dev := w.emit trivial
theorem within_freshMany (n : Nat) (w : Within l a r.dev) : Within l a (freshMany n r).2.dev := w.emit trivial
theorem within_setReg {o : Nat} (h : .block (o / 0x8000) ∈ l) (v : Nat) (w : Within l a r.dev) :
    Within l a (setReg o v r).dev := w.emit h
theorem within_addReg {o : Nat} (h : .block (o / 0x8000) ∈ l) (n : Nat) (w : Within l a r.dev) :
    Within l a (addReg o n r).dev := w.emit h
theorem within_setCore (h : .cores ∈ l) (k : Nat) (c : Core) (w : Within l a r.dev) :
    Within l a (setCore k c r).dev := w.emit h
theorem within_setCluster (h : .clusters ∈ l) (k : Nat) (c : Cluster) (w : Within l a r.dev) :
    Within l a (setCluster k c r).dev := w.emit h
theorem within_setCmd (h : .flight ∈ l) (c : Cmd) (w : Within l a r.dev) : Within l a (setCmd c r).dev := w.emit h
theorem within_dropCmd (h : .flight ∈ l) (u : Nat) (w : Within l a r.dev) : Within l a (dropCmd u r).dev := w.emit h
theorem within_setStack (h : .stackSet ∈ l) (s : Nat) (k : Stack) (w : Within l a r.dev) :
    Within l a (setStack s k r).dev := w.emit h
theorem within_setUpkeep (h : .upkeep ∈ l) (s : Nat) (u : Upkeep) (w : Within l a r.dev) :
    Within l a (setUpkeep s u r).dev := w.emit h
theorem within_setMirror (h : .mirrors ∈ l) (k : Nat) (m : Store (List Byte)) (w : Within l a r.dev) :
    Within l a (setMirror k m r).dev := w.emit h
theorem within_setChan (h : .chans ∈ l) (s c : Nat) (ch : Channel) (w : Within l a r.dev) :
    Within l a (setChan s c ch r).dev := w.emit h
theorem within_setRing (h : .rings ∈ l) (n : Nat) (x : Option Ring) (w : Within l a r.dev) :
    Within l a (setRing n x r).dev := w.emit h
theorem within_setHostRing (h : .hostRings ∈ l) (n : Nat) (x : Option HostRing) (w : Within l a r.dev) :
    Within l a (setHostRing n x r).dev := w.emit h
theorem within_setQp (h : .qps ∈ l) (q : Nat) (x : Qp) (w : Within l a r.dev) :
    Within l a (setQp q x r).dev := w.emit h
theorem within_setPort (h : .ports ∈ l) (p : Nat) (x : Port) (w : Within l a r.dev) :
    Within l a (setPort p x r).dev := w.emit h
theorem within_setLink (h : .links ∈ l) (k : Nat) (x : Link) (w : Within l a r.dev) :
    Within l a (setLink k x r).dev := w.emit h

theorem within_when {f : Run d₀ → Run d₀} (b : Bool) (h : Within l a r.dev → Within l a (f r).dev)
    (w : Within l a r.dev) : Within l a (when b f r).dev := by
  unfold when; split
  · exact h w
  · exact w

theorem within_forEach {α : Type} {f : α → Run d₀ → Run d₀}
    (h : ∀ x (r : Run d₀), Within l a r.dev → Within l a (f x r).dev) :
    ∀ (xs : List α) {r : Run d₀}, Within l a r.dev → Within l a (forEach xs f r).dev
  | [], _, w => w
  | x :: xs, r, w => within_forEach h xs (r := f x r) (h x r w)

end Sys2Proof.Machine
end

