-- ==== Sys2Proof/Laws/Reports.lean ====
section
/-! SUPPORT. What sending to a host, an event and the completion of a command can change (R97, R111, R113, R435, R437). -/
namespace Sys2Proof.Machine
variable {d₀ : Dev} {l : List Piece} {a : Dev} {r : Run d₀}

theorem ethOff_block {p o : Nat} (hp : p < 2) (ho : o < 0x80) : ethOff p o / 0x8000 = 128 := by
  unfold ethOff; omega

theorem qpPort_lt (q : Qp) : qpPort q < 2 := by
  unfold qpPort bits; exact Nat.mod_lt _ (by decide)

theorem within_egress {p : Nat} (hh : hostPieces ⊆ l) (m : Msg) (w : Within l a r.dev) :
    Within l a (egress p m r).dev := within_setPort (hh (by decide)) _ _ w

theorem within_sendMsg (hh : hostPieces ⊆ l) (n : Nat) (m : Msg) (w : Within l a r.dev) :
    Within l a (sendMsg n m r).dev := by
  unfold sendMsg
  dsimp only
  split
  · exact within_egress hh _ (within_setQp (hh (by decide)) _ _ w)
  · exact w

theorem within_putEntry (hh : hostPieces ⊆ l) (n : Nat) (h : HostRing) (e : List Byte)
    (w : Within l a r.dev) : Within l a (putEntry n h e r).dev := by
  unfold putEntry
  exact within_setHostRing (hh (by decide)) _ _ (within_sendMsg hh _ _ (within_sendMsg hh _ _ w))

theorem within_postCompletion (hh : hostPieces ⊆ l) (n : Nat) (e : List Byte)
    (w : Within l a r.dev) : Within l a (postCompletion n e r).dev := by
  unfold postCompletion
  split
  · split
    · exact within_putEntry hh _ _ _ w
    · exact within_setHostRing (hh (by decide)) _ _ w
  · exact w

theorem within_setLost (hh : .lost ∈ l) (q n : Nat) (w : Within l a r.dev) : Within l a (setLost q n r).dev := w.emit hh

theorem within_postEvent (hh : hostPieces ⊆ l) (part code source tag id detail : Nat)
    (w : Within l a r.dev) : Within l a (postEvent part code source tag id detail r).dev := by
  unfold postEvent
  dsimp only
  split
  · split
    · exact within_setLost (hh (by decide)) _ _ (within_putEntry hh _ _ _ w)
    · exact within_addReg (hh (by decide)) _ (within_setLost (hh (by decide)) _ _ w)
  · exact within_addReg (hh (by decide)) _ (within_setLost (hh (by decide)) _ _ w)

theorem within_haltQueue (hr : .rings ∈ l) (hh : hostPieces ⊆ l) (n st p q c sq : Nat) (w : Within l a r.dev) :
    Within l a (haltQueue n st p q c sq r).dev := by
  unfold haltQueue
  refine within_postEvent hh _ _ _ _ _ _ ?_
  split
  · exact within_setRing hr _ _ w
  · exact w

theorem within_sendArrival (hq : .arrivals ∈ l) (core tag : Nat) (w : Within l a r.dev) :
    Within l a (sendArrival core tag r).dev := by
  unfold sendArrival
  split
  · exact w
  · exact w.emit hq

theorem within_reportEnd (hr : .rings ∈ l) (hh : hostPieces ⊆ l) (rep : Report) (ws : List Dword) (p q c n h sq : Nat)
    (dis : Bool) (w : Within l a r.dev) : Within l a (reportEnd rep ws p q c n h sq dis r).dev := by
  unfold reportEnd
  exact within_when _ (within_haltQueue hr hh _ _ _ _ _ _)
    (within_when _ (within_postCompletion hh _ _) w)

/-- A completion changes nothing but the hearth's flight and arrivals and the host side. -/
theorem within_completeCmd (hq : endPieces ⊆ l) (c : Cmd) (rep : Report)
    (dest : Option Nat) (w : Within l a r.dev) : Within l a (completeCmd c rep dest r).dev := by
  have hh : hostPieces ⊆ l := fun p h => hq (by simp [endPieces, h])
  unfold completeCmd
  refine within_reportEnd (hq (by decide)) hh _ _ _ _ _ _ _ _ _ ?_
  have w := within_dropCmd (hq (by decide)) c.uid w
  split
  · exact w
  · split
    · exact w
    · split
      · dsimp only
        split
        · exact within_postEvent hh _ _ _ _ _ _ w
        · exact within_forEach (fun x r v => within_sendArrival (hq (by decide)) x _ v) _ w
      · exact within_sendArrival (hq (by decide)) _ _ w

/-! ## What a message to a host keeps of the host side -/

/-- Rings are as they were, nothing leaves an egress, and what waits at a host ring stays there. -/
structure HostGrows (a b : Dev) : Prop where
  rings  : b.host.rings = a.host.rings
  egress : ∀ p m, m ∈ (portOf a p).egress → m ∈ (portOf b p).egress
  wait   : ∀ n x, hostRingOf a n = some x → ∃ y, hostRingOf b n = some y ∧ y.wait = x.wait

theorem HostGrows.rfl' (a : Dev) : HostGrows a a := ⟨rfl, fun _ _ h => h, fun _ x h => ⟨x, h, rfl⟩⟩

theorem HostGrows.trans {a b c : Dev} (h : HostGrows a b) (k : HostGrows b c) : HostGrows a c :=
  ⟨k.rings.trans h.rings, fun p m x => k.egress p m (h.egress p m x), fun n x e => by
    obtain ⟨y, hy, wy⟩ := h.wait n x e
    obtain ⟨z, hz, wz⟩ := k.wait n y hy
    exact ⟨z, hz, wz.trans wy⟩⟩

theorem grows_same {a b : Dev} (h : b.host = a.host) : HostGrows a b := by
  refine ⟨by rw [h], fun p m x => ?_, fun n x e => ⟨x, ?_, rfl⟩⟩
  · simpa [portOf, h] using x
  · simpa [hostRingOf, h] using e

theorem grows_setQp (q : Nat) (x : Qp) (r : Run d₀) : HostGrows r.dev (setQp q x r).dev :=
  ⟨rfl, fun _ _ h => h, fun _ y h => ⟨y, h, rfl⟩⟩

theorem grows_setLost (q n : Nat) (r : Run d₀) : HostGrows r.dev (setLost q n r).dev :=
  ⟨rfl, fun _ _ h => h, fun _ y h => ⟨y, h, rfl⟩⟩

theorem grows_egress {p : Nat} (m : Msg) (r : Run d₀) : HostGrows r.dev (egress p m r).dev := by
  refine ⟨?_, fun k x h => ?_, fun n x h => ⟨x, ?_, rfl⟩⟩
  · simp only [egress, setPort, Run.emit, Dev.apply]; split <;> rfl
  · by_cases hp : p = 0 <;> by_cases hk : k = 0 <;>
      simp [egress, setPort, Run.emit, Dev.apply, portOf, hp, hk] at h ⊢ <;>
      first | exact h | exact .inl h
  · rw [← h]; simp only [hostRingOf, egress, setPort, Run.emit, Dev.apply]; split <;> rfl

theorem mem_egress {p : Nat} (hp : p < 2) (m : Msg) (r : Run d₀) : m ∈ (portOf (egress p m r).dev p).egress := by
  rcases (by omega : p = 0 ∨ p = 1) with rfl | rfl <;> simp [egress, setPort, Run.emit, Dev.apply, portOf]

theorem grows_sendMsg (n : Nat) (m : Msg) (r : Run d₀) : HostGrows r.dev (sendMsg n m r).dev := by
  unfold sendMsg
  dsimp only
  split
  · exact (grows_setQp _ _ r).trans (grows_egress _ _)
  · exact .rfl' _

theorem mem_sendMsg {n : Nat} (m : Msg) {r : Run d₀} (h : (qpOf r.dev n).mode = .ready) :
    m ∈ (portOf (sendMsg n m r).dev (qpPort (qpOf r.dev n))).egress := by
  unfold sendMsg
  simp only [h, if_true]
  exact mem_egress (qpPort_lt _) _ _

theorem grows_setHostRing {n : Nat} {x y : HostRing} {r : Run d₀} (h : hostRingOf r.dev n = some x)
    (w : y.wait = x.wait) : HostGrows r.dev (setHostRing n (some y) r).dev := by
  refine ⟨rfl, fun _ _ h => h, fun k z e => ?_⟩
  by_cases hk : k = n
  · subst hk
    rw [h] at e
    cases e
    exact ⟨y, (mget_mset _ k k (some y)).trans (if_pos rfl), w⟩
  · exact ⟨z, by rw [← e]; exact (mget_mset _ n k (some y)).trans (if_neg hk), rfl⟩

theorem sendMsg_hostRingOf (n : Nat) (m : Msg) (r : Run d₀) (k : Nat) :
    hostRingOf (sendMsg n m r).dev k = hostRingOf r.dev k := by
  unfold sendMsg
  dsimp only
  split
  · simp only [hostRingOf, egress, setPort, setQp, Run.emit, Dev.apply]; split <;> rfl
  · rfl

theorem grows_putEntry {n : Nat} {h : HostRing} {r : Run d₀} (e : List Byte) (k : hostRingOf r.dev n = some h) :
    HostGrows r.dev (putEntry n h e r).dev := by
  unfold putEntry
  refine ((grows_sendMsg _ _ r).trans (grows_sendMsg _ _ _)).trans (grows_setHostRing (x := h) ?_ rfl)
  rw [sendMsg_hostRingOf, sendMsg_hostRingOf]; exact k

theorem portOf_setHostRing (n p : Nat) (x : Option HostRing) (r : Run d₀) :
    portOf (setHostRing n x r).dev p = portOf r.dev p := rfl

theorem mem_putEntry {n : Nat} {h : HostRing} {r : Run d₀} (e : List Byte)
    (m : (qpOf r.dev (n / 16)).mode = .ready) :
    .write (n / 16) (h.addr + 64 * (h.prod % hostEntries h)) h.rkey e ∈
      (portOf (putEntry n h e r).dev (qpPort (qpOf r.dev (n / 16)))).egress := by
  unfold putEntry
  rw [portOf_setHostRing]
  exact (grows_sendMsg _ _ _).egress _ _ (mem_sendMsg (.write (n / 16) (h.addr + 64 * (h.prod % hostEntries h)) h.rkey e) m)

theorem eventRing_hostRing {d : Dev} {p n : Nat} {h : HostRing} (e : eventRing d p = some (n, h)) :
    hostRingOf d n = some h := by
  unfold eventRing at e
  have := List.mem_of_mem_head? e
  simp only [List.mem_filterMap] at this
  obtain ⟨k, _, hk⟩ := this
  split at hk
  · split at hk
    · cases hk; assumption
    · cases hk
  · cases hk

theorem grows_postEvent (part code source tag id detail : Nat) (r : Run d₀) :
    HostGrows r.dev (postEvent part code source tag id detail r).dev := by
  unfold postEvent
  dsimp only
  have drop : HostGrows r.dev (addReg 0x400108 1 (setLost (ownerQp r.dev part)
      (mget 0 r.dev.host.lost (ownerQp r.dev part) + 1) r)).dev := (grows_setLost _ _ r).trans (grows_same rfl)
  split
  · rename_i n h e
    split
    · exact (grows_putEntry _ (eventRing_hostRing e)).trans (grows_setLost _ _ _)
    · exact drop
  · exact drop

theorem eventsLost_mask : regMask 0x400108 = 0xFFFFFFFF := by decide +kernel

/-- What discarding an event does: it is counted, for the ring and in ETH_EVENTS_LOST. -/
theorem lost_drop {o : Nat} (ho : regMask o = 0xFFFFFFFF) (q n : Nat) (r : Run d₀) :
    mget 0 (addReg o 1 (setLost q n r)).dev.host.lost q = n ∧
      reg (addReg o 1 (setLost q n r)).dev o = (reg r.dev o + 1) % 2 ^ 32 := by
  refine ⟨?_, ?_⟩
  · show mget 0 (mset 0 r.dev.host.lost q n) q = n
    rw [mget_mset, if_pos rfl]
  · rw [reg_addReg _ _ _ _ ho, if_pos rfl]
    rfl

/-- An event is written where the ring has room and its queue pair is ready. -/
theorem postEvent_writes {part code source tag id detail n : Nat} {h : HostRing} {r : Run d₀}
    (hr : eventRing r.dev part = some (n, h)) (ho : hostRoom h = true ∧ (qpOf r.dev (n / 16)).mode = .ready) :
    postEvent part code source tag id detail r = setLost (ownerQp r.dev part) 0
      (putEntry n h (eventEntry code source part tag id detail r.dev.time (mget 0 r.dev.host.lost (ownerQp r.dev part))) r) := by
  unfold postEvent
  simp only [hr, ho.1, ho.2, decide_true, Bool.and_self, if_true]

/-- Otherwise it is discarded. -/
theorem postEvent_drops {part code source tag id detail : Nat} {r : Run d₀}
    (h : ∀ n x, eventRing r.dev part = some (n, x) → ¬ (hostRoom x = true ∧ (qpOf r.dev (n / 16)).mode = .ready)) :
    postEvent part code source tag id detail r = addReg 0x400108 1
      (setLost (ownerQp r.dev part) (mget 0 r.dev.host.lost (ownerQp r.dev part) + 1) r) := by
  unfold postEvent
  cases hr : eventRing r.dev part with
  | none => rfl
  | some p =>
    have := h p.1 p.2 hr
    simp only []
    rw [if_neg fun e => this (by rwa [Bool.and_eq_true, decide_eq_true_eq] at e)]

/-- Posting an event sends it, or discards and counts it. -/
theorem eventSent_postEvent (part code source tag id detail : Nat) (r : Run d₀) :
    EventSent part code source tag id detail r.dev (postEvent part code source tag id detail r).dev := by
  have hd := lost_drop eventsLost_mask (ownerQp r.dev part) (mget 0 r.dev.host.lost (ownerQp r.dev part) + 1) r
  simp only [EventSent]
  cases hr : eventRing r.dev part with
  | none => rw [postEvent_drops fun n x h => by rw [hr] at h; cases h]; exact hd
  | some p =>
    obtain ⟨n, h⟩ := p
    simp only []
    by_cases ho : hostRoom h = true ∧ (qpOf r.dev (n / 16)).mode = .ready
    · rw [if_pos ho, postEvent_writes hr ho]
      refine ⟨(grows_setLost _ _ _).egress _ _ (mem_putEntry _ ho.2), ?_⟩
      show mget 0 (mset 0 _ _ 0) _ = 0
      rw [mget_mset, if_pos rfl]
    · rw [if_neg ho, postEvent_drops fun k x h => by rw [hr] at h; cases h; exact ho]
      exact hd

theorem sendMsg_lost (n : Nat) (m : Msg) (r : Run d₀) : (sendMsg n m r).dev.host.lost = r.dev.host.lost := by
  unfold sendMsg
  dsimp only
  split
  · simp only [egress, setPort, setQp, Run.emit, Dev.apply]; split <;> rfl
  · rfl

theorem sendMsg_regs (n : Nat) (m : Msg) (r : Run d₀) : (sendMsg n m r).dev.regs = r.dev.regs := by
  unfold sendMsg
  dsimp only
  split
  · simp only [egress, setPort, setQp, Run.emit, Dev.apply]
  · rfl

theorem setHostRing_lost (n : Nat) (x : Option HostRing) (r : Run d₀) :
    (setHostRing n x r).dev.host.lost = r.dev.host.lost := rfl

/-- A completion entry loses no event. -/
theorem lost_postCompletion (n : Nat) (e : List Byte) (r : Run d₀) :
    (postCompletion n e r).dev.host.lost = r.dev.host.lost ∧ (postCompletion n e r).dev.regs = r.dev.regs := by
  unfold postCompletion
  split
  · split
    · simp only [putEntry, sendMsg_lost, sendMsg_regs, setHostRing_regs, setHostRing_lost, and_self]
    · exact ⟨rfl, rfl⟩
  · exact ⟨rfl, rfl⟩

theorem grows_postCompletion_egress (n : Nat) (e : List Byte) (r : Run d₀) (p : Nat) (m : Msg)
    (h : m ∈ (portOf r.dev p).egress) : m ∈ (portOf (postCompletion n e r).dev p).egress := by
  unfold postCompletion
  split
  · rename_i x hx
    split
    · exact (grows_putEntry e hx).egress _ _ h
    · exact h
  · exact h

/-- An event sent stays so behind a completion entry. -/
theorem EventSent.afterCompletion {part code source tag id detail : Nat} {a : Dev} {r : Run d₀} (n : Nat) (e : List Byte)
    (h : EventSent part code source tag id detail a r.dev) :
    EventSent part code source tag id detail a (postCompletion n e r).dev := by
  unfold EventSent at h ⊢
  dsimp only at h ⊢
  have hl := lost_postCompletion n e r
  have hg : reg (postCompletion n e r).dev 0x400108 = reg r.dev 0x400108 := by rw [reg, hl.2, reg]
  rw [hl.1, hg]
  cases hr : eventRing a part with
  | none => rw [hr] at h; exact h
  | some p =>
    obtain ⟨k, x⟩ := p
    rw [hr] at h
    dsimp only at h ⊢
    split
    · rw [if_pos ‹_›] at h
      exact ⟨grows_postCompletion_egress _ _ _ _ _ h.1, h.2⟩
    · rw [if_neg ‹_›] at h; exact h

theorem handed_postCompletion (n : Nat) (e : List Byte) (r : Run d₀) :
    Handed n e r.dev (postCompletion n e r).dev := by
  intro h hh
  unfold postCompletion
  rw [hh]
  dsimp only
  refine ⟨fun o => ?_, fun o => ?_⟩
  · rw [if_pos o]
    refine mem_putEntry e ?_
    simp only [hostOpen, hh, Bool.and_eq_true, decide_eq_true_eq] at o
    exact o.2
  · rw [if_neg (by simp [o])]
    refine ⟨_, (mget_mset _ n n (some _)).trans (if_pos rfl), rfl⟩

theorem Handed.grows {n : Nat} {e : List Byte} {a b c : Dev} (h : Handed n e a b) (g : HostGrows b c) :
    Handed n e a c := by
  intro x hx
  obtain ⟨h1, h2⟩ := h x hx
  refine ⟨fun o => g.egress _ _ (h1 o), fun o => ?_⟩
  obtain ⟨y, hy, wy⟩ := h2 o
  obtain ⟨z, hz, wz⟩ := g.wait n y hy
  exact ⟨z, hz, wz.trans wy⟩

theorem rings_postCompletion (n : Nat) (e : List Byte) (r : Run d₀) :
    (postCompletion n e r).dev.host.rings = r.dev.host.rings := by
  unfold postCompletion
  split
  · split
    · rename_i h _; exact (grows_putEntry e h).rings
    · rfl
  · rfl

theorem time_postCompletion (n : Nat) (e : List Byte) (r : Run d₀) : (postCompletion n e r).dev.time = r.dev.time :=
  (within_postCompletion (l := hostPieces) (by decide) n e .refl).only .time (by decide)

/-! ## The completion of a command -/

theorem hearth_of_within {b : Dev} (w : Within l a b) (h : .mirrors ∉ l ∧ .cores ∉ l ∧ .clusters ∉ l ∧ .flight ∉ l ∧ .arrivals ∉ l ∧ .turns ∉ l) :
    b.hearth = a.hearth := by
  have h0 := w.only .mirrors h.1
  replace h := h.2
  have h1 := w.only .cores h.1
  have h2 := w.only .clusters h.2.1
  have h3 := w.only .flight h.2.2.1
  have h4 := w.only .arrivals h.2.2.2.1
  have h5 := w.only .turns h.2.2.2.2
  simp only [Piece.same] at h0 h1 h2 h3 h4 h5
  cases hb : b.hearth; cases ha : a.hearth
  simp_all

theorem hearth_sendArrivals (tag : Nat) : ∀ (ks : List Nat) (r : Run d₀), tag ≠ 0 →
    (forEach ks (fun k => sendArrival k tag) r).dev =
      { r.dev with hearth := { r.dev.hearth with
          arrivals := r.dev.hearth.arrivals ++ ks.map fun k => ⟨k, tag⟩ } }
  | [], r, _ => by simp [forEach]
  | k :: ks, r, h => by
    have := hearth_sendArrivals tag ks (sendArrival k tag r) h
    simp only [forEach, List.foldl_cons] at this ⊢
    rw [this]
    simp [sendArrival, h, Run.emit, Dev.apply]

theorem reportEnd_hearth (rep : Report) (ws : List Dword) (p q c n h sq : Nat) (dis : Bool) (r : Run d₀) :
    (reportEnd rep ws p q c n h sq dis r).dev.hearth = r.dev.hearth :=
  hearth_of_within (l := .rings :: hostPieces) (within_reportEnd (by decide) (by decide) _ _ _ _ _ _ _ _ _ .refl) (by decide)

/-- The module as a completion leaves it before its report: out of flight, arrivals sent, and a SIGNAL's event sent. -/
def sentOff (c : Cmd) (rep : Report) (dest : Option Nat) (r : Run d₀) : Run d₀ :=
  let r := dropCmd c.uid r
  let good := decide (rep.status = stOk) || decide (rep.status = stSkipped)
  if !good then r
  else if fOpcode c.words = 0x01 then r
  else if fOpcode c.words = 0x11 then
    let t := wd c.words 2
    if bits t 1 0 = 3 then
      postEvent c.part stOk 3 (fSignal c.words) c.ring
        (c.queue + c.core % 32 * 2 ^ 2 + c.core / 32 * 2 ^ 7 + c.seq % 2 ^ 32 * 2 ^ 32) r
    else forEach (signalCores r.dev c.part t) (fun k => sendArrival k (fSignal c.words)) r
  else sendArrival (arrivalCore c dest) (fSignal c.words) r

theorem completeCmd_eq (c : Cmd) (rep : Report) (dest : Option Nat) (r : Run d₀) :
    completeCmd c rep dest r =
      reportEnd rep c.words c.part c.queue c.core c.ring c.host c.seq c.discard (sentOff c rep dest r) := rfl

theorem sentOff_hearth (c : Cmd) (rep : Report) (dest : Option Nat) (r : Run d₀) :
    (sentOff c rep dest r).dev.hearth = { r.dev.hearth with
      cmds := r.dev.hearth.cmds.filter fun x => x.uid != c.uid
      arrivals := r.dev.hearth.arrivals ++ arrivalsDue r.dev c rep dest } := by
  unfold sentOff arrivalsDue
  by_cases hg : rep.status = stOk ∨ rep.status = stSkipped
  · have hn : ¬ (rep.status ≠ stOk ∧ rep.status ≠ stSkipped) := by omega
    have hb : (!(decide (rep.status = stOk) || decide (rep.status = stSkipped))) = false := by
      rw [Bool.not_eq_false', Bool.or_eq_true, decide_eq_true_eq, decide_eq_true_eq]; exact hg
    dsimp only
    rw [if_neg (by rw [hb]; decide)]
    by_cases h1 : fOpcode c.words = 1
    · simp [h1, dropCmd, Run.emit, Dev.apply]
    · rw [if_neg h1]
      by_cases h11 : fOpcode c.words = 0x11
      · rw [if_pos h11]
        by_cases h3 : bits (wd c.words 2) 1 0 = 3
        · rw [if_pos h3]
          rw [hearth_of_within (l := hostPieces) (within_postEvent (by decide) _ _ _ _ _ _ .refl) (by decide)]
          have : signalCores r.dev c.part (wd c.words 2) = [] := by simp [signalCores, h3]
          simp [this, h11, dropCmd, Run.emit, Dev.apply]
        · rw [if_neg h3]
          by_cases h0 : fSignal c.words = 0
          · rw [h0]
            have : ∀ (ks : List Nat) (r : Run d₀), forEach ks (fun k => sendArrival k 0) r = r := by
              intro ks; induction ks with
              | nil => intro r; rfl
              | cons k ks ih => intro r; exact ih r
            rw [this]; simp [dropCmd, Run.emit, Dev.apply]
          · rw [hearth_sendArrivals _ _ _ h0]
            simp [h0, hn, h11, dropCmd, Run.emit, Dev.apply]
            rfl
      · rw [if_neg h11]
        by_cases h0 : fSignal c.words = 0
        · simp [h0, sendArrival, dropCmd, Run.emit, Dev.apply]
        · simp [h0, hn, h1, h11, sendArrival, dropCmd, Run.emit, Dev.apply, arrivalCore]
  · have hn : (rep.status ≠ stOk ∧ rep.status ≠ stSkipped) := not_or.1 hg
    simp [hn, dropCmd, Run.emit, Dev.apply]

theorem host_sendArrivals (tag : Nat) : ∀ (ks : List Nat) (r : Run d₀),
    (forEach ks (fun k => sendArrival k tag) r).dev.host = r.dev.host
  | [], _ => rfl
  | k :: ks, r => by
    refine (host_sendArrivals tag ks (sendArrival k tag r)).trans ?_
    unfold sendArrival; split <;> rfl

/-- Apart from a SIGNAL's event, what is sent off leaves the host side alone. -/
theorem sentOff_host {c : Cmd} {rep : Report} {dest : Option Nat} {r : Run d₀}
    (h : signalsHost c → stSkipped < rep.status) : (sentOff c rep dest r).dev.host = r.dev.host := by
  unfold sentOff
  dsimp only
  split
  · rfl
  · rename_i hg
    split
    · rfl
    · split
      · split
        · have := h ⟨‹_›, ‹_›⟩
          simp only [Bool.not_eq_true', Bool.not_eq_false, Bool.or_eq_true, decide_eq_true_eq] at hg
          unfold stSkipped at this hg; unfold stOk at hg; omega
        · exact host_sendArrivals _ _ _
      · unfold sendArrival; split <;> rfl

theorem sentOff_rings (c : Cmd) (rep : Report) (dest : Option Nat) (r : Run d₀) :
    (sentOff c rep dest r).dev.host.rings = r.dev.host.rings := by
  unfold sentOff
  dsimp only
  split
  · rfl
  · split
    · rfl
    · split
      · split
        · exact (grows_postEvent _ _ _ _ _ _ _).rings
        · rw [host_sendArrivals]; rfl
      · unfold sendArrival; split <;> rfl

theorem within_sentOff (c : Cmd) (rep : Report) (dest : Option Nat) (r : Run d₀) :
    Within endPieces r.dev (sentOff c rep dest r).dev := by
  unfold sentOff
  dsimp only
  have w : Within endPieces r.dev (dropCmd c.uid r).dev := within_dropCmd (by decide) _ .refl
  split
  · exact w
  · split
    · exact w
    · split
      · split
        · exact within_postEvent (by decide) _ _ _ _ _ _ w
        · exact within_forEach (fun x r v => within_sendArrival (by decide) x _ v) _ w
      · exact within_sendArrival (by decide) _ _ w

theorem sentOff_time (c : Cmd) (rep : Report) (dest : Option Nat) (r : Run d₀) :
    (sentOff c rep dest r).dev.time = r.dev.time := (within_sentOff c rep dest r).only .time (by decide)

/-- A SIGNAL to the owner host sends its event. -/
theorem sentOff_event {c : Cmd} {rep : Report} {dest : Option Nat} {r : Run d₀} (hs : rep.status ≤ stSkipped)
    (h : signalsHost c) :
    EventSent c.part stOk 3 (fSignal c.words) c.ring (cmdDetail c) r.dev (sentOff c rep dest r).dev := by
  unfold sentOff
  dsimp only
  rw [if_neg (by
    simp only [Bool.not_eq_true', Bool.not_eq_false, Bool.or_eq_true, decide_eq_true_eq]
    unfold stSkipped at *; unfold stOk; omega), if_neg (by rw [h.1]; decide), if_pos h.1, if_pos h.2]
  exact eventSent_postEvent c.part stOk 3 (fSignal c.words) c.ring (cmdDetail c) (dropCmd c.uid r)

/-- A halt sends its event. -/
theorem haltQueue_event (n st p q c sq : Nat) (r : Run d₀) : EventSent p st 0 0 n
    (q + c % 32 * 2 ^ 2 + c / 32 * 2 ^ 7 + sq % 2 ^ 32 * 2 ^ 32) r.dev (haltQueue n st p q c sq r).dev := by
  unfold haltQueue
  dsimp only
  split
  · exact eventSent_postEvent p st 0 0 n _ (setRing n _ r)
  · exact eventSent_postEvent p st 0 0 n _ r

theorem rings_haltQueue (n st p q c sq : Nat) (r : Run d₀) :
    (haltQueue n st p q c sq r).dev.host.rings =
      match ringOf r.dev n with
      | some x => mset none r.dev.host.rings n (some { x with halted := true, head := x.head.map (Head.pause r.dev.time) })
      | none => r.dev.host.rings := by
  unfold haltQueue
  rw [(grows_postEvent _ _ _ _ _ _ _).rings]
  cases h : ringOf r.dev n <;> rfl

theorem grows_haltQueue_of (n st p q c sq : Nat) (r : Run d₀) {m : Nat} {e : List Byte} {a : Dev}
    (h : Handed m e a r.dev) : Handed m e a (haltQueue n st p q c sq r).dev := by
  unfold haltQueue
  refine Handed.grows ?_ (grows_postEvent _ _ _ _ _ _ _)
  split
  · intro x hx; exact h x hx
  · exact h

theorem ringOf_rings {a b : Dev} (h : b.host.rings = a.host.rings) (n : Nat) : ringOf b n = ringOf a n := by
  simp [ringOf, h]

theorem handed_of_host {n : Nat} {e : List Byte} {a b c : Dev} (h : a.host = b.host) (k : Handed n e a c) :
    Handed n e b c := by
  have h1 : hostRingOf b n = hostRingOf a n := by simp [hostRingOf, h]
  have h2 : hostOpen b n = hostOpen a n := by unfold hostOpen; rw [h1]; unfold qpOf; rw [h]
  have h3 : qpOf b (n / 16) = qpOf a (n / 16) := by simp [qpOf, h]
  intro x hx
  rw [h1] at hx
  rw [h2, h3]
  exact k x hx

/-- What the completion of a command does, all of it. -/
theorem completeCmd_completed (c : Cmd) (rep : Report) (dest : Option Nat) (r : Run d₀) :
    Completed c rep dest r.dev (completeCmd c rep dest r).dev := by
  have hs := sentOff_hearth c rep dest r
  rw [completeCmd_eq]
  refine ⟨(reportEnd_hearth ..).trans hs, ?_, ?_, ?_, ?_, ?_, ?_, ?_⟩
  · unfold reportEnd
    by_cases h : 0x10 ≤ rep.status
    · simp only [when, h, decide_true, if_true]
      rw [rings_haltQueue]
      have k : ∀ b : Bool, (if b then postCompletion c.host (completionEntry rep (fSignal c.words) c.queue c.core c.ring
          c.seq (sentOff c rep dest r).dev.time) (sentOff c rep dest r) else sentOff c rep dest r).dev.host.rings =
          r.dev.host.rings := by
        intro b; cases b
        · exact sentOff_rings _ _ _ _
        · exact (rings_postCompletion _ _ _).trans (sentOff_rings _ _ _ _)
      have kt : ∀ b : Bool, (if b then postCompletion c.host (completionEntry rep (fSignal c.words) c.queue c.core c.ring
          c.seq (sentOff c rep dest r).dev.time) (sentOff c rep dest r) else sentOff c rep dest r).dev.time = r.dev.time := by
        intro b; cases b
        · exact sentOff_time _ _ _ _
        · exact (time_postCompletion _ _ _).trans (sentOff_time _ _ _ _)
      rw [ringOf_rings (k _), k, kt]
      all_goals (cases ringOf r.dev c.ring <;> rfl)
    · simp only [when, h, decide_false, if_false, Bool.false_eq_true]
      split
      · exact (rings_postCompletion _ _ _).trans (sentOff_rings _ _ _ _)
      · exact sentOff_rings _ _ _ _
  · intro due nd h11
    have hb : ((decide (stSkipped < rep.status) || fNotify c.words) && !c.discard) = true := by
      rw [nd]; rcases due with h | h <;> simp [h]
    unfold reportEnd
    simp only [when, hb, if_true]
    have k := handed_postCompletion c.host (completionEntry rep (fSignal c.words) c.queue c.core c.ring c.seq
      (sentOff c rep dest r).dev.time) (sentOff c rep dest r)
    rw [sentOff_time] at k
    have k := handed_of_host (sentOff_host (rep := rep) (dest := dest) (r := r) h11) k
    rw [sentOff_time]
    split
    · exact grows_haltQueue_of _ _ _ _ _ _ _ k
    · exact k
  · intro hst hn h11
    have hb : ((decide (stSkipped < rep.status) || fNotify c.words) && !c.discard) = false := by
      have : ¬ stSkipped < rep.status := by omega
      simp [this, hn]
    have h10 : ¬ 0x10 ≤ rep.status := by unfold stSkipped at hst; omega
    unfold reportEnd
    simp only [when, hb, h10, decide_false, if_false, Bool.false_eq_true]
    exact sentOff_host fun h => absurd h h11
  · intro hst h
    have h10 : ¬ 0x10 ≤ rep.status := by unfold stSkipped at hst; omega
    have k := sentOff_event (dest := dest) (r := r) hst h
    unfold reportEnd
    simp only [when, h10, decide_false, if_false, Bool.false_eq_true]
    split
    · exact k.afterCompletion _ _
    · exact k
  · intro hst h nt nd
    have h10 : ¬ 0x10 ≤ rep.status := by unfold stSkipped at hst; omega
    have hb : ((decide (stSkipped < rep.status) || fNotify c.words) && !c.discard) = true := by simp [nt, nd]
    refine ⟨_, (within_sentOff c rep dest r).only, ?_⟩
    unfold reportEnd
    simp only [when, hb, h10, decide_false, if_true, if_false, Bool.false_eq_true]
    rw [sentOff_time]
    exact handed_postCompletion _ _ _
  · intro h10
    have hbad : signalsHost c → stSkipped < rep.status := fun _ => by unfold stSkipped; omega
    have hh := sentOff_host (dest := dest) (r := r) hbad
    have hr : (sentOff c rep dest r).dev.regs = r.dev.regs := by
      unfold sentOff; dsimp only
      rw [if_pos (by
        simp only [Bool.not_eq_true', Bool.or_eq_false_iff, decide_eq_false_iff_not]
        unfold stSkipped stOk; omega)]
      rfl
    unfold reportEnd
    simp only [when, h10, decide_true, if_true]
    split
    · have hl := lost_postCompletion c.host (completionEntry rep (fSignal c.words) c.queue c.core c.ring c.seq
        (sentOff c rep dest r).dev.time) (sentOff c rep dest r)
      refine ⟨_, (within_postCompletion (by decide) _ _ (within_sentOff c rep dest r)).only, ?_, ?_, haltQueue_event ..⟩
      · rw [hl.1, hh]
      · rw [reg, hl.2, hr, reg]
    · exact ⟨_, (within_sentOff c rep dest r).only, by rw [hh], by rw [reg, hr, reg], haltQueue_event ..⟩
  · rw [← completeCmd_eq]
    exact (within_completeCmd (by decide) c rep dest .refl).only

end Sys2Proof.Machine
end

