-- ==== Sys2Proof/Laws/Home.lean ====
section
/-! SUPPORT. What accesses to granules at their home and accesses of a core can change. -/
namespace Sys2Proof.Machine
variable {d₀ : Dev} {l : List Piece} {a : Dev} {r : Run d₀}

theorem host_of_home (h : homePieces ⊆ l) : hostPieces ⊆ l := fun _ hp =>
  h (.tail _ (.tail _ (.tail _ (.tail _ (List.mem_append_right _ hp)))))

theorem home_of_access (h : accessPieces ⊆ l) : homePieces ⊆ l := fun _ hp => h (.tail _ (.tail _ hp))

theorem ecc_home (h : homePieces ⊆ l) {o : Nat} (ho : o < 0x8000) : Piece.block (eccOff o / 0x8000) ∈ l := by
  have : eccOff o / 0x8000 = 8 := by unfold eccOff; omega
  rw [this]; exact h (by decide)

theorem keyStack_lt (k : Nat) : keyStack k < 32 := by
  unfold keyStack bits; exact Nat.mod_lt _ (by decide)

theorem stackBlock_mem {s : Nat} (hs : s < 32) : Piece.block (32 + 2 * s) ∈ stackBlocks :=
  List.mem_map.2 ⟨s, List.mem_range.2 hs, rfl⟩

theorem stk_home (h : homePieces ⊆ l) {s o : Nat} (hs : s < 32) (ho : o < 0x8000) : Piece.block (stkOff s o / 0x8000) ∈ l := by
  have : stkOff s o / 0x8000 = 32 + 2 * s := by unfold stkOff; omega
  rw [this]
  exact h (.tail _ (.tail _ (.tail _ (.tail _ (List.mem_append_left _ (stackBlock_mem hs))))))

theorem eccStk_home (h : homePieces ⊆ l) {s o : Nat} (hs : s < 32) (ho : o < 0x20) : Piece.block (eccStk s o / 0x8000) ∈ l :=
  ecc_home h (by omega)

/-- An entry that a valid region of the register file describes has a number below 512. -/
theorem regionOf_entry {d : Dev} {k : Nat} {x : Region} (h : regionOf d k = some x) : x.entry < 512 := by
  have h := List.mem_of_find?_eq_some h
  simp only [validRegions, List.mem_filter, List.mem_map, listedEntries, List.mem_filterMap] at h
  obtain ⟨⟨n, ⟨⟨e, _, hn⟩, rfl⟩⟩, _⟩ := h
  split at hn
  · simp only [Option.some.injEq] at hn; subst hn; simp only [regionAt, regionVia, regionFrom]; omega
  · cases hn

theorem within_countRegion (h : homePieces ⊆ l) (k : Nat) {o : Nat} (ho : o < 8) (w : Within l a r.dev) :
    Within l a (countRegion k o r).dev := by
  unfold countRegion
  split
  · rename_i x hx
    exact within_addReg (ecc_home h (by have := regionOf_entry hx; omega)) _ w
  · exact w

theorem within_placeHint (h : homePieces ⊆ l) (k : Nat) (w : Within l a r.dev) : Within l a (placeHint k r).dev := by
  unfold placeHint; dsimp only
  split
  · exact within_setUpkeep (h (by decide)) _ _ w
  · exact within_addReg (eccStk_home h (keyStack_lt _) (by decide)) _ w

theorem within_correctedEvent (h : homePieces ⊆ l) (k : Nat) (w : Within l a r.dev) :
    Within l a (correctedEvent k r).dev := by
  unfold correctedEvent; dsimp only
  split
  · exact within_addReg (ecc_home h (by decide)) _ w
  · exact within_postEvent (host_of_home h) _ _ _ _ _ _ (within_setUpkeep (h (by decide)) _ _ w)

theorem within_noteCorrected (h : homePieces ⊆ l) (b : Bool) (k : Nat) (w : Within l a r.dev) :
    Within l a (noteCorrected b k r).dev := by
  unfold noteCorrected; dsimp only
  refine within_correctedEvent h _ (within_when _ (within_placeHint h _) (within_countRegion h _ (by decide) ?_))
  exact within_addReg (eccStk_home h (keyStack_lt _) (by decide)) _ (within_addReg (ecc_home h (by decide)) _ w)

theorem within_askRemap (h : homePieces ⊆ l) (k : Nat) (w : Within l a r.dev) : Within l a (askRemap k r).dev := by
  unfold askRemap; dsimp only
  split
  · exact w
  · exact within_setUpkeep (h (by decide)) _ _ w

theorem within_countUncorrectable (h : homePieces ⊆ l) (k : Nat) (w : Within l a r.dev) :
    Within l a (countUncorrectable k r).dev := by
  unfold countUncorrectable; dsimp only
  refine within_postEvent (host_of_home h) _ _ _ _ _ _ (within_setReg (ecc_home h (by decide)) _
    (within_setReg (ecc_home h (by decide)) _ (within_countRegion h _ (by decide) ?_)))
  exact within_addReg (eccStk_home h (keyStack_lt _) (by decide)) _ (within_addReg (ecc_home h (by decide)) _ w)

theorem within_noteUncorrectable (h : homePieces ⊆ l) (k : Nat) (w : Within l a r.dev) :
    Within l a (noteUncorrectable k r).dev := within_countUncorrectable h _ (within_askRemap h _ w)

theorem within_readHome (h : homePieces ⊆ l) (k : Nat) (w : Within l a r.dev) : Within l a (readHome k r).2.dev := by
  unfold readHome; dsimp only
  have w := within_when (chanMode r.dev (keyStack k) (keyChan k) == 0) (f := addReg (stkOff (keyStack k) 0x30) 1)
    (within_addReg (stk_home h (keyStack_lt k) (by decide)) 1) w
  split
  · exact within_noteUncorrectable h _ w
  · exact within_when _ (within_noteCorrected h _ _) w

theorem within_setErr (h : homePieces ⊆ l) (k : Nat) (p : List Byte) (w : Within l a r.dev) :
    Within l a (setErr k p r).dev := w.emit (h (.head _))

theorem within_disturb (h : homePieces ⊆ l) (k : Nat) (p : List Byte) (w : Within l a r.dev) :
    Within l a (disturb k p r).dev := by
  unfold disturb; dsimp only
  split <;> exact within_setErr h _ _ w

theorem within_setRegBit {o : Nat} (h : .block (o / 0x8000) ∈ l) (i : Nat) (b : Bool) (w : Within l a r.dev) :
    Within l a (setRegBit o i b r).dev := w.emit h
theorem within_setField {o : Nat} (h : .block (o / 0x8000) ∈ l) (hi lo v : Nat) (w : Within l a r.dev) :
    Within l a (setField o hi lo v r).dev := w.emit h

theorem within_encodeGranule (h : homePieces ⊆ l) (k : Nat) (data : List Byte) (m f : Bool) (w : Within l a r.dev) :
    Within l a (encodeGranule k data m f r).dev := by
  unfold encodeGranule; dsimp only
  have w : Within l a ((r.emit (.bytes (keyGranule k) (data.take 64))).emit
      (.light (keyGranule k / 64) (isLight r.dev (keyGranule k)))).dev :=
    .emit (h (.head _)) (w.emit (h (.head _)))
  split
  · exact within_setReg (ecc_home h (by decide)) _ (within_setReg (ecc_home h (by decide)) _
      (within_setRegBit (ecc_home h (by decide)) _ _ ((within_setErr h _ _ w).emit (h (.head _)))))
  · exact within_when _ (fun w => w.emit (h (.head _))) (within_setErr h _ _ w)

theorem within_countWrite (h : homePieces ⊆ l) (k : Nat) (w : Within l a r.dev) :
    Within l a (when (chanMode r.dev (keyStack k) (keyChan k) == 0) (addReg (stkOff (keyStack k) 0x34) 1) r).dev :=
  within_when _ (within_addReg (stk_home h (keyStack_lt k) (by decide)) 1) w

theorem within_writeHome (h : homePieces ⊆ l) (k : Nat) (data : List Byte) (w : Within l a r.dev) :
    Within l a (writeHome k data r).dev := within_encodeGranule h _ _ _ _ (within_countWrite h k w)

theorem within_storeHome (h : homePieces ⊆ l) (k : Nat) (data : List Byte) (w : Within l a r.dev) :
    Within l a (storeHome k data r).dev := within_encodeGranule h _ _ _ _ (within_countWrite h k w)

theorem within_dropAtomic (h : homePieces ⊆ l) (c g : Nat) (w : Within l a r.dev) :
    Within l a (dropAtomic c g r).dev := by
  unfold dropAtomic; dsimp only
  split
  · exact w
  · exact within_writeHome h _ _ (within_setCluster (h (by decide)) _ _ w)

theorem within_settleAll (h : homePieces ⊆ l) (k : Nat) (w : Within l a r.dev) : Within l a (settleAll k r).dev :=
  within_forEach (fun _ _ w => within_dropAtomic h _ _ w) _ w

theorem within_mergeHome (h : homePieces ⊆ l) (k m : Nat) (data : List Byte) (w : Within l a r.dev) :
    Within l a (mergeHome k m data r).2.dev := by
  unfold mergeHome; dsimp only
  have w := within_settleAll h k w
  split
  · exact within_writeHome h _ _ w
  · split
    · exact within_storeHome h _ _ w
    · have w := within_readHome h k w
      split <;> rename_i e <;> rw [e] at w
      · exact w
      · exact within_encodeGranule h _ _ _ _ (within_countWrite h k w)

theorem within_writeBack (h : homePieces ⊆ l) (k : Nat) (w : Within l a r.dev) : Within l a (writeBack k r).dev :=
  within_encodeGranule h _ _ _ _ w

theorem within_dropCopies (h : accessPieces ⊆ l) (c g : Nat) (w : Within l a r.dev) :
    Within l a (dropCopies c g r).dev := within_setCluster (h (by decide)) _ _ w

theorem within_dropMirror (h : accessPieces ⊆ l) (c g : Nat) (w : Within l a r.dev) :
    Within l a (dropMirror c g r).dev := within_setMirror (h (by decide)) _ _ w

/-! ## Accesses of a core -/

theorem within_findCopy (c : Nat) (k : Copies) (g : Nat) (w : Within l a r.dev) :
    Within l a (findCopy c k g r).2.dev := by
  unfold findCopy; dsimp only
  generalize (if k.cache = true then mget [] (clusterOf r.dev (coreCluster c)).cache g else []) = x
  generalize (if k.mirror = true then mget [] (mirrorOf r.dev c) g else []) = y
  cases x.isEmpty <;> cases y.isEmpty <;> first | exact w | exact within_fresh w

theorem within_keepCopy (h : accessPieces ⊆ l) (c : Nat) (k : Copies) (g : Nat) (data : List Byte)
    (w : Within l a r.dev) : Within l a (keepCopy c k g data r).dev := by
  unfold keepCopy; dsimp only
  exact within_when _ (within_setMirror (h (by decide)) _ _)
    (within_when _ (within_setCluster (h (by decide)) _ _) (within_fresh w))

theorem within_readMem (h : accessPieces ⊆ l) (c : Nat) (k : Copies) (g : Nat) (w : Within l a r.dev) :
    Within l a (readMem c k g r).2.dev := by
  unfold readMem; dsimp only
  have w := within_findCopy c k (g / 64) w
  split
  · have w := within_readHome (home_of_access h) g (within_dropAtomic (home_of_access h) (coreCluster c) (g / 64) w)
    unfold settleAtomic
    split <;> rename_i e <;> rw [e] at w
    · dsimp only
      split
      · exact within_keepCopy h _ _ _ _ w
      · exact w
    · exact w
  · exact w

theorem within_noteSpad (h : homePieces ⊆ l) (k : Nat) (w : Within l a r.dev) : Within l a (noteSpad k r).dev :=
  within_postEvent (host_of_home h) _ _ _ _ _ _ (within_addReg (ecc_home h (by decide)) _ w)

theorem within_noteSram (h : homePieces ⊆ l) (p : Nat) (w : Within l a r.dev) : Within l a (noteSram p r).dev :=
  within_postEvent (host_of_home h) _ _ _ _ _ _ (within_addReg (ecc_home h (by decide)) _ w)

theorem within_readInto (h : accessPieces ⊆ l) (c : Nat) (k : Copies) (u : Upset) (p : Nat) {x : ReadSet × Run d₀}
    (w : Within l a x.2.dev) : Within l a (readInto c k u p x).2.dev := by
  unfold readInto; dsimp only
  split
  · exact w
  · split
    · cases u
      · exact w
      · exact within_addReg (ecc_home (home_of_access h) (by decide)) _ w
      · exact within_noteSpad (home_of_access h) _ w
    · rename_i g _
      have w := within_readMem h c k g w
      split <;> rename_i e <;> rw [e] at w <;> exact w
    · exact w

theorem within_victim (u : Upset) (ks : List Nat) (w : Within l a r.dev) : Within l a (victim u ks r).2.dev := by
  unfold victim; dsimp only
  split
  · exact w
  · exact within_fresh w

theorem within_readMore (h : accessPieces ⊆ l) (c : Nat) (k : Copies) (u : Upset) (ks : List Nat) {x : ReadSet × Run d₀}
    (w : Within l a x.2.dev) : Within l a (readMore c k u ks x).2.dev := by
  unfold readMore; dsimp only
  have w := within_victim u ks w
  generalize (victim u ks x.2).1 = v at w ⊢
  generalize (victim u ks x.2).2 = r at w ⊢
  suffices ∀ (ks : List Nat) (x : ReadSet × Run d₀), Within l a x.2.dev →
      Within l a (ks.foldl (fun x p => readInto c k (if v = some p then u else .none) p x) x).2.dev from this ks (x.1, r) w
  intro ks
  induction ks with
  | nil => exact fun _ w => w
  | cons p ks ih => exact fun x w => ih _ (within_readInto h c k _ p w)

theorem within_readAll (h : accessPieces ⊆ l) (c : Nat) (k : Copies) (u : Upset) (ks : List Nat) (w : Within l a r.dev) :
    Within l a (readAll c k u ks r).2.dev := within_readMore h c k u ks w

theorem within_writeMem (h : accessPieces ⊆ l) (c k m : Nat) (data : List Byte) (w : Within l a r.dev) :
    Within l a (writeMem c k m data r).2.dev :=
  within_mergeHome (home_of_access h) _ _ _
    (within_dropMirror h _ _ (within_dropCopies h _ _ w))

theorem within_writeSpad (h : accessPieces ⊆ l) (k m : Nat) (data : List Byte) (w : Within l a r.dev) :
    Within l a (writeSpad k m data r).dev := w.emit (h (.head _))

theorem within_writeGranuleAt (h : accessPieces ⊆ l) (c p m : Nat) (data : List Byte) (w : Within l a r.dev) :
    Within l a (writeGranuleAt c p m data r).dev := by
  unfold writeGranuleAt
  split
  · exact within_writeSpad h _ _ _ w
  · exact within_writeMem h _ _ _ _ w
  · exact w

theorem within_writeAll (h : accessPieces ⊆ l) (c : Nat) (ws : WriteSet) (w : Within l a r.dev) :
    Within l a (writeAll c ws r).dev := within_forEach (fun _ _ w => within_writeGranuleAt h _ _ _ _ w) _ w

theorem within_writeSome (h : accessPieces ⊆ l) (c : Nat) (ws : WriteSet) (w : Within l a r.dev) :
    Within l a (writeSome c ws r).dev :=
  within_forEach (fun _ _ w => within_when _ (within_writeGranuleAt h _ _ _ _) (within_fresh w)) _ w

theorem within_formImage (h : accessPieces ⊆ l) (e : Nat × Nat × List Byte) (w : Within l a r.dev) :
    Within l a (formImage e r).2.dev := by
  unfold formImage
  split
  · exact w
  · split
    · exact w
    split
    · rename_i k _
      have w := within_readHome (home_of_access h) k (within_settleAll (home_of_access h) k w)
      split <;> rename_i e <;> rw [e] at w <;> exact w
    · exact w
    · exact w

theorem within_settleMerges (h : homePieces ⊆ l) (ws : WriteSet) (w : Within l a r.dev) :
    Within l a (settleMerges ws r).dev :=
  within_forEach (fun _ _ w => by
    split
    · exact within_when _ (within_settleAll h _) w
    · exact w) _ w

theorem within_writeImage (h : accessPieces ⊆ l) (c : Nat) (e : Late) (w : Within l a r.dev) :
    Within l a (writeImage c e r).dev := by
  unfold writeImage; dsimp only
  split
  · have w := within_settleAll (home_of_access h) ‹_› (within_dropMirror h c (‹_› / 64) (within_dropCopies h (coreCluster c) (‹_› / 64) w))
    split
    · exact within_writeHome (home_of_access h) _ _ w
    · exact within_storeHome (home_of_access h) _ _ w
  · exact within_writeGranuleAt h _ _ _ _ w
  · exact w

theorem within_writeOrKeep (h : accessPieces ⊆ l) (c : Nat) (ws : WriteSet) (w : Within l a r.dev) :
    Within l a (writeOrKeep c ws r).2.dev := by
  unfold writeOrKeep
  suffices ∀ (es : WriteSet) (z : List Late × Run d₀), Within l a z.2.dev → Within l a (es.foldl (fun z e =>
      let (n, r) := fresh z.2
      if n % 2 = 0 then (z.1, writeGranuleAt c (e.1 * 64) e.2.1 e.2.2 r)
      else
        let (i, r) := formImage e r
        (z.1 ++ i.toList, r)) z).2.dev from this _ ([], r) w
  intro es
  induction es with
  | nil => exact fun _ w => w
  | cons e es ih =>
    intro z w
    refine ih _ ?_
    dsimp only
    have w := within_fresh w
    split
    · exact within_writeGranuleAt h _ _ _ _ w
    · exact within_formImage h _ w

theorem within_writeIter (h : accessPieces ⊆ l) (c : Nat) (ws : WriteSet) (u : Upset) (w : Within l a r.dev) :
    Within l a (writeIter c ws u r).2.dev := by
  unfold writeIter; dsimp only
  have w : Within l a (mergeVictim u ws (settleMerges ws r)).2.dev :=
    within_victim _ _ (within_settleMerges (home_of_access h) ws w)
  split
  · exact within_writeOrKeep h _ _ (within_when _ (within_addReg (ecc_home (home_of_access h) (by decide)) _) w)
  · refine within_writeSome h _ _ ?_
    split
    · exact within_readHome (home_of_access h) _ w
    · exact within_noteSpad (home_of_access h) _ w
    · exact w

end Sys2Proof.Machine
end

