-- ==== Sys2Proof/Laws/Recipe.lean ====
section
/-! SUPPORT. What the issue of a recipe instruction does to the module, once for all fifteen of them. -/
namespace Sys2Proof.Machine
variable {d₀ : Dev}

/-- R79: the blocks of the stacks hold STK_ registers in their first half and SEQ_ registers in their second. -/
theorem regInfo_stack {o : Nat} (lo : 0x100000 ≤ o) (hi : o < 0x240000) : regInfo o = some
    (if o % 0x10000 < 0x8000 then stkReg ((o - 0x100000) / 0x10000) (o % 0x10000) else seqReg (o % 0x10000 - 0x8000)) := by
  have below : ∀ b, b ≤ 0x100000 → ¬ o < b := fun b h => by omega
  unfold regInfo
  simp only [below 0x10000 (by decide), below 0x20000 (by decide), below 0x30000 (by decide), below 0x38000 (by decide),
    below 0x40000 (by decide), below 0x48000 (by decide), below 0x50000 (by decide), below 0x58000 (by decide),
    below 0x60000 (by decide), below 0x100000 (by decide), hi, ↓reduceIte]

theorem seqCh_mask {s c o : Nat} (hs : s < 20) (hc : c < 32) (ho : o = 0x04 ∨ o = 0x08 ∨ o = 0x0C ∨ o = 0x10 ∨ o = 0x14) :
    regMask (seqChOff s c o) = 0xFFFFFFFF := by
  have h1 : seqChOff s c o = 0x108000 + s * 0x10000 + (0x100 + c * 0x20 + o) := rfl
  have h2 : o < 0x1C := by rcases ho with h | h | h | h | h <;> omega
  have h3 : o % 4 = 0 := by rcases ho with h | h | h | h | h <;> omega
  rw [regMask, h1, regInfo_stack (by omega) (by omega)]
  have h4 : (0x108000 + s * 0x10000 + (0x100 + c * 0x20 + o)) % 0x10000 - 0x8000 = 0x100 + c * 0x20 + o := by omega
  rw [if_neg (by omega), h4]
  unfold seqReg
  split <;> first
    | omega
    | (rw [if_neg (by omega), if_pos (by omega)]; rfl)

theorem seqCh_block {s c o : Nat} (hc : c < 32) (ho : o < 0x20) : seqChOff s c o / 0x8000 = 33 + 2 * s := by
  simp only [seqChOff, seqOff]; omega

/-- R271: what an instruction's issue does, given what its work does. -/
theorem issueIns_issued {l : List Piece} {s c op : Nat} {run : ChanRun} {x : Recipe} {i : Image} {w : Nat} {r : Run d₀}
    {g : Recipe → Ins → Nat → ChanRun → Run d₀ → Work × Run d₀} (hs : s < 20) (hc : c < 32)
    (h : Issuing r.dev s c op run x i w) (hl : (decodeIns w).op = iLoadv → mget [] x.loads (decodeIns w).load ≠ [])
    (hf : (g x (decodeIns w) (issueTick run (decodeIns w)) run r).1.fault = none)
    (hch : (g x (decodeIns w) (issueTick run (decodeIns w)) run r).2.dev.chans = r.dev.chans)
    (hrs : (stackOf (g x (decodeIns w) (issueTick run (decodeIns w)) run r).2.dev s).recipes = (stackOf r.dev s).recipes)
    (hst : ∀ n, n ≠ s → stackOf (g x (decodeIns w) (issueTick run (decodeIns w)) run r).2.dev n = stackOf r.dev n)
    (hrg : reg (g x (decodeIns w) (issueTick run (decodeIns w)) run r).2.dev (seqChOff s c 0x14) =
      reg r.dev (seqChOff s c 0x14))
    (hw : Within (.chans :: .stackSet :: .block (33 + 2 * s) :: l) r.dev
      (g x (decodeIns w) (issueTick run (decodeIns w)) run r).2.dev) :
    let z := (g x (decodeIns w) (issueTick run (decodeIns w)) run r).1
    Issued s c i (decodeIns w) run z.run z.flags l r.dev (issueIns op s c false g r).dev := by
  intro z
  have hcl := h.clear
  have hm : ((decodeIns w).op == iLoadv && (mget [] x.loads (decodeIns w).load).isEmpty) = false := by
    by_cases e : (decodeIns w).op = iLoadv
    · have := hl e
      simp only [e, beq_self_eq_true, Bool.true_and]
      cases hh : mget [] x.loads (decodeIns w).load with
      | nil => exact absurd hh this
      | cons a b => rfl
    · simp [e]
  have e : issueIns op s c false g r = countLate s c
      (if run.ip = 0 then 0 else issueTick run (decodeIns w) - (run.tick + (decodeIns w).delta))
      (setChan s c { chanOf (g x (decodeIns w) (issueTick run (decodeIns w)) run r).2.dev s c with
        run := some (moveOn (decodeIns w) (issueTick run (decodeIns w)) i z.flags z.run) }
        (g x (decodeIns w) (issueTick run (decodeIns w)) run r).2) := by
    unfold issueIns
    simp only [h.runs, h.word]
    rw [if_neg (by simp [h.phase, h.op, h.going]), hcl, hm]
    simp only [Bool.false_eq_true, if_false, hf]
    rfl
  rw [e]
  generalize g x (decodeIns w) (issueTick run (decodeIns w)) run r = q at *
  have hcq : ∀ m n, chanOf q.2.dev m n = chanOf r.dev m n := fun m n => by simp only [chanOf, hch]
  unfold countLate
  have hb : Piece.block (seqChOff s c 0x14 / 0x8000) ∈ Piece.chans :: .stackSet :: .block (33 + 2 * s) :: l := by
    rw [seqCh_block hc (by omega)]; exact .tail _ (.tail _ (.head _))
  have hn : ∀ m n, chanOf (setChan s c { chanOf q.2.dev s c with
      run := some (moveOn (decodeIns w) (issueTick run (decodeIns w)) i z.flags z.run) } q.2).dev m n =
        if 32 * m + n = 32 * s + c then
          { chanOf r.dev s c with run := some (moveOn (decodeIns w) (issueTick run (decodeIns w)) i z.flags z.run) }
        else chanOf r.dev m n := fun m n => by
    rw [chanOf_setChan, hcq, hcq]
  constructor
  · intro late n
    refine ⟨?_, ?_⟩
    · rw [chanOf_congr (addReg_chans _ _ _), chanOf_setChan, if_pos rfl, hn, if_pos rfl]
    · rw [reg_addReg _ _ _ _ (seqCh_mask hs hc (by simp)), if_pos rfl, hn, if_pos rfl, reg_congr (setChan_regs _ _ _ _),
        reg_congr (setChan_regs _ _ _ _), hrg]
  · intro m n hmn
    rw [chanOf_congr (addReg_chans _ _ _), chanOf_setChan, if_neg hmn, hn, if_neg hmn]
  · rw [stackOf_congr (addReg_stackSet _ _ _), stackOf_congr (setChan_stackSet _ _ _ _),
      stackOf_congr (setChan_stackSet _ _ _ _), hrs]
  · intro n hn
    rw [stackOf_congr (addReg_stackSet _ _ _), stackOf_congr (setChan_stackSet _ _ _ _),
      stackOf_congr (setChan_stackSet _ _ _ _), hst n hn]
  · refine Within.only ?_
    exact within_addReg hb _ (within_setChan (.head _) _ _ _ (within_setChan (.head _) _ _ _ hw))

end Sys2Proof.Machine
end

