-- ==== Sys2Proof/Laws/Wf.lean ====
section
/-! SUPPORT. Every primitive update keeps the canonical forms and the bits of the registers. -/
namespace Sys2Proof.Machine

theorem reg_and_mask (off v : Nat) : (BitVec.ofNat 32 (v &&& regMask off)).toNat &&& regMask off =
    (BitVec.ofNat 32 (v &&& regMask off)).toNat := by
  rw [BitVec.toNat_ofNat]
  apply Nat.eq_of_testBit_eq
  intro i
  simp only [Nat.testBit_and, Nat.testBit_mod_two_pow]
  cases decide (i < 32) <;> cases v.testBit i <;> cases (regMask off).testBit i <;> rfl

variable {α : Type}

theorem mem_mput {k : Nat} {v : α} {e : Nat × α} : ∀ {m : Store α}, e ∈ mput m k v → e ∈ m ∨ e = (k, v)
  | [], h => by simp only [mput, List.mem_singleton] at h; exact .inr h
  | (a, w) :: r, h => by
    rw [mput] at h
    split at h
    · rcases List.mem_cons.1 h with h | h
      · exact .inr h
      · exact .inl (.tail _ h)
    · split at h
      · rcases List.mem_cons.1 h with h | h
        · exact .inr h
        · exact .inl h
      · rcases List.mem_cons.1 h with h | h
        · exact .inl (h ▸ .head _)
        · exact (mem_mput h).imp_left (.tail _)

/-- What a write lists was listed before, or is what was written, no default. -/
theorem mem_mset [DecidableEq α] {d : α} {k : Nat} {v : α} {e : Nat × α} {m : Store α} (h : e ∈ mset d m k v) :
    e ∈ m ∨ (e = (k, v) ∧ v ≠ d) := by
  rw [mset] at h
  split at h
  · exact .inl (List.mem_filter.1 h).1
  · exact (mem_mput h).imp_right fun h => ⟨h, by assumption⟩

theorem keys_mput {k : Nat} {v : α} : ∀ {m : Store α}, (m.map (·.1)).Pairwise (· < ·) →
    ((mput m k v).map (·.1)).Pairwise (· < ·)
  | [], _ => by simp [mput]
  | (a, w) :: r, h => by
    simp only [List.map_cons, List.pairwise_cons, List.mem_map, forall_exists_index, and_imp] at h
    have keep : ∀ b ∈ r, a < b.1 := fun b hb => h.1 _ b hb rfl
    rw [mput]
    split
    · rename_i e; subst e; simpa using ⟨fun x y hy => keep _ hy, h.2⟩
    · split
      · rename_i hlt
        simp only [List.map_cons, List.pairwise_cons, List.mem_map, List.mem_cons]
        refine ⟨?_, ?_, h.2⟩
        · rintro x (rfl | ⟨b, hb, rfl⟩)
          · exact hlt
          · exact Nat.lt_trans hlt (keep b hb)
        · rintro x ⟨b, hb, rfl⟩; exact keep b hb
      · simp only [List.map_cons, List.pairwise_cons, List.mem_map]
        refine ⟨?_, keys_mput h.2⟩
        rintro x ⟨b, hb, rfl⟩
        rcases mem_mput hb with hb | hb
        · exact keep b hb
        · rw [hb]; show a < k; omega

theorem keys_mset [DecidableEq α] {d : α} {k : Nat} {v : α} {m : Store α} (h : (m.map (·.1)).Pairwise (· < ·)) :
    ((mset d m k v).map (·.1)).Pairwise (· < ·) := by
  rw [mset]
  split
  · exact h.sublist ((List.filter_sublist).map _)
  · exact keys_mput h

/-- A primitive update keeps what every reached module keeps. -/
theorem wf_apply {d : Dev} (w : d.Wf) (e : Fx) : (d.apply e).Wf := by
  cases e with
  | tick t => unfold Dev.apply; dsimp only; split <;> first | exact { w with } | exact w
  | bytes k l => exact { w with mem := mwf_mputs w.mem k l }
  | fill a b =>
    exact { w with mem := mwf_mdrop _ w.mem, errs := mwf_mdrop (fun g => a.without b (g * 64)) w.errs,
                   hits := mwf_mdrop (fun g => a.without b (g * 64)) w.hits,
                   lights := mwf_mdrop (fun g => a.without b (g * 64)) w.lights }
  | err g p => exact { w with errs := mwf_mset w.errs _ _ }
  | hit g b => exact { w with hits := mwf_mset w.hits _ _ }
  | light g b => exact { w with lights := mwf_mset w.lights _ _ }
  | spad k l => exact { w with spad := mwf_mputs w.spad k l }
  | clear lo hi => exact { w with spad := mwf_mdrop (fun k => decide (lo ≤ k) && decide (k < hi)) w.spad }
  | reg o v =>
    refine { w with regKeys := keys_mset w.regKeys, regs := fun e he => ?_ }
    rcases mem_mset he with he | ⟨rfl, hv⟩
    · exact w.regs e he
    · exact ⟨hv, reg_and_mask _ _⟩
  | stage o v => exact { w with bench := mwf_mset w.bench o (some (BitVec.ofNat 32 v)) }
  | empty => exact { w with bench := rfl }
  | core k c => exact { w with cores := mwf_mset w.cores _ _ }
  | cluster k c => exact { w with clusters := mwf_mset w.clusters _ _ }
  | dropCores p => exact { w with cores := mwf_mdrop _ w.cores }
  | dropClusters p => exact { w with clusters := mwf_mdrop _ w.clusters }
  | ring n x => exact { w with rings := mwf_mset w.rings _ _ }
  | hostRing n x => exact { w with hostRings := mwf_mset w.hostRings _ _ }
  | dropRings p => exact { w with rings := mwf_mdrop _ w.rings }
  | dropHostRings p => exact { w with hostRings := mwf_mdrop _ w.hostRings }
  | qp q x => exact { w with qps := mwf_mset w.qps _ _ }
  | stack k s =>
    exact { w with stackSet := mwf_mset w.stackSet _ _ }
  | upkeep k u => exact { w with upkeep := mwf_mset w.upkeep _ _ }
  | chan s c ch => exact { w with chans := mwf_mset w.chans _ _ }
  | mirror k m => exact { w with mirrors := mwf_mset w.mirrors _ _ }
  | dropMirrors p => exact { w with mirrors := mwf_mdrop _ w.mirrors }
  | link l x => exact { w with links := mwf_mset w.links _ _ }
  | serving p s => exact { w with serving := mwf_mset w.serving _ _ }
  | lost q n => exact { w with lost := mwf_mset w.lost _ _ }
  | key p v => exact { w with keys := mwf_mset w.keys _ _ }
  | released p b => exact { w with released := mwf_mset w.released _ _ }
  | received p b => exact { w with received := mwf_mset w.received _ _ }
  | job p j => exact { w with job := mwf_mset w.job _ _ }
  | sliceEnd p t => exact { w with sliceEnd := mwf_mset w.sliceEnd _ _ }
  | lent k p => exact { w with lent := mwf_mset w.lent _ _ }
  | route o v => exact { w with routes := mwf_mset w.routes _ _ }
  | rounds k x => exact { w with rounds := mwf_mset w.rounds _ _ }
  | inbox k x => exact { w with inbox := mwf_mset w.inbox _ _ }
  | sent v n => exact { w with sent := mwf_mset w.sent _ _ }
  | confirmed v n => exact { w with confirmed := mwf_mset w.confirmed _ _ }
  | performed v n => exact { w with performed := mwf_mset w.performed _ _ }
  | refused v n => exact { w with refused := mwf_mset w.refused _ _ }
  | bucket k n t => exact { w with tokens := mwf_mset w.tokens _ _, counted := mwf_mset w.counted _ _ }
  | port p x => unfold Dev.apply; dsimp only; split <;> exact { w with }
  | off => constructor <;> first | rfl | exact .nil | exact fun _ h => nomatch h
  | _ => exact { w with }

/-- The module that updates reach keeps it. -/
theorem Reach.wf {a b : Dev} (h : Reach a b) (w : a.Wf) : b.Wf := by
  induction h with
  | refl => exact w
  | step e _ ih => exact wf_apply ih e

theorem Run.wf {d₀ : Dev} (r : Run d₀) (w : d₀.Wf) : r.dev.Wf := r.path.wf w

end Sys2Proof.Machine
end

