-- ==== Sys2Proof/WellFormed.lean ====
section
/-! DEFINITION. Which operands a command can have. Unit numbers are bounded by their types; what arrives from outside is
bounded here by the width of the field that carries it. -/
namespace Sys2Proof
open Machine

/-- Device time is a 64-bit count of ns (R442). -/
def timeOk (now : Nat) : Bool := decide (now < 2 ^ 64)
/-- A byte string is not longer than `n`. -/
def lenLe {α : Type} (l : List α) (n : Nat) : Bool := decide (l.length ≤ n)
/-- A key of stack memory: one of 20 stacks of 64 GiB (R62, R219). -/
def keyOk (k : Nat) : Bool := decide (k < 20 * 2 ^ 36)
/-- A granule of stack memory by its key. -/
def granuleOk (k : Nat) : Bool := keyOk k && k % 64 == 0
/-- A granule request: 64 bytes when it writes (R223, R224). -/
def requestOk (q : Request) : Bool := granuleOk q.granule && (!q.write || (q.data.length == 64 && decide (q.mask < 2 ^ 64)))
/-- A disturbance covers the 72 bytes of a stored image (R448). -/
def disturbOk (x : Disturb) : Bool := granuleOk x.key && x.pattern.length == 72
/-- Units of 8 bytes as they arrive on at most eight lanes: no frame has more than 64 (R390, R391). -/
def lanesOk (l : List (List Dword)) : Bool := decide (l.length ≤ 8) && l.all fun x => decide (x.length ≤ 64)
/-- A RoCEv2 packet: QPN and PSN are 24 bits, a priority 3 (R421, R427). -/
def packetOk (p : Packet) : Bool := decide (p.qpn < 2 ^ 24) && decide (p.psn < 2 ^ 24) && decide (p.priority < 8) &&
    decide (p.corrected < 2 ^ 32) && decide (p.uncorrectable < 2 ^ 32)
/-- PTP: domain, transport and sequence number (R443). -/
def ptpOk (m : PtpMessage) : Bool :=
  decide (m.domain < 256) && decide (m.transport < 4) && decide (m.seq < 2 ^ 16) && m.master.length == 10
/-- What a link's training measures (R410, R411). -/
def trainingOk (x : Training) : Bool := x.laser.length == 4 && decide (x.beacon < 2 ^ 16) &&
  decide (x.inward < 2 ^ 10) && decide (x.outward < 2 ^ 10) && decide (x.peer < 2 ^ 16) && decide (x.peerLink < 20) &&
  decide (x.credits ≤ 2048)
/-- A repaired row of a stack, and an interface lane repair, name what there is (R219, R485). -/
def rowOk (x : Nat × Nat × Nat) : Bool := decide (x.1 < 32) && decide (x.2.1 < 32) && decide (x.2.2 < 32768)
/-- See `rowOk`. -/
def laneOk (x : Nat × Nat × Nat) : Bool := decide (x.1 < 32) && decide (x.2.1 < 64) && decide (x.2.2 < 4)
/-- Fuse contents (R485). -/
def fusesOk (f : Fuses) : Bool :=
  decide (f.coreMap < 2 ^ 2176) && f.rows.length == 20 && (f.rows.all fun l => lenLe l 4096 && l.all rowOk) &&
    f.lanes.length == 20 && (f.lanes.all fun l => lenLe l 128 && l.all laneOk) && f.optics.length == 20 && f.seed.length == 32 &&
    f.cert.length == 64 &&
    decide (f.serial < 2 ^ 64) && decide (f.idcode < 2 ^ 32)
/-- A bake unit names a unit there is. -/
def unitOk (u : BakeUnit) : Bool :=
  match u with
  | .mode s c => decide (s < 20) && decide (c < 32)
  | .budget s => decide (s < 20)
  | .cluster k => decide (k < 64)
  | .holder s c => decide (s < 20) && decide (c < 32)
  | .region n => decide (n < 512)
  | .upkeep n => decide (n < 512)
  | .link l => decide (l < 20)
  | .routes => true
  | .supply => true
  | .queuePair q => decide (q < 256)
  | .setting off => off % 4 == 0
/-- A request for one granule, or a disturbance, that need not be there. -/
def optOk {α : Type} (f : α → Bool) (x : Option α) : Bool := x.elim true f

/-- The operands are values that the command can have. -/
def Instr.wellFormed : Instr → Bool
  | .nop _ => true
  | .matmul _ _ => true
  | .tileEntersRack _ => true
  | .voidEntryEntersRack _ => true
  | .vecop _ _ => true
  | .rackEntryTaken _ now _ => timeOk now
  | .reduce _ _ => true
  | .gather _ _ => true
  | .scatter _ _ => true
  | .copy _ _ => true
  | .dma _ _ => true
  | .recipe _ => true
  | .wait _ => true
  | .waitConditionPoll _ met => timeOk met.1
  | .signal _ => true
  | .release _ => true
  | .acquire _ => true
  | .atomic _ met => timeOk met.1
  | .countSet _ => true
  | .countAdd _ => true
  | .countLoad _ => true
  | .countStore _ => true
  | .countSetref _ => true
  | .countSetrel _ => true
  | .fence _ => true
  | .commandFetch _ now => timeOk now
  | .commandIssue _ now _ => timeOk now
  | .tagArrival _ now => timeOk now
  | .commandCompletion _ now => timeOk now
  | .completionEntry _ => true
  | .waitTimeout _ now => timeOk now
  | .cmdOverrun _ now => timeOk now
  | .flushWalk _ now => timeOk now
  | .networkAtomicWriteBack _ g => decide (g < 2 ^ 58)
  | .copyEviction _ _ g _ => decide (g < 2 ^ 58)
  | .memoryModeAccess _ _ q x => optOk requestOk q && optOk disturbOk x
  | .memoryModeRefresh _ _ now => timeOk now
  | .recipeAccepted _ _ => true
  | .loadEntryArrival _ _ _ => true
  | .recipeImageArrival _ _ => true
  | .recipeStart _ _ now => timeOk now
  | .act _ _ => true
  | .pre _ _ => true
  | .dot _ _ => true
  | .axpy _ _ => true
  | .scale _ _ => true
  | .reread _ _ => true
  | .loadv _ _ => true
  | .copyv _ _ => true
  | .sync _ _ => true
  | .score _ _ => true
  | .setq _ _ => true
  | .chain _ _ => true
  | .store _ _ => true
  | .idle _ _ => true
  | .finish _ _ => true
  | .foldBoundary _ _ now => timeOk now
  | .refresh _ _ now => timeOk now
  | .channelReducerFinal _ final => timeOk final.2
  | .stackReducerSend _ => true
  | .recipeCompletion _ _ now => timeOk now
  | .regWrite _ => true
  | .regRead _ => true
  | .bake _ now => timeOk now
  | .discard _ => true
  | .prepareAck u now => unitOk u && timeOk now
  | .bakeInstant now => timeOk now
  | .bakeAbort now => timeOk now
  | .zeroFillComplete _ => true
  | .sliceEnd _ now => timeOk now
  | .jobSwitch _ now => timeOk now
  | .sifterVisit _ _ now x => timeOk now && optOk disturbOk x
  | .fieldRemap k => keyOk k
  | .remapComplete _ _ => true
  | .eccRemapReq _ => true
  | .flipArm _ => true
  | .flipDisarm _ => true
  | .channelRetrain _ _ _ now => timeOk now
  | .channelRetirement _ _ => true
  | .linkFrameReceipt _ lanes corrected uncorrectable _ _ now =>
    lanesOk lanes && decide (corrected < 2 ^ 32) && decide (uncorrectable < 2 ^ 32) && timeOk now
  | .switchGrant _ now => timeOk now
  | .idleFrame _ now => timeOk now
  | .replayTimeout _ now => timeOk now
  | .resendLimit _ => true
  | .writeFrame _ _ => true
  | .mergeWrite _ _ => true
  | .readFrame _ _ => true
  | .atomicRequestFrame _ _ => true
  | .check _ _ => true
  | .syncFrame _ _ => true
  | .writeAck _ _ => true
  | .readData _ _ => true
  | .atomicData _ _ => true
  | .checkAck _ _ => true
  | .syncAck _ _ => true
  | .transactionTimeout _ now => timeOk now
  | .linkTrainingStage _ x now => trainingOk x && timeOk now
  | .fullTrainingRetry _ now => timeOk now
  | .lnkRetrain _ now => timeOk now
  | .routeRemoval _ => true
  | .routeRestore _ => true
  | .throttleWidthChange _ => true
  | .laneRelock _ => true
  | .produce _ _ _ => true
  | .bind _ _ _ => true
  | .unbind _ _ _ => true
  | .resume _ _ _ => true
  | .flush _ _ _ => true
  | .hostring _ _ _ => true
  | .consume _ _ _ => true
  | .hostRdmaWrite _ rkey va data => decide (rkey < 2 ^ 32) && decide (va < 2 ^ 64) && decide (data.length < 2 ^ 32)
  | .hostRdmaRead _ rkey va len => decide (rkey < 2 ^ 32) && decide (va < 2 ^ 64) && decide (len < 2 ^ 32)
  | .rocePacket _ p now => packetOk p && timeOk now
  | .ackTimeout _ now => timeOk now
  | .pfcFrame _ pri xoff => decide (pri < 256) && decide (xoff < 256)
  | .cnpReceived _ now => timeOk now
  | .rateRecovery _ now => timeOk now
  | .lldpTransmit _ now => timeOk now
  | .lldpReceived _ => true
  | .arpReply _ target sender => decide (target < 2 ^ 32) && decide (sender < 2 ^ 32)
  | .neighbourAdvertisement _ target sender => decide (target < 2 ^ 128) && decide (sender < 2 ^ 128)
  | .ethPortUp _ => true
  | .authNonce _ => true
  | .auth _ sig => sig.length == 64
  | .qpConnect _ => true
  | .qpReset _ => true
  | .attest _ now => timeOk now
  | .update _ => true
  | .controlCommandCompletion _ _ now => timeOk now
  | .syncMessage _ m now => ptpOk m && timeOk now
  | .ptpHoldover now => timeOk now
  | .ptpCtrlWrite _ => true
  | .generate _ now => timeOk now
  | .cancel _ => true
  | .streamOpen _ now => timeOk now
  | .frame _ now => timeOk now
  | .streamClose _ => true
  | .model _ => true
  | .config _ => true
  | .stepBoundary _ now => timeOk now
  | .stepCommit _ now => timeOk now
  | .publish _ _ => true
  | .consumerIndexRead _ _ index => decide (index < 2 ^ 32)
  | .prefillChunkStart _ now => timeOk now
  | .prefillChunkEnd _ now => timeOk now
  | .deadlineCheck _ now => timeOk now
  | .frameStart _ now => timeOk now
  | .frameEncoded _ now => timeOk now
  | .frameDeadline _ now => timeOk now
  | .powerOn => true
  | .railsInRegulation => true
  | .fuseSense f _ _ now => fusesOk f && timeOk now
  | .flashDiscovery _ _ _ a b now => a.length == 32 && b.length == 32 && timeOk now
  | .imageRead image now => lenLe image 8384512 && timeOk now
  | .imageVerify now => timeOk now
  | .fieldLockBlow _ now => timeOk now
  | .serviceCoreLoad _ now => timeOk now
  | .hearthCoreLoad garbled now => (garbled.all fun e => lenLe e.2.2 4112) && timeOk now
  | .missingList core garbled now => decide (core < 2176) && (garbled.all fun e => lenLe e.2 4112) && timeOk now
  | .digestReport core digest now => decide (core < 2176) && digest.length == 32 && timeOk now
  | .stackTraining failed now =>
    failed.length == 20 && (failed.all fun x => x.elim true fun l => lenLe l 32 && l.all fun m => decide (m < 2 ^ 68)) && timeOk now
  | .managementBake now => timeOk now
  | .randomSourceFailure => true
  | .housekeepingRound _ now => timeOk now
  | .inputUndervoltage => true
  | .inputOvervoltage _ => true
  | .i3cPrivateWrite _ => true
  | .i3cPrivateRead _ => true
  | .setdasa static dynamic => decide (static < 128) && decide (dynamic < 128)
  | .entdaa dynamic => decide (dynamic < 128)
  | .idcode => true
  | .bypass _ => true
  | .ethPortDown _ => true
  | .channelRetrainComplete _ _ => true
  | .testAccessPortReset _ => true
  | .announceMessage _ _ domain transport now => decide (domain < 256) && decide (transport < 4) && timeOk now
  | .delayRequest now => timeOk now
  | .delayResponse _ m now => ptpOk m && timeOk now
  | .followUpMessage _ m now => ptpOk m && timeOk now

end Sys2Proof
end

