-- ==== Sys2Proof/Tests/Slice0.lean ====
section
/-! SUPPORT. Tests: WellFormed refuses an ill-formed term for each of its checks; what a few steps do; and for each statement
with hypotheses, a concrete state and operands that meet them (`witness_<statement>`). -/
namespace Sys2Proof.Tests
open Machine
-- One theorem at a time: each kernel check waits for the ones before it.
set_option Elab.async false

/-! ## Builders -/

/-- Eight words of a command, padded with zeros. -/
def cw (l : List Nat) : List Dword := (l ++ List.replicate (8 - l.length) 0).map (BitVec.ofNat 64)

/-- A running command of core 3, partition 0, queue 1, with the number 7. -/
def run (l : List Nat) : Cmd :=
  { uid := 7, part := 0, core := 3, queue := 1, ring := 5, seq := 0, host := 0, words := cw l, descs := [], issued := 0,
    iter := 0, skipped := false, taken := none, waited := 0, since := none, flags := noFlags, stage := 0, txns := [], remote := 0,
    failAt := 0, buf := [], late := [], todo := [], discard := false, phase := .running }

/-- Change the module of a state. -/
def up (f : Dev → Dev) (s : State) : State := { s with toDev := f s.toDev }

/-- The state after reset with some registers set. -/
def regs (l : List (Nat × Nat)) (s : State) : State :=
  up (fun d => l.foldl (fun d e => d.apply (.reg e.1 e.2)) d) s

/-- Commands in flight. -/
def flight (l : List Cmd) (s : State) : State := up (·.apply (.cmds l)) s

/-- The module after bring-up: partition 0 has every cluster, every channel of stack 0, and region 0, the direct view. -/
def ready : State :=
  regs [(bootOff 0, 28), (partOff 0 0, 1), (partOff 0 8, 2 ^ 32 - 1), (partOff 0 0xC, 2 ^ 32 - 1),
      (partOff 0 0x40, 2 ^ 32 - 1), (rgnOff 0 4, 2 ^ 15 - 1), (rgnOff 0 8, 2 ^ 31 + 32)]
    (up (fun d => { d with board := { d.board with input := true, rails := true } }) State.reset)

/-- Core `k`. -/
def core (k : Nat) (c : Core) (s : State) : State := up (·.apply (.core k c)) s

/-- The next state of an outcome, if it is one. -/
def out (o : Host.Outcome State Fault Refusal) : Option State :=
  match o with
  | .next s => some s
  | _ => none

/-- Core 3 runs one command. -/
def one (l : List Nat) : State := flight [run l] ready
/-- A command of core 3 at a stage of its remote work. -/
def staged (n remote : Nat) (txns : List Nat) (l : List Nat) : State :=
  flight [{ run l with stage := n, remote := remote, txns := txns }] ready

/-- An address of core 3's scratchpad, of memory, of module 9. -/
def spadAt : Nat := 0xFFFE * 2 ^ 48 + 0x40
/-- See `spadAt`. -/
def memAt : Nat := 0xFFFF * 2 ^ 48 + 2 ^ 47 + 0x1040
/-- See `spadAt`. -/
def farAt : Nat := 9 * 2 ^ 48 + 0x2040

/-- The strong code cannot correct this granule. -/
def spoil (k : Nat) (s : State) : State := up (·.apply (.err (k / 64) ((List.range 72).map (BitVec.ofNat 8)))) s

/-- Ring 5 of core 3's queue 1, with 64 entries in memory; its fetch pointer and producer index. -/
def ring0 (target fetch prod : Nat) (head : Option Head) : Ring :=
  { base := 2 ^ 47 + 0x1000, log2 := 6, target := target, core := 3, queue := 1, job := 0, host := 0, fetch := fetch, prod := prod,
    halted := false, head := head, walk := none }

/-- A head that has waited for `waited` ns. -/
def head0 (w : List Nat) (waited : Nat) (unmet : Bool) : Head := ⟨cw w, true, waited, unmet, 0, false, none, none⟩

/-- Host ring 0 is bound with 64 entries, `prod` of which have been written; queue pair 0 is ready and its port up. -/
def hosted (prod : Nat) (wait : List (List Byte)) (s : State) : State :=
  regs [(ethOff 0 0, 1)] <| up (fun d => (d.apply (.hostRing 0 (some ⟨0, 0, 6, false, prod, 0, wait⟩))).apply (.qp 0 { Qp.init with mode := .ready })) s

/-- Ring 5. -/
def ring5 (x : Ring) (s : State) : State := up (·.apply (.ring 5 (some x))) s

/-- Bytes of memory. -/
def bytes (k : Nat) (l : List Byte) (s : State) : State := up (·.apply (.bytes k l)) s

/-- A request in DECODE, with nothing published. -/
def gen0 : Gen :=
  { id := 1, uid := 1, ring := 5, seq := 0, host := 0, discard := false, model := 0, priority := 0, width := 1, noReuse := false,
    prompt := memAt - 64, len := 1, maxTokens := 8, addr := 0x9000, rkey := 1, seed := 0, deadline := 0, temperature := 0,
    topP := 0, topK := 0, stop0 := 2 ^ 32 - 1, stop1 := 2 ^ 32 - 1, accepted := 0, state := .decode, n := 1, tokens := [0],
    pages := [], drafts := [], published := 0, steps := 0, reused := 0, starved := 0, first := none, hungry := none,
    blocked := none, held := none, prod := 0, cons := 0, asked := false, asks := false, lost := false, refused := false, frames := [] }

/-- A control command: op, count, offset, values. -/
def ctlWords (op count off : Nat) (vals : List Nat) : List Nat :=
  [op + count * 2 ^ 8, off, 0x1000, 9] ++ vals

/-- Control ring `n` with this command at its head. -/
def ctlRing (w : List Nat) : Ring := ring0 2 0 1 (some (head0 w 0 false))

/-- A control command of queue pair 0, which has authenticated. -/
def ctl (n : Nat) (w : List Nat) (s : State) : State :=
  regs [(0x400100, 1)] (up (·.apply (.ring n (some (ctlRing w)))) s)

/-- The sifter of stack 0. -/
def kept (u : Upkeep) (s : State) : State := up (·.apply (.upkeep 0 u)) s

/-- A request of module 9, partition 0, aimed at the direct address 0x1000 of stack 0. -/
def req (type : Nat) (payload : List Byte) : Frame :=
  ⟨type, 0, 0, 1, 0, 127, false, 0, 2 ^ 47 + 0x1000, 9, 1, 0, 0, 0, false, 0, payload⟩

/-- Stack port 0 holds this frame. -/
def held (f : Frame) (s : State) : State := up (·.apply (.inbox 0 [f])) s

/-- Its row is being copied. -/
def copying (s : State) : State := kept { Upkeep.init with remaps := [⟨0, keyBank 0x1000, keyRow 0x1000, 0, 0, none⟩] } s

/-! ## WellFormed refuses an ill-formed term for each check -/

/-- A stage of training on which nothing is seen. -/
def o0 : Training := ⟨List.replicate 4 (-10000), 0, 0, 0, true, 0, 0, 0, true, 0, 0⟩
/-- A PTP message of domain 0. -/
def m0 : PtpMessage := ⟨0, 0, 0, List.replicate 10 0, 0, false⟩
/-- Fuses of a module without a defect. -/
def fuses0 : Fuses :=
  ⟨0, List.replicate 20 [], List.replicate 20 [], List.replicate 20 0, List.replicate 32 0, List.replicate 64 0, 0, 0, [], false⟩
/-- A sample of a housekeeping round. -/
def sample0 : Sample := ⟨[], 48000, 0, 0, 0, 0, [], [], [], []⟩
/-- A packet. -/
def packet0 : Packet := ⟨0, 0, .ack, 0, 0, false, true, 0, 0⟩

theorem wf_accepts : (Instr.nop 0).wellFormed = true ∧ (Instr.linkFrameReceipt 0 [[0]] 0 0 true true 0).wellFormed = true ∧
    (Instr.fuseSense fuses0 true true 0).wellFormed = true ∧ (Instr.linkTrainingStage 0 o0 0).wellFormed = true ∧
    (Instr.syncMessage 0 m0 0).wellFormed = true ∧ (Instr.rocePacket 0 packet0 0).wellFormed = true := by decide +kernel

theorem wf_refuses_times :
    let t := 2 ^ 64
    [Instr.rackEntryTaken 0 t .none, .waitConditionPoll 0 (t, .none), .atomic 1 (t, .none), .commandFetch 0 t, .commandIssue 0 t .none,
      .tagArrival 0 t, .commandCompletion 0 t, .waitTimeout 0 t, .cmdOverrun 0 t, .flushWalk 0 t, .memoryModeRefresh 0 0 t,
      .recipeStart 0 0 t, .foldBoundary 0 0 t, .refresh 0 0 t, .recipeCompletion 0 0 t, .bake 0 t, .prepareAck .routes t,
      .bakeInstant t, .bakeAbort t, .sliceEnd 0 t, .jobSwitch 0 t, .sifterVisit 0 0 t none, .channelRetrain 0 0 0 t,
      .linkFrameReceipt 0 [] 0 0 true true t, .channelReducerFinal 0 (0, t), .switchGrant 0 t, .idleFrame 0 t, .replayTimeout 0 t,
      .transactionTimeout 0 t].all (fun i => !i.wellFormed) = true := by decide +kernel

theorem wf_refuses_later_times :
    let t := 2 ^ 64
    [Instr.linkTrainingStage 0 o0 t, .fullTrainingRetry 0 t, .lnkRetrain 0 t, .rocePacket 0 packet0 t, .ackTimeout 0 t,
      .cnpReceived 0 t, .rateRecovery 0 t, .lldpTransmit 0 t, .attest 0 t, .controlCommandCompletion 0 false t,
      .syncMessage 0 m0 t, .ptpHoldover t, .generate 0 t, .streamOpen 0 t, .frame 0 t, .stepBoundary 0 t, .stepCommit 0 t,
      .prefillChunkStart 0 t, .prefillChunkEnd 0 t, .deadlineCheck 0 t, .frameStart 0 t, .frameEncoded 0 t,
      .frameDeadline 0 t, .fuseSense fuses0 true true t, .imageRead [] t, .imageVerify t, .fieldLockBlow true t,
      .serviceCoreLoad true t, .hearthCoreLoad [] t, .missingList 0 [] t, .digestReport 0 (List.replicate 32 0) t, .managementBake t,
      .housekeepingRound sample0 t, .delayRequest t, .delayResponse 0 m0 t, .followUpMessage 0 m0 t].all
        (fun i => !i.wellFormed) = true := by decide +kernel

theorem wf_refuses_granules :
    [Instr.networkAtomicWriteBack 0 (2 ^ 58), .copyEviction 0 none (2 ^ 58) false, .fieldRemap (20 * 2 ^ 36),
      .memoryModeAccess 0 0 (some ⟨20 * 2 ^ 36, false, 0, []⟩) none, .memoryModeAccess 0 0 (some ⟨1, false, 0, []⟩) none,
      .memoryModeAccess 0 0 (some ⟨0, true, 0, [0#8]⟩) none,
      .memoryModeAccess 0 0 (some ⟨0, true, 2 ^ 64, List.replicate 64 0⟩) none,
      .memoryModeAccess 0 0 none (some ⟨0, [1#8]⟩), .memoryModeAccess 0 0 none (some ⟨20 * 2 ^ 36, List.replicate 72 0⟩),
      .sifterVisit 0 0 0 (some ⟨1, List.replicate 72 0⟩)].all (fun i => !i.wellFormed) = true := by decide +kernel

theorem wf_refuses_units :
    [BakeUnit.mode 20 0, .mode 0 32, .budget 20, .cluster 64, .holder 20 0, .holder 0 32, .region 512, .upkeep 512,
      .link 20, .queuePair 256, .setting 2].all (fun u => !(Instr.prepareAck u 0).wellFormed) = true := by decide +kernel

theorem wf_refuses_frames :
    [Instr.linkFrameReceipt 0 (List.replicate 9 []) 0 0 true true 0, .linkFrameReceipt 0 [List.replicate 65 0] 0 0 true true 0,
      .linkFrameReceipt 0 [] (2 ^ 32) 0 true true 0, .linkFrameReceipt 0 [] 0 (2 ^ 32) true true 0].all
        (fun i => !i.wellFormed) = true := by decide +kernel

theorem wf_refuses_link_and_port_operands :
    [Instr.linkTrainingStage 0 { o0 with laser := [] } 0, .linkTrainingStage 0 { o0 with beacon := 2 ^ 16 } 0,
      .linkTrainingStage 0 { o0 with inward := 2 ^ 10 } 0, .linkTrainingStage 0 { o0 with outward := 2 ^ 10 } 0,
      .linkTrainingStage 0 { o0 with conforms := false, aligned := true, credits := 2049 } 0, .linkTrainingStage 0 { o0 with peer := 2 ^ 16 } 0,
      .linkTrainingStage 0 { o0 with peerLink := 20 } 0,
      .hostRdmaWrite 0 (2 ^ 32) 0 [], .hostRdmaWrite 0 0 (2 ^ 64) [],
      .hostRdmaRead 0 (2 ^ 32) 0 0, .hostRdmaRead 0 0 (2 ^ 64) 0, .hostRdmaRead 0 0 0 (2 ^ 32),
      .rocePacket 0 { packet0 with qpn := 2 ^ 24 } 0, .rocePacket 0 { packet0 with psn := 2 ^ 24 } 0,
      .rocePacket 0 { packet0 with priority := 8 } 0, .rocePacket 0 { packet0 with corrected := 2 ^ 32 } 0,
      .rocePacket 0 { packet0 with uncorrectable := 2 ^ 32 } 0, .pfcFrame 0 256 0, .pfcFrame 0 0 256, .arpReply 0 (2 ^ 32) 0,
      .arpReply 0 0 (2 ^ 32), .neighbourAdvertisement 0 (2 ^ 128) 0, .neighbourAdvertisement 0 0 (2 ^ 128),
      .syncMessage 0 { m0 with domain := 256 } 0, .syncMessage 0 { m0 with transport := 4 } 0,
      .syncMessage 0 { m0 with seq := 2 ^ 16 } 0, .syncMessage 0 { m0 with master := [] } 0, .auth 0 [0#8],
      .announceMessage 0 [] 256 0 0, .announceMessage 0 [] 0 4 0, .consumerIndexRead 0 0 (2 ^ 32)].all
        (fun i => !i.wellFormed) = true := by decide +kernel

theorem wf_refuses_boot_operands :
    [{ fuses0 with coreMap := 2 ^ 2176 }, { fuses0 with rows := [] }, { fuses0 with lanes := [] },
      { fuses0 with rows := List.replicate 20 [(32, 0, 0)] }, { fuses0 with rows := List.replicate 20 [(0, 32, 0)] },
      { fuses0 with rows := List.replicate 20 [(0, 0, 32768)] }, { fuses0 with lanes := List.replicate 20 [(32, 0, 0)] },
      { fuses0 with lanes := List.replicate 20 [(0, 64, 0)] }, { fuses0 with lanes := List.replicate 20 [(0, 0, 4)] },
      { fuses0 with rows := List.replicate 20 (List.replicate 4097 (0, 0, 0)) },
      { fuses0 with lanes := List.replicate 20 (List.replicate 129 (0, 0, 0)) }, { fuses0 with optics := [] },
      { fuses0 with seed := [] }, { fuses0 with cert := [] }, { fuses0 with serial := 2 ^ 64 },
      { fuses0 with idcode := 2 ^ 32 }].all (fun f => !(Instr.fuseSense f true true 0).wellFormed) = true ∧
    [Instr.flashDiscovery true 0 0 [] (List.replicate 32 0) 0, .flashDiscovery true 0 0 (List.replicate 32 0) [] 0,
      .missingList 2176 [] 0, .missingList 0 [(0, List.replicate 4113 0)] 0, .hearthCoreLoad [(0, 0, List.replicate 4113 0)] 0,
      .digestReport 2176 (List.replicate 32 0) 0, .digestReport 0 [] 0, .stackTraining [] 0,
      .stackTraining (List.replicate 20 (some (List.replicate 33 0))) 0,
      .stackTraining (List.replicate 20 (some [2 ^ 68])) 0, .setdasa 128 0, .setdasa 0 128, .entdaa 128].all
        (fun i => !i.wellFormed) = true := by decide +kernel

/-! ## Witnesses: commands that complete, atomics, releases -/

theorem witness_StepTakesFront : State.reset.pending = [] := by decide +kernel

theorem test_step_takes_front : step { ready with pending := [.idcode, .powerOn] } = exec .idcode { ready with pending := [.powerOn] } := by
  rfl

theorem witness_PlainCommandsComplete :
    InFlight (one [opNop]).toDev 7 opNop (run [opNop]) ∧ InFlight (one [opWait]).toDev 7 opWait (run [opWait]) ∧
    InFlight (one [opSignal]).toDev 7 opSignal (run [opSignal]) ∧
    InFlight (one [opFence]).toDev 7 opFence (run [opFence]) := by unfold InFlight; decide +kernel

theorem witness_CounterCommandsComplete :
    let c := fun (op : Nat) => run [opCount, 0, op + 15 * 8 + 3 * 128, 2 ^ 32 - 1]
    ∀ op ∈ [0, 1, 4, 5], InFlight (flight [c op] ready).toDev 7 opCount (c op) ∧ bits (wd (c op).words 2) 2 0 = op := by
  unfold InFlight; decide +kernel

theorem test_places : placeOf ready.toDev spadAt = .spad 0x40 ∧ placeOf ready.toDev memAt = .mem true 0x1040 ∧
    placeOf ready.toDev farAt = .remote 9 0x2040 := by decide +kernel

theorem witness_CounterLoads :
    let c := fun (a stage remote : Nat) => { run [opCount, 0, 2, a] with stage := stage, remote := remote }
    let s := fun (a stage remote : Nat) => flight [c a stage remote] (regs [(routeOff 9, 1)] ready)
    (∀ a ∈ [spadAt, memAt, farAt], InFlight (s a 0 0).toDev 7 opCount (c a 0 0) ∧ bits (wd (c a 0 0).words 2) 2 0 = 2) ∧
    (readAll 3 atHome .none [spadAt] ready.toDev.start).1.fault = none ∧
    (stackShut ready.toDev 0 [memAt] || addrHeld ready.toDev memAt) = false ∧ addrHeld (copying ready).toDev memAt = true ∧
    (readMem 3 ⟨true, true⟩ 0x1040 ready.toDev.start).1 ≠ none ∧
    (readMem 3 ⟨true, true⟩ 0x1040 (spoil 0x1040 ready).toDev.start).1 = none ∧
    routeOf (s farAt 0 0).toDev 9 ≠ 0 ∧ routeOf ready.toDev 9 = 0 ∧
    (∀ r ∈ [0, stLinkDown], InFlight (s farAt 1 r).toDev 7 opCount (c farAt 1 r)) := by
  unfold InFlight; decide +kernel

theorem witness_CounterStores :
    let c := fun (a stage remote : Nat) => { run [opCount, 0, 3, a] with stage := stage, remote := remote }
    let s := fun (a stage remote : Nat) => flight [c a stage remote] (regs [(routeOff 9, 1)] ready)
    (∀ a ∈ [spadAt, memAt, farAt], InFlight (s a 0 0).toDev 7 opCount (c a 0 0) ∧ bits (wd (c a 0 0).words 2) 2 0 = 3 ∧
      (stackShut (s a 0 0).toDev 0 [a] || addrHeld (s a 0 0).toDev a) = false) ∧
    InFlight (s memAt 5 0).toDev 7 opCount (c memAt 5 0) ∧ addrHeld (copying (s memAt 0 0)).toDev memAt = true ∧
    (∀ r ∈ [0, stLinkDown], InFlight (s farAt 1 r).toDev 7 opCount (c farAt 1 r)) := by
  unfold InFlight; decide +kernel

/-- Network-attached unit 2 holds a copy of granule 65. -/
def unitCopy (s : State) : State :=
  up (·.apply (.cluster 2 { Cluster.init with atomic := [(65, List.replicate 64 1#8)] })) s

theorem witness_ReleaseCompletes :
    let c := fun (sc : Nat) => run [opRelease + 256 * sc]
    let s := fun (sc : Nat) => flight [c sc] ready
    let posted := up (fun d => { d with fabric := { d.fabric with sent := [(9, 1)] } }) (s 3)
    (∀ sc ∈ [0, 1, 2, 3], InFlight (s sc).toDev 7 opRelease (c sc) ∧ fScope (c sc).words = sc ∧
      releaseHeld (s sc).toDev (c sc) 0 0 = false) ∧
    releaseHeld (copying (unitCopy (s 2))).toDev (c 2) 0 0 = true ∧
    (sendSyncs (c 3) (releaseCopies (c 3) 0 0 (s 3).toDev.start)).1.txns = [] ∧
    (sendSyncs (c 3) (releaseCopies (c 3) 0 0 (s 3).toDev.start)).1.remote = 0 ∧
    (sendSyncs (c 3) (releaseCopies (c 3) 0 0 posted.toDev.start)).1.remote ≠ 0 ∧
    (∀ r ∈ [0, stLinkDown], InFlight (staged 1 r [] [opRelease + 0x300]).toDev 7 opRelease
      { run [opRelease + 0x300] with stage := 1, remote := r, txns := [] }) := by
  unfold InFlight; decide +kernel

theorem witness_ReleaseWritesCopiesHome :
    let d := (flight [run [opRelease + 0x200, 0, memAt - 64, 64]] ready).toDev
    InFlight d 7 opRelease (run [opRelease + 0x200, 0, memAt - 64, 64]) ∧
    releaseHeld d (run [opRelease + 0x200, 0, memAt - 64, 64]) (memAt - 64) 64 = false ∧
    rangeCovers d (memAt - 64) 64 0x1000 = true ∧ rangeCovers d (memAt - 64) 64 0x1040 = false ∧
    (mget [] (clusterOf (unitCopy ready).toDev 2).atomic 65).length = 64 ∧
    (∀ p, p ≠ 2 → mget [] (clusterOf (unitCopy ready).toDev p).atomic 65 = []) := by
  refine ⟨by unfold InFlight; decide +kernel, by decide +kernel, by decide +kernel, by decide +kernel, by decide +kernel, ?_⟩
  intro p hp
  have h : clusterOf (unitCopy ready).toDev p = Cluster.init := by
    show mget Cluster.init [(2, _)] p = _
    simp [mget, Ne.symm hp]
  rw [h]; rfl

theorem witness_AcquireDropsCopies : InFlight (one [opAcquire]).toDev 7 opAcquire (run [opAcquire]) := by
  unfold InFlight; decide +kernel

theorem witness_AtomicPerforms :
    let c := fun (a sc : Nat) => run [opAtomic + 256 * sc, 0, a, 5, 0, 0, 0]
    let s := fun (a sc : Nat) => flight [c a sc] (regs [(routeOff 9, 1)] ready)
    (∀ a ∈ [spadAt, memAt, farAt], ∀ sc ∈ [0, 2], InFlight (s a sc).toDev 7 opAtomic (c a sc) ∧
      aopRel (wd (c a sc).words 5) = false ∧ (c a sc).stage = 0 ∧ addrHeld (s a sc).toDev (wd (c a sc).words 6) = false) ∧
    homeHeld (reach 9 (s memAt 2).toDev.start).dev 0x1040 = false ∧ stackShut (s memAt 2).toDev 0 [memAt] = false ∧
    atomicShut (s memAt 2).toDev 0 (keyStack 0x1040) = false ∧ routeOf (s farAt 2).toDev 9 ≠ 0 ∧
    routeOf ready.toDev 9 = 0 ∧ InFlight (flight [c farAt 2] ready).toDev 7 opAtomic (c farAt 2) := by
  unfold InFlight; decide +kernel

theorem witness_AtomicBegins :
    let s := one [opAtomic, 0, memAt, 5]
    AtomicBegins (run [opAtomic, 0, memAt, 5]) (reach 9 s.toDev.start) (reach 9 s.toDev.start) := by
  exact .inl ⟨rfl, by decide +kernel, rfl⟩

theorem witness_AtomicWaitsAndEnds :
    let l := [opAtomic + 0x300, 0, memAt, 5, 0, 0x20, 0]
    let s := up (fun d => { d with fabric := { d.fabric with sent := [(9, 1)] } }) (flight [run l] ready)
    InFlight s.toDev 7 opAtomic (run l) ∧ aopRel (wd (run l).words 5) = true ∧ fScope (run l).words = 3 ∧
    addrHeld s.toDev (wd (run l).words 6) = false ∧
    atomicUnrouted s.toDev (run l) = false ∧ releaseHeld (reach 9 s.toDev.start).dev (run l) 0 0 = false ∧
    releaseHeld (reach 9 (copying (unitCopy s)).toDev.start).dev (run l) 0 0 = true ∧
    InFlight (copying (unitCopy s)).toDev 7 opAtomic (run l) ∧
    InFlight (staged 5 0 [] l).toDev 7 opAtomic { run l with stage := 5, remote := 0, txns := [] } ∧
    (sendSyncs (run l) (releaseCopies (run l) 0 0 (reach 9 s.toDev.start))).1.remote ≠ 0 ∧
    (∀ r ∈ [0, stLinkDown], InFlight (staged 2 r [] [opAtomic, 0, farAt]).toDev 7 opAtomic
      { run [opAtomic, 0, farAt] with stage := 2, remote := r, txns := [] }) := by
  unfold InFlight; decide +kernel

theorem witness_AtomicValues : (4 = 4 ∨ 4 = 8) ∧ 2 ^ 32 - 1 < 2 ^ (8 * 4) := by decide

theorem witness_AtomicFloats :
    let x := val32
    vIsNan (x 0x7F800001) = true ∧ (vadd (x 0x7F800000) (x 0xFF800000)).2 = true ∧
    (vIsZero (x 0) = true ∧ vIsZero (x 0x80000000) = true) ∧
    (∀ z ∈ [0x3F800000, 0xBF800000, 0x40000000], vIsNan (x z) = false ∧ vIsInf (x z) = false) ∧
    veq (x 0x40000000) (vadd (x 0x3F800000) (x 0x3F800000)).1 = true ∧ vIsZero (x 0x40000000) = false ∧
    veq (x 0) (vadd (x 0x3F800000) (x 0xBF800000)).1 = true := by decide +kernel

theorem test_atomic_add_wraps : atomicValue 0 4 (2 ^ 32 - 1) 2 0 = 1 ∧ atomicValue 2 4 (2 ^ 32 - 1) 1 0 = 2 ^ 32 - 1 ∧
    atomicValue 3 4 (2 ^ 32 - 1) 1 0 = 1 := by decide +kernel

/-! ## Witnesses: engines and the rack -/

/-- A dense descriptor of FP32 elements (format 0) named by a command word. -/
def td (word base : Nat) (sizes : List Nat) : Desc :=
  { word := word, base := base, scale := 0, fmt := 0, kind := 0, rank := sizes.length,
    sizes := sizes ++ List.replicate (6 - sizes.length) 0, shards := List.replicate 6 0, strides := List.replicate 6 0,
    clean := true }

/-- A command with descriptors. -/
def runD (l : List Nat) (ds : List Desc) : Cmd := { run l with descs := ds }

/-- A MATMUL of one row and one column in module memory. -/
def matmul1 : Cmd := runD [opMatmul, 0, memAt, memAt] [td 2 memAt [1, 1], td 3 memAt [1, 1]]

/-- The granule in which the reads of `matmul1` fail. -/
def matmulFault (s : State) : Option Nat :=
  (readAll 3 atHome .none (runAddrs ((td 2 memAt [1, 1]).runs 0 ++ (td 3 memAt [1, 1]).runs 0)) s.toDev.start).1.fault

theorem witness_MatmulHoldsTile :
    (∀ s ∈ [flight [matmul1] ready, spoil 0x1040 (flight [matmul1] ready)],
      runningCmd s.toDev 7 opMatmul = some matmul1 ∧ (coreOf s.toDev 3).hold = none ∧ stkBlocked s.toDev matmul1 = false) ∧
    descOf matmul1.descs 2 = some (td 2 memAt [1, 1]) ∧ descOf matmul1.descs 3 = some (td 3 memAt [1, 1]) ∧
    matmulFault (flight [matmul1] ready) = none ∧ (matmulFault (spoil 0x1040 (flight [matmul1] ready))).isSome = true := by
  decide +kernel

/-- Core 3 with a finished tile and a rack of `n` void entries. -/
def racked (n : Nat) (hold : Option RackEntry) (s : State) : State :=
  core 3 { Core.init with rack := List.replicate n .void, hold := hold, tags := [(9, 2)] } s

theorem witness_EntriesEnterRack :
    let c := run [opMatmul]
    let v := { run [opMatmul] with skipped := true }
    let tile := RackEntry.tile []
    runningOn (racked 7 (some tile) (flight [c] ready)).toDev 3 1 = some c ∧
    (coreOf (racked 7 (some tile) ready).toDev 3).hold = some tile ∧ (coreOf (racked 7 none ready).toDev 3).rack.length < 8 ∧
    runningOn (racked 7 none (flight [v] ready)).toDev 3 1 = some v ∧
    runningOn (racked 8 none (flight [v] ready)).toDev 3 1 = some v ∧
    8 ≤ (coreOf (racked 8 none ready).toDev 3).rack.length := by decide +kernel

theorem witness_RackEntriesTaken :
    let c := fun (op : Nat) (skip : Bool) => { run [opVecop + 9 * 2 ^ 28, 0, 0, 0, 0, op] with skipped := skip }
    ∀ p ∈ [(RackEntry.tile [], 0x00, false), (.tile [], 0x30, false), (.void, 0x00, false), (.tile [], 0x00, true)],
      let s := core 3 { Core.init with rack := [p.1], tags := [(9, 1)] } (flight [c p.2.1 p.2.2] ready)
      runningOn s.toDev 3 2 = some (c p.2.1 p.2.2) ∧ (coreOf s.toDev 3).rack.head? = some p.1 ∧
      readsRack (c p.2.1 p.2.2).words = true ∧ (c p.2.1 p.2.2).taken = none ∧
      tagCount (coreOf s.toDev 3) (fWaitA (c p.2.1 p.2.2).words) ≠ 0 ∧ vop (c p.2.1 p.2.2).words = p.2.1 := by decide +kernel

theorem test_rack_waits_for_arrival :
    let c := run [opVecop + 9 * 2 ^ 28]
    let s := core 3 { Core.init with rack := [.void] } (flight [c] ready)
    out (exec (.rackEntryTaken 3 5 .none) s) = some (up (·.apply (.tick 5)) s) := by decide +kernel

theorem witness_IterationsEnd :
    let c := run [opVecop, 1]
    let last := run [opVecop, 0]
    let o : IterOut := { writes := [], unit := false, flags := noFlags, fault := none, range := none }
    (writeIter c.core o.writes .none ready.toDev.start).1.1 = none ∧ c.iter + 1 < iterations c.words ∧
    iterations last.words ≤ last.iter + 1 ∧ last.skipped = false ∧ { o with fault := some 64 }.fault = some 64 ∧
    { o with range := some (0, 1) }.range = some (0, 1) ∧
    (writeIter 3 (putBytes [] memAt [1#8]) .none (spoil 0x1040 ready).toDev.start).1.1 ≠ none := by decide +kernel

theorem witness_EnginesRunIterations :
    let c := fun (op : Nat) => runD [op, 0, memAt, 0, memAt] [td 2 memAt [1], td 4 memAt [1]]
    ∀ op ∈ [opVecop, opReduce, opGather, opScatter, opCopy],
      runningCmd (flight [c op] ready).toDev 7 op = some (c op) ∧ stkBlocked (flight [c op] ready).toDev (c op) = false ∧
      readsRack (c op).words = false ∧ (c op).stage ≠ 1 := by decide +kernel

theorem witness_EnginesRunIterations_taken :
    let c := { runD [opVecop, 0, 0, 0, memAt, 0x08] [td 4 memAt [1]] with taken := some (.tile []) }
    readsRack c.words = true ∧ c.taken ≠ none ∧
    (∀ st ∈ [0, 1], runningCmd (flight [{ c with stage := st }] ready).toDev 7 opVecop = some { c with stage := st }) := by
  decide +kernel

theorem witness_ElementsPicked : (∃ u ∈ [0x7F800001, 0], vIsNan (val32 u) = true) ∧ [0, 1] ≠ ([] : List Nat) ∧
    (∀ u ∈ [0x3F800000, 0], vIsNan (val32 u) = false) := by decide +kernel

theorem witness_IndexPositions :
    (7 < 8 ∧ 7 < 2 ^ 31 ∧ 7 % 2 ^ 32 = 7) ∧ (0 < 8 ∧ 1 ≤ 8 - 0 ∧ 8 - 0 ≤ 2 ^ 31 ∧ (2 ^ 32 - 8) % 2 ^ 32 = 2 ^ 32 - (8 - 0)) ∧
    (8 ≤ 8 % 2 ^ 32 ∧ 8 % 2 ^ 32 < 2 ^ 31) ∧ (2 ^ 31 ≤ (2 ^ 32 - 9) % 2 ^ 32 ∧ 8 < 2 ^ 32 - (2 ^ 32 - 9) % 2 ^ 32) := by decide

theorem test_index_edges : indexPos true 8 (2 ^ 32 - 8) = some 0 ∧ indexPos true 8 (2 ^ 32 - 9) = none ∧
    indexPos false 8 8 = none ∧ indexPos false 8 7 = some 7 := by decide +kernel

theorem witness_CopyMovesEveryGroup :
    let a := td 2 memAt [3, 2]
    a.rank = (td 4 memAt [3, 2]).rank ∧ 1 ≤ a.rank ∧ a.rank ≤ 6 ∧ a.dims = (td 4 memAt [3, 2]).dims ∧ a.sizes.length = 6 ∧
    (∀ i ∈ List.range 2, 0 < a.size i) ∧ [1] ∈ a.rows ∧ 2 * (fmtGroup a.fmt).2 < a.size 0 := by decide +kernel

theorem witness_DmaStages :
    let near := runD [opDma, 0, memAt, 0, memAt] [td 2 spadAt [1], td 4 memAt [1]]
    let far := runD [opDma, 0, farAt, 0, memAt] [td 2 farAt [1], td 4 memAt [1]]
    baseToBase ready.toDev (td 2 spadAt [1]) (td 4 memAt [1]) = false ∧
    (∀ c ∈ [near, far], ∀ stage ∈ [0, 1, 2, 3, 4], ∀ remote ∈ [0, stLinkDown],
      let c := { c with stage := stage, remote := remote }
      let s := flight [c] ready
      InFlight s.toDev 7 opDma c ∧ c.txns = [] ∧ (descOf c.descs 2).isSome = true ∧ descOf c.descs 4 = some (td 4 memAt [1]) ∧
      dmaReady s.toDev c = true ∧ dmasReady s.toDev c.core c.uid = []) ∧
    routeMissing ready.toDev 1 (td 2 farAt [1]) = some farAt ∧
    (remoteOf ready.toDev farAt).isSome = true ∧ (remoteOf ready.toDev spadAt).isSome = false := by
  unfold InFlight; decide +kernel

/-! ## Witnesses: rings, heads and completions -/

theorem witness_CommandFetched :
    let s := fun (t : Nat) => ring5 (ring0 t 0 1 none) (hosted 0 [] ready)
    let reads := fun (s : State) => (readHome 0x1000 (reach 1 s.toDev.start)).1
    (∀ t ∈ [0, 2], ringOf (s t).toDev 5 = some (ring0 t 0 1 none) ∧
      fetchable (reach 1 (s t).toDev.start).dev 5 (ring0 t 0 1 none) = true ∧
      placeOf (reach 1 (s t).toDev.start).dev (entryAddr (ring0 t 0 1 none) 0) = .mem true 0x1000) ∧
    (reads (spoil 0x1000 (s 0))).isNone = true ∧
    (reads (s 0)).elim false (fun b => wordsOk (toWords b)) = true ∧
    (reads (bytes 0x1000 [0x7F#8] (s 0))).elim false (fun b => !wordsOk (toWords b)) = true ∧
    (reads (bytes 0x1000 [1#8] (s 2))).elim false (fun b => decide (cOp (toWords b) ∈ ctrlOps)) = true ∧
    (reads (s 2)).elim false (fun b => decide (cOp (toWords b) ∉ ctrlOps)) = true ∧
    (reads (spoil 0x1000 (s 2))).isNone = true := by
  decide +kernel

theorem witness_CommandFetched_serving :
    let x := ring0 1 0 1 none
    let s := bytes 0x1000 [7#8] (ring5 x (hosted 0 [] ready))
    fetchable (reach 1 s.toDev.start).dev 5 x = true ∧
    (readHome 0x1000 (reach 1 s.toDev.start)).1.elim false (fun b => decide (fOpcode (toWords b) = 7)) = true ∧
    (readHome 0x1000 (reach 1 (ring5 x (hosted 0 [] ready)).toDev.start)).1.elim false
      (fun b => decide (fOpcode (toWords b) = 0)) = true ∧
    (readHome 0x1000 (reach 1 (spoil 0x1000 s).toDev.start)).1.isNone = true := by
  decide +kernel

theorem witness_CommandIssues :
    let at_ := fun (h : Head) => ring5 (ring0 0 0 1 (some h)) (hosted 0 [] ready)
    let ok := fun (h : Head) => issuable (reach 1 (at_ h).toDev.start).dev 5 (ring0 0 0 1 (some h)) h
    let pred := opNop + 2 ^ 11
    ok (head0 [opNop] 0 false) = true ∧ fPred (cw [opNop]) = false ∧
    ok (head0 [pred] 0 false) = true ∧ predicate (coreOf ready.toDev 3) (cw [pred]) = true ∧
    ok (head0 [opMatmul + 2 ^ 11 + 2 ^ 16] 0 false) = true ∧
    ok { head0 [opWait, 0, farAt] 0 false with cond := true, fail := some (stLinkDown, farAt) } = true := by decide +kernel

theorem witness_CommandIssues_skipped :
    let k := { Core.init with refs := [(1, 5#32)] }
    let h := head0 [opNop + 2 ^ 11 + 2 ^ 16] 0 false
    let m := head0 [opMatmul + 2 ^ 11 + 2 ^ 16] 0 false
    (∀ y ∈ [h, m], issuable (reach 1 (core 3 k (ring5 (ring0 0 0 1 (some y)) (hosted 0 [] ready))).toDev.start).dev 5
      (ring0 0 0 1 (some y)) y = true ∧ predicate k y.words = false) ∧
    fOpcode h.words ≠ opMatmul ∧ readsRack h.words = false ∧ fOpcode m.words = opMatmul := by decide +kernel

/-- What the reads of a head's descriptors give. -/
def headReads (s : State) (w : List Dword) : Option Nat := (readDescs 3 0 .none (operandsOf w) s.toDev.start).1.fault

theorem witness_HeadChecked :
    let w := cw [opVecop, 0, memAt - 64, 0, memAt - 64, 0x08]
    fOpcode w ≠ opRecipe ∧ (∀ o ∈ operandsOf w, o.addr % 64 = 0) ∧ (operandsOf w).isEmpty = false ∧
    headReads ready w = none ∧ (headReads (spoil 0x1000 ready) w).isSome = true ∧
    (operandsOf (cw [opWait, 0, memAt + 1])).isEmpty = true ∧
    (plainChecks ready.toDev 0 (cw [opWait, 0, memAt + 1])).isSome = true ∧
    (plainChecks ready.toDev 0 (cw [opNop])).isNone = true ∧
    (ownUpset ((operandsOf w).map (·.addr)) .none ready.toDev.start).1 = false ∧
    (∀ o ∈ operandsOf w, placeOf ready.toDev o.addr = .mem true 0x1000) ∧
    (ownUpset ((operandsOf w).map (·.addr)) .uncorrectable ready.toDev.start).1 = true ∧
    fOpcode (cw [opRecipe]) = opRecipe ∧ (ownUpset (issueAddrs (cw [opRecipe])) .uncorrectable ready.toDev.start).1 = true := by
  decide +kernel

theorem witness_ArrivalsCounted :
    (up (·.apply (.arrivals [⟨3, 9⟩])) ready).toDev.hearth.arrivals[0]? = some ⟨3, 9⟩ ∧
    ready.toDev.hearth.arrivals[0]? = none := by decide +kernel

theorem test_tag_saturates :
    let c := { Core.init with tags := [(9, 65534)] }
    tagCount (countTag 9 c) 9 = 65535 ∧ tagCount (countTag 9 (countTag 9 c)) 9 = 65535 := by decide +kernel

theorem witness_EndedWorkCompletes :
    let c := { run [opNop] with phase := .done (plain stOk) }
    cmdOf (flight [c] ready).toDev 7 = some c ∧ c.phase = .done (plain stOk) := by decide +kernel

theorem witness_WaitingEntryWritten :
    let h := fun (prod : Nat) (wait : List (List Byte)) => HostRing.mk 0 0 6 false prod 0 wait
    hostRingOf (hosted 63 [[1#8]] ready).toDev 0 = some (h 63 [[1#8]]) ∧ hostRoom (h 63 [[1#8]]) = true ∧
    (qpOf (hosted 63 [[1#8]] ready).toDev 0).mode = .ready ∧ hostRoom (h 64 [[1#8]]) = false ∧
    hostRingOf (hosted 64 [[1#8]] ready).toDev 0 = some (h 64 [[1#8]]) ∧
    hostRingOf (hosted 0 [] ready).toDev 0 = some (h 0 []) := by decide +kernel

theorem witness_WaitsTimeOut :
    let h := head0 [opNop + 9 * 2 ^ 28, 2 ^ 32] 0 true
    let x := ring0 0 0 1 (some h)
    let d := fun (now : Nat) => (reach now (ring5 x ready).toDev.start).dev
    ringOf (ring5 x ready).toDev 5 = some x ∧ headUnmet (d (2 ^ 40)) x h = true ∧
    fTimeout h.words ≤ headWaited (d (2 ^ 40)) h ∧ headWaited (d 1) h < fTimeout h.words ∧
    let v := { run [opVecop + 9 * 2 ^ 28, 2 ^ 32, 0, 0, 0, 0] with since := some 0 }
    rackExpired (reach (2 ^ 40) (flight [v] (ring5 (ring0 0 0 1 none) ready)).toDev.start).dev 5 = some v := by decide +kernel

theorem witness_CommandsOverrun :
    let s := flight [run [opFence]] ready
    cmdOf s.toDev 7 = some (run [opFence]) ∧ (run [opFence]).runs = true ∧
    0 + cmdLimit s.toDev 0 ≤ (reach (cmdLimit s.toDev 0) s.toDev.start).dev.time ∧
    ¬ (0 + cmdLimit s.toDev 0 ≤ (reach (cmdLimit s.toDev 0 - 1) s.toDev.start).dev.time) := by decide +kernel

theorem witness_WalkCompletesCommands :
    let x := fun (fetch : Nat) (unbind : Bool) =>
      { ring0 0 fetch 2 none with halted := true, walk := some ⟨2, unbind, false⟩ }
    ∀ u ∈ [false, true], ∀ f ∈ [0, 1, 2],
      let s := ring5 (x f u) (hosted 0 [] ready)
      ringOf s.toDev 5 = some (x f u) ∧ ctrlBusy (reach 1 s.toDev.start).dev 5 = false ∧
      (∀ c ∈ s.toDev.hearth.cmds, c.ring ≠ 5) ∧ hostOpen (reach 1 s.toDev.start).dev 0 = true ∧
      doorAddr (reach 1 s.toDev.start).dev (entryAddr (x f u) f) = false ∧
      stackShut (reach 1 s.toDev.start).dev (entryPart (reach 1 s.toDev.start).dev 5 (x f u)) [entryAddr (x f u) f] = false ∧
      addrHeld (reach 1 s.toDev.start).dev (entryAddr (x f u) f) = false := by decide +kernel

theorem witness_ConditionPolled :
    ∀ a ∈ [spadAt, memAt, farAt],
      let h := head0 [opWait, 0, a, 1] 0 true
      let x := ring0 0 0 1 (some h)
      let r := reach 1 (ring5 x (regs [(routeOff 9, 1)] ready)).toDev.start
      ringOf (ring5 x ready).toDev 5 = some x ∧ h.good = true ∧ h.fail = none ∧ h.poll = none ∧
      addrFault r.dev ((clusterPart r.dev 0).getD 0) 2 a 4 = none ∧
      heldAtDoor r.dev ((clusterPart r.dev 0).getD 0) 3 h.words = false ∧ addrHeld r.dev a = false ∧
      tagsCover (coreOf r.dev x.core) h.words = true ∧ stackShut r.dev ((clusterPart r.dev 0).getD 0) [a] = false ∧
      routeOf r.dev 9 ≠ 0 ∧ routeOf ready.toDev 9 = 0 := by decide +kernel

/-- The relations at their edges, worked by hand: −1 is below 0 as a signed number and above it as an unsigned one. -/
theorem test_condition_relations :
    let at_ := fun (rel v : Nat) =>
      let x := ring0 0 0 1 (some (head0 [opWait, 0, memAt, 0, rel] 0 true))
      (ringOf (setCond 5 (some v) 0 0 (ring5 x ready).toDev.start).dev 5).elim false fun y => y.head.elim false (·.cond)
    (at_ 2 (2 ^ 32 - 1) = true ∧ at_ 4 (2 ^ 32 - 1) = false) ∧ (at_ 3 0 = true ∧ at_ 5 0 = true) ∧
    (at_ 0 0 = true ∧ at_ 1 0 = false) := by decide +kernel

/-! ## Witnesses: copies, memory-mode channels, granules -/

theorem witness_CopyWrittenBack :
    let s := up (·.apply (.cluster 2 { Cluster.init with atomic := [(65, List.replicate 64 1#8)] })) ready
    (mget [] (clusterOf s.toDev 2).atomic 65).length = 64 ∧ homeHeld s.toDev (65 * 64) = false ∧
    homeHeld (copying s).toDev (65 * 64) = true := by decide +kernel

theorem test_copy_written_back :
    let s := up (·.apply (.cluster 2 { Cluster.init with atomic := [(65, List.replicate 64 1#8)] })) ready
    (out (exec (.networkAtomicWriteBack 2 65) s)).elim false (fun t =>
      peek t.toDev memAt 2 == [1#8, 1#8] && (clusterOf t.toDev 2).atomic == []) = true := by decide +kernel

theorem witness_MemoryModeServed :
    let q := fun (w : Bool) => Request.mk 0x1040 w (2 ^ 64 - 1) (List.replicate 64 1)
    (ready.toDev.board.rails = true ∧ State.reset.toDev.board.rails = false) ∧
    chanMode ready.toDev 0 0 = 0 ∧ (chanOf ready.toDev 0 0).retrain = false ∧ (chanOf ready.toDev 0 0).inbound = [] ∧
    (∀ w ∈ [true, false], keyStack (q w).granule = 0 ∧ keyChan (q w).granule = 0 ∧ rowHeld ready.toDev (q w).granule = false) ∧
    (let s := up (·.apply (.upkeep 0 { Upkeep.init with remaps := [⟨0, 0, 2, 0, 0, none⟩] })) ready
     rowHeld s.toDev (q true).granule = true) := by decide +kernel

theorem witness_MemoryModeRefreshed :
    chanMode ready.toDev 0 0 = 0 ∧ chanMode (regs [(stkOff 0 8, 1)] ready).toDev 0 0 ≠ 0 := by decide +kernel

theorem witness_AddressViews : (8 * 160 * 2 ^ 30 - 1 < 8 * 160 * 2 ^ 30) ∧ (20 * 2 ^ 36 - 1 < 20 * 2 ^ 36) ∧
    (8 * 160 * 2 ^ 30 ≤ 8 * 160 * 2 ^ 30 ∧ 8 * 160 * 2 ^ 30 < 2 ^ 47) ∧ (20 * 2 ^ 36 ≤ 2 ^ 47 - 1) := by decide

/-- R63, worked by hand: block 80 of group 0 has q = 1, r = 0 and lies on stack 1; the last byte of the view. -/
theorem test_interleaved_blocks : interKey 0 = 0 ∧ interKey (80 * 4096) = 2 ^ 36 + 4096 ∧
    interKey 4096 = 2 ^ 36 ∧ interAddr (interKey (8 * 160 * 2 ^ 30 - 1)) = 8 * 160 * 2 ^ 30 - 1 ∧
    moduleKey (8 * 160 * 2 ^ 30) = none ∧ moduleKey (2 ^ 47 + 20 * 2 ^ 36) = none := by decide +kernel

theorem witness_GranulesWrittenAndRead :
    let s := regs [(eccOff 0x100, 2 ^ 31)] ready
    (List.replicate 64 1#8).length = 64 ∧ flipHits ready.toDev (keyGranule 0x1040) = false ∧ flipHits s.toDev (keyGranule 0x1040) = true ∧
    1 < fullMask ∧ (∀ e ∈ ready.toDev.hearth.clusters, mget [] e.2.atomic 65 = []) ∧ (readHome 0x1040 ready.toDev.start).1 = some (List.replicate 64 0) ∧
    (readHome 0x1040 (spoil 0x1040 ready).toDev.start).1 = none := by decide +kernel

theorem witness_LightCodeCorrects : (71 < 72) ∧ (0 < 71 ∧ 71 < 72) := by decide

theorem witness_StrongCodeDecodes :
    let e := fun (l : List Nat) => (List.range 72).map fun i => if i ∈ l then 1#8 else 0#8
    (e []).length = 72 ∧ rsSyndromes (e []) = List.replicate 8 0 ∧ (decodeStrong (e [0, 9, 63, 71])).corrected = true ∧
    (decodeStrong (e [0, 9, 63, 70, 71])).uncorrectable = true ∧
    ((e [0, 9, 63, 71]).filter (· ≠ 0#8)).length ≤ 4 := by decide +kernel

/-! ## Witnesses: recipes -/

/-- A RECIPE of stack 0, channel 0, accepted and with its image. -/
def rcp (image : Option Image) : Recipe :=
  { uid := 7, part := 0, mask := 1, imageAt := memAt - 64, paramsAt := memAt, params := List.replicate 320 0#8, image := image,
    used := 0, bases := [], accepted := true, loads := [], started := 1, ended := 0, final := 0, finals := [], puts := [],
    marks := [], writes := [], spadOut := [], sent := false, taken := [], flags := noFlags, stop := none, halt := 0, note := 0 }

/-- An image of one instruction, which begins a fold in bank 0. -/
def img1 (w : Nat) : Image := ⟨memAt - 64, 0, [w + 2 ^ 18]⟩

/-- A recipe that stands before its first instruction, in bank units whose rows are open. -/
def atFirst (phase : RunPhase) : ChanRun :=
  { uid := 7, ip := 0, phase := phase, tick := 0, ready := 0, hist := [], folds := 0, begun := 0, served := 0, banks := [],
    red := Reducer.init, flow := [], puts := [], marks := [] }

/-- Stack 0 with these recipes, and channel 0. -/
def onStack (l : List Recipe) (ready : List (Nat × Nat × Nat)) (ch : Channel) (s : State) : State :=
  up (fun d => (d.apply (.stack 0 { Stack.init with recipes := l, ready := ready })).apply (.chan 0 0 ch)) s

/-- A recipe with one instruction, about to issue it on channel 0. -/
def issuing (w : Nat) : State :=
  onStack [rcp (some (img1 w))] [] { Channel.init with run := some (atFirst .fold) } ready

theorem witness_RecipeLaunched :
    let c := run [opRecipe, 0, memAt, 2 ^ 32, memAt]
    let owing := up (·.apply (.turns [⟨5, 0, 5, [6]⟩]))
      (flight [c, { c with uid := 8, core := 4, ring := 6 }] ready)
    (∀ s ∈ [flight [c] ready, owing], InFlight s.toDev 7 opRecipe c) ∧ c.stage = 0 ∧
    (owedBefore (flight [c] ready).toDev 5 (recipeStack c) c.ring).any (waitsLaunch (flight [c] ready).toDev (recipeStack c)) = false ∧
    (owedBefore owing.toDev 5 (recipeStack c) c.ring).any (waitsLaunch owing.toDev (recipeStack c)) = true := by
  unfold InFlight; decide +kernel

theorem witness_RecipeAccepted :
    let x := { rcp none with accepted := false, used := 2 ^ 24 }
    let y := { x with params := (List.replicate 9 0#8) ++ 0x80#8 :: List.replicate 310 0#8 }
    let i := img1 iEnd
    let s := fun (x : Recipe) (l : List Image) => onStack [x] [] { Channel.init with store := l } ready
    (∀ z ∈ [x, y], (stackOf (s z []).toDev 0).recipes.find? (fun x => !x.accepted && x.stop.isNone) = some z ∧
      recipeBlocked (s z []).toDev 0 1 = false) ∧
    (resolveBases (s y []).toDev 0 y).2 = some 0 ∧ (resolveBases (s x []).toDev 0 x).2 = none ∧
    residentImage (s x []).toDev 0 1 x.imageAt = none ∧ residentImage (s x [i]).toDev 0 1 x.imageAt = some i ∧
    paramReload x.params = false := by decide +kernel

theorem witness_LoadEntryArrives :
    let x := { rcp none with used := 1, params := List.replicate 64 0#8 ++ natLE memAt 8 ++ List.replicate 248 0#8 }
    let s := onStack [x] [] Channel.init ready
    recipeOf s.toDev 0 7 = some x ∧ x.accepted = true ∧ x.stop = none ∧ bit (usedLoads x.used) 0 = true ∧
    mget [] x.loads 0 = [] ∧ rangeHeld s.toDev (paramLoad x.params 0) 1023 = false ∧
    readShut s.toDev 0 x.part ((List.range 16).map fun i => memAt + 64 * i) = false ∧
    (readAtStack 0 x.part memAt 1024 .none s.toDev.start).1.2 = none ∧
    (readAtStack 0 x.part memAt 1024 .none (spoil 0x1040 s).toDev.start).1.2.isSome = true := by decide +kernel

theorem witness_ImageProofed :
    let x := rcp none
    let header := fun (n : Nat) => natLE (0x4B524350 + n * 2 ^ 32 + 2 ^ 48) 8 ++ List.replicate 56 0#8
    let s := fun (n w : Nat) => bytes 0x1000 (header n ++ natLE w 8) (onStack [x] [] Channel.init ready)
    let p := fun (s : State) => fresh s.toDev.start
    let h := fun (s : State) => (readAtStack 0 x.part x.imageAt 64 (upsetOf (p s).1 2 0 .none) (p s).2).1
    let b := fun (s : State) => (readAtStack 0 x.part (x.imageAt + 64) 8 (upsetOf (p s).1 2 1 .none) (p s).2).1
    let good := s 1 (iEnd + 2 ^ 18)
    let proof := fun (s : State) => proofImage (field s.toDev (seqOff 0 0) 11 0)
      (imageFrom (plainAddr s.toDev x.imageAt) ((h s).1 ++ (b s).1.take 8))
    (∀ t ∈ [good, s 1 iEnd, s 0 iEnd], recipeOf t.toDev 0 7 = some x ∧ x.image = none ∧
      rangeHeld t.toDev x.imageAt 65536 = false ∧ readShut t.toDev 0 x.part [x.imageAt] = false) ∧
    headerOk (toWords (h good).1) = true ∧ headerCount (toWords (h good).1) = 1 ∧
    recipePlace good.toDev 0 (x.imageAt + 64) 8 = true ∧ (h good).2 = none ∧ (b good).2 = none ∧ proof good = none ∧
    (proof (s 1 iEnd)).isSome = true ∧ headerOk (toWords (h (s 0 iEnd)).1) = false ∧
    (h (spoil 0x1000 good)).2.isSome = true ∧ (h (spoil 0x1040 good)).2 = none ∧ (b (spoil 0x1040 good)).2.isSome = true := by
  simp only [upsetOf, ite_self]; decide +kernel

theorem witness_ProofedImages : proofImage 2048 (img1 iEnd) = none ∧ (img1 iEnd).instrs[0]? = some (iEnd + 2 ^ 18) := by
  decide +kernel

theorem witness_EvictionLeavesRoom : 8192 ≤ 8192 ∧ storeUsed (evictImages 8191 [img1 iEnd]) = 1 ∧
    storeUsed (evictImages 8192 [img1 iEnd]) = 0 := by decide +kernel

theorem witness_RecipeStarts :
    let x := { rcp (some (img1 iEnd)) with started := 0 }
    let s := onStack [x] [] { Channel.init with debt := 8 } ready
    (unstarted s.toDev 0 0).head? = some x ∧ x.image ≠ none ∧ (chanOf s.toDev 0 0).run = none ∧
    (chanOf s.toDev 0 0).retrain = false ∧ remapping s.toDev 0 0 = false := by decide +kernel

theorem witness_RefreshesPaid :
    let due := fun (t : Nat) (ch : Channel) => ch.debt ≤ 6 ∧ ch.units + (t - ch.counted) * refreshUnits ch.hot < 3900
    due 3899 Channel.init ∧ ¬ due 3900 Channel.init ∧ due 1949 { Channel.init with hot := true } ∧
    ¬ due 1950 { Channel.init with hot := true } := by decide

theorem witness_BoundaryPasses :
    let i := img1 iSync
    let s := fun (x : Recipe) => onStack [x] [] { Channel.init with run := some (atFirst .boundary) } ready
    let x := rcp (some i)
    let y := { rcp (some i) with loads := [(0, [1#8])] }
    (∀ z ∈ [x, y], seated (s z).toDev 0 0 = some (atFirst .boundary, z, i)) ∧ remapping (s x).toDev 0 0 = false ∧ remapDue (s x).toDev 0 0 = false ∧
    (decodeIns ((i.instrs[0]?).getD 0)).op = iSync ∧ loadsHere x 0 = false ∧ loadsHere y 0 = true ∧
    (decodeIns (((img1 iEnd).instrs[0]?).getD 0)).op ≠ iSync := by decide +kernel

theorem witness_TransfersServed :
    let f : Frame := ⟨tRead, 0, 0, 1, 0, 127, false, 9, 2 ^ 47, 0, 1, 0, 0, 0, false, 0, []⟩
    let s := onStack [] [] { Channel.init with run := some (atFirst .boundary) } ready
    (nextTransfer s.toDev 0 0).isNone = true ∧
    (nextTransfer (s.toDev.apply (.inbox 0 [f])) 0 0).isSome = true ∧
    (chanOf s.toDev 0 0).run = some (atFirst .boundary) := by decide +kernel

theorem witness_ChannelFreed :
    let y := { rcp (some (img1 iEnd)) with stop := some (stFold, 0, 0, 0), halt := 0 }
    let lapsed := { atFirst .fold with tick := 3, ready := 9 }
    ∀ e ∈ [(atFirst .ended, rcp none), (atFirst .stopped, rcp none), (lapsed, y)],
      let s := onStack [e.2] [] { Channel.init with run := some e.1 } ready
      (chanOf s.toDev 0 0).run = some e.1 ∧ (e.1.phase = .ended ∨ e.1.phase = .stopped ∨ runOver s.toDev 0 0 e.1 = true) ∧
      remapping s.toDev 0 0 = false ∧ remapDue s.toDev 0 0 = false := by decide +kernel

/-- Channel 0 of stack 0 is in process mode. -/
def processMode (s : State) : State := regs [(stkOff 0 0x08, 1)] s

theorem witness_RefreshesFallDue :
    let s := processMode (onStack [] [] { Channel.init with run := some (atFirst .fold) } ready)
    chanMode s.toDev 0 0 = 1 ∧ (chanOf s.toDev 0 0).run ≠ none ∧ chanMode (processMode ready).toDev 0 0 = 1 ∧
    (chanOf (processMode ready).toDev 0 0).run = none := by decide +kernel

theorem test_refresh_owes_at_most_8 :
    (out (exec (.refresh 0 0 39000) (processMode (onStack [] [] { Channel.init with run := some (atFirst .fold) } ready)))).elim
      0 (fun t => (chanOf t.toDev 0 0).debt) = 8 := by decide +kernel

/-- The first instruction of the recipe of `issuing w` may issue. -/
theorem issuing_ready (w op : Nat) (ho : (decodeIns (w + 2 ^ 18)).op = op)
    (hs : seated (issuing w).toDev 0 0 = some (atFirst .fold, rcp (some (img1 w)), img1 w))
    (hw : waitsIssue (issuing w).toDev 0 0 (rcp (some (img1 w))) (issueTick (atFirst .fold) (decodeIns (w + 2 ^ 18))) = false) :
    Issuing (issuing w).toDev 0 0 op (atFirst .fold) (rcp (some (img1 w))) (img1 w) (w + 2 ^ 18) :=
  ⟨hs, rfl, rfl, ho, rfl, hw⟩

theorem witness_InstructionsIssue (w : Nat) (h : w ∈ (List.range 15).map (· + 1)) :
    Issuing (issuing w).toDev 0 0 w (atFirst .fold) (rcp (some (img1 w))) (img1 w) (w + 2 ^ 18) :=
  have e := (by decide +kernel : ∀ w ∈ (List.range 15).map (· + 1), seated (issuing w).toDev 0 0 =
    some (atFirst .fold, rcp (some (img1 w)), img1 w) ∧ (decodeIns (w + 2 ^ 18)).op = w ∧
    waitsIssue (issuing w).toDev 0 0 (rcp (some (img1 w))) (issueTick (atFirst .fold) (decodeIns (w + 2 ^ 18))) = false) w h
  issuing_ready w w e.2.1 e.1 e.2.2

theorem witness_BankInstructions :
    (∀ o : Nat, o < 2 → actRow (rcp none) 0 (decodeIns (iAct + o * 2 ^ 29)) = some (o * 16384)) ∧
    mget [] { rcp none with loads := [(0, [1#8])] }.loads 0 ≠ [] := by decide +kernel

/-- A parameter block whose row base 0 is paged. -/
def paged (bases : Store Nat) : Recipe :=
  { rcp none with params := List.replicate 9 0#8 ++ 0x80#8 :: List.replicate 310 0#8, bases := bases }

theorem witness_ActRows :
    let y := fun (off : Nat) => decodeIns (iAct + 2 ^ 29 + off * 2 ^ 33)
    let e := 2 ^ 15 + 2 ^ 14 + 16383
    bit (paramBase (rcp none).params 0) 15 = false ∧ bit (paramBase (paged []).params 0) 15 = true ∧
    bit (mget 0 (paged [(0, e)]).bases 0) 15 = true ∧ bits e 14 14 = (y 4).h ∧ (y 4).offset = 4 ∧ (y 5).offset = 5 ∧
    actRow (paged [(0, e)]) 0 (y 5) = none := by decide +kernel

theorem witness_PortInstructions :
    let y := decodeIns (iDot + 2 ^ 18)
    let p := fun (s : State) => (readPort 0 0 y (putSet []) [] s.toDev.start).1.2
    p (issuing iDot) = none ∧ p (spoil 0 (issuing iDot)) = some 0 ∧
    (readPort 0 0 (decodeIns (iCopyv + 2 ^ 18)) [] [] (spoil 0 ready).toDev.start).1.2 = some 0 ∧
    (readPort 0 0 (decodeIns (iScale + 2 ^ 18)) [] [] ready.toDev.start).1.2 = none := by decide +kernel

theorem witness_ChainInstruction :
    ∀ o < 4, (decodeIns (iChain + 2 ^ 18 + o * 2 ^ 29)).chop = o ∧ (decodeIns (iChain + 2 ^ 18 + o * 2 ^ 29)).op = iChain := by
  decide +kernel

theorem witness_IssueRefused :
    let i : Image := ⟨memAt - 64, 0, [iAct + 2 ^ 18, iPre + 2 ^ 6 + 2 ^ 29]⟩
    let k := { atFirst .fold with ip := 1, hist := [0] }
    let s := onStack [rcp (some i)] [] { Channel.init with run := some k } ready
    seated s.toDev 0 0 = some (k, rcp (some i), i) ∧ waitsIssue s.toDev 0 0 (rcp (some i)) (issueTick k (decodeIns (iPre + 2 ^ 6 + 2 ^ 29))) = false ∧ i.instrs[1]? = some (iPre + 2 ^ 6 + 2 ^ 29) ∧
    (guardTrip false (issuedBefore k i) (decodeIns (iPre + 2 ^ 6 + 2 ^ 29)) (issueTick k (decodeIns (iPre + 2 ^ 6 + 2 ^ 29)))).isSome = true ∧
    actRow (paged []) 0 (decodeIns (iAct + 2 ^ 18)) = none ∧ mget [] (rcp none).loads (decodeIns iLoadv).load = [] := by
  decide +kernel

theorem witness_RecipeStops :
    let y := { rcp none with stop := some (stFold, 0, 0, 0), halt := 12 }
    let s := fun (x : Recipe) => onStack [x] [] { Channel.init with run := some (atFirst .fold) } ready
    (∀ x ∈ [rcp none, y], recipeOf (s x).toDev 0 x.uid = some x) ∧ (rcp none).stop = none ∧ y.stop ≠ none ∧
    7 + 4 < y.halt ∧ y.halt ≤ 8 + 4 := by decide +kernel

theorem witness_ChannelStops :
    let y := { rcp none with stop := some (stFold, 0, 0, 0), halt := 12 }
    let s := onStack [y] [] { Channel.init with run := some (atFirst .fold) } ready
    recipeOf s.toDev 0 y.uid = some y ∧ y.stop ≠ none ∧ (chanOf s.toDev 0 0).run = some (atFirst .fold) ∧
    (atFirst .fold).uid = y.uid := by decide +kernel

theorem witness_TripRecorded :
    let s := onStack [rcp none] [] Channel.init ready
    recipeOf s.toDev 0 7 = some (rcp none) ∧ (rcp none).stop = none ∧ { atFirst .fold with ip := 2 ^ 16 - 1 }.ip < 2 ^ 16 ∧ 15 < 16 := by
  decide +kernel

theorem witness_ReducersFinal :
    let x := { rcp none with ended := 1 }
    let y := { x with mask := 3 }
    let f := fun (x : Recipe) => (stackOf (onStack [x] [] Channel.init ready).toDev 0).recipes.find?
      fun x => x.stop.isNone && bit x.ended 0 && !bit x.final 0
    f x = some x ∧ setBit x.final 0 = x.mask ∧ f y = some y ∧ setBit y.final 0 ≠ y.mask := by decide +kernel

theorem witness_ResultsSent :
    let y := { rcp none with stop := some (stFold, 0, 0, 0) }
    let s := fun (x : Recipe) => onStack [x] [(4, 0, 7)] Channel.init ready
    ∀ x ∈ [rcp none, y], (stackOf (s x).toDev 0).ready = (4, 0, x.uid) :: [] ∧ recipeOf (s x).toDev 0 x.uid = some x := by
  decide +kernel

theorem witness_ResultValues : 0x3F800000 ≠ minusInf ∧ 0 < [0x3F800000].length := by decide

theorem witness_RecipeCompletes :
    let part : WriteSet := [(64, 1, List.replicate 64 1#8)]
    let x := { rcp none with writes := part, sent := true }
    let s := fun (x : Recipe) => onStack [x] [] Channel.init ready
    let taken := fun (x : Recipe) (s : State) => x.writes.foldl (fun z e => serveResult x e z) (x.taken, reach 0 s.toDev.start)
    let q := fun (x : Recipe) (s : State) => setRecipe 0 { x with taken := (taken x s).1 } (taken x s).2
    let blocked := fun (x : Recipe) (s : State) => resultsBlocked (q x s).dev 0 { x with taken := (taken x s).1 }
    let bad := fun (s : State) => (performWrites x.writes (q x s)).1
    let still := { x with mask := 2, writes := [(64, 1, List.replicate 64 1#8)] }
    let busy := processMode (onStack [still] [] { Channel.init with run := some (atFirst .fold) } ready)
    recipeOf (s x).toDev 0 7 = some x ∧ blocked x (s x) = false ∧ bad (s x) = none ∧
    bad (spoil 0x1000 (s x)) = some 0x1000 ∧ (rcp none).sent = false ∧
    recipeOf busy.toDev 0 7 = some still ∧ blocked still busy = true ∧
    (let z := { x with image := some (img1 iEnd), stop := some (stFold, 64, 0, 0), halt := 9 }
     let t := onStack [z] [] { Channel.init with run := some (atFirst .fold) } ready
     recipeOf t.toDev 0 7 = some z ∧ ∃ c ∈ bitsSet z.mask 32, beforeStop t.toDev 0 c z = true) ∧
    (∀ st ∈ [stFold, stUncorrectable], let y := { x with stop := some (st, 64, 0, 0) }
      recipeOf (s y).toDev 0 7 = some y ∧ (∀ c ∈ bitsSet y.mask 32, beforeStop (s y).toDev 0 c y = false) ∧
      portsShut (s y).toDev y.part (resultPorts (s y).toDev 0 y) = false ∧
      recipeOf (forEach (bitsSet y.mask 32) (stopChan 0 7) (reach 0 (s y).toDev.start)).dev 0 7 = some y) := by
  decide +kernel

theorem witness_RecipeLeavesStack :
    let s := flight [run [opRecipe]] (onStack [rcp none] [] Channel.init ready)
    19 < 20 ∧ cmdOf s.toDev (rcp none).uid = some (run [opRecipe]) ∧ (plain 255).status < 256 ∧ 2 ^ 32 - 257 < 2 ^ 32 - 256 := by
  decide +kernel

/-! ## Witnesses: control space, bakes, slices -/

theorem witness_ControlRefused :
    (∀ op ∈ [ctRead, ctNonce, ctAuth, ctConnect, ctReset, ctUpdate, ctAttest],
      let w := [op, 2 ^ 32]
      let s := ctl 0 w ready
      ctrlHead s.toDev 0 op = some (ctlRing w, cw w) ∧ ctrlFault s.toDev 0 (cw w) = some stDescriptor) ∧
    (∀ e ∈ [(WriteKind.plain, 0x100004, 0), (.discard, benchOff 0, 2), (.bake, benchOff 0, 1), (.remap, eccOff 0x800, 0),
        (.arm, eccOff 0x100, 2 ^ 31), (.disarm, eccOff 0x100, 0), (.ptp, ptpOff 0xC, 0), (.retrain 2, lnkOff 2 0x10, 1)],
      let w := ctlWords ctWrite 1 e.2.1 [e.2.2]
      let s := up (·.apply (.ring 0 (some (ctlRing w)))) ready
      ctrlHead s.toDev 0 ctWrite = some (ctlRing w, cw w) ∧ writeKind (cw w) = e.1 ∧ writeFault s.toDev 0 (cw w) = some stSig) := by
  decide +kernel

theorem witness_ControlAdmits :
    ctrlFault ready.toDev 0 (cw [ctRead + 2 ^ 8, 0xFFFC]) = none ∧ ctrlFault ready.toDev 0 (cw [ctNonce]) = none ∧
    authenticated ready.toDev = false ∧ ctrlFault ready.toDev 1 (cw [ctAttest]) = none ∧
    (ctrlFault ready.toDev 0 (cw [ctRead + 2 ^ 8, 0x10000])).isSome = true := by decide +kernel

theorem witness_RegistersRead :
    let w := fun (off : Nat) => ctlWords ctRead 64 off []
    (∀ off ∈ [0, 2, 0x5FF04], OnControl (ctl 0 (w off) ready).toDev 0 ctRead (ctlRing (w off)) (cw (w off))) ∧
    offsetFault (cOffsets (cw (w 0))) = none ∧ offsetFault (cOffsets (cw (w 2))) = some stAlign ∧
    offsetFault (cOffsets (cw (w 0x5FF04))) = some stDescriptor := by unfold OnControl; decide +kernel

theorem witness_ReadValues :
    (regInfo (lnkOff 0 0x10)).elim false (·.access == .wo) = true ∧ lnkOff 0 0x10 ≠ benchOff 0 ∧
    (regInfo 0x30000).elim false (·.access != .wo) = true ∧ partOff 15 0 < partOff 15 0x100 ∧ 15 < 16 := by decide +kernel

theorem witness_RegisterWritten :
    let access := fun (o : Nat) => (regInfo o).map (·.access)
    access (rgnOff 0 0) = some .rwb ∧ access (hkOff 0x0C) = some .ro ∧
    access (eccOff 0x140) = some .rw ∧ kindAt (eccOff 0x140) 1 = .plain ∧ access (lnkOff 2 0x10) = some .wo := by decide +kernel

theorem witness_RegistersWritten :
    let w := ctlWords ctWrite 1 (rgnOff 0 0) [7]
    let e := ctlWords ctWrite 1 (benchOff 0) [2]
    OnWrite (ctl 0 w ready).toDev 0 .plain (ctlRing w) (cw w) ∧ OnWrite (ctl 0 e ready).toDev 0 .discard (ctlRing e) (cw e) := by
  unfold OnWrite; decide +kernel

theorem test_write_stages :
    (out (exec (.regWrite 0) (ctl 0 (ctlWords ctWrite 1 (rgnOff 0 0) [7]) ready))).elim (none, 0) (fun t =>
      (mget none t.toDev.bench (rgnOff 0 0), reg t.toDev (rgnOff 0 0))) = (some 7#32, 0) := by decide +kernel

/-- What is staged for the bakes below: a fold budget. -/
def budget (v : Nat) (s : State) : State := up (·.apply (.stage (seqOff 0 0) v)) s

theorem witness_BakeRequested :
    let w := fun (v : Nat) => ctlWords ctWrite 1 (benchOff 0) [v]
    (∀ v ∈ [1, 3], OnWrite (ctl 0 (w v) ready).toDev 0 .bake (ctlRing (w v)) (cw (w v))) ∧
    bit (valueAt (cw (w 1)) (benchOff 0)) 1 = false ∧ bit (valueAt (cw (w 3)) (benchOff 0)) 1 = true ∧
    ready.toDev.parts.bake = none ∧ benchValues ready.toDev = [] ∧ benchValues (budget 199 ready).toDev = [(seqOff 0 0, 199#32)] ∧
    (checkBake (budget 199 ready).toDev [(seqOff 0 0, 199#32)]).isSome = true := by unfold OnWrite; decide +kernel

theorem witness_CheckedSettings :
    checkBake (Dev.init.apply (.reg (partOff 0 0) 1)) [(seqOff 0 0, 3600#32)] = none := by decide +kernel

/-- A bake of the fold budget of stack 0, sent at time 0 and acknowledged by these units. -/
def baking (acked : List BakeUnit) : State :=
  up (·.apply (.bake (some ⟨[(seqOff 0 0, 200#32)], some 0, 0, 0, [.budget 0, .mode 0 1], acked⟩))) ready

theorem witness_PrepareAcknowledged :
    let b : Bake := ⟨[(seqOff 0 0, 200#32)], some 0, 0, 0, [.budget 0, .mode 0 1], []⟩
    (baking []).toDev.parts.bake = some b ∧ (∀ u ∈ b.units, ackReady (baking []).toDev u = true) ∧
    b.units.contains (.budget 1) = false := by decide +kernel

theorem witness_BakeTakesEffect :
    let b : Bake := ⟨[(seqOff 0 0, 200#32)], some 0, 0, 0, [.budget 0, .mode 0 1], [.mode 0 1, .budget 0]⟩
    (baking b.acked).toDev.parts.bake = some b ∧ unacked b = [] := by decide +kernel

theorem witness_BakeHandsOver :
    let b : Bake := ⟨[(partOff 0 8, 1#32), (qpPartOff 3, 0x11#32)], some 0, 0, 0, [], []⟩
    let s := up (·.apply (.bake (some b))) ready
    s.toDev.parts.bake = some b ∧ unacked b = [] ∧
    (settingsNow s.toDev).clusterHolder 1 ≠ (settingsWith s.toDev b.staged).clusterHolder 1 ∧
    (settingsNow s.toDev).rd (qpPartOff 3) ≠ (settingsWith s.toDev b.staged).rd (qpPartOff 3) := by decide +kernel

theorem witness_BakeAborts :
    let b : Bake := ⟨[(seqOff 0 0, 200#32)], some 0, 0, 0, [.budget 0, .mode 0 1], [.budget 0]⟩
    (baking [.budget 0]).toDev.parts.bake = some b ∧ unacked b = [.holder 0 1] ∧
    b.sent + 50000 ≤ (reach 50000 (baking [.budget 0]).toDev.start).dev.time ∧
    ¬ (b.sent + 50000 ≤ (reach 49999 (baking [.budget 0]).toDev.start).dev.time) := by decide +kernel

/-- Partition 0 is sliced, job 2 has the slice until time 100,000, and ring 5 of core 3 holds a command of job 1. -/
def sliced : State :=
  up (fun d => ((d.apply (.job 0 2)).apply (.sliceEnd 0 100000)).apply (.ring 5 (some { ring0 0 0 1 none with job := 1 })))
    (regs [(partOff 0 0, 3), (partOff 0 0x10, 1)] ready)

theorem witness_SlicePasses :
    let s := sliced
    let r := fun (t : Nat) => (reach t s.toDev.start).dev
    isSliced (r 0) 0 = true ∧ partInForce (r 0) 0 = true ∧ sliceEndAt (r 100000) 0 ≤ (r 100000).time ∧
    ¬ (sliceEndAt (r 99999) 0 ≤ (r 99999).time) ∧ sliceJob (r 0) 0 = 2 := by decide +kernel

theorem witness_CoreSwitches :
    let s := core 3 { Core.init with stopped := true, job := 2 } sliced
    clusterPart s.toDev (3 / 32) = some 0 ∧ isSliced s.toDev 0 = true ∧ (coreOf s.toDev 3).stopped = true ∧
    switchPoint s.toDev 3 = true := by decide +kernel

/-! ## Witnesses: integrity -/

/-- Region 0 is scrubbed. -/
def scrubs (s : State) : State := regs [(rgnOff 0 8, 2 ^ 31 + 32 + 64)] s

theorem witness_SifterVisits :
    let h := kept { Upkeep.init with hints := [0x1000] } (scrubs ready)
    siftIdle (scrubs ready).toDev 0 0 = true ∧
    siftIdle (up (·.apply (.chan 0 0 { Channel.init with retrain := true })) ready).toDev 0 0 = false ∧
    ((upkeepOf h.toDev 0).hints.filter fun k => keyChan k == 0 && scrubbed h.toDev k && !doorKey h.toDev k) = [0x1000] ∧
    nextScrub (scrubs ready).toDev 0 0 0 = some 0 ∧ nextScrub ready.toDev 0 0 0 = none := by decide +kernel

theorem witness_GranuleVisited :
    let c := granuleCheck (up (·.apply (.err 64 [1#8])) ready).toDev 0x1000
    (granuleCheck ready.toDev 0x1000).uncorrectable = false ∧ c.uncorrectable = false ∧ c.corrected = true ∧
    (granuleCheck (spoil 0x1000 ready).toDev 0x1000).uncorrectable = true := by decide +kernel

theorem witness_RemapBegins :
    let due := fun (s : State) => kept { Upkeep.init with due := [0x1000] } s
    let full := regs [(remapReg 0 0, 2 ^ 31 + 2 ^ 10), (remapReg 0 1, 2 ^ 31 + 2 ^ 11 + 2 ^ 25)] ready
    (upkeepOf (due ready).toDev 0).due.contains 0x1000 = true ∧ chanMode (due ready).toDev 0 0 ≠ 2 ∧
    mget false (up (·.apply (.hit 64 true)) (due ready)).toDev.hits 64 = true ∧ remapFree (due ready).toDev 0 0 = true ∧
    rowHeld (due ready).toDev 0x1000 = false ∧
    remapFree (up (·.apply (.chan 0 0 { Channel.init with retrain := true })) (due ready)).toDev 0 0 = false ∧
    (let s := up (·.apply (.chan 0 0 { Channel.init with run := some (atFirst .boundary) })) (due ready)
     remapFree s.toDev 0 0 = true ∧ (chanOf s.toDev 0 0).run = some (atFirst .boundary)) ∧
    (remapChoice (due ready).toDev 0 0 (keyBank 0x1000) (keyRow 0x1000)).1 ≠ [] ∧
    (remapChoice (due ready).toDev 0 0 (keyBank 0x1000) (keyRow 0x1000)).2 ≠ [] ∧
    (remapChoice (due full).toDev 0 0 (keyBank 0x1000) 3).2 = [] := by decide +kernel

theorem witness_RemapCompletes :
    let m : Remap := ⟨0, 31, 2 ^ 15 - 1, 1, 31, some 0⟩
    findIdx (fun (m : Remap) => m.channel == 0) (upkeepOf (kept { Upkeep.init with remaps := [m] } ready).toDev 0).remaps 0 =
      some (0, m) := by decide +kernel

theorem test_remap_entry :
    let m : Remap := ⟨0, 31, 2 ^ 15 - 1, 1, 31, none⟩
    (out (exec (.remapComplete 0 0) (kept { Upkeep.init with remaps := [m] } ready))).elim 0
      (fun t => reg t.toDev (remapReg 0 31)) = 2 ^ 31 + 2 ^ 25 + (2 ^ 15 - 1) * 2 ^ 10 + 31 * 2 ^ 5 := by decide +kernel

theorem witness_RemapRequested :
    let w := fun (v : Nat) => ctlWords ctWrite 1 (eccOff 0x800) [v]
    let full := fun (s : State) => regs [(remapReg 0 0, 2 ^ 31), (remapReg 0 1, 2 ^ 31 + 2 ^ 10 + 2 ^ 25)] s
    (∀ v ∈ [19, 20, 2 ^ 16], OnWrite (ctl 0 (w v) ready).toDev 0 .remap (ctlRing (w v)) (cw (w v)) ∧
      valueAt (cw (w v)) (eccOff 0x800) = v) ∧
    (remapChoice (full ready).toDev 0 0 0 2).2 = [] ∧ remapFree ready.toDev 19 0 = true ∧
    rowHeld ready.toDev (rowKey 19 0 0 0) = false := by unfold OnWrite; decide +kernel

theorem witness_FlipMaskArmed :
    let w := fun (v : Nat) => ctlWords ctWrite 1 (eccOff 0x100) [v]
    (∀ e ∈ [0, 511], OnWrite (ctl 0 (w (e + 2 ^ 31)) ready).toDev 0 .arm (ctlRing (w (e + 2 ^ 31))) (cw (w (e + 2 ^ 31)))) ∧
    (regionAt ready.toDev 0).valid = true ∧ (regionAt ready.toDev 511).valid = false ∧
    OnWrite (ctl 0 (w 511) ready).toDev 0 .disarm (ctlRing (w 511)) (cw (w 511)) := by unfold OnWrite; decide +kernel

theorem witness_ChannelRetrained :
    1024 < 1025 ∧ ¬ (1024 < 1024) ∧ isReady ready.toDev = true ∧ retraining ready.toDev = false ∧
    chanMode ready.toDev 0 0 ≠ 2 ∧ chanInUse ready.toDev 0 0 = false := by decide +kernel

theorem witness_ChannelRetired :
    let s := up (·.apply (.chan 19 31 { Channel.init with retrain := true })) State.reset
    (chanOf s.toDev 19 31).retrain = true ∧ s.toDev.parts.bake = none ∧ retireReady s.toDev 19 31 = true := by decide +kernel

/-! ## Witnesses: frames and transactions -/

theorem witness_WritesPerformed :
    (∀ t ∈ [tWrite, tMerge],
      let f := req t (List.replicate 64 1#8)
      frameOf (held f ready).toDev 0 0 t = some f ∧ frameWaits (held f ready).toDev f = false ∧
      frameWaits (copying (held f ready)).toDev f = true ∧ frameStatus (held f ready).toDev f = stOk ∧
      frameStatus (held f ready).toDev { f with part := 1 } = stDescriptor ∧ frameKeys f = [0x1000]) ∧
    (mergeHome 0x1000 1 (List.replicate 64 1#8) ready.toDev.start).1 = true ∧
    (mergeHome 0x1000 1 (List.replicate 64 1#8) (spoil 0x1000 ready).toDev.start).1 = false := by decide +kernel

theorem witness_ReadsPerformed :
    let r := req tRead []
    let a := req tAtomic (List.replicate 64 1#8)
    (∀ f ∈ [r, a], frameOf (held f ready).toDev 0 0 f.type = some f ∧ frameWaits (held f ready).toDev f = false ∧
      caughtUp ready.toDev f = true ∧ caughtUp ready.toDev { f with arg := 1 } = false ∧
      frameStatus (held f ready).toDev f = stOk ∧ frameStatus (held f ready).toDev { f with part := 1 } ≠ stOk) ∧
    (readKeys (frameKeys r) ready.toDev.start).1.isSome = true ∧ moduleKey a.addr = some 0x1000 ∧
    (readKeys (frameKeys r) (spoil 0x1000 ready).toDev.start).1.isNone = true ∧ atomicShut ready.toDev 0 0 = false ∧
    atomicShut (regs [(partOff 0 0x2C, 0)] ready).toDev 0 0 = true ∧
    (atomicHome a.aop 0x1000 1 1 ready.toDev.start).1.isSome = true ∧
    (atomicHome a.aop 0x1000 1 1 (spoil 0x1000 ready).toDev.start).1.isNone = true := by decide +kernel

theorem witness_ChecksAnswered :
    ∀ t ∈ [tCheck, tSync],
      let f := req t []
      frameOf (held f ready).toDev 0 0 t = some f ∧ caughtUp ready.toDev f = true ∧
      caughtUp ready.toDev { f with arg := 2 ^ 31 - 1 } = false := by decide +kernel

theorem witness_ResponsesEndTransactions :
    let f := req tReadData (List.replicate 64 1#8)
    let x : Txn := ⟨1, 0, 7, tRead, 9, 0x1000, 0⟩
    let c := { run [opNop] with txns := [1] }
    let s := up (·.apply (.txns [x] 2)) (flight [c] (held f ready))
    let h := { head0 [opWait] 0 false with poll := some 1 }
    (∀ t ∈ [tWriteAck, tReadData, tAtomicData, tCheckAck, tSyncAck],
      frameOf (held { f with type := t } s).toDev 0 0 t = some { f with type := t }) ∧
    (held f ready).toDev.fabric.txns.find? (·.num == f.txn) = none ∧ s.toDev.fabric.txns.find? (·.num == f.txn) = some x ∧
    x.uid < 2 ^ 64 ∧ cmdOf s.toDev x.uid = some c ∧ c.txns.contains f.txn = true ∧ ({ x with uid := pollUid 5 }).uid = pollUid 5 ∧
    ringOf (ring5 (ring0 0 0 1 (some h)) s).toDev 5 = some (ring0 0 0 1 (some h)) ∧ h.poll = some f.txn := by decide +kernel

theorem witness_TransactionTimesOut :
    let x : Txn := ⟨1, 19, 7, tRead, 9, 0x1000, 0⟩
    let c := { run [opNop] with txns := [1] }
    let s := up (·.apply (.txns [x] 2)) (flight [c] ready)
    s.toDev.fabric.txns.find? (·.num == 1) = some x ∧ x.uid < 2 ^ 64 ∧ cmdOf s.toDev x.uid = some c ∧
    c.txns.contains 1 = true ∧ x.stack < 20 ∧ (reach 1999999 s.toDev.start).dev.time < x.at_ + 2000000 ∧
    x.at_ + 2000000 ≤ (reach 2000000 s.toDev.start).dev.time := by decide +kernel

/-! ## Witnesses: the switch and the links -/

/-- Link 1 with this controller and this LNK_STATUS. -/
def linked (x : Link) (state : Nat) (s : State) : State :=
  regs [(lnkOff 1 0x04, state), (lnkOff 1 0x0C, 0x18), (0x24, if state % 8 = 2 then 2 else 0)] (up (·.apply (.link 1 x)) s)

/-- What waits in the switch. -/
def inSwitch (l : List Waiting) (s : State) : State := up (·.apply (.queue l)) s

/-- A request of this module for module 9, reached over link 1. -/
def away (txn : Nat) : Frame :=
  ⟨tWrite, 0, 0, 1, 0, 127, true, 9, 2 ^ 47 + 2 ^ 36, 0, txn, 0, 0, 0, false, 0, List.replicate 64 0#8⟩

theorem witness_GrantRules :
    let w : Waiting := ⟨20, req tRead []⟩
    let v : Waiting := ⟨20, away 1⟩
    let x := { Link.init with credits := [(0, 2), (1, 2), (2, 2), (3, 2)] }
    let s := inSwitch [w, v] (regs [(routeOff 9, 2)] (linked x 0x82 ready))
    (pickFrame s.toDev 20 false 0).isSome = true ∧ (pickFrame s.toDev 1 false 0).isSome = true ∧
    (pickFrame s.toDev 39 false 0).isNone = true := by decide +kernel

theorem witness_SwitchGrants :
    let v : Waiting := ⟨20, away 1⟩
    let x := { Link.init with credits := [(0, 2), (1, 2), (2, 2), (3, 2)] }
    let c := { run [opDma] with txns := [1] }
    let s := up (·.apply (.txns [⟨1, 0, 7, tWrite, 9, 0, 0⟩] 2))
      (flight [c] (inSwitch [v] (regs [(routeOff 9, 2)] (linked x 0x82 ready))))
    (pickFrame s.toDev 1 true 0).isNone = true ∧ (pickFrame s.toDev 1 false 0).isSome = true ∧
    (pickFrame ready.toDev 1 false 0).isNone = true ∧ v.frame.posted = true ∧ v.frame.src = deviceNumber s.toDev ∧
    (s.toDev.fabric.txns.find? (·.num == v.frame.txn)).isSome = true ∧ cmdOf s.toDev 7 = some c ∧
    (pickFrame (inSwitch [⟨1, req tRead []⟩] ready).toDev 20 false 0).isSome = true := by decide +kernel

/-- What eight lanes carry of a frame with this trailer. -/
def carried (f : Frame) (t : Trailer) : List Byte := takeLanes 8 (layLanes 8 (frameImage f t))

/-- A trailer that says nothing. -/
def t0 : Trailer := ⟨0, false, false, 0, 0⟩

theorem test_frame_crosses_lanes : frameFrom (carried (away 1) t0) = away 1 ∧ trailerFrom (carried (away 1) t0) = t0 := by
  decide +kernel

theorem witness_BadFrameRefused :
    ∀ sent ∈ [true, false],
      let s := linked { Link.init with rxSeq := 4095, nakSent := sent } 0x82 ready
      let b := takeLanes (linkWidth s.toDev 1) (layLanes 8 (frameImage (away 1) t0))
      let t := trailerFrom b
      linkState s.toDev 1 = 2 ∧ frameWhole b = true ∧ frameWhole (takeLanes (linkWidth s.toDev 1) []) = false ∧
      (frameFrom b).type ≠ tIdle ∧ (frameFrom b).seq ≠ (linkOf s.toDev 1).rxSeq ∧ t.ackValid = false ∧
      t.nak = false ∧ t.credits = 0 ∧ (linkOf s.toDev 1).nakSent = sent := by decide +kernel

theorem witness_FrameAccepted :
    let s := linked { Link.init with rxSeq := 0 } 0x82 ready
    let b := fun (f : Frame) => takeLanes (linkWidth s.toDev 1) (layLanes 8 (frameImage f t0))
    let f := frameFrom (b (away 1))
    linkState s.toDev 1 = 2 ∧ (∀ g ∈ [away 1, { away 1 with hops := 0 }, { away 1 with type := 0x3F }],
      frameWhole (b g) = true ∧ (frameFrom (b g)).type ≠ tIdle ∧ (frameFrom (b g)).seq = (linkOf s.toDev 1).rxSeq ∧
      (trailerFrom (b g)).nak = false ∧ frameClean (b g) = true) ∧
    typeDefined f.type = true ∧ payloadOk f = true ∧ isResponse f = false ∧ f.status = 0 ∧ f.dst ≠ deviceNumber s.toDev ∧
    (frameFrom (b { away 1 with hops := 0 })).hops = 0 ∧
    typeDefined (frameFrom (b { away 1 with type := 0x3F })).type = false := by decide +kernel

theorem witness_LinkKeepsAlive :
    let e : Replay := ⟨away 1, 16⟩
    let s := fun (x : Link) => linked x 0x82 ready
    let x := { Link.init with replay := [e] }
    (∀ y ∈ [Link.init, { Link.init with ackOwed := true }, { Link.init with owed := [(3, 1)] }],
      linkState (s y).toDev 1 = 2 ∧ linkOf (s y).toDev 1 = y) ∧
    linkState (s x).toDev 1 = 2 ∧ (linkOf (s x).toDev 1).replay = [e] ∧
    (linkOf (s x).toDev 1).since + 10000 ≤ (reach 10000 (s x).toDev.start).dev.time ∧
    (reach 9999 (s x).toDev.start).dev.time < (linkOf (s x).toDev 1).since + 10000 ∧
    (let b := takeLanes (linkWidth (s x).toDev 1) (layLanes 8 (frameImage idleFrame { t0 with nak := true }))
    frameWhole b = true ∧ (frameFrom b).type = tIdle ∧ (trailerFrom b).nak = true ∧ (trailerFrom b).ackValid = false ∧
    (trailerFrom b).credits = 0) := by decide +kernel

theorem witness_TrainingStages :
    let lanes := fun (locked : Nat) => chooseLanes locked (min (linkMax (linked Link.init 1 ready).toDev 1) 4)
    (∀ k ∈ [1, 2, 3, 4, 5], (linkOf (linked { Link.init with stage := k } 1 ready).toDev 1).stage = k) ∧
    (∀ full ∈ [true, false], (linkOf (linked { Link.init with stage := 4, full := full } 1 ready).toDev 1).full = full) ∧
    (∀ p ∈ List.replicate 4 1400, 1400 ≤ p) ∧ ¬ (∀ p ∈ [1400, 1400, 1399, 1400], 1400 ≤ p) ∧
    lanes 0xFF = some 0x0F ∧ lanes 0xF0 = some 0xF0 ∧ lanes 0 = none ∧ 1 ≠ deviceNumber ready.toDev ∧
    0 = deviceNumber ready.toDev := by decide +kernel

/-- The base die of link 1 responds. -/
def answering (s : State) : State := regs [(stkOff 1 0x04, 1)] s

/-- R540, worked by hand: lane 3 goes to its spare, and a copy of lane 5 stands in for a receiver of this end. -/
theorem test_spare_lanes : lockedLanes 0 (2 ^ 3) (2 ^ 10 - 1 - 2 ^ 3) = 0xFF ∧ lockedLanes (2 ^ 13) 0 (2 ^ 10 - 1 - 2 ^ 5) = 0xFF ∧
    lockedLanes 0 (2 ^ 3) (2 ^ 8 - 1 - 2 ^ 3) = 0xFF - 2 ^ 3 := by decide +kernel

theorem witness_TrainingRequested :
    let w := ctlWords ctWrite 1 (lnkOff 1 0x10) [1]
    let s := fun (state : Nat) => ctl 0 w (linked Link.init state ready)
    (∀ k ∈ [1, 4], baseAnswers (writeRegs (cw w) (answering (s k)).toDev.start).dev 1 = true) ∧
    baseAnswers (writeRegs (cw w) (s 1).toDev.start).dev 1 = false ∧ baseAnswers (answering (s 0)).toDev 1 = true ∧
    linkState (s 0).toDev 1 = 0 ∧ linkEnabled (s 0).toDev 1 = true ∧ isReady (s 0).toDev = true ∧
    (linkOf (s 0).toDev 1).triedAt + 1000000000 ≤ (reach 1000000000 (s 0).toDev.start).dev.time ∧
    (reach 999999999 (s 0).toDev.start).dev.time < (linkOf (s 0).toDev 1).triedAt + 1000000000 ∧
    linkEnabled (writeRegs (cw w) (s 1).toDev.start).dev 1 = true ∧
    (∀ k ∈ [0, 1, 4, 0x82], OnWrite (s k).toDev 0 (.retrain 1) (ctlRing w) (cw w) ∧
      linkState (writeRegs (cw w) (s k).toDev.start).dev 1 = k % 8) := by unfold OnWrite; decide +kernel

theorem witness_WidthsThrottled :
    let x := { Link.init with throttle := true, trained := 0xFF, used := 0xFF }
    let y := { Link.init with trained := 0xFF, used := 0x0F }
    ∀ z ∈ [x, y, { y with relock := true }], linkState (linked z 0x82 ready).toDev 1 = 2 ∧
      linkOf (linked z 0x82 ready).toDev 1 = z := by decide +kernel

theorem witness_RoutesKept :
    let up1 := linked { Link.init with trained := 0xFF, used := 0xFF } 0x82 ready
    let listed := regs [(routeOff 4095, 2)] (linked Link.init 0 ready)
    let lost := up (·.apply (.route (routeOff 4095) 2#32)) up1
    inService up1.toDev 1 = true ∧ inService listed.toDev 1 = false ∧ bit (reg listed.toDev (routeOff 4095)) 1 = true ∧
    listed.toDev.parts.bake = none ∧ linkEnabled lost.toDev 1 = true ∧ 4095 ≠ deviceNumber lost.toDev ∧
    bit (mget 0#32 lost.toDev.parts.routes (routeOff 4095)).toNat 1 = true ∧ bit (reg lost.toDev (routeOff 4095)) 1 = false ∧
    (baking []).toDev.parts.bake ≠ none := by decide +kernel

/-! ## Witnesses: doorbells, hosts and ports -/

/-- Doorbell record word 0: action, ring, index. -/
def bell (act ring index : Nat) : Dword := BitVec.ofNat 64 (act + ring * 2 ^ 4 + index * 2 ^ 32)

/-- Queue pair 0 is ready and authenticated. -/
def open0 (s : State) : State := regs [(0x400100, 1)] (hosted 0 [] s)

theorem witness_RingBells :
    let s := open0 (ring5 (ring0 1 7 8 none) ready)
    let v := up (·.apply (.serving 0 { Serving.init with requests := [{ gen0 with ring := 5 }] })) s
    (∀ a ∈ [0, 2, 3, 4], qpReady s.toDev 0 = true ∧ qpPart s.toDev 0 = some 0 ∧ bAction (bell a 5 71) = a ∧
      bellHeld s.toDev (bell a 5 71) 0 = false ∧ authenticated s.toDev = true ∧ bits (bell a 5 71).toNat 31 8 = 0 ∧
      bRing (bell a 5 71) = 5) ∧
    ringOf s.toDev 5 = some (ring0 1 7 8 none) ∧ ringOf s.toDev 6 = none ∧ (71 + 2 ^ 32 - 7) % 2 ^ 32 ≤ 2 ^ 6 ∧
    2 ^ 6 < (72 + 2 ^ 32 - 7) % 2 ^ 32 ∧ (ring0 1 7 8 none).target = 1 ∧ ringServes v.toDev 5 = true ∧
    ringServes s.toDev 5 = false := by decide +kernel

/-- A ring descriptor for queue 0 of core 0, and a host ring descriptor. -/
def descs : List (List Byte) :=
  [natLE (0xFFFF * 2 ^ 48 + 2 ^ 47 + 0x4000) 8 ++ natLE 16 8 ++ List.replicate 48 0#8,
    natLE 0x8000 8 ++ natLE (16 * 2 ^ 32) 8 ++ List.replicate 48 0#8,
    natLE 0x8000 8 ++ natLE (2 ^ 37 + 16 * 2 ^ 32) 8 ++ List.replicate 48 0#8]

theorem witness_BindBells :
    let s := fun (k : Nat) => open0 (bytes 0x1000 (descs.getD k []) ready)
    let z := fun (s : State) => (readDescriptor 0 (memAt - 64) (s.toDev.received 0 1).start).1
    let words := fun (k : Nat) => toWords (descs.getD k [])
    let x := ringFrom (words 0)
    let used := open0 (hosted 1 [] ready)
    (∀ a ∈ [1, 5, 6], qpReady (s 0).toDev 0 = true ∧ qpPart (s 0).toDev 0 = some 0 ∧ bAction (bell a 9 0) = a ∧
      bellHeld (s 0).toDev (bell a 9 0) (BitVec.ofNat 64 (memAt - 64)) = false ∧ authenticated (s 0).toDev = true ∧
      bits (bell a 9 0).toNat 31 8 = 0) ∧
    ringOf (s 0).toDev 9 = none ∧ z (s 0) = .good (words 0) ∧ z (spoil 0x1000 (s 0)) = .bad ∧ ringDescOk (words 0) = true ∧
    ringDescOk (words 1) = false ∧ ownedRange (s 0).toDev 0 (0xFFFF * 2 ^ 48 + x.base) (64 * 2 ^ x.log2) = true ∧
    targetFree (s 0).toDev 0 x = true ∧ hostRingOf (s 0).toDev 9 = none ∧ hostRingFrom (words 0) = none ∧
    (hostRingFrom (words 1)).elim true (·.event) = false ∧ (hostRingFrom (words 2)).elim false (·.event) = true ∧
    ownerQp (s 0).toDev 0 = 0 ∧ hostRingOf used.toDev 0 ≠ none ∧
    (0 + 2 ^ 32 - 0) % 2 ^ 32 ≤ (0 + 2 ^ 32 - 0) % 2 ^ 32 ∧ ¬ ((1 + 2 ^ 32 - 0) % 2 ^ 32 ≤ (0 + 2 ^ 32 - 0) % 2 ^ 32) := by
  decide +kernel

theorem witness_BellsRefused :
    let s := hosted 0 [] ready
    let idle := regs [(ethOff 0 0, 1)] ready
    let other := up (·.apply (.qp 1 { Qp.init with mode := .ready })) s
    qpReady s.toDev 0 = true ∧ portUp ready.toDev 0 = false ∧ portUp idle.toDev (qpPort (qpOf idle.toDev 0)) = true ∧
    (qpOf idle.toDev 0).mode ≠ .ready ∧ qpPart s.toDev 0 = some 0 ∧ qpReady other.toDev 1 = true ∧ qpPart other.toDev 1 = none ∧
    authenticated s.toDev = false ∧ bellOpen (bell 0 1 0) = false ∧ bellOpen (bell 0 0 0) = true ∧
    bits (bell 0 0 0 + 256).toNat 31 8 ≠ 0 ∧ bellHeld s.toDev (bell 0 1 0) 0 = false := by decide +kernel

theorem witness_KeysAdmit :
    qpPart ready.toDev 0 = some 0 ∧ writeOk ready.toDev 0 0x4B440000 0 64 = true ∧
    writeOk ready.toDev 0 0x4B4D0000 (memAt - 64) 64 = true ∧ writeOk ready.toDev 0 0x4B440000 0 8 = false := by decide +kernel

theorem witness_HostAccessesPerformed :
    let s := hosted 0 [] ready
    let a := memAt - 64
    let idle := regs [(ethOff 0 0, 1)] ready
    let reads := up (·.apply (.port 0 { Port.init with egress := List.replicate 16 (.readData 0 0 []) })) s
    qpReady s.toDev 0 = true ∧ portUp ready.toDev 0 = false ∧ portUp idle.toDev 0 = true ∧ (qpOf idle.toDev 0).mode ≠ .ready ∧
    openReads s.toDev 0 < 16 ∧ 16 ≤ openReads reads.toDev 0 ∧ qpReady reads.toDev 0 = true ∧ writeOk s.toDev 0 1 a 2 = false ∧
    writeOk s.toDev 0 0x4B4D0000 a 2 = true ∧ writeOk s.toDev 0 0x4B440000 0 16 = true ∧
    bellsHeld s.toDev (List.replicate 16 0#8) = false ∧ rangeWaits s.toDev a 2 = false ∧ rangeWaits (copying s).toDev a 2 = true ∧
    (writeRange a [1#8, 2#8] s.toDev.start).1 = true ∧ (writeRange a [1#8, 2#8] (spoil 0x1000 s).toDev.start).1 = false ∧
    ownedRange s.toDev 0 a 2 = true ∧ (readRange a 2 s.toDev.start).1.isSome = true ∧
    (readRange a 2 (spoil 0x1000 s).toDev.start).1.isNone = true := by decide +kernel

/-- Port 0 is up and queue pair 0 ready, as `x`. -/
def onPort (x : Qp) (s : State) : State :=
  regs [(ethOff 0 0, 1)] (up (·.apply (.qp 0 { x with mode := .ready })) s)

/-- A packet for queue pair 0. -/
def pkt (psn : Nat) (op : RoceOp) : Packet := ⟨0x100000, psn, op, 0, 0, false, true, 0, 0⟩

theorem witness_PacketsTaken :
    let s := onPort Qp.init ready
    let e := holdBuffer 0 0 0 (countRx 0 (countCodewords 0 (pkt 0 .ack) s.toDev.start))
    let a := memAt - 64
    portUp s.toDev 0 = true ∧ portUp ready.toDev 0 = false ∧ qpReady e.dev 0 = true ∧ (pkt 0 .ack).supported = true ∧
    (qpOf e.dev 0).recvPsn = 0 ∧ (qpOf e.dev 0).inOpen = false ∧ psnLe (2 ^ 24 - 1) 0 = true ∧ psnLe 1 0 = false ∧
    (qpOf (onPort { Qp.init with nakSent := true } ready).toDev 0).nakSent = true ∧ qpMtu (qpOf e.dev 0) = 128 ∧
    writeOk e.dev 0 0x4B4D0000 a 256 = true ∧ writeOk e.dev 0 0x4B4D0000 a 2 = true ∧
    (0x4B4D0000 : Nat) / 2 ^ 16 = 0x4B4D ∧ rangeWaits e.dev a 2 = false ∧ (writeRange a [1#8, 2#8] e).1 = true ∧
    qpPart e.dev 0 = some 0 ∧ ownedRange e.dev 0 a 2 = true ∧ openReads e.dev 0 < 16 ∧ (readRange a 2 e).1.isSome = true ∧
    (let m : Sent := ⟨0, 1, .read 0 0 0 64 0⟩
     (qpOf (onPort { Qp.init with unacked := [m] } ready).toDev 0).unacked.find? isRead = some m) ∧
    (∀ m, (qpOf e.dev 0).unacked.find? isRead = some m → m.psn ≠ 0) ∧
    bellsHeld e.dev (List.replicate 16 0#8) = false ∧ ([1#8].length ∉ [16, 32, 48, 64]) := by decide +kernel

theorem witness_AckTimesOut :
    let m : Sent := ⟨0, 1, .write 0 0 0 [1#8]⟩
    let s := fun (n : Nat) => onPort { Qp.init with unacked := [m], desc := [0, BitVec.ofNat 64 (2 ^ 43 + 7 * 2 ^ 47)], retries := n } ready
    let x := fun (n : Nat) => qpOf (s n).toDev 0
    qpReady (s 7).toDev 0 = true ∧ (x 7).unacked ≠ [] ∧ bits (wd (x 7).desc 1) 46 43 = 1 ∧
    (x 7).since + 8192 ≤ (reach 8192 (s 7).toDev.start).dev.time ∧ (reach 8191 (s 7).toDev.start).dev.time < (x 7).since + 8192 ∧
    (x 6).retries < bits (wd (x 6).desc 1) 49 47 ∧ ¬ ((x 7).retries < bits (wd (x 7).desc 1) 49 47) := by decide +kernel

theorem witness_BuffersHeld :
    let d := (regs [(ethOff 0 0x20, 1 + 96 * 2 ^ 8 + 64 * 2 ^ 16)] ready).toDev
    pfcLimits d 0 0 = some (96, 64) ∧ 96 < 97 ∧ 63 < 64 ∧ bit (portOf d 0).xoff 0 = false ∧
    bit (portOf (d.apply (.port 0 { Port.init with xoff := 1 })) 0).xoff 0 = true ∧
    (qpOf (d.apply (.qp 0 { Qp.init with cnpSent := some 0 })) 0).cnpSent = some 0 := by decide +kernel

theorem witness_RatesFollow :
    let s := onPort { Qp.init with cnpAt := some 0, cutAt := some 0 } ready
    let idle := regs [(ethOff 0 0, 1)] ready
    qpReady s.toDev 0 = true ∧ portUp idle.toDev (qpPort (qpOf idle.toDev 0)) = true ∧ (qpOf idle.toDev 0).mode ≠ .ready ∧
    portUp ready.toDev (qpPort (qpOf ready.toDev 0)) = false ∧ 0 + 50000 ≤ (reach 50000 s.toDev.start).dev.time ∧
    ¬ (0 + 50000 ≤ (reach 49999 s.toDev.start).dev.time) ∧ (qpOf s.toDev 0).cnpAt = some 0 ∧
    max 0 (qpOf s.toDev 0).riseAt + 55000 ≤ (reach 55000 s.toDev.start).dev.time ∧
    ¬ (max 0 (qpOf s.toDev 0).riseAt + 55000 ≤ (reach 54999 s.toDev.start).dev.time) := by decide +kernel

theorem witness_PortsServe :
    let s := regs [(ethOff 0 0x0C, 0x0A000001), (ethOff 0 0x10, 1)] (onPort Qp.init ready)
    portUp s.toDev 0 = true ∧ portUp ready.toDev 0 = false ∧ reg s.toDev (ethOff 0 0x0C) = 0x0A000001 ∧ ipv6Of s.toDev 0 ≠ 0 ∧
    ipv6Of ready.toDev 0 = 0 ∧ (portOf s.toDev 0).lldpAt + 30000000000 ≤ (reach 30000000000 s.toDev.start).dev.time ∧
    ready.toDev.board.rails = true ∧ isHalted ready.toDev = false := by decide +kernel

/-- Messages that wait at port 0. -/
def waits (l : List Msg) (s : State) : State := up (·.apply (.port 0 { Port.init with egress := l })) s

theorem witness_PortsGrant :
    let s := fun (l : List Msg) => waits l (onPort Qp.init ready)
    let w := fun (n : Nat) => Msg.write 0 0 0 (List.replicate n 1#8)
    portUp (waits [] ready).toDev 0 = false ∧ portUp (s []).toDev 0 = true ∧ (portOf (s [.ack 0 3]).toDev 0).egress[0]? = some (.ack 0 3) ∧
    urgent (.ack 0 3) = true ∧ heldByPfc (s []).toDev 0 (.ack 0 3) = false ∧ mayLeave (s []).toDev 0 = [] ∧
    (∀ n ∈ [1, 200], mayLeave (s [w n]).toDev 0 = [(0, 0, w n)] ∧ urgent (w n) = false ∧ sendPart (s [w n]).toDev 0 = 0) ∧
    msgFrames (qpOf (s [w 1]).toDev 0) (w 1) ≤ 0 + 1 ∧ ¬ msgFrames (qpOf (s [w 200]).toDev 0) (w 200) ≤ 0 + 1 := by
  decide +kernel

theorem witness_PacketsMayLeave :
    let m := Msg.write 0 0 0 [1#8]
    (0, 0, m) ∈ mayLeave (waits [m] (onPort Qp.init ready)).toDev 0 := by decide +kernel

/-! ## Witnesses: management commands and device time -/

/-- An owner key for which `sig0` signs nonce 0 on module 0: the signature says digest = r = s, so that the point it must
give is the key plus the base point. -/
def key0 : List Byte :=
  natBE 0x9959e578fb28fa080da5ccdcfe0a39d31a1a345cfe157161b573c01d9f61fe55 32 ++
    natBE 0x7a0297c468405257f5f541ba60ea2d6aab92c59f9e4e97d13dc4c773e95f390e 32
/-- See `key0`. -/
def sig0 : List Byte :=
  natBE 0xf575231beec632f26119589c5983bc04e16ba1cb18aec0d751be9dbf469012dc 32 ++
    natBE 0xf575231beec632f26119589c5983bc04e16ba1cb18aec0d751be9dbf469012dc 32

/-- The module has drawn nonce 0, and its owner key is `key0`. -/
def asked (s : State) : State :=
  up (fun d => (d.apply (.nonce (some (List.replicate 32 0#8)))).apply (.boot { d.boot with config := List.replicate 32 0#8 ++ key0 })) s

theorem witness_HostAuthenticates :
    (∀ op ∈ [ctNonce, ctAuth], OnControl (ctl 0 [op] ready).toDev 0 op (ctlRing [op]) (cw [op])) ∧
    ready.toDev.boot.noRandom = false ∧ (asked ready).toDev.host.nonce = some (List.replicate 32 0#8) ∧
    qpReady (onPort Qp.init ready).toDev 0 = true ∧ (qpOf (onPort Qp.init ready).toDev 0).unacked.any isRead = false ∧
    qpReady ready.toDev 0 = false ∧ sig0.length = 64 ∧ ready.toDev.host.nonce = none := by unfold OnControl; decide +kernel

theorem witness_HostAuthenticates_good :
    verifyBytes (ownerKey (asked ready).toDev.boot.config) (sha256 (List.replicate 32 0#8 ++ natLE (reg (asked ready).toDev 0) 4 ++
      natLE (deviceNumber (asked ready).toDev) 2)) sig0 = true := by decide +kernel

/-- A queue-pair descriptor at memory 0x1000: MTU 1,024. -/
def qpDesc : List Byte := List.replicate 8 0#8 ++ natLE (2 ^ 43 + 3 * 2 ^ 40) 8 ++ List.replicate 48 0#8

theorem witness_QueuePairsConnected :
    let w := fun (q : Nat) => [ctConnect, q, memAt - 64]
    let s := fun (q : Nat) => ctl 0 (w q) (bytes 0x1000 qpDesc ready)
    let z := fun (s : State) => (readDescriptor 0 (memAt - 64) s.toDev.start).1
    (∀ q ∈ [0, 255, 256], OnControl (s q).toDev 0 ctConnect (ctlRing (w q)) (cw (w q)) ∧ bits (wd (cw (w q)) 1) 31 0 = q) ∧
    rangeWaits (s 0).toDev (memAt - 64) 64 = false ∧ rangeWaits (copying (s 0)).toDev (memAt - 64) 64 = true ∧
    qpPart (s 0).toDev 0 ≠ none ∧ qpPart (s 0).toDev 255 = none ∧ (qpOf (s 0).toDev 0).mode ≠ .ready ∧
    z (s 0) = .good (toWords qpDesc) ∧ qpDescOk (toWords qpDesc) = true ∧
    z (ctl 0 (w 0) ready) = .good (toWords (List.replicate 64 0#8)) ∧ qpDescOk (toWords (List.replicate 64 0#8)) = false ∧
    z (spoil 0x1000 (s 0)) = .bad ∧
    (∀ q ∈ [255, 256], OnControl (ctl 0 [ctReset, q] ready).toDev 0 ctReset (ctlRing [ctReset, q]) (cw [ctReset, q])) := by
  unfold OnControl; decide +kernel

theorem witness_Attests :
    (∀ p ∈ [0, 15], OnControl (ctl 0 [ctAttest, p] ready).toDev 0 ctAttest (ctlRing [ctAttest, p]) (cw [ctAttest, p])) ∧
    ready.toDev.parts.bake = none ∧ (baking []).toDev.parts.bake ≠ none ∧ partInForce ready.toDev 0 = true ∧
    partInForce ready.toDev 15 = false ∧ ready.toDev.boot.noRandom = false := by unfold OnControl; decide +kernel

theorem witness_UpdateRequested :
    let w := fun (len : Nat) => [ctUpdate, len, memAt - 64]
    let d := ready.toDev
    (∀ n ∈ [1151, 1152], OnControl (ctl 0 (w n) ready).toDev 0 ctUpdate (ctlRing (w n)) (cw (w n))) ∧
    (memAt - 64) % 64 = 0 ∧ namedRange d 0 (memAt - 64) 1152 = true ∧ rangeWaits (copying ready).toDev (memAt - 64) 1152 = true ∧
    rangeWaits d (memAt - 64) 1152 = false ∧ (readRange (memAt - 64) 1152 (spoil 0x1000 ready).toDev.start).1.isNone = true ∧
    firstBad (spoil 0x1000 ready).toDev (memAt - 64) 1152 = some (memAt - 64) ∧
    (updateFault d (List.replicate 1152 0#8) 1152).isSome = true := by unfold OnControl; decide +kernel

theorem witness_ControlCommandsEnd :
    let c := fun (op : Nat) (st : Option Nat) => Ctrl.mk 0 0 0 (cw [op]) st
    (∀ y ∈ [c ctAttest (some stOk), c ctUpdate none, c ctWrite none],
      (up (·.apply (.ctrl [y])) ready).toDev.host.ctrl.find? (·.ring == 0) = some y) ∧
    (up (fun d => d.apply (.boot { d.boot with flash := [.program (0x800000 + 0x1000) [], .status] })) ready).toDev.boot.flash =
      [] ++ [.program ((1 - ready.toDev.boot.slot) * 0x800000 + 0x1000) [], .status] ∧
    cOp (c ctUpdate none).words = ctUpdate ∧ cOp (c ctAttest none).words = ctAttest ∧ cOp (c ctWrite none).words ≠ ctUpdate ∧
    cOp (c ctWrite none).words ≠ ctAttest := by decide +kernel

/-- The servo follows the master with identity 0 on port 0. -/
def synced (x : Ptp) (s : State) : State :=
  regs [(ethOff 0 0, 1), (ptpOff 8, 2)] (up (·.apply (.ptp { x with best := List.replicate 8 0 })) s)

/-- A message of that master. -/
def ptpMsg (twoStep : Bool) : PtpMessage := ⟨0, 0, 3, List.replicate 10 0#8, 7, twoStep⟩

theorem witness_SyncsUsed :
    let s := synced { Ptp.init with good := 7, pending := some (3, 0) } ready
    portUp s.toDev 0 = true ∧ portUp ready.toDev 0 = false ∧ ptpFor s.toDev 0 0 0 = true ∧ ptpFor s.toDev 0 1 0 = false ∧
    ptpOk (ptpMsg true) = true ∧ s.toDev.host.ptp.best[7]? = some (beNat (ptpMsg false).master) ∧ (ptpMsg true).twoStep = true ∧
    s.toDev.host.ptp.pending = some ((ptpMsg true).seq, 0) := by decide +kernel

theorem witness_ServoHoldsOver :
    let s := synced { Ptp.init with lastSync := some 0 } ready
    let w := fun (v : Nat) => ctlWords ctWrite 1 (ptpOff 0xC) [v]
    s.toDev.host.ptp.lastSync = some 0 ∧ 0 + 2000000000 ≤ (reach 2000000000 s.toDev.start).dev.time ∧
    ¬ (0 + 2000000000 ≤ (reach 1999999999 s.toDev.start).dev.time) ∧ ptpOn s.toDev = true ∧ ptpState s.toDev = 2 ∧
    (∀ v ∈ [0x600, 0xA00], OnWrite (ctl 0 (w v) ready).toDev 0 .ptp (ctlRing (w v)) (cw (w v))) ∧
    bits (valueAt (cw (w 0x600)) (ptpOff 0xC)) 10 9 = 3 ∧ bits (valueAt (cw (w 0xA00)) (ptpOff 0xC)) 10 9 ≠ 3 := by
  unfold OnWrite; decide +kernel

theorem witness_MastersAndDelays :
    let s := synced { Ptp.init with delay := some (3, 5), lastSync := some 0 } ready
    let p := field s.toDev (ptpOff 0xC) 8 8
    portUp s.toDev 0 = true ∧ ptpFor s.toDev 0 0 0 = true ∧ (List.replicate 8 1).length = 8 ∧
    s.toDev.host.ptp.bestAt + announceTimeout ≤ (reach announceTimeout s.toDev.start).dev.time ∧
    (reach (announceTimeout - 1) s.toDev.start).dev.time < s.toDev.host.ptp.bestAt + announceTimeout ∧
    listLt (List.replicate 8 1) s.toDev.host.ptp.best = false ∧ ptpOn s.toDev = true ∧ portUp s.toDev p = true ∧
    s.toDev.host.ptp.best ≠ [] ∧ ready.toDev.host.ptp.best = [] ∧
    s.toDev.host.ptp.best[7]? = some (beNat (ptpMsg false).master) ∧ s.toDev.host.ptp.delay = some ((ptpMsg false).seq, 5) ∧
    s.toDev.host.ptp.lastSync ≠ none := by decide +kernel

/-! ## Witnesses: serving -/

/-- A decoder and a frame encoder. -/
def model0 (type : Nat) : Model := ⟨type, 1, 1, 100, 1, 1, 2, []⟩

/-- A serving loop of partition 0. -/
def loop (gens : List Gen) (streams : List Stream) : Serving :=
  { Serving.init with
    active := true, clusters := [0, 1, 2], decode := 1, prefill := 1, frame := 1, limit := 100, requests := gens, streams := streams,
    models := [(0, some (model0 1)), (1, some (model0 2))] }

/-- The loop, with this entry at the head of request ring 5. -/
def entry (v : Serving) (w : List Nat) (s : State) : State :=
  up (fun d => (d.apply (.serving 0 v)).apply (.ring 5 (some (ring0 1 0 1 (some (head0 w 0 false)))))) (hosted 0 [] s)

/-- A GENERATE of 1 prompt token, request 1. -/
def genWords (prompt : Nat) : List Nat := [1 + 2 ^ 14 + 2 ^ 32, prompt, 1 + 8 * 2 ^ 32, 0x9000, 1, 0, 0, 2 ^ 64 - 1]

theorem witness_RequestQueued :
    let s := fun (a : Nat) => entry (loop [] []) (genWords a) ready
    let g := fun (a : Nat) => genFrom 5 (ring0 1 0 1 (some (head0 (genWords a) 0 false))) (cw (genWords a)) 0
    let fault := fun (a : Nat) => generateFault (s a).toDev 0 (g a) (cw (genWords a))
    (∀ a ∈ [memAt - 64, memAt], (serveHead (s a).toDev 5 1).isSome = true) ∧ fault (memAt - 64) = none ∧
    fault (memAt - 63) = some stAlign ∧ fault 0 = some stDescriptor := by decide +kernel

theorem witness_CancelRead :
    let w := [2 + 2 ^ 32]
    (serveHead (entry (loop [gen0] []) w ready).toDev 5 2).isSome = true ∧ (loop [gen0] []).gen (sId (cw w)) = some gen0 ∧
    (loop [] []).gen (sId (cw w)) = none ∧ bits (wd (cw w) 0) 31 8 = 0 ∧ wordsZero (cw w) [1, 2, 3, 4, 5, 6, 7] = true ∧
    ¬ (bits (wd (cw [2 + 2 ^ 8]) 0) 31 8 = 0) := by decide +kernel

/-- A plan's header: a decoder with one layer. -/
def planHead : List Byte := natLE (0x4E414C50 + 2 ^ 32 + 2 ^ 40) 8 ++ natLE 100 8 ++ List.replicate 48 0#8

/-- A MODEL entry for the plan at memory 0x1000. -/
def modelWords : List Nat :=
  [6, memAt - 64, 64, 0] ++ (List.range 4).map fun i => leNat (((sha256 planHead).drop (8 * i)).take 8)

theorem witness_ModelRegistered :
    let s := entry (loop [] []) modelWords (bytes 0x1000 planHead ready)
    let read := fun (s : State) => (readRange (memAt - 64) 64 s.toDev.start).1
    (serveHead s.toDev 5 6).isSome = true ∧ namedRange s.toDev 0 (memAt - 64) 64 = true ∧
    namedRange s.toDev 0 0 64 = false ∧ rangeWaits s.toDev (memAt - 64) 64 = false ∧
    rangeWaits (copying s).toDev (memAt - 64) 64 = true ∧ read s = some planHead ∧ read (spoil 0x1000 s) = none ∧
    sha256 planHead = wordBytes (((cw modelWords).drop 4).take 4) ∧ (modelFrom planHead).isSome = true ∧
    (loop [] []).handleUsed 0 = false ∧ (loop [gen0] []).handleUsed 0 = true ∧
    (modelFrom (List.replicate 64 0#8)).isNone = true ∧
    sha256 (List.replicate 64 0#8) ≠ wordBytes (((cw modelWords).drop 4).take 4) := by decide +kernel

/-- Partition 0 owns the first channel of the direct view, where its region 0 begins. -/
theorem owned_low (d : Dev) (a n : Nat) (x : Region) (hr : validRegions d = [x]) (ho : x.owner = 0)
    (hx : x.area = ⟨true, 0, 2 ^ 15 - 1⟩) (hb : bit (reg d 0x40) 0 = true) (hm : bits (reg d (stkOff 0 8)) 1 0 = 0)
    (h0 : 0xFFFF * 2 ^ 48 + 2 ^ 47 ≤ a) (h1 : a + n ≤ 0xFFFF * 2 ^ 48 + 2 ^ 47 + 2 ^ 31) : ownedRange d 0 a n = true := by
  have one : ∀ b, a ≤ b → b < a + n → ownedMem d 0 b = true := fun b hab hbn => by
    have hsp : b / 2 ^ 48 = 0xFFFF := by omega
    obtain ⟨k, hk, hl⟩ : ∃ k, k < 2 ^ 31 ∧ b % 2 ^ 48 = 2 ^ 47 + k := ⟨b % 2 ^ 48 - 2 ^ 47, by omega, by omega⟩
    have b47 : bit (2 ^ 47 + k) 47 = true := by simp [bit]; omega
    have s0 : keyStack k = 0 := by simp [keyStack, bits]; omega
    have c0 : keyChan k = 0 := by simp [keyChan, bits]; omega
    have key : moduleKey (2 ^ 47 + k) = some k := by
      rw [moduleKey, if_pos b47, if_pos ⟨by simp [bits]; omega, by simp [bits]; omega⟩, Nat.add_sub_cancel_left]
    have at_ : placeOf d b = .mem true k := by
      simp only [placeOf, hsp, hl, key, b47]; rfl
    have cov : x.area.covers k = true := by
      simp [hx, Area.covers, keyBlock]; omega
    have own : ownsKey d true 0 k = true := by simp [ownsKey, regionOf, hr, cov, ho, congrArg Area.direct hx]
    have av : available d true k = true := by simp [available, s0, c0, hb]
    have md : chanMode d 0 0 = 0 := hm
    simp [ownedMem, hsp, at_, placeOwned, placeProcess, av, own, s0, c0, md] <;> omega
  simp only [ownedRange, samples]
  split
  · rfl
  · refine List.all_eq_true.mpr fun b hb => ?_
    simp only [List.cons_append, List.nil_append, List.mem_cons, List.mem_filter, List.mem_map, decide_eq_true_eq] at hb
    rcases hb with rfl | rfl | ⟨⟨i, -, rfl⟩, h⟩
    · exact one _ (Nat.le_refl _) (by omega)
    · exact one _ (by omega) (by omega)
    · exact one _ (by omega) h

theorem witness_ConfigAccepted :
    let w := [7, 1, 4 * 2 ^ 16, 100, memAt - 64, 256 * 2 ^ 20, 0, 0]
    let d := fun (v : Serving) => (entry v w ready).toDev
    (serveHead (d (loop [] [])) 5 7).isSome = true ∧ configBad (d (loop [] [])) 0 (cw w) = false ∧
    configBad (d (loop [] [])) 0 (cw (w.set 1 0)) = false ∧ configBad (d (loop [gen0] [])) 0 (cw w) = true ∧
    configBad (d (loop [] [])) 0 (cw (w.set 1 (2 ^ 8))) = true := by
  intro w d
  have plain : plainAddr (d (loop [] [])) (memAt - 64) = memAt - 64 := by decide +kernel
  have owns : namedRange (d (loop [] [])) 0 (memAt - 64) (256 * 2 ^ 20) = true := by
    rw [namedRange, plain]
    exact owned_low _ _ _ (regionAt (d (loop [] [])) 0) (by decide +kernel) (by decide +kernel) (by decide +kernel)
      (by decide +kernel) (by decide +kernel) (by decide) (by decide)
  have h : ∀ v ∈ [1, 0], wd (cw (w.set 1 v)) 4 = memAt - 64 ∧ wd (cw (w.set 1 v)) 5 = 256 * 2 ^ 20 := by decide +kernel
  have good : ∀ v ∈ [1, 0], configBad (d (loop [] [])) 0 (cw (w.set 1 v)) = false := fun v hv => by
    rw [configBad, (h v hv).1, (h v hv).2, owns]
    revert v; decide +kernel
  exact ⟨by decide +kernel, good 1 (by decide), good 0 (by decide), by decide +kernel, by decide +kernel⟩

/-- A STREAM_OPEN of stream 2 on model 1. -/
def openWords : List Nat := [3 + 2 ^ 8 + 2 * 2 ^ 12, memAt - 64, 64 + 4 * 2 ^ 32, 0, 1, memAt - 64, 0, 0]

/-- Its output is the plan's own (assumption 12); for a plan of 64 bytes it fits. -/
theorem witness_StreamOpened (h : Config.planOutput 0 = 64) :
    streamBad (entry (loop [] []) openWords ready).toDev 0 (streamFrom 5 (cw openWords)) (cw openWords) = false := by
  have hm : (servingOf (entry (loop [] []) openWords ready).toDev 0).model 1 = some (model0 2) := by decide +kernel
  have ho : outputSize (model0 2) = 64 := h
  have hs : (streamFrom 5 (cw openWords)).model = 1 := by decide +kernel
  unfold streamBad
  simp only [hs, hm, ho]
  decide +kernel

theorem witness_StreamOpened_refused :
    (serveHead (entry (loop [] []) openWords ready).toDev 5 3).isSome = true ∧
    streamBad (entry { (loop [] []) with frame := 0 } openWords ready).toDev 0 (streamFrom 5 (cw openWords)) (cw openWords) = true := by
  decide +kernel

/-- Stream 2. -/
def stream0 : Stream :=
  { num := 2, model := 1, attach := 0, input := memAt - 64, bytes := 64, period := 4, t0 := 0, offset := 1, output := memAt - 64,
    ring := 5, last := some 2, waiting := some 2, running := none, encoded := 0, dropped := 0, closing := none }

theorem witness_FrameRead :
    let w := fun (k : Nat) => [4 + 2 * 2 ^ 12 + k * 2 ^ 32]
    (serveHead (entry (loop [] [stream0]) (w 4) ready).toDev 5 4).isSome = true ∧
    (loop [] [stream0]).stream (sStream (cw (w 4))) = some stream0 ∧ (loop [] []).stream 2 = none ∧
    bits (wd (cw (w 4)) 0) 11 8 = 0 ∧ bits (wd (cw (w 4)) 0) 31 16 = 0 ∧ wordsZero (cw (w 4)) [1, 2, 3, 4, 5, 6, 7] = true ∧
    frameNumber stream0.last (sId (cw (w 4))) = some 4 ∧ frameNumber stream0.last (sId (cw (w 2))) = none ∧
    frameNumber (some 2) (2 ^ 31 + 1) = some (2 ^ 31 + 1) ∧ frameNumber (some 2) (2 ^ 31 + 2) = none ∧
    frameNumber (some (2 ^ 32 - 1)) 0 = some (2 ^ 32) := by decide +kernel

theorem witness_StreamClosed :
    let w := [5 + 2 * 2 ^ 12]
    (∀ k ∈ [none, some 1], (loop [] [{ stream0 with running := k }]).stream (sStream (cw w)) = some { stream0 with running := k }) ∧
    (serveHead (entry (loop [] [stream0]) w ready).toDev 5 5).isSome = true ∧ stream0.closing = none ∧
    bits (wd (cw w) 0) 11 8 = 0 ∧ bits (wd (cw w) 0) 31 16 = 0 ∧ wordsZero (cw w) [1, 2, 3, 4, 5, 6, 7] = true := by
  decide +kernel

/-- The module with a serving loop. -/
def serves (v : Serving) (s : State) : State := up (·.apply (.serving 0 v)) (hosted 0 [] s)

theorem witness_BoundaryEndings :
    let c : Cancel := ⟨5, 0, 0, 1, gen0.uid, false⟩
    let x := { gen0 with hungry := some 0, blocked := some 0, lost := true, deadline := 5 }
    let v := { loop [x] [] with cancels := [c] }
    (servingOf (serves v ready).toDev 0).gen 1 = some x ∧ v.endable x = true ∧
    { v with chunk := some ⟨1, 1, 0, 1, false⟩ }.endable x = false ∧ v.cancels.find? (·.target == x.uid) = some c ∧
    (x.deadline ≠ 0 ∧ x.deadline ≤ (reach 5 (serves v ready).toDev.start).dev.time) ∧
    ¬ (x.deadline ≤ (reach 4 (serves v ready).toDev.start).dev.time) ∧
    0 + v.limit < (reach 101 (serves v ready).toDev.start).dev.time ∧
    ¬ (0 + v.limit < (reach 100 (serves v ready).toDev.start).dev.time) := by decide +kernel

theorem witness_SlotsGranted :
    let v := loop [{ gen0 with pages := [3] }] []
    let t := out (exec (.stepBoundary 0 7) (serves v ready))
    v.active = true ∧ v.step = none ∧ Serving.init.active = false ∧
    t.elim false (fun t => (servingOf t.toDev 0).step == some [⟨1, 1⟩]) = true := by decide +kernel

theorem witness_StarvedSkips : (servingOf (serves (loop [gen0] []) ready).toDev 0).gen 1 = some gen0 ∧ gen0.hungry = none := by
  decide +kernel

theorem test_publication_stops :
    publishable { gen0 with stop1 := 9 } [8, 9, 7] 0 = ([8, 9], some 0) ∧ publishable { gen0 with maxTokens := 2 } [8, 9, 7] 0 =
      ([8, 9], some 1) ∧ publishable { gen0 with n := 4194301 } [8, 9, 7] 0 = ([8, 9], some 2) := by decide +kernel

theorem witness_StepCommitted :
    let x := fun (refused : Bool) => { gen0 with state := .step, refused := refused, deadline := 9 }
    let v := fun (refused : Bool) => { loop [x refused] [] with step := some [⟨1, 1⟩] }
    (∀ b ∈ [true, false], (servingOf (serves (v b) ready).toDev 0).gen 1 = some (x b) ∧ (v b).step = some [⟨1, 1⟩]) ∧
    (x false).lost = false ∧ (x false).deadline ≤ (reach 9 ready.toDev.start).dev.time ∧
    ¬ ((x false).deadline ≤ (reach 8 ready.toDev.start).dev.time) := by decide +kernel

theorem witness_BatchPublished :
    let b : Batch := ⟨1, 1, 0, 0x9000, 1, 255, [List.replicate 16 0#8, List.replicate 16 1#8], none⟩
    let e := { b with ending := some ⟨stOk, 0, 0, gen0⟩ }
    (∀ y ∈ [b, e], (servingOf (serves { loop [] [] with outbox := [y] } ready).toDev 0).outbox.find? (·.request == 1) = some y ∧
      [y].find? (·.qp == y.qp) = some y) ∧
    (qpOf (serves (loop [] []) ready).toDev 0).mode = .ready ∧ (qpOf ready.toDev 0).mode ≠ .ready ∧
    [{ b with request := 2 }, b].find? (·.qp == b.qp) ≠ some b := by decide +kernel

theorem witness_ConsumerRead :
    (∀ a ∈ [true, false], (servingOf (serves (loop [{ gen0 with asked := a }] []) ready).toDev 0).gen 1 = some { gen0 with asked := a }) ∧
    qpReady (serves (loop [] []) ready).toDev (gen0.ring / 16) = true ∧ qpReady ready.toDev 0 = false ∧ gen0.asks = false := by
  decide +kernel

theorem test_deadline_ends_request :
    let v := loop [{ gen0 with deadline := 5 }, { gen0 with id := 2, deadline := 6 }] []
    (out (exec (.deadlineCheck 0 5) (serves v ready))).elim [] (fun t => (servingOf t.toDev 0).requests.map (·.id)) = [2] := by
  decide +kernel

/-- A page with one cell. -/
def page0 (uid : Nat) (sealed_ : Bool) : Page := ⟨uid, [⟨0, 1, 0⟩], [], [], [], sealed_, sealed_, 0, false⟩

theorem witness_PagesManaged :
    let s := regs [(stkOff 0 0x08, 4)] ready
    let v := { loop [] [] with rowLo := 0, rowHi := 9, pages := [page0 3 false] }
    let x := { gen0 with pages := [3] }
    (takeCell s.toDev 0 1 gen0 0 [] 1 v).isSome = true ∧ v.page 3 = some (page0 3 false) ∧ x.pages[0]? = some 3 ∧
    x.noReuse = false := by decide +kernel

theorem witness_ChunkStarted :
    let x := { gen0 with state := .prefill, n := 0, len := 2 }
    let s := serves (loop [x] []) ready
    let z := checkAll 0 s.toDev.start
    let v := servingOf z.dev 0
    (v.active = true ∧ v.prefill ≠ 0 ∧ v.chunk = none) ∧
    (sortGens chunkBefore (v.requests.filter fun x => wantsChunk x 0)).map (·.id) = [1] ∧ v.gen 1 = some x ∧ x.n < x.len ∧
    (sortGens chunkBefore ((loop [gen0] []).requests.filter fun x => wantsChunk x 0)) = [] ∧
    Serving.init.active = false := by decide +kernel

theorem witness_ChunkEnded :
    let x := fun (len : Nat) => { gen0 with state := .prefill, n := 0, len := len }
    let c : Chunk := ⟨1, 1, 0, 64, false⟩
    ∀ len ∈ [64, 65], (servingOf (serves { loop [x len] [] with chunk := some c } ready).toDev 0).chunk = some c ∧
      (servingOf (serves { loop [x len] [] with chunk := some c } ready).toDev 0).gen 1 = some (x len) ∧
      (x len).deadline = 0 ∧ (x len).lost = false ∧ (loop [x len] []).cancels.find? (·.target == (x len).uid) = none ∧
      (loop [x len] []).requests.find? (·.uid == c.gen) = some (x len) ∧ ((x len).accrue ready.toDev).hungry = none := by decide +kernel

theorem witness_FrameStarted :
    let v := fun (k : Option Nat) => loop [] [{ stream0 with running := k }]
    let f : Encoding := ⟨2, 2, 9000, false⟩
    let d := (serves (v none) ready).toDev
    firstFrame (runningFrames (v none) ++ startableFrames (v none)) = some f ∧ (v none).active = true ∧
    (v none).stream 2 = some stream0 ∧ stream0.waiting = some f.num ∧ f.deadline = frameDeadline stream0 2 ∧
    (v none).model stream0.model = some (model0 2) ∧
    (let late := fun (t : Nat) => f.deadline * beatRate d < t * beatRate d + (model0 2).cNom * 1800000
    ¬ late 8000 ∧ late 8001) ∧
    (firstFrame (runningFrames (v (some 1)) ++ startableFrames (v (some 1)))).elim false (·.runs) = true ∧
    firstFrame (runningFrames (loop [] []) ++ startableFrames (loop [] [])) = none := by decide +kernel

/-- The slot of an encoder is the plan's own (assumption 12); for a plan of 64 bytes nothing holds it. -/
theorem witness_FrameEnded (h : Config.planOutput 0 = 64) :
    let x := { stream0 with running := some 1 }
    let f : Encoding := ⟨2, 1, 5000, true⟩
    let d := (serves (loop [gen0] [{ x with attach := 1 }]) ready).toDev
    let n := outputSize (model0 2) + 64
    firstFrame (runningFrames (loop [] [x])) = some f ∧ (loop [] [x]).stream 2 = some x ∧
    (loop [] [x]).model 1 = some (model0 2) ∧ rangeWaits d (x.output + 1 % 3 * n) n = false ∧
    namedRange d 0 (x.output + 1 % 3 * n) n = true ∧ (loop [gen0] []).gen 1 = some gen0 ∧
    (runningFrames (loop [] [x])).filter (fun f => decide (f.deadline ≤ 5000)) = [f] ∧
    (runningFrames (loop [] [x])).filter (fun f => decide (f.deadline ≤ 4999)) = [] := by
  have ho : outputSize (model0 2) = 64 := h
  simp only [ho]
  decide +kernel

/-! ## Witnesses: bring-up, temperature, contacts -/

/-- Bring-up stands at a stage. -/
def staging (n : Nat) (b : Boot) : State :=
  regs [(bootOff 0, n)]
    (up (fun d => { d with boot := b, board := { d.board with input := true, rails := true } }) State.reset)

/-- What this claim says holds of bring-up at each of its stages. -/
theorem witness_AtStage : ∀ n ∈ [2, 3, 4, 5, 6, 7, 8, 9, 10, 11], AtStage (staging n Boot.init).toDev n := by
  unfold AtStage; decide +kernel

theorem witness_PowerBegins :
    State.reset.toDev.board.input = false ∧ State.reset.toDev.board.shut = false ∧
    (staging 1 Boot.init).toDev.board.input = true ∧ ¬ AtStage (staging 3 Boot.init).toDev 2 := by
  unfold AtStage; decide +kernel

theorem witness_FusesSensed :
    popcount (bits 0x0303 7 0) 8 ≤ 2 ∧ popcount (bits 0x0303 15 8) 8 ≤ 2 ∧ ¬ (popcount (bits 7 7 0) 8 ≤ 2) ∧
    opticsOk (List.replicate 20 0x0303) = true ∧ opticsOk (List.replicate 20 7) = false ∧ (List.replicate 64 0#8).length = 64 ∧
    Boot.init.fuses.locked = false ∧ { fuses0 with locked := true }.locked = true := by
  decide +kernel

/-- Behind a blown field lock the fuses hold what they held (R496). -/
theorem test_lock_is_permanent :
    let s := staging 2 { Boot.init with fuses := { fuses0 with serial := 5, locked := true } }
    (out (exec (.fuseSense fuses0 true true 0) s)).elim 0 (fun t => t.boot.fuses.serial) = 5 := by decide +kernel

theorem witness_FlashDiscovered :
    slotRecord (slotRecordBytes 5 1152) = some (5, 1152) ∧ slotRecord (slotRecordBytes 4 8384512) = some (4, 8384512) ∧
    slotRecord (List.replicate 32 0#8) = none ∧ slotRecord (slotRecordBytes 5 1151) = none := by decide +kernel

theorem witness_ImageTried :
    let x := { Boot.init with record0 := some (1, 4), record1 := some (2, 4), slot := 1 }
    let y := { x with image := [1#8, 2#8, 3#8, 4#8] }
    (recordOf x x.slot).map (·.2) = some 4 ∧ recordOf x (1 - x.slot) ≠ none ∧ (1 - x.slot) ∉ x.failed ++ [x.slot] ∧
    x.image = [] ∧ y.image ≠ [] ∧ imageOk y.image = false ∧
    (1 - 0) ∈ { y with failed := [1], slot := 0 }.failed ++ [0] := by decide +kernel

/-- A configuration block: owner key `key0`, a control ring at 0x4000 of the direct view, one region. -/
def config0 : List Byte :=
  natLE (0x46474E43 + 2 ^ 32) 8 ++ List.replicate 24 0#8 ++ key0 ++ qpDesc ++
    (natLE (0xFFFF * 2 ^ 48 + 2 ^ 47 + 0x4000) 8 ++ natLE 70 8 ++ List.replicate 48 0#8) ++ descs.getD 1 [] ++ descs.getD 2 [] ++
    (natLE 0 4 ++ natLE (2 ^ 15 - 1) 4 ++ natLE (2 ^ 31 + 32) 4 ++ List.replicate 52 0#8) ++ List.replicate 96 0#8

/-- A section entry of no bytes. -/
def section0 (type : Nat) : List Byte := natLE type 4 ++ natLE 4096 4 ++ List.replicate 8 0#8 ++ sha256 []

/-- An image of three empty sections with `config0`. -/
def image0 : List Byte :=
  let h := natLE (0x4D49584B + 2 ^ 32 + 3 * 2 ^ 48) 8 ++ natLE 1 8 ++ natLE featId 4 ++ natLE 4096 4 ++ List.replicate 8 0#8 ++
    section0 1 ++ section0 2 ++ section0 3
  h ++ List.replicate (4096 + 64 - h.length) 0#8 ++ config0 ++ List.replicate 64 0#8

theorem test_image_and_config : imageHeaderOk image0 = true ∧ configOk config0 = true ∧ configOf image0 = config0 := by
  decide +kernel

/-- The boot ROM's key is not given (R482), nor is the owner's private key: given that both signatures verify, the image
of an unlocked module is accepted at stage 5. -/
theorem witness_ImageAccepted (h : firmwareSigned image0 = true) (g : ownerSigned image0 = true) :
    AtStage (staging 5 { Boot.init with image := image0 }).toDev 5 ∧ imageOk image0 = true ∧ configOk (configOf image0) = true := by
  have hs : sectionsIntact image0 = true := by decide +kernel
  have ha : AtStage (staging 5 { Boot.init with image := image0 }).toDev 5 := by unfold AtStage; decide +kernel
  refine ⟨ha, ?_, by rw [test_image_and_config.2.2]; exact test_image_and_config.2.1⟩
  simp [imageOk, test_image_and_config.1, h, g, hs]

theorem witness_FieldLocked :
    let x := { Boot.init with config := List.replicate 6 0#8 ++ [1#8, 0#8] }
    bit (numAt x.config 6 2) 0 = true ∧ x.fuses.locked = false ∧ ¬ (bit (numAt Boot.init.config 6 2) 0 = true) := by decide +kernel

/-- An image with a hearth section of 4,097 bytes; its cores 0 to 31 are mapped and it has been broadcast. -/
def loading (blocks : Store Nat) : Boot :=
  { Boot.init with
    image := natLE (2 ^ 48) 8 ++ List.replicate 24 0#8 ++ natLE 2 4 ++ natLE 4096 4 ++ natLE 4097 4 ++ List.replicate 36 0#8,
    map := [List.range 32], sent := true, blocks := blocks }

theorem witness_CoresLoaded :
    0 < 1 ∧ 1 ≤ 2 ^ 32 ∧ buildMap (2 ^ 2 - 1) ≠ [] ∧ buildMap (2 ^ 2176 - 1) = [] ∧ (loading []).sent = true ∧ Boot.init.sent = false := by decide +kernel

/-- A block that is too short, whose number is none of the section's. -/
theorem test_block_refused : takeBlock 2 0 [] = 0 ∧ takeBlock 2 1 (List.replicate 4111 0#8) = 1 := by decide +kernel

/-- Three spares stand in for three lanes that fail, and for no fourth beside a fused repair. -/
theorem test_lanes_train : chanTrains [(5, 0)] (2 ^ 5 + 2 ^ 6 + 2 ^ 7 + 2 ^ 8) = true ∧
    chanTrains [(5, 0)] (2 ^ 6 + 2 ^ 7 + 2 ^ 8 + 2 ^ 9) = false ∧ chanTrains [] (2 ^ 6 + 2 ^ 64 + 2 ^ 65 + 2 ^ 66) = true ∧
    chanTrains [(5, 0)] (2 ^ 64 + 2 ^ 65 + 2 ^ 66 + 2 ^ 67) = false := by decide +kernel

theorem test_map_takes_lowest_good_cores : (buildMap (2 ^ 2176 - 1 - (2 ^ 34 - 1 - 3))).flatten = (List.range 32).map (· + 2) := by
  decide +kernel

theorem witness_BlocksResent :
    (loading []).sent = true ∧ 31 ∈ (loading []).map.flatten ∧ 32 ∉ (loading []).map.flatten ∧
    (List.range (blockCount (loading []))).filter (fun i => !bit (mget 0 (loading [(31, 1)]).blocks 31) i) = [1] ∧
    (List.range (blockCount (loading []))).filter (fun i => !bit (mget 0 (loading [(31, 3)]).blocks 31) i) = [] ∧
    8 * (1 + mget 0 (loading []).fails 31) ≤ mget 0 ({ loading [] with rounds := [(31, 7)] }).rounds 31 + 1 ∧
    mget 0 ({ loading [] with rounds := [(31, 6)] }).rounds 31 + 1 < 8 * (1 + mget 0 (loading []).fails 31) := by decide +kernel

theorem witness_DigestsReported :
    let x := loading [(31, 3)]
    x.sent = true ∧ 31 ∈ x.map.flatten ∧ mget 0 x.blocks 31 = 2 ^ blockCount x - 1 ∧ mget false x.reported 31 = false ∧
    (hearthSection x.image).elim [] (·.digest) = List.replicate 32 0#8 ∧ List.replicate 32 0#8 ≠ List.replicate 32 1#8 ∧
    mget 0 x.fails 31 + 1 < 2 ∧ 2 ≤ mget 0 ({ x with fails := [(31, 1)] }).fails 31 + 1 := by decide +kernel

theorem witness_BringUpEnds :
    (staging 11 Boot.init).toDev.boot.config = Boot.init.config ∧
    (staging 3 Boot.init).toDev.board.rails = true ∧ 3 ≤ stageOf (staging 3 Boot.init).toDev ∧
    stageOf (staging 2 Boot.init).toDev < 3 := by decide +kernel

theorem witness_Readings :
    let f := { Fuses.init with points := [some (1000, 400, 2000, 1600)] }
    let s := fun (v : Int) => { Sample.mk [] 0 0 0 0 0 [] [] [] [] with freqs := [v] }
    f.points.getD 0 none = some (1000, 400, 2000, 1600) ∧ (1000 : Int) ≠ 2000 ∧ sensorValue f (s 2668) 0 = some 2401 ∧ f.points.getD 1 none = none ∧ sensorReading f (s 1001) 0 = some 401 ∧
    sensorReading f (s 2667) 0 = some 2400 ∧ sensorReading f (s 2668) 0 = none ∧ sensorReading f (s 133) 0 = none ∧
    sensorReading f (s 134) 0 = some (-640) := by decide +kernel

/-- Fuses whose sensors read their frequency, in 1/16 °C. -/
def trueFuses : Fuses := { Fuses.init with points := List.replicate 428 (some (0, 0, 1, 1)) }

/-- A sample in which every sensor reads `t`, and the rails `v`. -/
def reads (t : Int) (v : List Nat) : Sample := ⟨List.replicate 428 t, 48000, 0, 0, 0, 0, v, [], [], []⟩

theorem witness_RoundShutsDown :
    let s := staging 3 { Boot.init with fuses := trueFuses }
    let temp := fun (t : Int) => (unitTemp ((List.range 428).map (sensorReading trueFuses (reads t []))) hearthSensors 105 false).1
    s.toDev.board.rails = true ∧ 3 ≤ stageOf s.toDev ∧ 120 * 16 ≤ temp 1920 ∧ temp 1919 < 120 * 16 ∧ temp 0 < 90 * 16 ∧
    stageOf (staging 2 Boot.init).toDev < 3 := by decide +kernel

/-- Every sensor reads 0 °C. -/
theorem test_sensors_read_zero :
    (List.range 428).map (sensorReading trueFuses (reads 0 [])) = List.replicate 428 (some (0 : Int)) := by decide +kernel

theorem witness_RoundThrottles :
    let readings := (List.range 428).map (sensorReading trueFuses (reads 0 []))
    nowBlind readings 0 = 0 ∧ (unitTemp readings hearthSensors 105 false).1 < 120 * 16 ∧
    (∀ k < 20, (unitTemp readings (stackSensors k) 95 false).1 < 105 * 16) ∧
    (∀ l < 20, (unitTemp readings (opticSensors l) 80 false).1 < 90 * 16) ∧
    (∀ n < 6, mget 0 (staging 3 Boot.init).toDev.board.outRail n = 0) := by
  rw [test_sensors_read_zero]; decide +kernel

theorem witness_InputFails :
    let s := staging 3 Boot.init
    s.toDev.board.input = true ∧ s.toDev.board.shut = false ∧ State.reset.toDev.board.input = false := by decide +kernel

theorem witness_TargetAddressed :
    let s := staging 3 Boot.init
    s.toDev.board.input = true ∧ s.toDev.board.shut = false ∧ 3 ≤ stageOf s.toDev ∧ s.toDev.board.dynamic = none ∧
    0x2A = s.toDev.board.static ∧ State.reset.toDev.board.input = false ∧ isHalted s.toDev = false ∧
    stageOf State.reset.toDev < 3 := by decide +kernel

theorem witness_PortTested :
    (up (fun d => { d with board := { d.board with trstN := true } }) ready).toDev.board.trstN = true ∧
    TapCode.other 0 ≠ .bypass ∧ ready.toDev.boot.fuses.locked = false ∧ { fuses0 with locked := true }.locked = true ∧
    ready.toDev.board.rails = true ∧ ready.toDev.board.trstN = false := by decide +kernel

theorem witness_ResetState : State.reset.pending = [] := rfl

/-- A step from the well-formed state after reset. -/
theorem witness_StepKeepsWellFormed : State.reset.toDev.Wf ∧ (out (step { State.reset with pending := [.powerOn] })).isSome = true := by
  refine ⟨?_, by decide +kernel⟩
  constructor <;> first | rfl | exact .nil | exact fun _ h => nomatch h

/-! ## The constants of SHA-256 -/

/-- The floor of the `k`-th root of `p * 2 ^ (32 * k)`, from `r` on, bit by bit. -/
def rootOf (k p : Nat) : Nat → Nat → Nat
  | 0, r => r
  | b + 1, r => rootOf k p b (if (r + 2 ^ b) ^ k ≤ p * 2 ^ (32 * k) then r + 2 ^ b else r)

/-- The first 64 primes. -/
def primes64 : List Nat := (List.range 312).filter fun n =>
  decide (2 ≤ n) && (List.range 18).all fun d => decide (d < 2) || decide (n ≤ d) || decide (n % d ≠ 0)

/-- FIPS 180-4: the first 32 bits of the fractions of the roots of the first primes. -/
theorem test_sha_constants_are_roots : primes64.length = 64 ∧
    primes64.zipIdx.all (fun p => wordAt 64 shaK p.2 == rootOf 3 p.1 36 0 % 2 ^ 32) = true ∧
    (primes64.take 8).zipIdx.all (fun p => wordAt 8 shaInit p.2 == rootOf 2 p.1 36 0 % 2 ^ 32) = true := by decide +kernel

theorem test_sha_of_abc : sha256 [0x61, 0x62, 0x63] =
    natBE 0xba7816bf8f01cfea414140de5dae2223b00361a396177a9cb410ff61f20015ad 32 := by decide +kernel
end Sys2Proof.Tests
end

section
/-! Tags: what an arrival does to its tag's count, and TAG_ARRIVAL (O21). -/
namespace Sys2Proof.Machine
variable {d₀ : Dev}

@[simp] theorem reach_hearth (now : Nat) (r : Run d₀) : (reach now r).dev.hearth = r.dev.hearth := by
  simp only [reach, Run.emit, Dev.apply]
  split <;> rfl

@[simp] theorem coreOf_reach (now k : Nat) (r : Run d₀) : coreOf (reach now r).dev k = coreOf r.dev k :=
  coreOf_congr (congrArg Hearth.cores (reach_hearth now r)) k

@[simp] theorem coreOf_emit_arrivals (l : List Arrival) (k : Nat) (r : Run d₀) :
    coreOf (r.emit (.arrivals l)).dev k = coreOf r.dev k := rfl

/-- The model's choice (assumption 5): only device time moves on. -/
theorem arriveTag_none {n : Nat} {r : Run d₀} (now : Nat) (h : r.dev.hearth.arrivals[n]? = none) :
    arriveTag n now r = reach now r := by
  simp [arriveTag, h]

/-- R95, R100: the core that counts is the one of `r`, since neither device time nor the list of arrivals is part of it. -/
theorem arriveTag_some {n : Nat} {a : Arrival} {r : Run d₀} (now : Nat) (h : r.dev.hearth.arrivals[n]? = some a) :
    arriveTag n now r = accountHeads (some a.core) (setCore a.core (countTag a.tag (coreOf r.dev a.core))
      ((reach now r).emit (.arrivals (r.dev.hearth.arrivals.eraseIdx n)))) := by
  simp [arriveTag, h]

theorem exec_tagArrival (n now : Nat) (s : State) : exec (.tagArrival n now) s = s.run (arriveTag n now) := rfl

theorem gives_tagArrival (n now : Nat) (s : State) : Gives (.tagArrival n now) s (arriveTag n now s.toDev.start).dev :=
  ⟨_, exec_tagArrival n now s, rfl, rfl⟩

theorem tagCount_le (c : Core) (t : Nat) : tagCount c t ≤ 65535 := by
  have := (mget 0#16 c.tags t).isLt
  unfold tagCount
  omega

theorem tagCount_mset (c : Core) (t n u : Nat) :
    tagCount { c with tags := mset 0#16 c.tags t (BitVec.ofNat 16 n) } u = if u = t then n % 2 ^ 16 else tagCount c u := by
  simp only [tagCount, mget_mset]
  split <;> simp

theorem countTag_full {c : Core} {t : Nat} (h : tagCount c t = 65535) : countTag t c = c := if_pos h

theorem countTag_of_ne {c : Core} {t : Nat} (h : tagCount c t ≠ 65535) :
    countTag t c = { c with tags := mset 0#16 c.tags t (BitVec.ofNat 16 (tagCount c t + 1)) } := if_neg h

/-- R95: below 65,535 the sum fits the 16 bits of a count. -/
theorem tagCount_countTag_same (c : Core) (t : Nat) : tagCount (countTag t c) t = min 65535 (tagCount c t + 1) := by
  by_cases h : tagCount c t = 65535
  · rw [countTag_full h]; omega
  · have := tagCount_le c t
    rw [countTag_of_ne h, tagCount_mset, if_pos rfl]; omega

theorem tagCount_countTag_other {t u : Nat} (h : u ≠ t) (c : Core) : tagCount (countTag t c) u = tagCount c u := by
  by_cases hc : tagCount c t = 65535
  · rw [countTag_full hc]
  · rw [countTag_of_ne hc, tagCount_mset, if_neg h]

theorem countTag_frame (c : Core) (t : Nat) : { countTag t c with tags := c.tags } = c := by
  by_cases h : tagCount c t = 65535
  · rw [countTag_full h]
  · rw [countTag_of_ne h]

theorem arrivalsCounted : Claim.ArrivalsCounted := by
  intro s n now
  have given := gives_tagArrival n now s
  refine ⟨fun a h => ?_, fun h => ?_⟩
  · rw [arriveTag_some now h] at given
    simpa using given
  · rwa [arriveTag_none now h] at given

theorem tagCountsSaturate : Claim.TagCountsSaturate := fun c t =>
  ⟨tagCount_countTag_same c t, fun _ h => tagCount_countTag_other h c, countTag_frame c t⟩

/-- Settles O21: TAG_ARRIVAL performs `arriveTag`, taken apart by whether an arrival travels, and `countTag` is taken
apart by whether the count is full. -/
theorem tagsArrive : Obligations.TagsArrive := ⟨arrivalsCounted, tagCountsSaturate⟩

end Sys2Proof.Machine
end

section
/-! Index positions: the position an index names, by the sign of the index (O15). -/
namespace Sys2Proof.Machine

theorem signed_of_lt_half {w n : Nat} (h : n % 2 ^ w < 2 ^ (w - 1)) : signed w n = (n % 2 ^ w : Nat) := by
  rw [signed, if_neg (Nat.not_le.mpr h), Int.natCast_emod, Int.natCast_pow, Int.cast_ofNat_Int]

theorem signed_of_half_le {w n : Nat} (h : 2 ^ (w - 1) ≤ n % 2 ^ w) : signed w n = (n % 2 ^ w : Nat) - 2 ^ w := by
  rw [signed, if_pos h, Int.natCast_emod, Int.natCast_pow, Int.cast_ofNat_Int]

theorem indexPos_of_nonneg {code : Nat} (h : 0 ≤ signed 32 code) (w : Bool) (n : Nat) :
    indexPos w n code = if signed 32 code < n then some (signed 32 code).toNat else none := by
  simp only [indexPos, decide_eq_false (Int.not_lt.mpr h), Bool.and_false, Bool.false_eq_true, if_false, h, true_and]

/-- R157: the engine adds the length once, and a negative index cannot reach the length so. -/
theorem indexPos_wrap_of_neg {code : Nat} (h : signed 32 code < 0) (n : Nat) :
    indexPos true n code = if 0 ≤ signed 32 code + n then some (signed 32 code + n).toNat else none := by
  have below : signed 32 code + n < n := by omega
  simp only [indexPos, decide_eq_true h, Bool.and_true, if_true, below, and_true]

theorem indexPos_noWrap_of_neg {code : Nat} (h : signed 32 code < 0) (n : Nat) : indexPos false n code = none := by
  simp only [indexPos, Bool.false_and, Bool.false_eq_true, if_false, Int.not_le.mpr h, false_and]

theorem indexPos_of_lt_half {code : Nat} (h : code % 2 ^ 32 < 2 ^ 31) (w : Bool) (n : Nat) :
    indexPos w n code = if code % 2 ^ 32 < n then some (code % 2 ^ 32) else none := by
  have value : signed 32 code = (code % 2 ^ 32 : Nat) := signed_of_lt_half h
  rw [indexPos_of_nonneg (by omega), value, Int.toNat_natCast]
  simp only [Int.ofNat_lt]

theorem signed_eq_neg {code k : Nat} (pos : 1 ≤ k) (bound : k ≤ 2 ^ 31) (h : code % 2 ^ 32 = 2 ^ 32 - k) :
    signed 32 code = -(k : Int) := by
  rw [signed_of_half_le (by omega)]
  omega

/-- Settles O15: an index below 2^31 is its own value, one from 2^31 on is the negative number `-k` with
`k = 2^32 - code % 2^32`, and a length `n` added to it is in range exactly when `k ≤ n`. -/
theorem indexPositions : Obligations.IndexPositions := by
  intro n code
  refine ⟨fun i hi small hc w => ?inRange, fun i hi pos bound hc => ?fromEnd, fun beyond small w => ?beyond,
    fun big before w => ?before⟩
  case inRange =>
    rw [indexPos_of_lt_half (by omega), hc, if_pos hi]
  case fromEnd =>
    have value := signed_eq_neg pos bound hc
    refine ⟨?_, indexPos_noWrap_of_neg (by omega) n⟩
    rw [indexPos_wrap_of_neg (by omega), if_pos (by omega), show signed 32 code + n = i by omega, Int.toNat_natCast]
  case beyond =>
    rw [indexPos_of_lt_half small, if_neg (by omega)]
  case before =>
    have value : signed 32 code = -((2 ^ 32 - code % 2 ^ 32 : Nat) : Int) :=
      signed_eq_neg (by omega) (by omega) (by omega)
    cases w with
    | false => exact indexPos_noWrap_of_neg (by omega) n
    | true => rw [indexPos_wrap_of_neg (by omega), if_neg (by omega)]

end Sys2Proof.Machine
end
